-- ==== Sys2Proof/Word.lean ====
section
/-! DEFINITION. The word types of the TQ24 and the plainest arithmetic on them: ticks, masks, line and slot
numbers, and fixed tables read and written at a bounded index. -/

namespace Sys2Proof

/-- One byte of a frame (chapter 12). -/
abbrev Byte := BitVec 8
/-- A value of the tick counter NOW: unsigned, 32 bits, wrapping (00_scope, Time). -/
abbrev Tick := BitVec 32
/-- A device line mask: OLn at bit n (00_scope, Lines, banks and masks). -/
abbrev LineMask := BitVec 24
/-- A bank mask: position n of the bank at bit n. -/
abbrev BankMask := BitVec 8
/-- An input mask: ILn at bit n. -/
abbrev InputMask := BitVec 8
/-- A step handle: generation in the high byte, slot number in the low byte (section 1.1). -/
abbrev Handle := BitVec 16

/-- Output lines OL0 to OL23. -/
abbrev OutLine := Fin 24
/-- Input lines IL0 to IL7. -/
abbrev InLine := Fin 8
/-- Banks 0 to 2. -/
abbrev Bank := Fin 3
/-- A position within a bank. -/
abbrev Position := Fin 8
/-- Pair entries 0 to 11. -/
abbrev PairIndex := Fin 12
/-- Calendar slots 0 to 63. -/
abbrev SlotIndex := Fin 64

/-- The table `v` with entry `i` replaced by `x`. -/
def tset {α : Type} {n : Nat} (v : Vector α n) (i : Fin n) (x : α) : Vector α n :=
  v.set i.val x i.isLt

/-- Entry `i` of the table `v`. -/
def tget {α : Type} {n : Nat} (v : Vector α n) (i : Fin n) : α :=
  v[i.val]

/-- The table whose entry `i` is `f i`. -/
def table {α : Type} {n : Nat} (f : Fin n → α) : Vector α n :=
  Vector.ofFn f

/-- The set of the indices at which `f` holds, as a mask with index `i` at bit `i`. -/
def maskOf {n : Nat} (f : Fin n → Bool) : BitVec n :=
  BitVec.ofFnLE f

/-- Whether index `i` is in the mask. -/
def inMask {n : Nat} (m : BitVec n) (i : Fin n) : Bool :=
  m.getLsbD i.val

/-- How far in the future of `now` the tick `t` lies: (t − now) mod 2^32 (R143). -/
def lead (t now : Tick) : Nat := (t - now).toNat

/-- How far in the past of `now` the tick `t` lies: (now − t) mod 2^32 (R143). -/
def lateness (t now : Tick) : Nat := (now - t).toNat

/-- The tick `n` ticks after `t`, modulo 2^32. -/
def after (t : Tick) (n : Nat) : Tick := t + BitVec.ofNat 32 n

end Sys2Proof
end

