-- ==== Sys2Proof/Config.lean ====
section
/-! DEFINITION. What the TQ24 fixes once: its limits (00_scope, Principal quantities), and the free values for the
three places where the manual leaves a reported byte open. -/

namespace Sys2Proof.Config

/-- MAX_LEAD, the scheduling horizon: 2^28 ticks (00_scope, Time). -/
def maxLead : Nat := 268435456
/-- Entries of an outbound queue (R174). -/
def queueEntries : Nat := 16
/-- A notice is admitted when the queue holds at most this many entries (R175). -/
def noticeRoom : Nat := 14
/-- The longest frame body (R169). -/
def maxBody : Nat := 48
/-- Internal oscillator periods in one µs, whatever the divider (chapter 9, opening). -/
def periodsPerMicrosecond : Nat := 16
/-- A fall record becomes absent this many ticks after the fall (R74). -/
def fallRecordTicks : Nat := 65536
/-- Entries of one LIST reply (R16). -/
def listEntries : Nat := 15
/-- The highest value a run index takes (R5). -/
def runIndexMax : Nat := 255

/-- FREE VALUE (log entry 1). Of a valid PAIR record whose lines `a` and `b` are both unused, whether the E_CONFIG
item names `b` and not `a`: R155 says "the unused line" and does not say which of two. -/
opaque namesSecondUnused : OutLine → OutLine → Bool

/-- FREE VALUE (log entry 1). Of a PAIR record whose two lines stand in two different other pairs `i` and `j`, whether
the E_CONFIG item names `j` and not `i`: R155 says "the index of the other pair" and does not say which of two. -/
opaque namesSecondOverlap : PairIndex → PairIndex → Bool

/-- FREE VALUE (log entry 8). The runs-remaining byte of an AMEND reply with outcome DONE_LATE, for the handle the
request carries: the layout has the byte (section 12.4), the step is gone, and R34 states no value for it. -/
opaque doneLateRuns : Handle → Byte

end Sys2Proof.Config
end

