-- ==== Sys2Proof/Syntax.lean ====
section
/-! DEFINITION. The commands of the TQ24: one constructor for each row of spec/opcode_table.json.

Three kinds of row. (1) Events of a host port's pins: TRANSACTION_BEGIN, SPI_CLOCK_CYCLE, and the rows that stand for
a rising edge of chip select. (2) Events of the clocks and of RST_N. (3) The tick-driven work of the blocks, each
event of which is a row of its own.

A chip-select rise is one physical event whatever frame it ends (R168); the table gives it one row for each kind of
frame. Each such row carries the port and `mosi`: the whole bytes that the host still clocks in before chip select
rises, after those that SPI_CLOCK_CYCLE commands have already shifted in (empty when all have been; log entry 2). -/

namespace Sys2Proof

/-- The three host ports, and the hosts of the same names (00_scope, Numbers and names). -/
inductive Port where
  | a | b | c
deriving DecidableEq, Repr

/-- The commands: the rows of spec/opcode_table.json in the table's order. -/
inductive Instr where
  /-- TRANSACTION_BEGIN: a falling edge of chip select at port `p` (R167). -/
  | transactionBegin (p : Port)
  /-- NOP: chip select rises on a pure fetch (R168). -/
  | nop (p : Port) (mosi : List Byte)
  /-- EDGE_SUMMARY: chip select rises, a head entry leaves and the folded edges are reported (R134, R168). -/
  | edgeSummary (p : Port) (mosi : List Byte)
  /-- E_FRAME: chip select rises on a frame that fails the frame checks (R169). -/
  | eFrame (p : Port) (mosi : List Byte)
  /-- E_KIND: chip select rises on a well-formed frame of an unknown kind (R170). -/
  | eKind (p : Port) (mosi : List Byte)
  | status (p : Port) (mosi : List Byte)
  | openSession (p : Port) (mosi : List Byte)
  | closeSession (p : Port) (mosi : List Byte)
  | renew (p : Port) (mosi : List Byte)
  | readTime (p : Port) (mosi : List Byte)
  | setTime (p : Port) (mosi : List Byte)
  | configWriteTimebase (p : Port) (mosi : List Byte)
  | configWriteOutputLine (p : Port) (mosi : List Byte)
  | configWriteInputLine (p : Port) (mosi : List Byte)
  | configWritePair (p : Port) (mosi : List Byte)
  | configWriteQuota (p : Port) (mosi : List Byte)
  | configWriteArbiter (p : Port) (mosi : List Byte)
  | configRead (p : Port) (mosi : List Byte)
  | start (p : Port) (mosi : List Byte)
  | stop (p : Port) (mosi : List Byte)
  | clearFault (p : Port) (mosi : List Byte)
  | claim (p : Port) (mosi : List Byte)
  | claimWithdraw (p : Port) (mosi : List Byte)
  | release (p : Port) (mosi : List Byte)
  | owners (p : Port) (mosi : List Byte)
  | readOutputs (p : Port) (mosi : List Byte)
  | pairStatus (p : Port) (mosi : List Byte)
  | place (p : Port) (mosi : List Byte)
  | cancel (p : Port) (mosi : List Byte)
  | cancelAll (p : Port) (mosi : List Byte)
  | amend (p : Port) (mosi : List Byte)
  | list (p : Port) (mosi : List Byte)
  | queryStep (p : Port) (mosi : List Byte)
  | subscribe (p : Port) (mosi : List Byte)
  | clearPending (p : Port) (mosi : List Byte)
  | readInputs (p : Port) (mosi : List Byte)
  /-- RESET: RST_N goes low, or power-on reset begins (R166). -/
  | reset
  /-- INT_TICK: under source INT the oscillator runs to the next tick, at which the input pins show `pins` (R141). -/
  | intTick (pins : InputMask)
  /-- TCLK_RISE: a rising edge at TCLK, at which the input pins show `pins` (R142). -/
  | tclkRise (pins : InputMask)
  /-- CLOCK_LOST: the gap count reaches the loss window (R145). -/
  | clockLost
  /-- BANK_FIRING: bank `k` fires its steps due now (R39). -/
  | bankFiring (k : Bank)
  /-- WINDOW_END: the ARMED steps whose window end is now are freed (R63). -/
  | windowEnd
  /-- REACHED_MARKER: the PENDING REARM steps whose window end is now are marked (R64). -/
  | reachedMarker
  /-- EDGE_EVENT: the accepted level of line `l` changes (R128). -/
  | edgeEvent (l : InLine)
  /-- GUARD_END: the guards of pairs 0 to `k` that end now end, in increasing index (R74). -/
  | guardEnd (k : PairIndex)
  /-- FALL_RECORD_END: the fall records of pairs 0 to `k` whose time is now become absent (R74). -/
  | fallRecordEnd (k : PairIndex)
  /-- HOLD_DEADLINE: the deferred rises of pairs 0 to `k` whose hold deadline is now are dropped (R79). -/
  | holdDeadline (k : PairIndex)
  /-- WAIT_DEADLINE: port `p`'s waiting claim, if its deadline is now, leaves the queue (R103). -/
  | waitDeadline (p : Port)
  /-- LAPSE: port `p`'s session, if its lease deadline is now, lapses (R115). -/
  | lapse (p : Port)
  /-- SPI_CLOCK_CYCLE: one clock cycle at port `p` with data in at `dataIn` (R167). -/
  | spiClockCycle (p : Port) (dataIn : Bool)
  /-- OSCILLATOR_PERIOD: one internal oscillator period, at whose end the input pins show `pins` (R145). -/
  | oscillatorPeriod (pins : InputMask)
  /-- RESET_END: RST_N rises, or power-on reset ends (R180). -/
  | resetEnd
deriving DecidableEq, Repr

end Sys2Proof
end

