-- ==== Sys2Proof/Machine/State.lean ====
section
/-! DEFINITION. The state of the TQ24 as plain data, block by block, its value after reset, and the reasons a step may
stop. A field marked MODEL is the model's own and not the manual's. -/

namespace Sys2Proof.Machine

/-! ### The vocabulary of the state -/

/-- The level of an output line in its bank latch (R38). -/
inductive Level where
  | zero | one | z
deriving DecidableEq, Repr

/-- The device phase (R151). -/
inductive Phase where
  | setup | run | fault
deriving DecidableEq, Repr

/-- A session's state (R109); the lease period and lease deadline are present in OPEN and in no other state. -/
inductive SessionState where
  | closed
  | opened (period : Nat) (deadline : Tick)
  | lapsed
deriving DecidableEq, Repr

/-- A session record (R109). -/
structure Session where
  state : SessionState
  /-- WATCH_PEERS -/
  watch : Bool
deriving DecidableEq, Repr

/-- Which edges a trigger takes (R57). -/
inductive TriggerEdge where
  | rise | fall | either
deriving DecidableEq, Repr

/-- The direction of an edge event (R126). -/
inductive Direction where
  | rise | fall
deriving DecidableEq, Repr

/-- A port's subscription to an input line (R129). -/
inductive Subscription where
  | none | rise | fall | both
deriving DecidableEq, Repr

/-- A number of runs: 1 to 255, or unbounded (R5). -/
inductive Runs where
  | unbounded
  | count (n : Nat)
deriving DecidableEq, Repr

/-- The repeat part of a step (R5); a step without one has one run. -/
structure Repeat where
  placed : Runs
  remaining : Runs
  period : Nat
deriving DecidableEq, Repr

/-- A window end W and its reached marker (R56). -/
structure WindowEnd where
  tick : Tick
  reached : Bool
deriving DecidableEq, Repr

/-- What a step of kind ARMED carries besides the common fields: trigger, arm tick and window end (R56). -/
structure ArmPart where
  line : InLine
  edge : TriggerEdge
  delay : Nat
  armTick : Tick
  window : Option WindowEnd
deriving DecidableEq, Repr

/-- The kind of a step, fixed at placement (R4). -/
inductive StepKind where
  | timed
  | armed (arm : ArmPart)
deriving DecidableEq, Repr

/-- How a step waits; the due is present in PENDING and absent in ARMED (R3). -/
inductive StepState where
  | pending (due : Tick)
  | armed
deriving DecidableEq, Repr

/-- The four flags of a step (R4). -/
structure StepFlags where
  lateOk : Bool
  noteEach : Bool
  noteEnd : Bool
  rearm : Bool
deriving DecidableEq, Repr

/-- A step record (R3), less the handle, which the slot gives. -/
structure StepRecord where
  owner : Port
  bank : Bank
  setMask : BankMask
  clearMask : BankMask
  kind : StepKind
  state : StepState
  rep : Option Repeat
  runIndex : Nat
  flags : StepFlags
deriving DecidableEq, Repr

/-- A calendar slot: its generation, and its step when it is occupied (section 1.1). -/
structure Slot where
  generation : Byte
  step : Option StepRecord
deriving DecidableEq, Repr

/-- A deferred rise (R71, R76). -/
structure DeferredRise where
  line : OutLine
  owner : Option Port
  requestTick : Tick
  holdDeadline : Option Tick
deriving DecidableEq, Repr

/-- The fall record of a pair (R71). -/
structure FallRecord where
  line : OutLine
  tick : Tick
deriving DecidableEq, Repr

/-- The guard of a pair while it runs (R71). -/
structure Guard where
  ends : Tick
  line : OutLine
deriving DecidableEq, Repr

/-- The runtime record of a pair entry (R71). -/
structure PairRuntime where
  fall : Option FallRecord
  guard : Option Guard
  deferred : Option DeferredRise
deriving DecidableEq, Repr

/-- A waiting claim; its port is the one it is kept under (R94). -/
structure Claim where
  mask : LineMask
  deadline : Option Tick
  enqueued : Tick
deriving DecidableEq, Repr

/-! ### Configuration records (R154) -/

/-- An OUTPUT_LINE record. -/
structure OutputConfig where
  used : Bool
  /-- safe level 1 -/
  safe : Bool
deriving DecidableEq, Repr

/-- An INPUT_LINE record. -/
structure InputConfig where
  used : Bool
  filter : Nat
deriving DecidableEq, Repr

/-- A PAIR record. -/
structure PairConfig where
  valid : Bool
  a : OutLine
  b : OutLine
  guard : Nat
  hold : Nat
deriving DecidableEq, Repr

/-- Where ticks come from (chapter 9). -/
inductive Source where
  | int | tclk
deriving DecidableEq, Repr

/-- The arbiter's mode (R100). -/
inductive ArbiterMode where
  | fixed | rotating
deriving DecidableEq, Repr

/-- The arbiter: the ARBITER record and the rotation pointer (R102). -/
structure Arbiter where
  mode : ArbiterMode
  first : Port
  second : Port
  third : Port
  pointer : Port
deriving DecidableEq, Repr

/-! ### The timebase -/

/-- The timebase besides NOW (chapter 9, opening table). -/
structure Clock where
  source : Source
  divider : Nat
  lossWindow : Nat
  prescaler : Nat
  gap : Nat
  microseconds : Nat
  present : Bool
  /-- MODEL (log entry 3): the prescaler has returned to 0 and the INT tick of that moment has not been taken yet. -/
  tickDue : Bool
deriving DecidableEq, Repr

/-! ### The input conditioner -/

/-- The filter state of an input line (R125). -/
structure Filter where
  accepted : Option Bool
  runCount : Nat
  runStart : Option Tick
  lastSample : Option Bool
  /-- MODEL (log entry 4): this tick's sample was the (F + 1)th that differs and its edge event has not been taken yet. -/
  edgeDue : Bool
deriving DecidableEq, Repr

/-- A port's subscriptions (R129) and pending latch (R131). -/
structure PortInputs where
  subscriptions : Vector Subscription 8
  rises : InputMask
  falls : InputMask
deriving DecidableEq, Repr

/-! ### Host ports -/

/-- What an outbound entry is (R174, R181). -/
inductive EntryKind where
  | reply | notice | repeated
deriving DecidableEq, Repr

/-- An entry of an outbound queue: everything of its frame but the status byte and the CRC (R181). -/
structure Entry where
  kind : EntryKind
  code : Byte
  tag : Byte
  body : List Byte
deriving DecidableEq, Repr

/-- The content of a valid reply cache (R172). -/
structure CachedReply where
  tag : Byte
  kind : Byte
  crc : Byte
  reply : Entry
deriving DecidableEq, Repr

/-- A transaction in progress: a port holds one exactly while it is SHIFTING (R167). -/
structure Transfer where
  inbound : List Byte
  /-- bits received of an incomplete byte, and how many -/
  partialBits : Byte
  bitCount : Nat
  outgoing : List Byte
  /-- the outgoing frame is the head entry and not an idle frame -/
  isHead : Bool
  /-- whole bytes of the outgoing frame clocked out -/
  sent : Nat
deriving DecidableEq, Repr

/-- A host port (chapter 11, opening table), and the level at its chip-select pin. -/
structure HostPort where
  /-- the pin is low -/
  selected : Bool
  transfer : Option Transfer
  queue : List Entry
  cache : Option CachedReply
  overrun : Bool
  noticeLoss : Bool
  sequence : Byte
deriving DecidableEq, Repr

/-- One value for each port. -/
structure PerPort (α : Type) where
  a : α
  b : α
  c : α
deriving DecidableEq, Repr

/-- The value for port `p`. -/
def PerPort.get {α : Type} (v : PerPort α) : Port → α
  | .a => v.a
  | .b => v.b
  | .c => v.c

/-- `v` with the value for port `p` replaced by `x`. -/
def PerPort.set {α : Type} (v : PerPort α) (p : Port) (x : α) : PerPort α :=
  match p with
  | .a => { v with a := x }
  | .b => { v with b := x }
  | .c => { v with c := x }

/-- The same value for every port. -/
def PerPort.all {α : Type} (x : α) : PerPort α := ⟨x, x, x⟩

/-! ### The state -/

/-- The state of the TQ24. -/
structure State where
  /-- MODEL: the commands that are waiting, the next one first. -/
  pending : List Instr
  /-- RST_N is low, or power-on reset is in progress (R166, log entry 23). -/
  inReset : Bool
  /-- The levels at the input pins IL0 to IL7, as the last clock event gave them. -/
  pins : InputMask
  /-- NOW (R140) -/
  now : Tick
  clock : Clock
  phase : Phase
  ports : PerPort HostPort
  sessions : PerPort Session
  outputs : Vector OutputConfig 24
  inputs : Vector InputConfig 8
  pairs : Vector PairConfig 12
  quotas : PerPort Nat
  arbiter : Arbiter
  /-- the owner field of the line ownership table (R89) -/
  owners : Vector (Option Port) 24
  /-- the bank latches: OLn is position n mod 8 of bank n div 8 (R38) -/
  latch : Vector Level 24
  runtime : Vector PairRuntime 12
  /-- the claim queue, at most one claim for each port (R99) -/
  claims : PerPort (Option Claim)
  slots : Vector Slot 64
  /-- the due list, head first (R8) -/
  dueList : List SlotIndex
  /-- the armed set, one list for each input line, earliest armed first (R10) -/
  armedSet : Vector (List SlotIndex) 8
  /-- MODEL (log entry 5): the slots whose steps were armed by an event after the last tick arrival (R57, after arming). -/
  armedThisTick : List SlotIndex
  filters : Vector Filter 8
  portInputs : PerPort PortInputs
deriving DecidableEq, Repr

/-- Why a step stops with a fault: there is no reason. The manual names no event that stops the TQ24 and leaves no
event without an outcome, so no meaning answers a fault (log entry 21). -/
inductive Fault where
deriving DecidableEq, Repr

/-- Why a command has no meaning. -/
inductive Refusal where
  /-- Raised by exec for a command whose meaning is not written. Safe: the machine stops. No arm of exec raises it. -/
  | notModelled (mnemonic : String)
deriving DecidableEq, Repr

/-! ### Reset values -/

/-- Chapter 11, opening table; the chip-select pin is an input, high when no host drives it (log entry 6). -/
def HostPort.reset : HostPort :=
  { selected := false, transfer := none, queue := [], cache := none, overrun := false, noticeLoss := false, sequence := 0 }

/-- Chapter 9, opening table. -/
def Clock.reset : Clock :=
  { source := .int, divider := 16, lossWindow := 64, prescaler := 0, gap := 0, microseconds := 0, present := true,
    tickDue := false }

/-- R71: all three parts absent. -/
def PairRuntime.empty : PairRuntime := { fall := none, guard := none, deferred := none }

/-- R125 -/
def Filter.reset : Filter :=
  { accepted := none, runCount := 0, runStart := none, lastSample := none, edgeDue := false }

/-- R129, R131 -/
def PortInputs.reset : PortInputs := { subscriptions := Vector.replicate 8 .none, rises := 0, falls := 0 }

/-- The machine right after reset: every block at its reset value (R166), reset no longer held. The levels at the
input pins have no reset value; they read 0 until a clock event gives them (log entry 6). -/
def State.reset : State :=
  { pending := []
    inReset := false
    pins := 0
    now := 0
    clock := Clock.reset
    phase := .setup
    ports := PerPort.all HostPort.reset
    sessions := PerPort.all { state := .closed, watch := false }
    outputs := Vector.replicate 24 { used := false, safe := false }
    inputs := Vector.replicate 8 { used := true, filter := 0 }
    pairs := Vector.replicate 12 { valid := false, a := 0, b := 0, guard := 0, hold := 0 }
    quotas := { a := 21, b := 21, c := 22 }
    arbiter := { mode := .rotating, first := .a, second := .b, third := .c, pointer := .a }
    owners := Vector.replicate 24 none
    latch := Vector.replicate 24 .z
    runtime := Vector.replicate 12 PairRuntime.empty
    claims := PerPort.all none
    slots := Vector.replicate 64 { generation := 0, step := none }
    dueList := []
    armedSet := Vector.replicate 8 []
    armedThisTick := []
    filters := Vector.replicate 8 Filter.reset
    portInputs := PerPort.all PortInputs.reset }

end Sys2Proof.Machine
end

