-- ==== Sys2Proof/Machine/Operands.lean ====
section
/-! DEFINITION. What a host sends: the CRC-8 (R182), the inbound frame and its checks (R168, R169), the request kinds
(section 12.7) and the request bodies (sections 12.3 and 12.6). Bytes become constructors here and nowhere else. -/

namespace Sys2Proof.Machine

/-! ### CRC-8 (R182) -/

/-- One shift of the CRC register: left, with 0x2F combined in when the bit shifted out was 1. -/
def crcShift (r : Byte) : Byte :=
  if r.msb then (r <<< 1) ^^^ 0x2F else r <<< 1

/-- The register after one covered byte. -/
def crcByte (r b : Byte) : Byte :=
  crcShift (crcShift (crcShift (crcShift (crcShift (crcShift (crcShift (crcShift (r ^^^ b))))))))

/-- The CRC-8 of a sequence of bytes: preset 0xFF, no final inversion. -/
def crc8 (bytes : List Byte) : Byte :=
  bytes.foldl crcByte 0xFF

/-! ### Request kinds (section 12.7) -/

/-- The requests that are handed to a block; NOP is the pure fetch and never reaches one. -/
inductive Request where
  | status | openSession | closeSession | renew | readTime
  | configWrite | configRead | setTime | start | stop | clearFault
  | claim | claimWithdraw | release | owners | readOutputs | pairStatus
  | place | cancel | cancelAll | amend | list | queryStep
  | subscribe | clearPending | readInputs
deriving DecidableEq, Repr

/-- The KIND byte of a request. -/
def Request.code : Request → Byte
  | .status => 0x01
  | .openSession => 0x02
  | .closeSession => 0x03
  | .renew => 0x04
  | .readTime => 0x05
  | .configWrite => 0x10
  | .configRead => 0x11
  | .setTime => 0x12
  | .start => 0x13
  | .stop => 0x14
  | .clearFault => 0x15
  | .claim => 0x20
  | .claimWithdraw => 0x21
  | .release => 0x22
  | .owners => 0x23
  | .readOutputs => 0x24
  | .pairStatus => 0x25
  | .place => 0x30
  | .cancel => 0x31
  | .cancelAll => 0x32
  | .amend => 0x33
  | .list => 0x34
  | .queryStep => 0x35
  | .subscribe => 0x40
  | .clearPending => 0x41
  | .readInputs => 0x42

/-- Every request, in the order of `Request`. -/
def Request.every : List Request :=
  [.status, .openSession, .closeSession, .renew, .readTime, .configWrite, .configRead, .setTime, .start, .stop,
   .clearFault, .claim, .claimWithdraw, .release, .owners, .readOutputs, .pairStatus, .place, .cancel, .cancelAll,
   .amend, .list, .queryStep, .subscribe, .clearPending, .readInputs]

/-- The request that a KIND byte names (R170); none for a byte that the table does not list. -/
def requestOf (kind : Byte) : Option Request :=
  Request.every.find? fun r => r.code == kind

/-! ### The inbound frame -/

/-- What the bytes of a transaction are, at the rise of chip select. -/
inductive Inbound where
  /-- no whole byte, or a first byte of 0x00: a pure fetch, NOP (R168) -/
  | pureFetch
  /-- a frame that fails the frame checks, with its KIND and the tag its E_FRAME reply carries (R169) -/
  | bad (kind tag : Byte)
  /-- a frame that passes the frame checks -/
  | frame (kind tag : Byte) (body : List Byte) (crc : Byte)
deriving DecidableEq, Repr

/-- The frame checks (R168, R169). Bytes after the CRC byte are ignored. -/
def readInbound (bytes : List Byte) : Inbound :=
  match bytes with
  | [] => .pureFetch
  | kind :: rest =>
    if kind = 0 then .pureFetch
    else
      match rest with
      | [] => .bad kind 0
      | [tag] => .bad kind tag
      | tag :: len :: more =>
        if Config.maxBody < len.toNat then .bad kind tag
        else
          match more[len.toNat]? with
          | none => .bad kind tag
          | some crc =>
            let body := more.take len.toNat
            if crc = crc8 (kind :: tag :: len :: body) then .frame kind tag body crc else .bad kind tag

/-- The bytes of an inbound frame of a request (section 12.1): what a host sends. -/
def requestFrame (kind tag : Byte) (body : List Byte) : List Byte :=
  let covered := kind :: tag :: BitVec.ofNat 8 body.length :: body
  covered ++ [crc8 covered]

/-! ### Multi-byte fields, most significant byte first (chapter 12) -/

def nat2 (a b : Byte) : Nat := a.toNat * 256 + b.toNat
def nat3 (a b c : Byte) : Nat := nat2 a b * 256 + c.toNat
def tick4 (a b c d : Byte) : Tick := a ++ b ++ c ++ d
def mask3 (a b c : Byte) : LineMask := a ++ b ++ c
def handle2 (generation slot : Byte) : Handle := generation ++ slot

/-- The port that a port byte names: A 0, B 1, C 2 (section 12.2). -/
def portOf (n : Nat) : Option Port :=
  match n with
  | 0 => some .a
  | 1 => some .b
  | 2 => some .c
  | _ => none

/-- A flag or used field: 0 or 1 and nothing else (section 12.6). -/
def flagOf (b : Byte) : Option Bool :=
  match b.toNat with
  | 0 => some false
  | 1 => some true
  | _ => none

/-- The index below `n` that a number byte gives. -/
def indexOf (n : Nat) (b : Byte) : Option (Fin n) :=
  if h : b.toNat < n then some ⟨b.toNat, h⟩ else none

/-! ### Request bodies (section 12.3): none where R's check answers E_ARG -/

/-- OPEN (R111): lease period 16 to 16,777,215 and WATCH_PEERS. -/
def readOpen (body : List Byte) : Option (Nat × Bool) :=
  match body with
  | [p2, p1, p0, flags] =>
    if nat3 p2 p1 p0 < 16 then none
    else (flagOf flags).map fun watch => (nat3 p2 p1 p0, watch)
  | _ => none

/-- SET_TIME (R149). -/
def readSetTime (body : List Byte) : Option Tick :=
  match body with
  | [a, b, c, d] => some (tick4 a b c d)
  | _ => none

/-- A CLAIM body whose length matches its limit marker (R91, first check): mask, flags byte, wait limit. -/
structure ClaimBody where
  mask : LineMask
  flags : Byte
  limit : Option Nat
deriving DecidableEq, Repr

def readClaim (body : List Byte) : Option ClaimBody :=
  match body with
  | [m2, m1, m0, flags] => if flags.getLsbD 1 then none else some ⟨mask3 m2 m1 m0, flags, none⟩
  | [m2, m1, m0, flags, l2, l1, l0] =>
    if flags.getLsbD 1 then some ⟨mask3 m2 m1 m0, flags, some (nat3 l2 l1 l0)⟩ else none
  | _ => none

/-- RELEASE (R96): the mask. -/
def readMask (body : List Byte) : Option LineMask :=
  match body with
  | [m2, m1, m0] => some (mask3 m2 m1 m0)
  | _ => none

/-- A body of one byte. -/
def readByte (body : List Byte) : Option Byte :=
  match body with
  | [b] => some b
  | _ => none

/-- A selector that is an index below `n`, or 0xFF for ALL (section 12.3); `none` inside stands for ALL. -/
def readSelector (n : Nat) (body : List Byte) : Option (Option (Fin n)) :=
  match body with
  | [b] => if b = 0xFF then some none else (indexOf n b).map some
  | _ => none

/-- Whether a handle's slot byte is 0 to 63, and that slot (R2). -/
def slotOf (h : Handle) : Option SlotIndex :=
  indexOf 64 (h.extractLsb' 0 8)

/-- The generation byte of a handle. -/
def generationOf (h : Handle) : Byte := h.extractLsb' 8 8

/-- QUERY_STEP (R17): one handle. -/
def readHandle (body : List Byte) : Option Handle :=
  match body with
  | [g, sl] => some (handle2 g sl)
  | _ => none

/-- Handles, two bytes each; none for an odd number of bytes. -/
def readHandles : List Byte → Option (List Handle)
  | [] => some []
  | [_] => none
  | g :: sl :: rest => (readHandles rest).map fun hs => handle2 g sl :: hs

/-- CANCEL (R30): the handles, when the count is 1 to 8 and matches the length. -/
def readCancel (body : List Byte) : Option (List Handle) :=
  match body with
  | [] => none
  | count :: rest =>
    match readHandles rest with
    | none => none
    | some hs => if hs.length = count.toNat ∧ 0 < hs.length ∧ hs.length ≤ 8 then some hs else none

/-- AMEND (R32): a body that passes the four E_ARG checks. -/
structure AmendBody where
  slot : SlotIndex
  handle : Handle
  due : Tick
  rep : Option (Runs × Nat)
deriving DecidableEq, Repr

/-- The runs that a runs byte gives: 0 for unbounded (section 12.2). -/
def runsOf (b : Byte) : Runs :=
  if b = 0 then .unbounded else .count b.toNat

def readAmend (body : List Byte) : Option AmendBody :=
  match body with
  | g :: sl :: d3 :: d2 :: d1 :: d0 :: flags :: rest =>
    match rest with
    | [] =>
      if flags = 0 then
        (slotOf (handle2 g sl)).map fun i => ⟨i, handle2 g sl, tick4 d3 d2 d1 d0, none⟩
      else none
    | [r, p2, p1, p0] =>
      if flags = 1 ∧ nat3 p2 p1 p0 ≠ 0 then
        (slotOf (handle2 g sl)).map fun i => ⟨i, handle2 g sl, tick4 d3 d2 d1 d0, some (runsOf r, nat3 p2 p1 p0)⟩
      else none
    | _ => none
  | _ => none

/-- LIST (R16): the start slot and the owner filter; `none` inside stands for ALL. -/
def readList (body : List Byte) : Option (SlotIndex × Option Port) :=
  match body with
  | [start, filter] =>
    match indexOf 64 start with
    | none => none
    | some i =>
      if filter = 3 then some (i, none)
      else (portOf filter.toNat).map fun p => (i, some p)
  | _ => none

/-- A subscription kind byte (section 12.3). -/
def subscriptionOf (b : Byte) : Option Subscription :=
  match b.toNat with
  | 0 => some .none
  | 1 => some .rise
  | 2 => some .fall
  | 3 => some .both
  | _ => none

/-- SUBSCRIBE (R130): the first three checks, that is length, a mask that names a line, and a kind of the four. -/
def readSubscribe (body : List Byte) : Option (InputMask × Subscription) :=
  match body with
  | [mask, kind] => if mask = 0 then none else (subscriptionOf kind).map fun k => (mask, k)
  | _ => none

/-! ### Step descriptors (R19, R21, section 12.3) -/

/-- A descriptor as its bytes give it, cut out of the body by its presence markers. -/
structure RawDescriptor where
  head : Byte
  setMask : BankMask
  clearMask : BankMask
  flags : Byte
  due : Option Tick
  trigger : Option (Byte × Nat)
  window : Option Tick
  rep : Option (Runs × Nat)
deriving DecidableEq, Repr

/-- An optional four-byte tick at the front of `bytes`, present when the marker is set. -/
def takeTick (marker : Bool) (bytes : List Byte) : Option (Option Tick × List Byte) :=
  if marker then
    match bytes with
    | a :: b :: c :: d :: rest => some (some (tick4 a b c d), rest)
    | _ => none
  else some (none, bytes)

/-- An optional trigger: its first byte and its delay. -/
def takeTrigger (marker : Bool) (bytes : List Byte) : Option (Option (Byte × Nat) × List Byte) :=
  if marker then
    match bytes with
    | t :: d1 :: d0 :: rest => some (some (t, nat2 d1 d0), rest)
    | _ => none
  else some (none, bytes)

/-- An optional repeat part. -/
def takeRepeat (marker : Bool) (bytes : List Byte) : Option (Option (Runs × Nat) × List Byte) :=
  if marker then
    match bytes with
    | r :: p2 :: p1 :: p0 :: rest => some (some (runsOf r, nat3 p2 p1 p0), rest)
    | _ => none
  else some (none, bytes)

/-- One descriptor at the front of `bytes`, and the bytes after it. -/
def takeDescriptor (bytes : List Byte) : Option (RawDescriptor × List Byte) :=
  match bytes with
  | head :: set :: clear :: flags :: rest =>
    match takeTick (head.getLsbD 3) rest with
    | none => none
    | some (due, r1) =>
      match takeTrigger (head.getLsbD 2) r1 with
      | none => none
      | some (trigger, r2) =>
        match takeTick (head.getLsbD 1) r2 with
        | none => none
        | some (window, r3) =>
          match takeRepeat (head.getLsbD 0) r3 with
          | none => none
          | some (rep, r4) => some (⟨head, set, clear, flags, due, trigger, window, rep⟩, r4)
  | _ => none

/-- `n` descriptors that use up `bytes` exactly. -/
def takeDescriptors : Nat → List Byte → Option (List RawDescriptor)
  | 0, bytes => if bytes = [] then some [] else none
  | n + 1, bytes =>
    match takeDescriptor bytes with
    | none => none
    | some (d, rest) => (takeDescriptors n rest).map fun ds => d :: ds

/-- A PLACE body that passes the two checks of R19: a count of 1 to 3, and the length that it and the markers require. -/
def readPlace (body : List Byte) : Option (List RawDescriptor) :=
  match body with
  | [] => none
  | count :: rest => if count.toNat = 0 ∨ 3 < count.toNat then none else takeDescriptors count.toNat rest

/-- The timing of a descriptor that passes R21. -/
inductive Timing where
  | timed (due : Tick)
  | armed (line : InLine) (edge : TriggerEdge) (delay : Nat) (window : Option Tick)
deriving DecidableEq, Repr

/-- A descriptor that passes R21. -/
structure Descriptor where
  bank : Bank
  setMask : BankMask
  clearMask : BankMask
  flags : StepFlags
  timing : Timing
  rep : Option (Runs × Nat)
deriving DecidableEq, Repr

/-- The flags byte of a descriptor; none when a flag other than the four is set. -/
def readStepFlags (b : Byte) : Option StepFlags :=
  if 16 ≤ b.toNat then none
  else some ⟨b.getLsbD 0, b.getLsbD 1, b.getLsbD 2, b.getLsbD 3⟩

/-- The first byte of a trigger: line in bits 3 to 0, edge in bits 5 and 4 (section 12.3). -/
def readTrigger (b : Byte) : Option (InLine × TriggerEdge) :=
  match indexOf 8 (b &&& 0x0F) with
  | none => none
  | some line =>
    match (b >>> 4).toNat with
    | 1 => some (line, .rise)
    | 2 => some (line, .fall)
    | 3 => some (line, .either)
    | _ => none

/-- The timing-presence, trigger and window conditions of R21. -/
def readTiming (d : RawDescriptor) (inputUsed : InLine → Bool) : Option Timing :=
  match (d.head >>> 6).toNat with
  | 0 =>
    match d.due, d.trigger, d.window with
    | some due, none, none => some (.timed due)
    | _, _, _ => none
  | 1 =>
    match d.due, d.trigger with
    | none, some (t, delay) =>
      match readTrigger t with
      | none => none
      | some (line, edge) => if inputUsed line then some (.armed line edge delay d.window) else none
    | _, _ => none
  | _ => none

/-- The range check of one descriptor (R21); none is E_ARG. -/
def readDescriptor (d : RawDescriptor) (inputUsed : InLine → Bool) : Option Descriptor :=
  match indexOf 3 ((d.head >>> 4) &&& 3), readStepFlags d.flags, readTiming d inputUsed with
  | some bank, some flags, some timing =>
    if d.setMask &&& d.clearMask ≠ 0 ∨ d.setMask ||| d.clearMask = 0 then none
    else if (match timing with | .timed _ => flags.rearm | .armed .. => false) then none
    else if (match d.rep with | some (_, period) => period == 0 | none => false) then none
    else some ⟨bank, d.setMask, d.clearMask, flags, timing, d.rep⟩
  | _, _, _ => none

/-! ### Configuration records (section 12.6, ranges of R154) -/

/-- A record as CONFIG_WRITE carries it. -/
inductive Record where
  | timebase (source : Source) (divider lossWindow : Nat)
  | outputLine (n : OutLine) (used safe : Bool)
  | inputLine (n : InLine) (used : Bool) (filter : Nat)
  | pair (i : PairIndex) (config : PairConfig)
  | quota (a b c : Nat)
  | arbiter (mode : ArbiterMode) (first second third : Port)
deriving DecidableEq, Repr

def readTimebase (src d1 d0 w : Byte) : Option Record :=
  match flagOf src with
  | none => none
  | some tclk =>
    if nat2 d1 d0 = 0 ∨ 256 < nat2 d1 d0 ∨ w = 0 then none
    else some (.timebase (if tclk then .tclk else .int) (nat2 d1 d0) w.toNat)

def readOutputLine (inst used safe : Byte) : Option Record :=
  match indexOf 24 inst, flagOf used, flagOf safe with
  | some n, some u, some sf => some (.outputLine n u sf)
  | _, _, _ => none

def readInputLine (inst used filter : Byte) : Option Record :=
  match indexOf 8 inst, flagOf used with
  | some n, some u => some (.inputLine n u filter.toNat)
  | _, _ => none

def readPair (inst valid a b g1 g0 h1 h0 : Byte) : Option Record :=
  match indexOf 12 inst, flagOf valid, indexOf 24 a, indexOf 24 b with
  | some i, some v, some la, some lb => some (.pair i ⟨v, la, lb, nat2 g1 g0, nat2 h1 h0⟩)
  | _, _, _, _ => none

def readQuota (a b c : Byte) : Option Record :=
  if a.toNat ≤ 64 ∧ b.toNat ≤ 64 ∧ c.toNat ≤ 64 then some (.quota a.toNat b.toNat c.toNat) else none

def readArbiter (mode r1 r2 r3 : Byte) : Option Record :=
  match flagOf mode, portOf r1.toNat, portOf r2.toNat, portOf r3.toNat with
  | some m, some p1, some p2, some p3 =>
    if p1 ≠ p2 ∧ p1 ≠ p3 ∧ p2 ≠ p3 then some (.arbiter (if m then .rotating else .fixed) p1 p2 p3) else none
  | _, _, _, _ => none

/-- A CONFIG_WRITE body that passes the two E_ARG checks of R155. -/
def readRecord (body : List Byte) : Option Record :=
  match body with
  | kind :: inst :: fields =>
    match kind.toNat, fields with
    | 0, [src, d1, d0, w] => if inst = 0 then readTimebase src d1 d0 w else none
    | 1, [used, safe] => readOutputLine inst used safe
    | 2, [used, filter] => readInputLine inst used filter
    | 3, [v, a, b, g1, g0, h1, h0] => readPair inst v a b g1 g0 h1 h0
    | 4, [a, b, c] => if inst = 0 then readQuota a b c else none
    | 5, [m, r1, r2, r3] => if inst = 0 then readArbiter m r1 r2 r3 else none
    | _, _ => none
  | _ => none

/-- Which record CONFIG_READ asks for (R159). -/
inductive RecordName where
  | timebase
  | outputLine (n : OutLine)
  | inputLine (n : InLine)
  | pair (i : PairIndex)
  | quota
  | arbiter
deriving DecidableEq, Repr

def readRecordName (body : List Byte) : Option RecordName :=
  match body with
  | [kind, inst] =>
    match kind.toNat with
    | 0 => if inst = 0 then some .timebase else none
    | 1 => (indexOf 24 inst).map .outputLine
    | 2 => (indexOf 8 inst).map .inputLine
    | 3 => (indexOf 12 inst).map .pair
    | 4 => if inst = 0 then some .quota else none
    | 5 => if inst = 0 then some .arbiter else none
    | _ => none
  | _ => none

end Sys2Proof.Machine
end

