-- ==== Sys2Proof/WellFormed.lean ====
section
/-! DEFINITION. When a command is well formed. A row that stands for a rise of chip select carries the bytes clocked in
before the rise; they are none (every bit came by SPI_CLOCK_CYCLE), or they spell a frame of that row's own kind. Every
operand of the other commands has a type that admits no bad value. -/

namespace Sys2Proof

open Sys2Proof.Machine

/-- A row of the table that chip-select rises are told apart by. -/
inductive FrameRow where
  /-- a pure fetch (R168) -/
  | pureFetch
  /-- a frame that fails the frame checks (R169) -/
  | bad
  /-- a frame of an unknown kind (R170) -/
  | unknownKind
  /-- a request -/
  | request (r : Request)
  /-- a CONFIG_WRITE of record kind `k`, or of none of the six (log entry 10) -/
  | configWrite (k : Nat)
  /-- whatever the frame is -/
  | anyFrame
deriving DecidableEq, Repr

/-- Whether the bytes of a transaction are a frame of the row. -/
def FrameRow.admits (row : FrameRow) (inbound : Inbound) : Bool :=
  match row, inbound with
  | .pureFetch, .pureFetch => true
  | .bad, .bad _ _ => true
  | .unknownKind, .frame kind _ _ _ => (requestOf kind).isNone
  | .request r, .frame kind _ _ _ => requestOf kind == some r
  | .configWrite k, .frame kind _ body _ =>
    requestOf kind == some .configWrite &&
      (match body with
       | [] => true
       | b :: _ => decide (b.toNat = k ∨ 5 < b.toNat))
  | .anyFrame, _ => true
  | _, _ => false

/-- The port, the row and the bytes of a command that is a rise of chip select; none for any other command. -/
def Instr.rise (i : Instr) : Option (Port × FrameRow × List Byte) :=
  match i with
  | .nop p m => some (p, .pureFetch, m)
  | .edgeSummary p m => some (p, .anyFrame, m)
  | .eFrame p m => some (p, .bad, m)
  | .eKind p m => some (p, .unknownKind, m)
  | .status p m => some (p, .request .status, m)
  | .openSession p m => some (p, .request .openSession, m)
  | .closeSession p m => some (p, .request .closeSession, m)
  | .renew p m => some (p, .request .renew, m)
  | .readTime p m => some (p, .request .readTime, m)
  | .setTime p m => some (p, .request .setTime, m)
  | .configWriteTimebase p m => some (p, .configWrite 0, m)
  | .configWriteOutputLine p m => some (p, .configWrite 1, m)
  | .configWriteInputLine p m => some (p, .configWrite 2, m)
  | .configWritePair p m => some (p, .configWrite 3, m)
  | .configWriteQuota p m => some (p, .configWrite 4, m)
  | .configWriteArbiter p m => some (p, .configWrite 5, m)
  | .configRead p m => some (p, .request .configRead, m)
  | .start p m => some (p, .request .start, m)
  | .stop p m => some (p, .request .stop, m)
  | .clearFault p m => some (p, .request .clearFault, m)
  | .claim p m => some (p, .request .claim, m)
  | .claimWithdraw p m => some (p, .request .claimWithdraw, m)
  | .release p m => some (p, .request .release, m)
  | .owners p m => some (p, .request .owners, m)
  | .readOutputs p m => some (p, .request .readOutputs, m)
  | .pairStatus p m => some (p, .request .pairStatus, m)
  | .place p m => some (p, .request .place, m)
  | .cancel p m => some (p, .request .cancel, m)
  | .cancelAll p m => some (p, .request .cancelAll, m)
  | .amend p m => some (p, .request .amend, m)
  | .list p m => some (p, .request .list, m)
  | .queryStep p m => some (p, .request .queryStep, m)
  | .subscribe p m => some (p, .request .subscribe, m)
  | .clearPending p m => some (p, .request .clearPending, m)
  | .readInputs p m => some (p, .request .readInputs, m)
  | .transactionBegin _ => none
  | .reset => none
  | .intTick _ => none
  | .tclkRise _ => none
  | .clockLost => none
  | .bankFiring _ => none
  | .windowEnd => none
  | .reachedMarker => none
  | .edgeEvent _ => none
  | .guardEnd _ => none
  | .fallRecordEnd _ => none
  | .holdDeadline _ => none
  | .waitDeadline _ => none
  | .lapse _ => none
  | .spiClockCycle _ _ => none
  | .oscillatorPeriod _ => none
  | .resetEnd => none

/-- A command is well formed: its bytes, when it has any, are a frame of its own row. -/
def Instr.wellFormed (i : Instr) : Bool :=
  match i.rise with
  | none => true
  | some (_, row, mosi) => mosi.isEmpty || row.admits (readInbound mosi)

end Sys2Proof
end

