-- ==== Sys2Proof/Decode.lean ====
section
/-! DEFINITION. The command that a word spells by the bits of spec/opcode_table.json. -/

namespace Sys2Proof

/-- The table gives bits to none of its rows ("fields": []): commands reach the device as events at its pins and
clocks, and as frames, which Machine/Operands.lean reads. So no word spells a command (log entry 14). -/
def decodeTableWord (_nbits _w : Nat) : Option Instr := none

end Sys2Proof
end

