-- ==== Sys2Proof/Machine/Layouts.lean ====
section
/-! DEFINITION. What the TQ24 sends: result codes (section 12.7), field encodings (section 12.2), notices and their
bodies (section 12.5), records (section 12.6), and the bytes of an outbound frame (section 12.1, R181). -/

namespace Sys2Proof.Machine

/-! ### Result codes (section 12.7) -/

inductive Result where
  | ok | eFrame | eKind | eArg | eSession | eLapsed | eState | ePhase | eFault | eNoClock | eConfig
  | eNotOwner | eHeld | eWaiting | eQuota | eLate | eFar | eNotFound | eBusyOwners | queued
deriving DecidableEq, Repr

def Result.code : Result → Byte
  | .ok => 0x00
  | .eFrame => 0x01
  | .eKind => 0x02
  | .eArg => 0x03
  | .eSession => 0x04
  | .eLapsed => 0x05
  | .eState => 0x06
  | .ePhase => 0x07
  | .eFault => 0x08
  | .eNoClock => 0x09
  | .eConfig => 0x0A
  | .eNotOwner => 0x0B
  | .eHeld => 0x0C
  | .eWaiting => 0x0D
  | .eQuota => 0x0E
  | .eLate => 0x0F
  | .eFar => 0x10
  | .eNotFound => 0x11
  | .eBusyOwners => 0x12
  | .queued => 0x20

/-! ### Field encodings, most significant byte first (section 12.2) -/

def byte1 (n : Nat) : List Byte := [BitVec.ofNat 8 n]
def byte2 (n : Nat) : List Byte := [BitVec.ofNat 8 (n / 256), BitVec.ofNat 8 n]
def byte3 (n : Nat) : List Byte := BitVec.ofNat 8 (n / 65536) :: byte2 n
def byte4 (n : Nat) : List Byte := BitVec.ofNat 8 (n / 16777216) :: byte3 n
def tickBytes (t : Tick) : List Byte := byte4 t.toNat
def maskBytes (m : LineMask) : List Byte := byte3 m.toNat
def handleBytes (h : Handle) : List Byte := byte2 h.toNat
def flagByte (b : Bool) : List Byte := byte1 b.toNat

/-- A present optional field, or the zeros that an absent one of `n` bytes reads as (section 12.2). -/
def optional (n : Nat) (field : Option (List Byte)) : List Byte :=
  field.getD (List.replicate n 0)

/-- A presence byte: bit i for the i-th optional field. That the bits beyond the optional fields are 0 is a DESIGN CHOICE (log
entry 31). -/
def presence (bits : List Bool) : List Byte :=
  byte1 (bits.foldr (fun b n => b.toNat + 2 * n) 0)

def portCode : Port → Nat
  | .a => 0
  | .b => 1
  | .c => 2

/-- The owner coding: none is 3. -/
def ownerCode (o : Option Port) : Nat := (o.map portCode).getD 3

def Level.code : Level → Nat
  | .zero => 0
  | .one => 1
  | .z => 2

def Phase.code : Phase → Nat
  | .setup => 0
  | .run => 1
  | .fault => 2

def SessionState.code : SessionState → Nat
  | .closed => 0
  | .opened _ _ => 1
  | .lapsed => 2

def Source.code : Source → Nat
  | .int => 0
  | .tclk => 1

def ArbiterMode.code : ArbiterMode → Nat
  | .fixed => 0
  | .rotating => 1

def Subscription.code : Subscription → Nat
  | .none => 0
  | .rise => 1
  | .fall => 2
  | .both => 3

def Direction.code : Direction → Nat
  | .rise => 0
  | .fall => 1

def Runs.code : Runs → Nat
  | .unbounded => 0
  | .count n => n

def TriggerEdge.code : TriggerEdge → Nat
  | .rise => 1
  | .fall => 2
  | .either => 3

/-- The flags of a step as byte 3 of a descriptor (section 12.3). -/
def StepFlags.code (f : StepFlags) : Nat :=
  f.lateOk.toNat + 2 * f.noteEach.toNat + 4 * f.noteEnd.toNat + 8 * f.rearm.toNat

/-! ### Notices (section 12.5) -/

inductive DoneReason where
  | completed | windowClosed
deriving DecidableEq, Repr

inductive DropReason where
  | overridden | contended | timeout
deriving DecidableEq, Repr

inductive ExpiryReason where
  | timeout | stopped
deriving DecidableEq, Repr

inductive PhaseCause where
  | start | stop | clockLost | clearFault
deriving DecidableEq, Repr

inductive Notice where
  | stepFired (handle : Handle) (fireTick : Tick) (runIndex lateness : Nat) (bank : Bank) (deferred : BankMask)
  | stepDone (handle : Handle) (reason : DoneReason) (tick : Tick) (runIndex : Nat)
  | triggerTimeout (handle : Handle) (line : InLine) (armTick windowEnd : Tick)
  | riseDropped (line : OutLine) (reason : DropReason) (pair : PairIndex) (requestTick dropTick : Tick)
      (holding : Option OutLine)
  | claimGranted (mask : LineMask) (enqueued granted : Tick) (owned : LineMask)
  | claimExpired (reason : ExpiryReason) (mask : LineMask) (enqueued removed : Tick)
  | edge (line : InLine) (direction : Direction) (stamp accept : Tick)
  | edgeSummary (rises falls : InputMask) (tick : Tick)
  | lapsed (tick : Tick) (lines : LineMask) (steps : Nat)
  | peerLapsed (port : Port) (tick : Tick) (lines : LineMask)
  | peerClosed (port : Port) (tick : Tick) (lines : LineMask)
  | phaseChange (phase : Phase) (cause : PhaseCause) (tick : Tick) (port : Option Port)
deriving DecidableEq, Repr

def DoneReason.code : DoneReason → Nat
  | .completed => 0
  | .windowClosed => 1

def DropReason.code : DropReason → Nat
  | .overridden => 0
  | .contended => 1
  | .timeout => 2

def ExpiryReason.code : ExpiryReason → Nat
  | .timeout => 0
  | .stopped => 1

def PhaseCause.code : PhaseCause → Nat
  | .start => 0
  | .stop => 1
  | .clockLost => 2
  | .clearFault => 3

/-- The notice code. -/
def Notice.code : Notice → Byte
  | .stepFired .. => 0x01
  | .stepDone .. => 0x02
  | .triggerTimeout .. => 0x03
  | .riseDropped .. => 0x04
  | .claimGranted .. => 0x05
  | .claimExpired .. => 0x06
  | .edge .. => 0x07
  | .edgeSummary .. => 0x08
  | .lapsed .. => 0x09
  | .peerLapsed .. => 0x0A
  | .peerClosed .. => 0x0B
  | .phaseChange .. => 0x0C

/-- The notice body. -/
def Notice.body : Notice → List Byte
  | .stepFired h t i l k d => handleBytes h ++ tickBytes t ++ byte1 i ++ byte4 l ++ byte1 k.val ++ [d]
  | .stepDone h r t i => handleBytes h ++ byte1 r.code ++ tickBytes t ++ byte1 i
  | .triggerTimeout h l a w => handleBytes h ++ byte1 l.val ++ tickBytes a ++ tickBytes w
  | .riseDropped l r k q d x =>
    byte1 l.val ++ byte1 r.code ++ byte1 k.val ++ tickBytes q ++ tickBytes d ++ byte1 ((x.map Fin.val).getD 0xFF)
  | .claimGranted m e g o => maskBytes m ++ tickBytes e ++ tickBytes g ++ maskBytes o
  | .claimExpired r m e t => byte1 r.code ++ maskBytes m ++ tickBytes e ++ tickBytes t
  | .edge l d st a => byte1 l.val ++ byte1 d.code ++ tickBytes st ++ tickBytes a
  | .edgeSummary r f t => [r, f] ++ tickBytes t
  | .lapsed t m n => tickBytes t ++ maskBytes m ++ byte1 n
  | .peerLapsed p t m => byte1 (portCode p) ++ tickBytes t ++ maskBytes m
  | .peerClosed p t m => byte1 (portCode p) ++ tickBytes t ++ maskBytes m
  | .phaseChange f c t p => byte1 f.code ++ byte1 c.code ++ tickBytes t ++ byte1 (ownerCode p)

/-! ### Configuration records (section 12.6) -/

/-- A record as CONFIG_WRITE's and CONFIG_READ's replies carry it: kind, instance, fields (log entry 7). -/
def Record.bytes : Record → List Byte
  | .timebase s d w => byte1 0 ++ byte1 0 ++ byte1 s.code ++ byte2 d ++ byte1 w
  | .outputLine n u sf => byte1 1 ++ byte1 n.val ++ flagByte u ++ flagByte sf
  | .inputLine n u f => byte1 2 ++ byte1 n.val ++ flagByte u ++ byte1 f
  | .pair i c => byte1 3 ++ byte1 i.val ++ flagByte c.valid ++ byte1 c.a.val ++ byte1 c.b.val ++ byte2 c.guard ++ byte2 c.hold
  | .quota a b c => byte1 4 ++ byte1 0 ++ byte1 a ++ byte1 b ++ byte1 c
  | .arbiter m p q r => byte1 5 ++ byte1 0 ++ byte1 m.code ++ byte1 (portCode p) ++ byte1 (portCode q) ++ byte1 (portCode r)

/-- Why a write is refused E_CONFIG (R155). -/
inductive ConfigReason where
  | selfPair | unusedLine | pairOverlap | pairedLine | bothActive | quotaSum
deriving DecidableEq, Repr

def ConfigReason.code : ConfigReason → Nat
  | .selfPair => 0
  | .unusedLine => 1
  | .pairOverlap => 2
  | .pairedLine => 3
  | .bothActive => 4
  | .quotaSum => 5

/-! ### Outbound frames (R181) -/

def EntryKind.code : EntryKind → Byte
  | .reply => 0x01
  | .notice => 0x02
  | .repeated => 0x81

/-- The bytes of an outbound frame, CRC included. -/
def frameBytes (kind code status tag : Byte) (body : List Byte) : List Byte :=
  let covered := kind :: code :: status :: tag :: BitVec.ofNat 8 body.length :: body
  covered ++ [crc8 covered]

/-- The frame of a queue entry under a status byte. -/
def Entry.frame (e : Entry) (status : Byte) : List Byte :=
  frameBytes e.kind.code e.code status e.tag e.body

/-- The idle frame under a status byte. -/
def idleFrame (status : Byte) : List Byte :=
  frameBytes 0 0 status 0 []

end Sys2Proof.Machine
end

