-- ==== Sys2Proof/Machine/Flags.lean ====
section
/-! DEFINITION. What is read off the state without changing it: the status byte (R176, section 12.1), ATTN (R177) and
the data out pin (R167), session and phase tests, levels, owners, counts and masks. -/

namespace Sys2Proof.Machine

/-! ### The fields of the state, each under one name -/

def State.port (s : State) (p : Port) : HostPort := s.ports.get p
def State.session (s : State) (p : Port) : Session := s.sessions.get p
def State.output (s : State) (l : OutLine) : OutputConfig := tget s.outputs l
def State.input (s : State) (l : InLine) : InputConfig := tget s.inputs l
def State.pair (s : State) (k : PairIndex) : PairConfig := tget s.pairs k
def State.quota (s : State) (p : Port) : Nat := s.quotas.get p
def State.owner (s : State) (l : OutLine) : Option Port := tget s.owners l
def State.level (s : State) (l : OutLine) : Level := tget s.latch l
def State.pairRuntime (s : State) (k : PairIndex) : PairRuntime := tget s.runtime k
def State.claim (s : State) (p : Port) : Option Claim := s.claims.get p
def State.slot (s : State) (i : SlotIndex) : Slot := tget s.slots i
def State.step (s : State) (i : SlotIndex) : Option StepRecord := (s.slot i).step
def State.armedList (s : State) (l : InLine) : List SlotIndex := tget s.armedSet l
def State.filter (s : State) (l : InLine) : Filter := tget s.filters l
def State.inputsOf (s : State) (p : Port) : PortInputs := s.portInputs.get p
def State.subscription (s : State) (p : Port) (l : InLine) : Subscription := tget (s.inputsOf p).subscriptions l

/-! ### Enumerations in the order the manual takes them -/

def everyPort : List Port := [.a, .b, .c]
def everyBank : List Bank := [0, 1, 2]
def everyOutLine : List OutLine := List.finRange 24
def everyInLine : List InLine := List.finRange 8
def everyPosition : List Position := List.finRange 8
def everyPair : List PairIndex := List.finRange 12
def everySlot : List SlotIndex := List.finRange 64

/-! ### Lines and banks -/

/-- The line at a position of a bank: OLn is position n mod 8 of bank n div 8 (R38). -/
def lineAt (k : Bank) (i : Position) : OutLine :=
  ⟨8 * k.val + i.val, by have := k.isLt; have := i.isLt; omega⟩

/-- The lines of a device line mask that lie in bank `k`, as a bank mask. -/
def bankPart (m : LineMask) (k : Bank) : BankMask :=
  maskOf fun i => inMask m (lineAt k i)

/-- The lines for which `f` holds. -/
def lineSet (f : OutLine → Bool) : LineMask := maskOf f

/-! ### Ownership -/

/-- The lines that port `p` owns. -/
def State.ownedMask (s : State) (p : Port) : LineMask :=
  lineSet fun l => s.owner l == some p

/-- The used lines. -/
def State.usedMask (s : State) : LineMask :=
  lineSet fun l => (s.output l).used

/-! ### Pairs (R71, R72) -/

/-- Whether line `l` stands in pair entry `k`. -/
def PairConfig.holds (c : PairConfig) (l : OutLine) : Bool := c.a == l || c.b == l

/-- The other line of the entry. -/
def PairConfig.partner (c : PairConfig) (l : OutLine) : OutLine := if c.a = l then c.b else c.a

/-- The valid pair in which line `l` stands; each line is in at most one (R72). -/
def State.pairOf (s : State) (l : OutLine) : Option PairIndex :=
  everyPair.find? fun k => (s.pair k).valid && (s.pair k).holds l

/-- Whether pair `k`'s guard runs for line `l` (R71). -/
def PairRuntime.guards (r : PairRuntime) (l : OutLine) : Bool :=
  match r.guard with
  | some g => g.line == l
  | none => false

/-- Whether the record holds a deferred rise on line `l`. -/
def PairRuntime.defers (r : PairRuntime) (l : OutLine) : Bool :=
  match r.deferred with
  | some d => d.line == l
  | none => false

/-- The lines on which the interlock holds a deferred rise (R55). -/
def State.deferredMask (s : State) : LineMask :=
  lineSet fun l => everyPair.any fun k => (s.pairRuntime k).defers l

/-! ### Calendar (chapter 1) -/

/-- The handle of slot `i`: its generation in the high byte, its number in the low byte. -/
def State.handle (s : State) (i : SlotIndex) : Handle :=
  (s.slot i).generation ++ BitVec.ofNat 8 i.val

/-- Whether slot `i` holds a step of port `p`. -/
def State.ownsStep (s : State) (p : Port) (i : SlotIndex) : Bool :=
  match s.step i with
  | some st => st.owner == p
  | none => false

/-- The step count of port `p`: the occupied slots it owns (R14). -/
def State.stepCount (s : State) (p : Port) : Nat :=
  everySlot.countP (s.ownsStep p)

/-- The free slots. -/
def State.freeSlots (s : State) : List SlotIndex :=
  everySlot.filter fun i => (s.step i).isNone

/-- The slot that a handle names (R2): occupied, with the handle's generation. -/
def State.named (s : State) (h : Handle) : Option SlotIndex :=
  match slotOf h with
  | none => none
  | some i => if (s.step i).isSome && (s.slot i).generation == generationOf h then some i else none

/-- The due of a step; present in PENDING. -/
def StepRecord.due (st : StepRecord) : Option Tick :=
  match st.state with
  | .pending d => some d
  | .armed => none

/-- Whether the step is ARMED. -/
def StepRecord.isArmed (st : StepRecord) : Bool :=
  match st.state with
  | .pending _ => false
  | .armed => true

/-- The window end of a step, when it has one. -/
def StepRecord.window (st : StepRecord) : Option WindowEnd :=
  match st.kind with
  | .timed => none
  | .armed a => a.window

/-- Runs placed: 1 for a step without a repeat part (R5). -/
def StepRecord.placed (st : StepRecord) : Runs := (st.rep.map Repeat.placed).getD (.count 1)

/-- Runs remaining: 1 for a step without a repeat part (R5). -/
def StepRecord.remaining (st : StepRecord) : Runs := (st.rep.map Repeat.remaining).getD (.count 1)

/-- Whether the step in slot `i` is PENDING with due `t`. -/
def State.dueAt (s : State) (t : Tick) (i : SlotIndex) : Bool :=
  match s.step i with
  | some st => st.due == some t
  | none => false

/-! ### Sessions and phase -/

/-- Whether port `p`'s session is OPEN. -/
def State.isOpen (s : State) (p : Port) : Bool :=
  match (s.session p).state with
  | .opened _ _ => true
  | _ => false

/-- The ports other than `p`. -/
def otherPorts (p : Port) : List Port := everyPort.filter (· ≠ p)

/-- The session test of R110: the refusal, if any, for request `r` in session state `st`. -/
def sessionRefusal (r : Request) (st : SessionState) : Option Result :=
  match r with
  | .status | .readTime | .configRead => none
  | .openSession =>
    match st with
    | .closed => none
    | _ => some .eState
  | .closeSession =>
    match st with
    | .closed => some .eSession
    | _ => none
  | _ =>
    match st with
    | .closed => some .eSession
    | .opened _ _ => none
    | .lapsed => some .eLapsed

/-- Whether the request is carried further in FAULT (R152). -/
def takenInFault (r : Request) : Bool :=
  match r with
  | .status | .closeSession | .readTime | .configRead | .clearFault => true
  | _ => false

/-- The phase test of R152. -/
def phaseRefusal (r : Request) (f : Phase) : Option Result :=
  if f = .fault ∧ takenInFault r = false then some .eFault else none

/-! ### Time classes (R143) -/

inductive TimeClass where
  | future | late | far
deriving DecidableEq, Repr

/-- The class of tick `t` at `now`. -/
def timeClass (t now : Tick) : TimeClass :=
  if 1 ≤ lead t now ∧ lead t now ≤ Config.maxLead then .future
  else if lateness t now ≤ Config.maxLead then .late
  else .far

/-! ### When ticks act -/

/-- Whether tick-driven work can be reached: reset is not held, and the clock-presence flag is set. While the flag is clear
NOW is frozen and no due, window end, guard end, fall record end, hold deadline, wait deadline or lease deadline is reached
(R70, R74, R114, R145). -/
def State.timeRuns (s : State) : Bool := !s.inReset && s.clock.present

/-- The tick-driven work `f`, where it can be reached. -/
def State.atTick (f : State → State) (s : State) : State := if s.timeRuns then f s else s

/-! ### The counts of the timebase (chapter 9) -/

/-- What the source's count does at an oscillator period, the µs count having advanced: under INT the prescaler advances, and
where it would reach the divider it returns to 0 and an INT tick is due (R141, log entry 3); under TCLK with the flag set the
gap count advances at the end of a µs (R145). -/
def countSource (c : Clock) : Clock :=
  match c.source with
  | .int =>
    if c.divider ≤ c.prescaler + 1 then { c with prescaler := 0, tickDue := true }
    else { c with prescaler := c.prescaler + 1 }
  | .tclk => if c.present && c.microseconds == 0 then { c with gap := c.gap + 1 } else c

/-- Whether the gap count has reached the loss window and the loss has not been declared yet. -/
def State.lossDue (s : State) : Bool :=
  s.clock.source == .tclk && s.clock.present && decide (s.clock.lossWindow ≤ s.clock.gap)

/-- Whether the last oscillator period has brought a tick or a loss that has not been taken yet (log entries 3 and 12). -/
def State.periodPending (s : State) : Bool := s.clock.tickDue || s.lossDue

/-! ### Port flags and pins -/

/-- EDGES_HELD: the port holds a set pending-latch bit (R132). -/
def State.edgesHeld (s : State) (p : Port) : Bool :=
  (s.inputsOf p).rises != 0 || (s.inputsOf p).falls != 0

/-- The status byte (R176, section 12.1), formed now; `more` is its MORE bit. -/
def State.statusByte (s : State) (p : Port) (more : Bool) : Byte :=
  BitVec.ofNat 8
    (128 * more.toNat + 64 * (s.port p).overrun.toNat + 32 * (s.port p).noticeLoss.toNat
      + 16 * (s.edgesHeld p).toNat + 4 * s.phase.code + (s.session p).state.code)

/-- ATTN is pulled low exactly while the outbound queue holds an entry (R177). -/
def State.attention (s : State) (p : Port) : Bool := !(s.port p).queue.isEmpty

/-- The bit at data out (R167), DEDUCED (log entry 17): while SHIFTING the bit that the coming clock cycle shifts out, most
significant bit first, 0 after the frame's last byte; not driven (none) otherwise. -/
def State.dataOut (s : State) (p : Port) : Option Bool :=
  match (s.port p).transfer with
  | none => none
  | some x =>
    match x.outgoing[x.sent]? with
    | none => some false
    | some b => some (b.getLsbD (7 - x.bitCount))

/-- The level at the pin of an output line: its latch level, and Z while reset is held (R38). -/
def State.pinLevel (s : State) (l : OutLine) : Level := if s.inReset then .z else s.level l

end Sys2Proof.Machine
end

