-- ==== Sys2Proof/Machine/Ops.lean ====
section
/-! DEFINITION. The named operations over the state: one update for each field that commands change, the outbound
queue and its admission check (R174, R175), renewal (R112), and the one shape of a chip-select rise (R168 to R173),
which every request shares. A block has no exception entry: nothing of that kind stands here. -/

namespace Sys2Proof.Machine

/-! ### Updates -/

def State.withNow (s : State) (t : Tick) : State := { s with now := t }
def State.withClock (s : State) (c : Clock) : State := { s with clock := c }
def State.withPhase (s : State) (f : Phase) : State := { s with phase := f }
def State.withPins (s : State) (m : InputMask) : State := { s with pins := m }
def State.withPort (s : State) (p : Port) (h : HostPort) : State := { s with ports := s.ports.set p h }
def State.withSession (s : State) (p : Port) (x : Session) : State := { s with sessions := s.sessions.set p x }
def State.withOutput (s : State) (l : OutLine) (c : OutputConfig) : State := { s with outputs := tset s.outputs l c }
def State.withInput (s : State) (l : InLine) (c : InputConfig) : State := { s with inputs := tset s.inputs l c }
def State.withPair (s : State) (k : PairIndex) (c : PairConfig) : State := { s with pairs := tset s.pairs k c }
def State.withQuotas (s : State) (q : PerPort Nat) : State := { s with quotas := q }
def State.withArbiter (s : State) (a : Arbiter) : State := { s with arbiter := a }
def State.withOwners (s : State) (v : Vector (Option Port) 24) : State := { s with owners := v }
def State.withLevel (s : State) (l : OutLine) (v : Level) : State := { s with latch := tset s.latch l v }
def State.withRuntime (s : State) (k : PairIndex) (r : PairRuntime) : State := { s with runtime := tset s.runtime k r }
def State.withRuntimes (s : State) (v : Vector PairRuntime 12) : State := { s with runtime := v }
def State.withClaim (s : State) (p : Port) (c : Option Claim) : State := { s with claims := s.claims.set p c }
def State.withSlot (s : State) (i : SlotIndex) (x : Slot) : State := { s with slots := tset s.slots i x }
def State.withDueList (s : State) (l : List SlotIndex) : State := { s with dueList := l }
def State.withArmedList (s : State) (l : InLine) (x : List SlotIndex) : State := { s with armedSet := tset s.armedSet l x }
def State.withArmedThisTick (s : State) (l : List SlotIndex) : State := { s with armedThisTick := l }
def State.withFilter (s : State) (l : InLine) (f : Filter) : State := { s with filters := tset s.filters l f }
def State.withInputsOf (s : State) (p : Port) (x : PortInputs) : State := { s with portInputs := s.portInputs.set p x }

/-! ### The outbound queue (R174, R175) -/

/-- An entry joins the back of port `p`'s queue. -/
def State.pushEntry (s : State) (p : Port) (e : Entry) : State :=
  s.withPort p { s.port p with queue := (s.port p).queue ++ [e] }

/-- Whether port `p`'s queue admits a notice (R175). -/
def State.admits (s : State) (p : Port) : Bool :=
  decide ((s.port p).queue.length ≤ Config.noticeRoom)

/-- The entry of a notice that carries sequence number `n` (R175, R181). -/
def Notice.entry (x : Notice) (n : Byte) : Entry := { kind := .notice, code := x.code, tag := n, body := x.body }

/-- An admitted notice joins the queue with the next sequence number, which then advances (R175). -/
def State.pushNotice (s : State) (p : Port) (x : Notice) : State :=
  s.withPort p
    { s.port p with queue := (s.port p).queue ++ [x.entry (s.port p).sequence], sequence := (s.port p).sequence + 1 }

/-- A notice addressed to a port: which port, and what. -/
abbrev Emit := Port × Notice

/-- One notice meets its port's admission check: it joins the queue, or it is lost and NOTICE_LOSS is set (R175). -/
def State.notify (s : State) (e : Emit) : State :=
  if s.admits e.1 then s.pushNotice e.1 e.2 else s.withPort e.1 { s.port e.1 with noticeLoss := true }

/-- The notices of one event, judged one at a time in the order their producers give (R175). -/
def State.deliver (s : State) (es : List Emit) : State := es.foldl State.notify s

/-- What an event has done so far: the state, and the notices it has produced, first one first. -/
structure Work where
  st : State
  out : List Emit

/-- No notice produced yet. -/
def Work.of (s : State) : Work := ⟨s, []⟩

/-- The event's state with its notices delivered. -/
def Work.done (w : Work) : State := w.st.deliver w.out

/-- A notice is produced. -/
def Work.emit (w : Work) (e : Emit) : Work := ⟨w.st, w.out ++ [e]⟩

/-- A notice to a port, or to nobody when the owner is none. -/
def Work.emitTo (w : Work) (o : Option Port) (x : Notice) : Work :=
  match o with
  | some p => w.emit (p, x)
  | none => w

/-- A notice for every OPEN session of the ports `ps`. -/
def Work.emitOpen (w : Work) (ps : List Port) (x : Notice) : Work :=
  ⟨w.st, w.out ++ (ps.filter w.st.isOpen).map fun p => (p, x)⟩

/-! ### Renewal (R112) -/

/-- The lease of an OPEN session is renewed: deadline NOW plus the period. -/
def State.renew (s : State) (p : Port) : State :=
  match (s.session p).state with
  | .opened period _ => s.withSession p { s.session p with state := .opened period (after s.now period) }
  | _ => s

/-! ### Shifting (R167) -/

/-- One clock cycle: a bit in, and a bit of the outgoing frame out; each eighth completes a byte each way. -/
def Transfer.cycle (x : Transfer) (bit : Bool) : Transfer :=
  let acc : Byte := (x.partialBits <<< 1) ||| (if bit then 1 else 0)
  if x.bitCount = 7 then
    { x with
      inbound := x.inbound ++ [acc]
      partialBits := 0
      bitCount := 0
      sent := if x.sent < x.outgoing.length then x.sent + 1 else x.sent }
  else { x with partialBits := acc, bitCount := x.bitCount + 1 }

/-- The bits of a byte, most significant first. -/
def bitsOf (b : Byte) : List Bool :=
  [b.getLsbD 7, b.getLsbD 6, b.getLsbD 5, b.getLsbD 4, b.getLsbD 3, b.getLsbD 2, b.getLsbD 1, b.getLsbD 0]

/-- Eight clock cycles that carry one byte. -/
def Transfer.byte (x : Transfer) (b : Byte) : Transfer := (bitsOf b).foldl Transfer.cycle x

/-- The clock cycles that carry `bytes`. -/
def Transfer.bytes (x : Transfer) (bytes : List Byte) : Transfer := bytes.foldl Transfer.byte x

/-- The transaction that a falling chip select begins (R167): the head entry or the idle frame, under the status byte
of this moment. -/
def State.newTransfer (s : State) (p : Port) : Transfer :=
  match (s.port p).queue with
  | [] =>
    { inbound := [], partialBits := 0, bitCount := 0, outgoing := idleFrame (s.statusByte p false), isHead := false,
      sent := 0 }
  | e :: rest =>
    { inbound := [], partialBits := 0, bitCount := 0, outgoing := e.frame (s.statusByte p (!rest.isEmpty)),
      isHead := true, sent := 0 }

/-! ### The rise of chip select (R168) -/

/-- Whether the transaction sent the whole head entry, so that its rise removes the entry (R168, order 1). -/
def Transfer.removesHead (x : Transfer) : Bool := x.isHead && x.sent == x.outgoing.length

/-- Whether the rise queues an EDGE_SUMMARY (R134, R168 order 2): an entry has been removed, a latch bit is set, and the
queue that the removal leaves admits a notice. -/
def State.summaryDue (s : State) (p : Port) (x : Transfer) : Bool :=
  x.removesHead && s.edgesHeld p && decide ((s.port p).queue.tail.length ≤ Config.noticeRoom)

/-- The port is IDLE again and, when the whole head was sent, the head entry is gone (R167, R168 order 1). -/
def State.endTransfer (s : State) (p : Port) (x : Transfer) : State :=
  s.withPort p
    { s.port p with
      selected := false
      transfer := none
      queue := if x.removesHead then (s.port p).queue.tail else (s.port p).queue }

/-- The folded edges are reported in one EDGE_SUMMARY and every latch bit is cleared (R134). -/
def State.queueSummary (s : State) (p : Port) : State :=
  (s.pushNotice p (.edgeSummary (s.inputsOf p).rises (s.inputsOf p).falls s.now)).withInputsOf p
    { s.inputsOf p with rises := 0, falls := 0 }

/-- Orders 1 and 2 of R168. -/
def State.fetchEnd (s : State) (p : Port) (x : Transfer) : State :=
  if s.summaryDue p x then (s.endTransfer p x).queueSummary p else s.endTransfer p x

/-- A block's answer to a request: the reply body, the state after the request's work, and the notices it produces. -/
structure Answer where
  body : List Byte
  st : State
  out : List Emit

/-- A refusal: the result code and the item its rule names, and no work (R171). -/
def refuse (r : Result) (item : List Byte) (s : State) : Answer := ⟨r.code :: item, s, []⟩

/-- An OK reply with no work. -/
def report (fields : List Byte) (s : State) : Answer := ⟨Result.ok.code :: fields, s, []⟩

/-- How a block serves a request: its port, its kind, its body, the state as it stood when the request was taken, and the
same state with the sender's lease renewed. -/
abbrev Serve := Port → Request → List Byte → State → State → Answer

/-- The reply is stored in the cache and joins the queue, ahead of the notices of the same request (R168, R172). -/
def State.answered (p : Port) (kind tag crc : Byte) (a : Answer) : State :=
  let e : Entry := { kind := .reply, code := kind, tag := tag, body := a.body }
  let s := a.st.withPort p { a.st.port p with cache := some { tag := tag, kind := kind, crc := crc, reply := e } }
  (s.pushEntry p e).deliver a.out

/-- The request's answer: E_KIND for an unknown kind (R170), else the session test (R110), the phase test (R152), and
the block that owns it. `s` is the state when the request is taken, its renewal (R112) the work's start. R110 says that a
refusal by the session test renews no lease, and R111 and R112 that an OPEN refused from OPEN renews it: the latter is
followed. DESIGN CHOICE (log entry 27). -/
def answerOf (serve : Serve) (p : Port) (kind : Byte) (body : List Byte) (s : State) : Answer :=
  match requestOf kind with
  | none => refuse .eKind [] (s.renew p)
  | some r =>
    match sessionRefusal r (s.session p).state with
    | some e => refuse e [] (s.renew p)
    | none =>
      match phaseRefusal r s.phase with
      | some e => refuse e [] (s.renew p)
      | none => serve p r body s (s.renew p)

/-- The cached reply, when the frame is a repeat (R173). -/
def State.repeatOf (s : State) (p : Port) (kind tag crc : Byte) : Option Entry :=
  match (s.port p).cache with
  | none => none
  | some c => if c.tag = tag ∧ c.kind = kind ∧ c.crc = crc then some c.reply else none

/-- Order 3 of R168: the inbound bytes are taken as a request. -/
def State.take (s : State) (p : Port) (inbound : Inbound) (serve : Serve) : State :=
  match inbound with
  | .pureFetch => s
  | .bad kind tag =>
    if Config.queueEntries ≤ (s.port p).queue.length then s.withPort p { s.port p with overrun := true }
    else s.pushEntry p { kind := .reply, code := kind, tag := tag, body := [Result.eFrame.code] }
  | .frame kind tag body crc =>
    if Config.queueEntries ≤ (s.port p).queue.length then s.withPort p { s.port p with overrun := true }
    else
      match s.repeatOf p kind tag crc with
      | some e => (s.renew p).pushEntry p { e with kind := .repeated }
      | none => State.answered p kind tag crc (answerOf serve p kind body s)

/-- A rising edge of chip select at port `p`, after the bytes `mosi`: the row is `row`'s, a test of the inbound bytes,
the transaction and the state. Outside a transaction, and while reset is held, the edge only leaves the pin high
(R180). Where the row's test fails the edge is another row's event, not this one's, and nothing happens (log entry 2). -/
def chipSelectRise (row : Inbound → Transfer → State → Bool) (serve : Serve) (p : Port) (mosi : List Byte)
    (s : State) : State :=
  if s.inReset then s.withPort p { s.port p with selected := false }
  else
    match (s.port p).transfer with
    | none => s.withPort p { s.port p with selected := false }
    | some x =>
      let y := x.bytes mosi
      if row (readInbound y.inbound) y s then (s.fetchEnd p y).take p (readInbound y.inbound) serve else s

/-- The row of a request: its frame carries the request's KIND. -/
def isRequest (r : Request) (inbound : Inbound) (_ : Transfer) (_ : State) : Bool :=
  match inbound with
  | .frame kind _ _ _ => requestOf kind == some r
  | _ => false

end Sys2Proof.Machine
end

