-- ==== Sys2Proof/Machine/Interlock.lean ====
section
/-! DEFINITION. The interlock unit and the bank latches (chapter 5, R38, R51, R52): falls and guards, the judging of
rises, the ends of a deferred rise, safe-level and direct drives, and the rows GUARD_END, FALL_RECORD_END,
HOLD_DEADLINE, READ_OUTPUTS and PAIR_STATUS. -/

namespace Sys2Proof.Machine

/-! ### Falls (R73) -/

/-- Pair `k`'s deferred rise on line `l` is granted: the line rises and the record is removed, without a notice (R77). -/
def grantRise (k : PairIndex) (l : OutLine) (s : State) : State :=
  (s.withLevel l .one).withRuntime k { s.pairRuntime k with deferred := none }

/-- The guard that a fall of line `z` of pair `k` at `t` starts; absent when the pair's guard is 0 (R73). -/
def guardAfterFall (c : PairConfig) (z : OutLine) (t : Tick) : Option Guard :=
  if c.guard = 0 then none else some ⟨after t c.guard, c.partner z⟩

/-- The interlock records the fall of line `z` of pair `k` at NOW, and grants the partner's deferred rise when no guard
follows (R73). The record and the guard replace what was there, as R73 says. R73 holds that no guard can then be running for `z`
itself, yet a direct drive may have raised `z` while one ran (R52), and R85 would keep that guard: R73's replacement is followed.
DESIGN CHOICE (log entry 30). -/
def recordFall (k : PairIndex) (z : OutLine) (s : State) : State :=
  let c := s.pair k
  let r : PairRuntime :=
    { s.pairRuntime k with fall := some ⟨z, s.now⟩, guard := guardAfterFall c z s.now }
  let s' := s.withRuntime k r
  if c.guard = 0 ∧ r.defers (c.partner z) = true then grantRise k (c.partner z) s' else s'

/-- Line `l` falls from 1 to 0; the fall of a paired line is handed to the interlock (R41, R51, R52). -/
def fallLine (l : OutLine) (s : State) : State :=
  let s' := s.withLevel l .zero
  match s.pairOf l with
  | none => s'
  | some k => recordFall k l s'

/-! ### Overrides (R78) -/

/-- A CLEAR on a line that has a deferred rise removes the record and reports it to its owner. -/
def overrideRise (k : PairIndex) (l : OutLine) (w : Work) : Work :=
  match (w.st.pairRuntime k).deferred with
  | none => w
  | some d =>
    if d.line = l then
      (Work.mk (w.st.withRuntime k { w.st.pairRuntime k with deferred := none }) w.out).emitTo d.owner
        (.riseDropped l .overridden k d.requestTick w.st.now none)
    else w

/-- A merged CLEAR on line `l` (R41): a deferred rise on it is overridden, and a line at 1 falls. -/
def clearLine (w : Work) (l : OutLine) : Work :=
  let w' :=
    match w.st.pairOf l with
    | none => w
    | some k => overrideRise k l w
  if w'.st.level l = .one then ⟨fallLine l w'.st, w'.out⟩ else w'

/-! ### Judging a rise (R75) -/

/-- What the interlock answers to a rise request (R42), or that the line keeps its level. -/
inductive RiseOutcome where
  | kept
  | granted
  | deferred
  | absorbed
  | dropped (pair : PairIndex) (holding : OutLine)
deriving DecidableEq, Repr

/-- The record that a deferred rise makes (R76). -/
def newDeferred (c : PairConfig) (l : OutLine) (owner : Option Port) (t : Tick) : DeferredRise :=
  { line := l, owner := owner, requestTick := t, holdDeadline := if c.hold = 0 then none else some (after t c.hold) }

/-- The outcome of a rise request for line `y` of pair `k`: the first test of R75's table that holds. -/
def judgeOutcome (s : State) (k : PairIndex) (y : OutLine) : RiseOutcome :=
  let x := (s.pair k).partner y
  let r := s.pairRuntime k
  if r.defers y = true then .absorbed
  else if r.defers x = true then .dropped k x
  else if s.level x = .zero ∧ r.guards y = false then .granted
  else .deferred

/-- A rise of line `y` is asked for at NOW with this owner: an unpaired line at 0 rises, and a paired line at 0 is
judged (R42, R51). -/
def requestRise (s : State) (y : OutLine) (owner : Option Port) : State × RiseOutcome :=
  if s.level y = .zero then
    match s.pairOf y with
    | none => (s.withLevel y .one, .granted)
    | some k =>
      match judgeOutcome s k y with
      | .granted => (s.withLevel y .one, .granted)
      | .deferred =>
        (s.withRuntime k { s.pairRuntime k with deferred := some (newDeferred (s.pair k) y owner s.now) }, .deferred)
      | o => (s, o)
  else (s, .kept)

/-- The notice of a rise refused for contention, to its requester when that is a port (R75, R87). -/
def reportDrop (w : Work) (y : OutLine) (owner : Option Port) (o : RiseOutcome) : Work :=
  match o with
  | .dropped k x => w.emitTo owner (.riseDropped y .contended k w.st.now w.st.now (some x))
  | _ => w

/-! ### Withdrawals and discards (R80, R81) -/

/-- Pair `k`'s deferred rise is withdrawn silently when `f` holds of it. -/
def dropDeferred (f : DeferredRise → Bool) (r : PairRuntime) : PairRuntime :=
  match r.deferred with
  | none => r
  | some d => if f d then { r with deferred := none } else r

/-- Every deferred rise for which `f` holds is removed without a notice. -/
def withdrawRises (f : DeferredRise → Bool) (s : State) : State :=
  s.withRuntimes (table fun k => dropDeferred f (s.pairRuntime k))

/-- The records on the lines of `m`, whatever their owner (R80: RELEASE, lapse, CLOSE). -/
def withdrawOn (m : LineMask) (s : State) : State := withdrawRises (fun d => inMask m d.line) s

/-- The ownerless records on the lines of `m` (R80: a grant). -/
def withdrawOwnerless (m : LineMask) (s : State) : State :=
  withdrawRises (fun d => inMask m d.line && d.owner.isNone) s

/-- Every deferred rise (R81: RUN ends). -/
def discardRises (s : State) : State := withdrawRises (fun _ => true) s

/-! ### Safe-level drive through the interlock (R51) -/

/-- The falls of one bank's drive: a line of `m` with safe level 0 that is at 1 falls. -/
def safeFall (m : LineMask) (s : State) (l : OutLine) : State :=
  if inMask m l = true ∧ (s.output l).safe = false ∧ s.level l = .one then fallLine l s else s

/-- The rises of one bank's drive: a line of `m` with safe level 1 that is at 0 is asked to rise, with owner none. -/
def safeRise (m : LineMask) (s : State) (l : OutLine) : State :=
  if inMask m l = true ∧ (s.output l).safe = true then (requestRise s l none).1 else s

/-- The drive of one bank: first every fall, then the rises in increasing position. -/
def safeDriveBank (m : LineMask) (s : State) (k : Bank) : State :=
  let lines := everyPosition.map (lineAt k)
  lines.foldl (safeRise m) (lines.foldl (safeFall m) s)

/-- The lines of `m` are driven to their safe levels, bank by bank in increasing bank number. -/
def safeDrive (m : LineMask) (s : State) : State := everyBank.foldl (safeDriveBank m) s

/-! ### Direct drive (R52) -/

/-- Line `l` takes level `v` in a direct drive: a fall is handed to the interlock, a rise goes to the latch unjudged. -/
def driveLine (l : OutLine) (v : Level) (s : State) : State :=
  if v = .zero ∧ s.level l = .one then fallLine l s else s.withLevel l v

/-- The level that a line's OUTPUT_LINE record gives it: its safe level, or Z when unused (R52, R156). -/
def configuredLevel (c : OutputConfig) : Level :=
  if c.used then (if c.safe then .one else .zero) else .z

/-- A used line takes its safe level. -/
def driveSafe (s : State) (l : OutLine) : State :=
  if (s.output l).used then driveLine l (configuredLevel (s.output l)) s else s

/-- Every used line is driven directly to its safe level (R52: STOP and entry into FAULT). -/
def directDrive (s : State) : State := everyOutLine.foldl driveSafe s

/-! ### The interlock's tick work -/

/-- Whether pair `k`'s guard ends now. -/
def guardEndsNow (s : State) (k : PairIndex) : Bool :=
  match (s.pairRuntime k).guard with
  | some g => g.ends == s.now
  | none => false

/-- Pair `k`'s guard end (R74): the guard becomes absent, and a deferred rise on the guarded line is granted when its
partner is at 0. -/
def endGuard (s : State) (k : PairIndex) : State :=
  match (s.pairRuntime k).guard with
  | none => s
  | some g =>
    if g.ends = s.now then
      let s' := s.withRuntime k { s.pairRuntime k with guard := none }
      if (s.pairRuntime k).defers g.line = true ∧ s.level ((s.pair k).partner g.line) = .zero then
        grantRise k g.line s'
      else s'
    else s

/-- Whether pair `k`'s fall record ends now. -/
def fallRecordEndsNow (s : State) (k : PairIndex) : Bool :=
  match (s.pairRuntime k).fall with
  | some f => after f.tick Config.fallRecordTicks == s.now
  | none => false

/-- Pair `k`'s fall record becomes absent 65,536 ticks after the fall (R74). -/
def endFallRecord (s : State) (k : PairIndex) : State :=
  if fallRecordEndsNow s k then s.withRuntime k { s.pairRuntime k with fall := none } else s

/-- Whether pair `k`'s deferred rise has its hold deadline now. -/
def holdEndsNow (s : State) (k : PairIndex) : Bool :=
  match (s.pairRuntime k).deferred with
  | some d => d.holdDeadline == some s.now
  | none => false

/-- Pair `k`'s hold deadline (R79). The pair's own guard end of this tick is taken first; a rise that it has not granted
is dropped and reported to its owner. -/
def holdEnd (w : Work) (k : PairIndex) : Work :=
  if holdEndsNow w.st k then
    let s := endGuard w.st k
    match (s.pairRuntime k).deferred with
    | none => ⟨s, w.out⟩
    | some d =>
      (Work.mk (s.withRuntime k { s.pairRuntime k with deferred := none }) w.out).emitTo d.owner
        (.riseDropped d.line .timeout k d.requestTick s.now none)
  else w

/-- The pairs 0 to `k`, in increasing index. -/
def pairsUpTo (k : PairIndex) : List PairIndex := everyPair.filter fun j => j.val ≤ k.val

/-- GUARD_END -/
def guardEndWork (k : PairIndex) (s : State) : State := (pairsUpTo k).foldl endGuard s

/-- FALL_RECORD_END -/
def fallRecordEndWork (k : PairIndex) (s : State) : State := (pairsUpTo k).foldl endFallRecord s

/-- HOLD_DEADLINE -/
def holdDeadlineWork (k : PairIndex) (s : State) : State := ((pairsUpTo k).foldl holdEnd (Work.of s)).done

/-! ### READ_OUTPUTS (R55) -/

/-- The driven lines: those at 0 or 1. -/
def State.drivenMask (s : State) : LineMask := lineSet fun l => s.level l != .z

/-- The lines at 1. -/
def State.levelMask (s : State) : LineMask := lineSet fun l => s.level l == .one

def serveReadOutputs : Serve := fun _ _ body _ s =>
  if body = [] then
    report (tickBytes s.now ++ maskBytes s.drivenMask ++ maskBytes s.levelMask ++ maskBytes s.deferredMask) s
  else refuse .eArg [] s

/-! ### PAIR_STATUS (R88) -/

/-- The fields of one pair: a presence byte for fall record, guard, deferred rise and hold deadline, then the fields in
R88's order (log entry 18); the runtime fields of an entry that is not valid read absent. No row of section 12.2 names the width
of the valid field: it takes 1 byte, as in a PAIR record (section 12.6), DEDUCED (log entry 18). -/
def pairReport (s : State) (k : PairIndex) : List Byte :=
  let c := s.pair k
  let r := if c.valid then s.pairRuntime k else PairRuntime.empty
  presence
      [r.fall.isSome, r.guard.isSome, r.deferred.isSome, (r.deferred.bind DeferredRise.holdDeadline).isSome]
    ++ tickBytes s.now ++ flagByte c.valid ++ byte1 c.a.val ++ byte1 c.b.val ++ byte2 c.guard ++ byte2 c.hold
    ++ byte1 (s.level c.a).code ++ byte1 (s.level c.b).code
    ++ optional 5 (r.fall.map fun f => byte1 f.line.val ++ tickBytes f.tick)
    ++ optional 5 (r.guard.map fun g => tickBytes g.ends ++ byte1 g.line.val)
    ++ optional 6 (r.deferred.map fun d => byte1 d.line.val ++ byte1 (ownerCode d.owner) ++ tickBytes d.requestTick)
    ++ optional 4 ((r.deferred.bind DeferredRise.holdDeadline).map tickBytes)

/-- The set of the pairs for which `f` holds: two bytes with pair i at bit i (section 12.2). -/
def pairSet (f : PairIndex → Bool) : BitVec 12 := maskOf f

/-- The lines whose deferred rise is ownerless. -/
def State.ownerlessMask (s : State) : LineMask :=
  lineSet fun l => everyPair.any fun k =>
    match (s.pairRuntime k).deferred with
    | some d => d.line == l && d.owner.isNone
    | none => false

/-- The summary that selector ALL asks for. That bits 15 to 12 of a set of pairs, where no pair stands, are 0 is a DESIGN CHOICE
(log entry 31). -/
def allPairsReport (s : State) : List Byte :=
  tickBytes s.now ++ byte2 (pairSet fun k => (s.pair k).valid).toNat
    ++ byte2 (pairSet fun k => (s.pairRuntime k).guard.isSome).toNat
    ++ maskBytes s.deferredMask ++ maskBytes s.ownerlessMask

def servePairStatus : Serve := fun _ _ body _ s =>
  match readSelector 12 body with
  | none => refuse .eArg [] s
  | some none => report (allPairsReport s) s
  | some (some k) => report (pairReport s k) s

/-! ### The rows -/

/-- READ_OUTPUTS (R55) -/
def execReadOutputs (p : Port) (mosi : List Byte) (s : State) : Host.Outcome State Fault Refusal :=
  .next (chipSelectRise (isRequest .readOutputs) serveReadOutputs p mosi s)

/-- PAIR_STATUS (R88) -/
def execPairStatus (p : Port) (mosi : List Byte) (s : State) : Host.Outcome State Fault Refusal :=
  .next (chipSelectRise (isRequest .pairStatus) servePairStatus p mosi s)

/-- GUARD_END (R74): the guards of pairs 0 to `k` that end at NOW, in increasing index (log entry 15). -/
def execGuardEnd (k : PairIndex) (s : State) : Host.Outcome State Fault Refusal :=
  .next (s.atTick (guardEndWork k))

/-- FALL_RECORD_END (R74): the fall records of pairs 0 to `k` that end at NOW (log entry 15). -/
def execFallRecordEnd (k : PairIndex) (s : State) : Host.Outcome State Fault Refusal :=
  .next (s.atTick (fallRecordEndWork k))

/-- HOLD_DEADLINE (R79): the hold deadlines of pairs 0 to `k` at NOW, in increasing index (log entry 15). -/
def execHoldDeadline (k : PairIndex) (s : State) : Host.Outcome State Fault Refusal :=
  .next (s.atTick (holdDeadlineWork k))

end Sys2Proof.Machine
end

