-- ==== Sys2Proof/Machine/Calendar.lean ====
section
/-! DEFINITION. The calendar (chapter 1): its collections, the freeing of slots, trims and purges, and the rows LIST and
QUERY_STEP. -/

namespace Sys2Proof.Machine

/-! ### Step records -/

/-- A record that waits PENDING with due `t`. -/
def StepRecord.withDue (st : StepRecord) (t : Tick) : StepRecord := { st with state := .pending t }

/-- A record with another window end. -/
def ArmPart.withWindow (a : ArmPart) (w : Option WindowEnd) : ArmPart := { a with window := w }

/-! ### The collections (R6, R8 to R10) -/

/-- The lead of the due of the step in slot `i`. -/
def State.dueLead (s : State) (i : SlotIndex) : Nat :=
  match (s.step i).bind StepRecord.due with
  | some t => lead t s.now
  | none => 0

/-- `i` put into a due list after every entry whose lead is not greater than its own (R9). -/
def insertDue (leadOf : SlotIndex → Nat) (i : SlotIndex) : List SlotIndex → List SlotIndex
  | [] => [i]
  | j :: rest => if leadOf i < leadOf j then i :: j :: rest else j :: insertDue leadOf i rest

/-- The step in slot `i` enters the due list with the due its record holds (R9). -/
def enterDue (i : SlotIndex) (s : State) : State := s.withDueList (insertDue s.dueLead i s.dueList)

/-- The step in slot `i` goes to the end of the armed list of line `l` (R10); the event that armed it is noted, for the
"after arming" condition of R57. -/
def enterArmed (i : SlotIndex) (l : InLine) (s : State) : State :=
  (s.withArmedList l (s.armedList l ++ [i])).withArmedThisTick (i :: s.armedThisTick)

/-- The step in slot `i` leaves the collection that holds it (R6, R7). -/
def leave (i : SlotIndex) (s : State) : State :=
  { s with
    dueList := s.dueList.filter (· ≠ i)
    armedSet := table fun l => (s.armedList l).filter (· ≠ i) }

/-- The record in slot `i` is replaced; the slot keeps its generation. -/
def putStep (i : SlotIndex) (st : StepRecord) (s : State) : State :=
  s.withSlot i { s.slot i with step := some st }

/-- Slot `i` is freed (R7): the step leaves its collection, the record is discarded, the generation moves on. -/
def freeSlot (i : SlotIndex) (s : State) : State :=
  let s' := leave i s
  (s'.withSlot i { generation := (s.slot i).generation + 1, step := none }).withArmedThisTick
    (s.armedThisTick.filter (· ≠ i))

/-- The slots of `is` are freed one after the other. -/
def freeSlots (is : List SlotIndex) (s : State) : State := is.foldl (fun s i => freeSlot i s) s

/-! ### Trimming and purging (R12, R13) -/

/-- The slots that hold a step of port `p`. -/
def State.slotsOf (s : State) (p : Port) : List SlotIndex := everySlot.filter (s.ownsStep p)

/-- The slots that hold a step. -/
def State.occupied (s : State) : List SlotIndex := everySlot.filter fun i => (s.step i).isSome

/-- A purge of every step of port `p`: lapse, CLOSE, STOP (R13). -/
def purge (p : Port) (s : State) : State := freeSlots (s.slotsOf p) s

/-- A purge of every step in the calendar: entry into FAULT (R13). -/
def purgeAll (s : State) : State := freeSlots s.occupied s

/-- The lines of a step's masks that a loss of the lines `m` takes away. -/
def trimmedLines (m : LineMask) (st : StepRecord) : BankMask :=
  (st.setMask ||| st.clearMask) &&& bankPart m st.bank

/-- A step without the lines of `m` (R12). -/
def trimStep (m : LineMask) (st : StepRecord) : StepRecord :=
  { st with
    setMask := st.setMask &&& ~~~(bankPart m st.bank)
    clearMask := st.clearMask &&& ~~~(bankPart m st.bank) }

/-- Whether the trim takes lines from the step in slot `i` of port `p`, and leaves both its masks empty. -/
def State.emptiedBy (s : State) (p : Port) (m : LineMask) (i : SlotIndex) : Bool :=
  match s.step i with
  | some st =>
    st.owner == p && trimmedLines m st != 0
      && ((trimStep m st).setMask == 0 && (trimStep m st).clearMask == 0)
  | none => false

/-- One slot's trim: masks lose the lines of `m`; a step left without any line is freed without a notice. -/
def trimSlot (p : Port) (m : LineMask) (s : State) (i : SlotIndex) : State :=
  match s.step i with
  | none => s
  | some st =>
    if st.owner = p ∧ trimmedLines m st ≠ 0 then
      if (trimStep m st).setMask = 0 ∧ (trimStep m st).clearMask = 0 then freeSlot i s else putStep i (trimStep m st) s
    else s

/-- Port `p` has lost the lines of `m`: each of its steps is trimmed (R12). -/
def trim (p : Port) (m : LineMask) (s : State) : State := everySlot.foldl (trimSlot p m) s

/-- How many steps that trim frees. -/
def State.trimCount (s : State) (p : Port) (m : LineMask) : Nat := everySlot.countP (s.emptiedBy p m)

/-! ### LIST (R16) -/

/-- Whether slot `i` holds a step whose owner passes the filter. -/
def State.passes (s : State) (filter : Option Port) (i : SlotIndex) : Bool :=
  match filter with
  | none => (s.step i).isSome
  | some p => s.ownsStep p i

/-- The matching slots from the start slot upward. -/
def State.listed (s : State) (start : SlotIndex) (filter : Option Port) : List SlotIndex :=
  everySlot.filter fun i => decide (start ≤ i) && s.passes filter i

/-- One more than the last slot reported when the search stopped on the fifteenth entry, and 64 otherwise. -/
def nextSlot (found : List SlotIndex) : Nat :=
  match found[Config.listEntries - 1]? with
  | some i => i.val + 1
  | none => 64

/-- One LIST entry (section 12.4). That bits 3 and 2 of its last byte, to which the spec gives no field, are 0 is a DESIGN CHOICE
(log entry 31). -/
def listEntry (s : State) (i : SlotIndex) : List Byte :=
  match s.step i with
  | none => []
  | some st =>
    handleBytes (s.handle i)
      ++ byte1 (64 * portCode st.owner + 16 * st.bank.val
          + 2 * (match st.kind with | .timed => 0 | .armed _ => 1) + st.isArmed.toNat)

def serveList : Serve := fun _ _ body _ s =>
  match readList body with
  | none => refuse .eArg [] s
  | some (start, filter) =>
    let found := s.listed start filter
    report
      (byte1 (everySlot.countP (s.passes filter)) ++ byte1 (nextSlot found)
        ++ (found.take Config.listEntries).flatMap (listEntry s)) s

/-! ### QUERY_STEP (R17) -/

/-- How many steps stand ahead of slot `i` in a list. -/
def rankIn (i : SlotIndex) (l : List SlotIndex) : Nat := (l.takeWhile (· ≠ i)).length

/-- The rank of the step in slot `i`: in the due list when PENDING, in its line's armed list when ARMED. -/
def State.rank (s : State) (i : SlotIndex) (st : StepRecord) : Nat :=
  match st.state, st.kind with
  | .pending _, _ => rankIn i s.dueList
  | .armed, .armed a => rankIn i (s.armedList a.line)
  | .armed, .timed => 0

/-- The arm part of a step of kind ARMED. -/
def StepRecord.arm (st : StepRecord) : Option ArmPart :=
  match st.kind with
  | .timed => none
  | .armed a => some a

/-- The trigger as three bytes of a descriptor (section 12.3). -/
def triggerBytes (a : ArmPart) : List Byte := byte1 (16 * a.edge.code + a.line.val) ++ byte2 a.delay

/-- The record of a step as QUERY_STEP reports it: presence bits 0 to 4 for due, trigger, arm tick, window end and period, bit
5 the reached marker (section 12.2). No row of section 12.2 names the width of the bank and of the run index: each takes 1
byte, as in a STEP_FIRED (section 12.5), DEDUCED (log entry 18). -/
def stepReport (s : State) (i : SlotIndex) (st : StepRecord) : List Byte :=
  presence
      [st.due.isSome, st.arm.isSome, st.arm.isSome, st.window.isSome, st.rep.isSome,
       ((st.window.map WindowEnd.reached).getD false)]
    ++ handleBytes (s.handle i) ++ byte1 (portCode st.owner) ++ byte1 st.bank.val
    ++ byte1 (match st.kind with | .timed => 0 | .armed _ => 1) ++ flagByte st.isArmed
    ++ [st.setMask, st.clearMask] ++ byte1 st.flags.code
    ++ optional 4 (st.due.map tickBytes)
    ++ optional 3 (st.arm.map triggerBytes)
    ++ optional 4 (st.arm.map fun a => tickBytes a.armTick)
    ++ optional 4 (st.window.map fun w => tickBytes w.tick)
    ++ byte1 st.placed.code ++ byte1 st.remaining.code
    ++ optional 3 (st.rep.map fun r => byte3 r.period)
    ++ byte1 st.runIndex ++ byte1 (s.rank i st)

/-- The step that a handle names, with its slot (R2). -/
def State.namedStep (s : State) (h : Handle) : Option (SlotIndex × StepRecord) :=
  match s.named h with
  | none => none
  | some i => (s.step i).map fun st => (i, st)

def serveQueryStep : Serve := fun _ _ body _ s =>
  match readHandle body with
  | none => refuse .eArg [] s
  | some h =>
    match slotOf h with
    | none => refuse .eArg [] s
    | some _ =>
      match s.namedStep h with
      | none => refuse .eNotFound [] s
      | some (i, st) => report (stepReport s i st) s

/-! ### The rows -/

/-- LIST (R16) -/
def execList (p : Port) (mosi : List Byte) (s : State) : Host.Outcome State Fault Refusal :=
  .next (chipSelectRise (isRequest .list) serveList p mosi s)

/-- QUERY_STEP (R17) -/
def execQueryStep (p : Port) (mosi : List Byte) (s : State) : Host.Outcome State Fault Refusal :=
  .next (chipSelectRise (isRequest .queryStep) serveQueryStep p mosi s)

end Sys2Proof.Machine
end

