-- ==== Sys2Proof/Machine/Firing.lean ====
section
/-! DEFINITION. The step executor (chapter 3) and the window ends of armed steps (chapter 4): what becomes of a step that
fires, the merge of one bank firing, its notices, and the rows BANK_FIRING, WINDOW_END and REACHED_MARKER. -/

namespace Sys2Proof.Machine

/-! ### What becomes of a step that fires (R44 to R47) -/

/-- What follows a step's firing. -/
inductive Aftermath where
  /-- it stays PENDING with this next due and these runs remaining (R44, R47) -/
  | repeats (due : Tick) (rep : Repeat)
  /-- its runs are used up and it returns to ARMED (R45, R62) -/
  | rearms
  /-- its runs are used up and its slot is freed (R46) -/
  | ends (reason : DoneReason)
deriving DecidableEq, Repr

/-- A firing's account of one step. -/
structure Settled where
  /-- the run index after this firing, before any re-arm resets it (R48) -/
  runIndex : Nat
  /-- the past runs skipped (R27) -/
  skipped : Nat
  after : Aftermath
deriving DecidableEq, Repr

/-- A run index holds at 255 (R5). -/
def capRun (n : Nat) : Nat := if n ≤ Config.runIndexMax then n else Config.runIndexMax

/-- Whether a step's window end has been reached at a firing at `now`: its marker is set, or W is the fire tick (R62). -/
def windowReached (st : StepRecord) (now : Tick) : Bool :=
  match st.window with
  | none => false
  | some w => w.reached || w.tick == now

/-- What follows a step's last run (R45, R46, R62). -/
def lastRun (st : StepRecord) (now : Tick) : Aftermath :=
  match st.kind with
  | .timed => .ends .completed
  | .armed _ =>
    if st.flags.rearm then (if windowReached st now then .ends .windowClosed else .rearms) else .ends .completed

/-- The account of a step that fires at `now` with due `due` (R27, R44, R47): with L the lateness and P the period, it
consumes m = L div P + 1 runs, limited to its runs remaining; without a repeat part its one run. -/
def settleRun (st : StepRecord) (due now : Tick) : Settled :=
  match st.rep with
  | none => { runIndex := capRun (st.runIndex + 1), skipped := 0, after := lastRun st now }
  | some r =>
    let m := lateness due now / r.period + 1
    let next := after due (m * r.period)
    match r.remaining with
    | .unbounded => { runIndex := capRun (st.runIndex + m), skipped := m - 1, after := .repeats next r }
    | .count n =>
      if m < n then
        { runIndex := capRun (st.runIndex + m), skipped := m - 1, after := .repeats next { r with remaining := .count (n - m) } }
      else { runIndex := capRun (st.runIndex + n), skipped := n - 1, after := lastRun st now }

/-- A step as a re-arm leaves it (R62). -/
def rearmed (st : StepRecord) (a : ArmPart) (now : Tick) : StepRecord :=
  { st with
    kind := .armed { a with armTick := now }
    state := .armed
    rep := st.rep.map fun r => { r with remaining := r.placed }
    runIndex := 0 }

/-- The calendar's part of a firing: the step in slot `i` leaves its collection and repeats, re-arms or is freed. -/
def settleSlot (i : SlotIndex) (st : StepRecord) (x : Settled) (s : State) : State :=
  match x.after with
  | .repeats due rep =>
    enterDue i (putStep i { st with state := .pending due, rep := some rep, runIndex := x.runIndex } (leave i s))
  | .rearms =>
    match st.kind with
    | .timed => freeSlot i s
    | .armed a => enterArmed i a.line (putStep i (rearmed st a s.now) (leave i s))
  | .ends _ => freeSlot i s

/-! ### The merge of one bank firing (R40 to R42) -/

/-- A step that fires: its slot, its handle and its record before the firing, and the due it fires for. -/
structure Firing where
  slot : SlotIndex
  handle : Handle
  record : StepRecord
  due : Tick
deriving DecidableEq, Repr

/-- The firing of the step in slot `i` for due `due`. -/
def State.firing (s : State) (i : SlotIndex) (st : StepRecord) (due : Tick) : Firing := ⟨i, s.handle i, st, due⟩

/-- Whether a step's masks name a position of its bank. -/
def Firing.names (f : Firing) (i : Position) : Bool := inMask f.record.setMask i || inMask f.record.clearMask i

/-- The step that decides a line: the last of the firing that names it (R40). -/
def decider (fs : List Firing) (i : Position) : Option Firing := fs.reverse.find? (·.names i)

/-- Whether the merged action on a position is CLEAR: the deciding step names it and its set mask does not. -/
def clears (fs : List Firing) (i : Position) : Bool :=
  match decider fs i with
  | none => false
  | some f => !inMask f.record.setMask i

/-- A bank firing as it applies its actions: the work so far, and the positions deferred or absorbed. -/
structure Merge where
  work : Work
  held : BankMask

/-- The merged SET action on a position, when it has one (R42). -/
def applySet (k : Bank) (fs : List Firing) (m : Merge) (i : Position) : Merge :=
  match decider fs i with
  | none => m
  | some f =>
    if inMask f.record.setMask i then
      let r := requestRise m.work.st (lineAt k i) (some f.record.owner)
      let w := reportDrop ⟨r.1, m.work.out⟩ (lineAt k i) (some f.record.owner) r.2
      match r.2 with
      | .deferred | .absorbed => ⟨w, m.held ||| maskOf fun j => j == i⟩
      | _ => ⟨w, m.held⟩
    else m

/-- The levels of one bank firing: every CLEAR first (R41), then the SETs in increasing position (R42). R41 gives the CLEARs of
one firing no order: they are taken in increasing position, which shows only where both lines of a pair with guard 0 are
cleared and one of them has a deferred rise. DESIGN CHOICE (log entry 26). -/
def applyBank (k : Bank) (fs : List Firing) (w : Work) : Merge :=
  let cleared := (everyPosition.filter (clears fs)).foldl (fun w i => clearLine w (lineAt k i)) w
  everyPosition.foldl (applySet k fs) ⟨cleared, 0⟩

/-- The positions that a step of the firing decides with SET. -/
def decidedSets (fs : List Firing) (f : Firing) : BankMask :=
  maskOf fun i => inMask f.record.setMask i && decider fs i == some f

/-- The notices of one step of a bank firing: STEP_FIRED when NOTE_EACH is set (R48), then STEP_DONE when it is freed with
NOTE_END set (R49). -/
def stepNotices (k : Bank) (fs : List Firing) (held : BankMask) (now : Tick) (f : Firing) : List Emit :=
  let x := settleRun f.record f.due now
  (if f.record.flags.noteEach then
    [(f.record.owner,
      Notice.stepFired f.handle now x.runIndex (lateness f.due now) k (decidedSets fs f &&& held))]
   else [])
  ++ (match x.after with
      | .ends reason =>
        if f.record.flags.noteEnd then [(f.record.owner, Notice.stepDone f.handle reason now x.runIndex)] else []
      | _ => [])

/-- One bank firing's levels and notices: the drops as they happen, then the steps' notices in the firing's order (R50). -/
def fireBank (fs : List Firing) (w : Work) (k : Bank) : Work :=
  let here := fs.filter (·.record.bank == k)
  let m := applyBank k here w
  ⟨m.work.st, m.work.out ++ here.flatMap (stepNotices k here m.held m.work.st.now)⟩

/-- The calendar's part of a firing, in the firing's order. -/
def settleAll (fs : List Firing) (s : State) : State :=
  fs.foldl (fun s f => settleSlot f.slot f.record (settleRun f.record f.due s.now) s) s

/-- Steps that one event fires: each is settled in the order the event gives (R9, R26, R58), and each bank they address
has its bank firing, in increasing bank number (R27, R60). -/
def fireSteps (fs : List Firing) (s : State) : Work :=
  everyBank.foldl (fireBank fs) (Work.of (settleAll fs s))

/-! ### BANK_FIRING (R39) -/

/-- The step of bank `k` in slot `i` as it fires at NOW, when it is PENDING and due now. -/
def dueFiring (s : State) (k : Bank) (i : SlotIndex) : Option Firing :=
  match s.step i with
  | none => none
  | some st => if st.bank = k ∧ st.due = some s.now then some (s.firing i st s.now) else none

/-- The due steps of bank `k`, in due-list order. -/
def State.dueFirings (s : State) (k : Bank) : List Firing := s.dueList.filterMap (dueFiring s k)

/-- BANK_FIRING: bank `k` fires its steps due at NOW; a bank with no due step has no bank firing (R39). -/
def bankFiringWork (k : Bank) (s : State) : State := (fireSteps (s.dueFirings k) s).done

/-! ### WINDOW_END (R63) and REACHED_MARKER (R64) -/

/-- The arm part of the ARMED step in slot `i` whose window end is NOW. -/
def closingNow (s : State) (i : SlotIndex) : Option (StepRecord × ArmPart) :=
  match s.step i with
  | none => none
  | some st =>
    match st.state, st.kind with
    | .armed, .armed a => if a.window.map WindowEnd.tick = some s.now then some (st, a) else none
    | _, _ => none

/-- One armed step's window end: the slot is freed and TRIGGER_TIMEOUT goes to its owner (R63, R65). -/
def closeWindow (w : Work) (i : SlotIndex) : Work :=
  match closingNow w.st i with
  | none => w
  | some (st, a) =>
    (Work.mk (freeSlot i w.st) w.out).emit (st.owner, .triggerTimeout (w.st.handle i) a.line a.armTick w.st.now)

/-- Every ARMED step, line by line in increasing input line number, within a line in armed-list order. -/
def State.armedInOrder (s : State) : List SlotIndex := everyInLine.flatMap s.armedList

/-- WINDOW_END: the ARMED steps whose window end is NOW (R63, log entry 15). -/
def windowEndWork (s : State) : State := (s.armedInOrder.foldl closeWindow (Work.of s)).done

/-- The PENDING REARM step in slot `i` whose window end is NOW, with its marker set (R64). -/
def markedNow (s : State) (i : SlotIndex) : Option StepRecord :=
  match s.step i with
  | none => none
  | some st =>
    match st.state, st.kind with
    | .pending _, .armed a =>
      match a.window with
      | some w =>
        if st.flags.rearm = true ∧ w.tick = s.now then
          some { st with kind := .armed { a with window := some { w with reached := true } } }
        else none
      | none => none
    | _, _ => none

/-- One slot's reached marker. -/
def markReached (s : State) (i : SlotIndex) : State :=
  match markedNow s i with
  | none => s
  | some st => putStep i st s

/-- REACHED_MARKER: the PENDING REARM steps whose window end is NOW are marked (R64, log entry 15). -/
def reachedMarkerWork (s : State) : State := everySlot.foldl markReached s

/-! ### The rows -/

/-- BANK_FIRING (R39) -/
def execBankFiring (k : Bank) (s : State) : Host.Outcome State Fault Refusal :=
  .next (s.atTick (bankFiringWork k))

/-- WINDOW_END (R63) -/
def execWindowEnd (s : State) : Host.Outcome State Fault Refusal :=
  .next (s.atTick windowEndWork)

/-- REACHED_MARKER (R64) -/
def execReachedMarker (s : State) : Host.Outcome State Fault Refusal :=
  .next (s.atTick reachedMarkerWork)

end Sys2Proof.Machine
end

