-- ==== Sys2Proof/Machine/Steps.lean ====
section
/-! DEFINITION. The four requests that change the calendar (chapter 2): PLACE, CANCEL, CANCEL_ALL and AMEND. -/

namespace Sys2Proof.Machine

/-! ### PLACE: the checks (R21 to R25) -/

/-- R22: the sender owns every line of the descriptor's masks. -/
def ownsMasks (s : State) (p : Port) (d : Descriptor) : Bool :=
  (d.setMask ||| d.clearMask) &&& ~~~(bankPart (s.ownedMask p) d.bank) == 0

/-- R23, R14: the sender's count with `i + 1` more steps is within its quota, and the calendar has the slots. -/
def quotaAllows (s : State) (p : Port) (i : Nat) : Bool :=
  decide (s.stepCount p + i + 1 ≤ s.quota p ∧ i + 1 ≤ s.freeSlots.length)

/-- R24: the refusal, if any, of a descriptor's timing. -/
def timingRefusal (s : State) (d : Descriptor) : Option Result :=
  match d.timing with
  | .timed due =>
    match timeClass due s.now with
    | .future => none
    | .late => if d.flags.lateOk then none else some .eLate
    | .far => some .eFar
  | .armed _ _ _ window =>
    match window with
    | none => none
    | some w =>
      match timeClass w s.now with
      | .future => none
      | _ => some .eFar

/-- The checks of descriptor `i`, in order: range, ownership, quota, timing (R25). -/
def checkDescriptor (s : State) (p : Port) (i : Nat) (raw : RawDescriptor) : Except Result Descriptor :=
  match readDescriptor raw (fun l => (s.input l).used) with
  | none => .error .eArg
  | some d =>
    if ownsMasks s p d = false then .error .eNotOwner
    else if quotaAllows s p i = false then .error .eQuota
    else
      match timingRefusal s d with
      | some e => .error e
      | none => .ok d

/-- The descriptors from index `i` on, checked one after the other; the first failure with its index ends it (R25). -/
def checkDescriptors (s : State) (p : Port) : Nat → List RawDescriptor → Except (Result × Nat) (List Descriptor)
  | _, [] => .ok []
  | i, raw :: rest =>
    match checkDescriptor s p i raw with
    | .error e => .error (e, i)
    | .ok d =>
      match checkDescriptors s p (i + 1) rest with
      | .error e => .error e
      | .ok ds => .ok (d :: ds)

/-! ### PLACE: acceptance (R26 to R28) -/

/-- The record that a descriptor places for port `p` at `now` (R26). -/
def recordOf (d : Descriptor) (p : Port) (now : Tick) : StepRecord :=
  { owner := p
    bank := d.bank
    setMask := d.setMask
    clearMask := d.clearMask
    kind :=
      match d.timing with
      | .timed _ => .timed
      | .armed line edge delay window =>
        .armed
          { line := line, edge := edge, delay := delay, armTick := now,
            window := window.map fun w => { tick := w, reached := false } }
    state :=
      match d.timing with
      | .timed due => .pending due
      | .armed .. => .armed
    rep := d.rep.map fun r => { placed := r.1, remaining := r.1, period := r.2 }
    runIndex := 0
    flags := d.flags }

/-- Each descriptor takes the lowest-numbered slot still free, in descriptor order (R1). Slots are occupied; the
collections are entered afterwards. -/
def takeSlots (p : Port) : List Descriptor → State → List (SlotIndex × StepRecord) × State
  | [], s => ([], s)
  | d :: ds, s =>
    match s.freeSlots with
    | [] => ([], s)
    | i :: _ =>
      let st := recordOf d p s.now
      let r := takeSlots p ds (putStep i st s)
      ((i, st) :: r.1, r.2)

/-- The due of a placed step that fires at acceptance: PENDING with a due that is not in the future (R24, R27). -/
def lateDue (now : Tick) (st : StepRecord) : Option Tick :=
  match st.state with
  | .armed => none
  | .pending due => if timeClass due now = .future then none else some due

/-- A placed step enters its collection: a future due the due list, an ARMED step its line's armed list, and a late one
what its catch-up leaves it (R26, R27). -/
def enterPlaced (s : State) (x : SlotIndex × StepRecord) : State :=
  match lateDue s.now x.2 with
  | some due => settleSlot x.1 x.2 (settleRun x.2 due s.now) s
  | none =>
    match x.2.state, x.2.kind with
    | .armed, .armed a => enterArmed x.1 a.line s
    | _, _ => enterDue x.1 s

/-- The late steps among the placed ones, as they fire at acceptance, in descriptor order (R27). -/
def lateFirings (s : State) (xs : List (SlotIndex × StepRecord)) : List Firing :=
  xs.filterMap fun x => (lateDue s.now x.2).map fun due => s.firing x.1 x.2 due

/-- The outcome codes of PLACE and AMEND (section 12.4): FIRED_LATE 1, DONE_LATE 2, REARMED_LATE 3; PLACED is 0. -/
def Aftermath.outcome : Aftermath → Nat
  | .repeats .. => 1
  | .ends _ => 2
  | .rearms => 3

/-- One descriptor's part of the OK reply: handle, outcome, lateness, skipped runs (R28, section 12.4). -/
def placedReport (s : State) (x : SlotIndex × StepRecord) : List Byte :=
  handleBytes (s.handle x.1)
    ++ (match lateDue s.now x.2 with
        | none => byte1 0 ++ byte4 0 ++ byte4 0
        | some due =>
          byte1 (settleRun x.2 due s.now).after.outcome ++ byte4 (lateness due s.now)
            ++ byte4 (settleRun x.2 due s.now).skipped)

/-- An accepted PLACE: slots, collections, then the late steps' bank firings (R26, R27, log entry 20). -/
def placeWork (p : Port) (ds : List Descriptor) (s : State) : Answer :=
  let r := takeSlots p ds s
  let fs := lateFirings r.2 r.1
  let w := everyBank.foldl (fireBank fs) (Work.of (r.1.foldl enterPlaced r.2))
  ⟨Result.ok.code :: r.1.flatMap (placedReport r.2), w.st, w.out⟩

def servePlace : Serve := fun p _ body _ s =>
  if s.phase ≠ .run then refuse .ePhase (byte1 0) s
  else
    match readPlace body with
    | none => refuse .eArg (byte1 0) s
    | some raws =>
      match checkDescriptors s p 0 raws with
      | .error (e, i) => refuse e (byte1 i) s
      | .ok ds => placeWork p ds s

/-! ### CANCEL and CANCEL_ALL (R30, R31) -/

/-- The check of one handle, with the handles before it in the same request. -/
def checkHandle (s : State) (p : Port) (before : List Handle) (h : Handle) : Except Result SlotIndex :=
  match slotOf h with
  | none => .error .eArg
  | some i =>
    if h ∈ before then .error .eArg
    else
      match s.namedStep h with
      | none => .error .eNotFound
      | some (_, st) => if st.owner = p then .ok i else .error .eNotOwner

/-- The handles in order, from index `i`; the first failure with its index ends it. -/
def checkHandles (s : State) (p : Port) : Nat → List Handle → List Handle → Except (Result × Nat) (List SlotIndex)
  | _, _, [] => .ok []
  | i, before, h :: rest =>
    match checkHandle s p before h with
    | .error e => .error (e, i)
    | .ok slot =>
      match checkHandles s p (i + 1) (before ++ [h]) rest with
      | .error e => .error e
      | .ok slots => .ok (slot :: slots)

def serveCancel : Serve := fun p _ body _ s =>
  if s.phase ≠ .run then refuse .ePhase (byte1 0) s
  else
    match readCancel body with
    | none => refuse .eArg (byte1 0) s
    | some hs =>
      match checkHandles s p 0 [] hs with
      | .error (e, i) => refuse e (byte1 i) s
      | .ok slots => ⟨Result.ok.code :: byte1 slots.length, freeSlots slots s, []⟩

/-- The slots of port `p`'s steps on the selected bank, or on every bank (R31). -/
def State.selected (s : State) (p : Port) (sel : Option Bank) : List SlotIndex :=
  everySlot.filter fun i =>
    match s.step i with
    | none => false
    | some st =>
      st.owner == p &&
        (match sel with
         | none => true
         | some k => st.bank == k)

def serveCancelAll : Serve := fun p _ body _ s =>
  if s.phase ≠ .run then refuse .ePhase [] s
  else
    match readSelector 3 body with
    | none => refuse .eArg [] s
    | some sel => ⟨Result.ok.code :: byte1 (s.selected p sel).length, freeSlots (s.selected p sel) s, []⟩

/-! ### AMEND (R32 to R34) -/

/-- The record that an AMEND leaves before its new due acts: the repeat part restarts when the request carries one. -/
def amended (st : StepRecord) (b : AmendBody) : StepRecord :=
  match b.rep with
  | none => { st with state := .pending b.due }
  | some (runs, period) =>
    { st with
      state := .pending b.due
      rep := some { placed := runs, remaining := runs, period := period }
      runIndex := 0 }

/-- The AMEND reply (section 12.4): outcome, presence (bit 0 due), due, runs remaining, lateness, skipped runs. -/
def amendReport (outcome : Nat) (due : Option Tick) (remaining : Byte) (late skipped : Nat) : List Byte :=
  byte1 outcome ++ presence [due.isSome] ++ optional 4 (due.map tickBytes) ++ [remaining] ++ byte4 late
    ++ byte4 skipped

/-- A runs field (section 12.2). -/
def Runs.byte (r : Runs) : Byte := BitVec.ofNat 8 r.code

/-- The due and the runs remaining that a late AMEND's reply reports (R34, log entry 8): those of the step after the
AMEND, and the free value of Config for a step that is gone. -/
def lateAmendFields (h : Handle) (st : StepRecord) (x : Settled) : Option Tick × Byte :=
  match x.after with
  | .repeats due rep => (some due, rep.remaining.byte)
  | .rearms => (none, st.placed.byte)
  | .ends _ => (none, Config.doneLateRuns h)

/-- An accepted AMEND of the step in slot `i`: a future due moves the step (R33), and a late one fires it once, by
catch-up (R34). -/
def amendWork (i : SlotIndex) (st : StepRecord) (b : AmendBody) (s : State) : Answer :=
  let st' := amended st b
  if timeClass b.due s.now = .future then
    ⟨Result.ok.code :: amendReport 0 (some b.due) st'.remaining.byte 0 0, enterDue i (putStep i st' (leave i s)), []⟩
  else
    let x := settleRun st' b.due s.now
    let w := fireSteps [s.firing i st' b.due] s
    ⟨Result.ok.code ::
        amendReport x.after.outcome (lateAmendFields b.handle st' x).1 (lateAmendFields b.handle st' x).2
          (lateness b.due s.now) x.skipped,
      w.st, w.out⟩

def serveAmend : Serve := fun p _ body _ s =>
  if s.phase ≠ .run then refuse .ePhase [] s
  else
    match readAmend body with
    | none => refuse .eArg [] s
    | some b =>
      match s.namedStep b.handle with
      | none => refuse .eNotFound [] s
      | some (i, st) =>
        if st.owner ≠ p then refuse .eNotOwner [] s
        else if st.isArmed = true then refuse .eState [] s
        else
          match timeClass b.due s.now with
          | .far => refuse .eFar [] s
          | .late => if st.flags.lateOk then amendWork i st b s else refuse .eLate [] s
          | .future => amendWork i st b s

/-! ### The rows -/

/-- PLACE (R19 to R28) -/
def execPlace (p : Port) (mosi : List Byte) (s : State) : Host.Outcome State Fault Refusal :=
  .next (chipSelectRise (isRequest .place) servePlace p mosi s)

/-- CANCEL (R30) -/
def execCancel (p : Port) (mosi : List Byte) (s : State) : Host.Outcome State Fault Refusal :=
  .next (chipSelectRise (isRequest .cancel) serveCancel p mosi s)

/-- CANCEL_ALL (R31) -/
def execCancelAll (p : Port) (mosi : List Byte) (s : State) : Host.Outcome State Fault Refusal :=
  .next (chipSelectRise (isRequest .cancelAll) serveCancelAll p mosi s)

/-- AMEND (R32 to R34) -/
def execAmend (p : Port) (mosi : List Byte) (s : State) : Host.Outcome State Fault Refusal :=
  .next (chipSelectRise (isRequest .amend) serveAmend p mosi s)

end Sys2Proof.Machine
end

