-- ==== Sys2Proof/Machine/Ownership.lean ====
section
/-! DEFINITION. Line ownership and claims (chapter 6): CLAIM, RELEASE, CLAIM_WITHDRAW, OWNERS, the freeing procedure and
the claim arbiter, and the row WAIT_DEADLINE. -/

namespace Sys2Proof.Machine

/-! ### Owners -/

/-- The owner field of every line of `m` becomes `o`, and the others keep theirs. -/
def setOwners (m : LineMask) (o : Option Port) (s : State) : State :=
  s.withOwners (table fun l => if inMask m l then o else s.owner l)

/-- Every line takes owner none (R106). -/
def clearOwners (s : State) : State := s.withOwners (table fun _ => none)

/-- The lines of `m` owned by a port other than `p`: the conflict set (R92). -/
def State.conflicts (s : State) (p : Port) (m : LineMask) : LineMask :=
  lineSet fun l => inMask m l && (s.owner l).isSome && s.owner l != some p

/-- The lines of `m` with owner none. -/
def State.freeIn (s : State) (m : LineMask) : LineMask := lineSet fun l => inMask m l && (s.owner l).isNone

/-- Lines are granted to port `p` (R92, R101): every free line of `m` takes `p` as owner, and the ownerless deferred rises
on the newly granted lines are withdrawn. No level changes. -/
def grantLines (p : Port) (m : LineMask) (s : State) : State :=
  withdrawOwnerless (s.freeIn m) (setOwners (s.freeIn m) (some p) s)

/-! ### The arbiter (R100 to R102) -/

/-- The port that follows in the cycle A, B, C, A. -/
def nextPort : Port → Port
  | .a => .b
  | .b => .c
  | .c => .a

/-- The order of a pass, fixed when it starts (R100). -/
def Arbiter.order (a : Arbiter) : List Port :=
  match a.mode with
  | .fixed => [a.first, a.second, a.third]
  | .rotating => [a.pointer, nextPort a.pointer, nextPort (nextPort a.pointer)]

/-- The pointer after a grant of a waiting claim to `p` (R102). -/
def Arbiter.granted (a : Arbiter) (p : Port) : Arbiter :=
  match a.mode with
  | .fixed => a
  | .rotating => { a with pointer := nextPort p }

/-- The turn of port `p` in a pass: its waiting claim is granted when every line of it is free or its own (R100, R101). -/
def arbiterTurn (w : Work) (p : Port) : Work :=
  match w.st.claim p with
  | none => w
  | some c =>
    if w.st.conflicts p c.mask = 0 then
      let s := ((grantLines p c.mask w.st).withClaim p none).withArbiter (w.st.arbiter.granted p)
      (Work.mk s w.out).emit (p, .claimGranted c.mask c.enqueued s.now (s.ownedMask p))
    else w

/-- One pass over the waiting claims (R100). -/
def arbiterPass (w : Work) : Work := w.st.arbiter.order.foldl arbiterTurn w

/-! ### The freeing procedure (R97) -/

/-- Orders 3 and 4: the deferred rises on the lines are withdrawn and the lines driven to their safe levels. -/
def surrender (m : LineMask) (s : State) : State := safeDrive m (withdrawOn m s)

/-- Orders 1 to 4 for RELEASE: owners cleared, steps trimmed, then `surrender`. -/
def freeReleased (p : Port) (m : LineMask) (s : State) : State :=
  surrender m (trim p m (setOwners m none s))

/-- Orders 1 to 4 for a lapse or a CLOSE, with every line that `p` owns: owners cleared, steps purged, then `surrender`. -/
def freeAll (p : Port) (s : State) : State :=
  surrender (s.ownedMask p) (purge p (setOwners (s.ownedMask p) none s))

/-! ### CLAIM (R91 to R94) -/

/-- The lines of `m` that are not used. -/
def State.unusedIn (s : State) (m : LineMask) : LineMask := m &&& ~~~s.usedMask

/-- The wait deadline of a claim: absent for a limit of 0 or no limit (R94). -/
def waitDeadlineOf (limit : Option Nat) (now : Tick) : Option Tick :=
  match limit with
  | none => none
  | some n => if n = 0 then none else some (after now n)

/-- A claim with a conflict and WAIT is put in the queue, unless the port already has one there
(R94). The QUEUED reply begins with a presence byte for its deadline (log entry 18). -/
def queueClaim (p : Port) (b : ClaimBody) (conflict : LineMask) (s : State) : Answer :=
  match s.claim p with
  | some c => refuse .eWaiting (maskBytes c.mask) s
  | none =>
    let c : Claim := { mask := b.mask, deadline := waitDeadlineOf b.limit s.now, enqueued := s.now }
    ⟨Result.queued.code :: (presence [c.deadline.isSome] ++ maskBytes conflict ++ optional 4 (c.deadline.map tickBytes)),
      s.withClaim p (some c), []⟩

def serveClaim : Serve := fun p _ body _ s =>
  if s.phase ≠ .run then refuse .ePhase [] s
  else
    match readClaim body with
    | none => refuse .eArg [] s
    | some b =>
      if b.mask = 0 then refuse .eArg [] s
      else if s.unusedIn b.mask ≠ 0 then refuse .eArg (maskBytes (s.unusedIn b.mask)) s
      else if b.limit.isSome = true ∧ b.flags.getLsbD 0 = false then refuse .eArg [] s
      else if 4 ≤ b.flags.toNat then refuse .eArg [] s
      else if s.conflicts p b.mask = 0 then
        let s' := grantLines p b.mask s
        ⟨Result.ok.code :: (maskBytes b.mask ++ maskBytes (s'.ownedMask p)), s', []⟩
      else if b.flags.getLsbD 0 then queueClaim p b (s.conflicts p b.mask) s
      else refuse .eHeld (maskBytes (s.conflicts p b.mask)) s

/-! ### RELEASE (R96 to R98) -/

/-- RELEASE. The reply reports the lines that the sender owns before the arbiter pass of the same event (log entry 16). -/
def serveRelease : Serve := fun p _ body _ s =>
  if s.phase ≠ .run then refuse .ePhase [] s
  else
    match readMask body with
    | none => refuse .eArg [] s
    | some m =>
      if m = 0 then refuse .eArg [] s
      else if m &&& ~~~(s.ownedMask p) ≠ 0 then refuse .eNotOwner (maskBytes (m &&& ~~~(s.ownedMask p))) s
      else
        let s' := freeReleased p m s
        let w := arbiterPass (Work.of s')
        ⟨Result.ok.code :: (maskBytes m ++ byte1 ((setOwners m none s).trimCount p m) ++ maskBytes (s'.ownedMask p)),
          w.st, w.out⟩

/-! ### CLAIM_WITHDRAW (R105) -/

def serveClaimWithdraw : Serve := fun p _ body _ s =>
  if s.phase ≠ .run then refuse .ePhase [] s
  else if body ≠ [] then refuse .eArg [] s
  else
    match s.claim p with
    | none => refuse .eNotFound [] s
    | some c => ⟨Result.ok.code :: (maskBytes c.mask ++ tickBytes c.enqueued), s.withClaim p none, []⟩

/-! ### The wait deadline (R103) -/

/-- Whether port `p`'s waiting claim has its deadline now. -/
def waitEndsNow (s : State) (p : Port) : Bool :=
  match s.claim p with
  | some c => c.deadline == some s.now
  | none => false

/-- WAIT_DEADLINE: the claim leaves the queue, with CLAIM_EXPIRED(TIMEOUT) to its port (R103, R107). -/
def waitDeadlineWork (p : Port) (s : State) : State :=
  match s.claim p with
  | none => s
  | some c =>
    if c.deadline = some s.now then
      ((Work.of (s.withClaim p none)).emit (p, .claimExpired .timeout c.mask c.enqueued s.now)).done
    else s

/-! ### OWNERS (R108, section 12.4) -/

/-- The owner codes: two bits for each line, OLn at bits 2n + 1 and 2n, in six bytes. -/
def ownerCodes (s : State) : Nat :=
  everyOutLine.foldr (fun l n => ownerCode (s.owner l) + 4 * n) 0

/-- One waiting claim as OWNERS packs it: mask, deadline as its lead at the read tick, enqueue tick. -/
def claimReport (now : Tick) (c : Claim) : List Byte :=
  maskBytes c.mask ++ optional 3 (c.deadline.map fun t => byte3 (lead t now)) ++ tickBytes c.enqueued

/-- The presence byte: bits 0 to 2 for the claims of A, B and C, bits 3 to 5 for their deadlines. -/
def claimPresence (s : State) : List Byte :=
  presence
    (everyPort.map (fun p => (s.claim p).isSome) ++ everyPort.map fun p => ((s.claim p).bind Claim.deadline).isSome)

/-- The OWNERS reply after its result code (section 12.4). That bits 4 to 2 of the byte of phase, mode and pointer and bits 7
and 6 of the rank byte, to which the spec gives no field, are 0 is a DESIGN CHOICE (log entry 31). -/
def ownersReport (s : State) : List Byte :=
  tickBytes s.now
    ++ byte1 (64 * s.phase.code + 32 * s.arbiter.mode.code + portCode s.arbiter.pointer)
    ++ byte1 (16 * portCode s.arbiter.first + 4 * portCode s.arbiter.second + portCode s.arbiter.third)
    ++ maskBytes s.usedMask ++ byte2 (ownerCodes s / 4294967296) ++ byte4 (ownerCodes s)
    ++ claimPresence s ++ everyPort.flatMap fun p => optional 10 ((s.claim p).map (claimReport s.now))

def serveOwners : Serve := fun _ _ body _ s =>
  if body = [] then report (ownersReport s) s else refuse .eArg [] s

/-! ### The rows -/

/-- CLAIM (R91 to R94) -/
def execClaim (p : Port) (mosi : List Byte) (s : State) : Host.Outcome State Fault Refusal :=
  .next (chipSelectRise (isRequest .claim) serveClaim p mosi s)

/-- CLAIM_WITHDRAW (R105) -/
def execClaimWithdraw (p : Port) (mosi : List Byte) (s : State) : Host.Outcome State Fault Refusal :=
  .next (chipSelectRise (isRequest .claimWithdraw) serveClaimWithdraw p mosi s)

/-- RELEASE (R96 to R98) -/
def execRelease (p : Port) (mosi : List Byte) (s : State) : Host.Outcome State Fault Refusal :=
  .next (chipSelectRise (isRequest .release) serveRelease p mosi s)

/-- OWNERS (R108) -/
def execOwners (p : Port) (mosi : List Byte) (s : State) : Host.Outcome State Fault Refusal :=
  .next (chipSelectRise (isRequest .owners) serveOwners p mosi s)

/-- WAIT_DEADLINE (R103) -/
def execWaitDeadline (p : Port) (s : State) : Host.Outcome State Fault Refusal :=
  .next (s.atTick (waitDeadlineWork p))

end Sys2Proof.Machine
end

