-- ==== Sys2Proof/Machine/Sessions.lean ====
section
/-! DEFINITION. Sessions and leases (chapter 7): OPEN, CLOSE, RENEW, the lapse, and STATUS (R178), which reports a port's
own view. -/

namespace Sys2Proof.Machine

/-! ### The end of a session (R115, R117) -/

/-- Every subscription of port `p` becomes NONE and every latch bit clear (R115, order 4). -/
def clearInputsOf (p : Port) (s : State) : State := s.withInputsOf p PortInputs.reset

/-- Port `p`'s reply cache is invalidated (R115, order 5). -/
def dropCache (p : Port) (s : State) : State := s.withPort p { s.port p with cache := none }

/-- Orders 2 to 5 of the lapse procedure, which a CLOSE carries out too. -/
def takeBack (p : Port) (s : State) : State :=
  dropCache p (clearInputsOf p (freeAll p (s.withClaim p none)))

/-- The ports that are sent a peer notice: the others whose session is OPEN with WATCH_PEERS set (R119). -/
def watchers (p : Port) (s : State) : List Port :=
  (otherPorts p).filter fun q => s.isOpen q && (s.session q).watch

/-- A notice to every watcher of `p`. -/
def Work.tellWatchers (w : Work) (p : Port) (x : Notice) : Work :=
  ⟨w.st, w.out ++ (watchers p w.st).map fun q => (q, x)⟩

/-! ### LAPSE (R114, R115) -/

/-- Whether port `p`'s session is OPEN with its lease deadline now. -/
def leaseEndsNow (s : State) (p : Port) : Bool :=
  match (s.session p).state with
  | .opened _ deadline => deadline == s.now
  | _ => false

/-- The lapse procedure of R115. -/
def lapseProcedure (p : Port) (s : State) : Work :=
  let lines := s.ownedMask p
  let steps := s.stepCount p
  let s' := takeBack p (s.withSession p { s.session p with state := .lapsed })
  arbiterPass
    (((Work.of s').emit (p, .lapsed s'.now lines steps)).tellWatchers p (.peerLapsed p s'.now lines))

/-- LAPSE: port `p`'s session lapses when NOW is its lease deadline (R114). -/
def lapseWork (p : Port) (s : State) : State :=
  if leaseEndsNow s p then (lapseProcedure p s).done else s

/-! ### OPEN (R111) -/

def serveOpen : Serve := fun p _ body _ s =>
  match readOpen body with
  | none => refuse .eArg [] s
  | some (period, watch) =>
    let deadline := after s.now period
    ⟨Result.ok.code :: (tickBytes s.now ++ tickBytes deadline ++ byte1 s.phase.code),
      dropCache p (s.withSession p { state := .opened period deadline, watch := watch }), []⟩

/-! ### CLOSE (R117, R118) -/

/-- CLOSE from OPEN: orders 1 to 8 of the lapse procedure with R117's three differences. -/
def closeWork (p : Port) (s : State) : Answer :=
  let lines := s.ownedMask p
  let steps := s.stepCount p
  let s' := takeBack p (s.withSession p { state := .closed, watch := false })
  let w := arbiterPass ((Work.of s').tellWatchers p (.peerClosed p s'.now lines))
  ⟨Result.ok.code :: (maskBytes lines ++ byte1 steps), w.st, w.out⟩

def serveClose : Serve := fun p _ body _ s =>
  if body ≠ [] then refuse .eArg [] s
  else
    match (s.session p).state with
    | .opened _ _ => closeWork p s
    | _ =>
      ⟨Result.ok.code :: (maskBytes 0 ++ byte1 0), s.withSession p { state := .closed, watch := false }, []⟩

/-! ### RENEW (R113) -/

/-- The lease deadline of a session, when it is OPEN. -/
def Session.deadline (x : Session) : Option Tick :=
  match x.state with
  | .opened _ d => some d
  | _ => none

/-- The lease period of a session, when it is OPEN. -/
def Session.period (x : Session) : Option Nat :=
  match x.state with
  | .opened n _ => some n
  | _ => none

def serveRenew : Serve := fun p _ body _ s =>
  if body ≠ [] then refuse .eArg [] s
  else
    report
      (tickBytes s.now ++ optional 4 ((s.session p).deadline.map tickBytes) ++ optional 3 ((s.session p).period.map byte3)) s

/-! ### STATUS (R178) -/

/-- The flags byte of the STATUS reply: OVERRUN, NOTICE_LOSS and EDGES_HELD at bits 6, 5 and 4 (section 12.2). That bits 7 and 3
to 0, to which the spec gives no field here, are 0 is a DESIGN CHOICE (log entry 31). -/
def statusFlags (s : State) (p : Port) : Nat :=
  64 * (s.port p).overrun.toNat + 32 * (s.port p).noticeLoss.toNat + 16 * (s.edgesHeld p).toNat

/-- The STATUS reply after its result code: presence bits for lease period, lease remaining, waiting claim and its wait
deadline (log entry 9), then R178's fields, all as they stand in `s`, the state when the request is taken (log entry 19). No row
of section 12.2 names the width of the quota or of the next notice sequence: the quota takes 1 byte, as in a QUOTA record (section
12.6), and the sequence 1 byte, as the TAG of a notice (section 12.1), DEDUCED (log entry 18). -/
def statusReport (s : State) (p : Port) : List Byte :=
  presence
      [(s.session p).period.isSome, (s.session p).deadline.isSome, (s.claim p).isSome,
       ((s.claim p).bind Claim.deadline).isSome]
    ++ byte1 s.phase.code ++ byte1 (s.session p).state.code
    ++ optional 3 ((s.session p).period.map byte3)
    ++ optional 3 ((s.session p).deadline.map fun t => byte3 (lead t s.now))
    ++ byte1 (s.stepCount p) ++ byte1 (s.quota p) ++ maskBytes (s.ownedMask p)
    ++ optional 3 ((s.claim p).map fun c => maskBytes c.mask)
    ++ optional 4 (((s.claim p).bind Claim.deadline).map tickBytes)
    ++ optional 4 ((s.claim p).map fun c => tickBytes c.enqueued)
    ++ byte1 (statusFlags s p) ++ byte1 (s.port p).queue.length ++ [(s.port p).sequence]

/-- STATUS reports the state from before its renewal, and then clears OVERRUN and NOTICE_LOSS. -/
def serveStatus : Serve := fun p _ body before s =>
  if body ≠ [] then refuse .eArg [] s
  else
    ⟨Result.ok.code :: statusReport before p, s.withPort p { s.port p with overrun := false, noticeLoss := false }, []⟩

/-! ### The rows -/

/-- STATUS (R178) -/
def execStatus (p : Port) (mosi : List Byte) (s : State) : Host.Outcome State Fault Refusal :=
  .next (chipSelectRise (isRequest .status) serveStatus p mosi s)

/-- OPEN (R111) -/
def execOpen (p : Port) (mosi : List Byte) (s : State) : Host.Outcome State Fault Refusal :=
  .next (chipSelectRise (isRequest .openSession) serveOpen p mosi s)

/-- CLOSE (R117, R118) -/
def execClose (p : Port) (mosi : List Byte) (s : State) : Host.Outcome State Fault Refusal :=
  .next (chipSelectRise (isRequest .closeSession) serveClose p mosi s)

/-- RENEW (R113) -/
def execRenew (p : Port) (mosi : List Byte) (s : State) : Host.Outcome State Fault Refusal :=
  .next (chipSelectRise (isRequest .renew) serveRenew p mosi s)

/-- LAPSE (R114, R115): no session lapses while the clock-presence flag is clear. -/
def execLapse (p : Port) (s : State) : Host.Outcome State Fault Refusal :=
  .next (s.atTick (lapseWork p))

end Sys2Proof.Machine
end

