-- ==== Sys2Proof/Machine/Inputs.lean ====
section
/-! DEFINITION. The input conditioner (chapter 8) and the matching of edges against armed steps (chapter 4): sampling,
edge events, subscriptions, pending latches, and READ_INPUTS. -/

namespace Sys2Proof.Machine

/-! ### Sampling (R126) -/

/-- One sample of a used line with filter `f` at tick `now`: the first case of R126's table that holds. In the fourth
case the edge event that the sample produces is left for EDGE_EVENT to take (log entry 4). -/
def sampleFilter (f : Nat) (now : Tick) (level : Bool) (x : Filter) : Filter :=
  match x.accepted with
  | none => { x with accepted := some level, runCount := 0, lastSample := some level }
  | some a =>
    if level = a then { x with runCount := 0, runStart := none, lastSample := some level }
    else if x.runCount + 1 ≤ f then
      { x with
        runCount := x.runCount + 1
        runStart := if x.runCount = 0 then some now else x.runStart
        lastSample := some level }
    else { x with lastSample := some level, edgeDue := true }

/-- At a tick arrival every used line is sampled; an unused line is not. -/
def sampleInputs (s : State) : State :=
  { s with
    filters := table fun l =>
      if (s.input l).used then sampleFilter (s.input l).filter s.now (inMask s.pins l) (s.filter l) else s.filter l }

/-! ### Serving an edge to the armed set (R57 to R60) -/

/-- An edge event (R128). -/
structure Edge where
  line : InLine
  direction : Direction
  stamp : Tick
deriving DecidableEq, Repr

/-- Whether the trigger's edge kind takes the direction. -/
def TriggerEdge.takes (e : TriggerEdge) (d : Direction) : Bool :=
  match e, d with
  | .either, _ => true
  | .rise, .rise => true
  | .fall, .fall => true
  | _, _ => false

/-- The ARMED step in slot `i`, when the edge matches it (R57). -/
def matched (s : State) (e : Edge) (i : SlotIndex) : Option (StepRecord × ArmPart) :=
  match s.step i with
  | none => none
  | some st =>
    match st.state, st.kind with
    | .armed, .armed a =>
      if a.line = e.line ∧ a.edge.takes e.direction = true ∧ i ∉ s.armedThisTick
          ∧ a.window.map WindowEnd.tick ≠ some s.now then some (st, a)
      else none
    | _, _ => none

/-- A triggered step: its slot, its record as PENDING with the trigger due, that due, and whether it is in the future. -/
structure Triggered where
  slot : SlotIndex
  record : StepRecord
  due : Tick
  future : Bool

/-- The step in slot `i` as the edge triggers it: due stamp + delay (R59), which is in the future exactly when the delay
is greater than the age of the stamp. -/
def triggerOf (s : State) (e : Edge) (i : SlotIndex) : Option Triggered :=
  (matched s e i).map fun x =>
    let due := after e.stamp x.2.delay
    { slot := i, record := { x.1 with state := .pending due }, due := due,
      future := decide (lateness e.stamp s.now < x.2.delay) }

/-- A triggered step leaves the armed set: with a future due it enters the due list, otherwise it fires now and is
settled by its catch-up (R59, R60). -/
def enterTriggered (s : State) (t : Triggered) : State :=
  if t.future then enterDue t.slot (putStep t.slot t.record (leave t.slot s))
  else settleSlot t.slot t.record (settleRun t.record t.due s.now) s

/-- The calendar serves the edge (R58, R60): the matching steps of the line's armed list, in list order. R60 takes the bank
firings of one edge in increasing bank number, and no rule orders the steps of different banks that the same edge fires and
re-arms: they rejoin the armed list (R10) in the order in which they stood there. DESIGN CHOICE (log entry 25). -/
def serveEdge (e : Edge) (s : State) : Work :=
  let ts := (s.armedList e.line).filterMap (triggerOf s e)
  let fs := (ts.filter fun t => !t.future).map fun t => s.firing t.slot t.record t.due
  everyBank.foldl (fireBank fs) (Work.of (ts.foldl enterTriggered s))

/-! ### Offering an edge to the ports (R132) -/

/-- Whether a subscription takes the direction (R129). -/
def Subscription.takes (x : Subscription) (d : Direction) : Bool :=
  match x, d with
  | .both, _ => true
  | .rise, .rise => true
  | .fall, .fall => true
  | _, _ => false

/-- The edge is folded into port `p`'s pending latch. -/
def foldEdge (s : State) (p : Port) (e : Edge) : State :=
  let x := s.inputsOf p
  let bit : InputMask := maskOf fun l => l == e.line
  s.withInputsOf p
    (match e.direction with
     | .rise => { x with rises := x.rises ||| bit }
     | .fall => { x with falls := x.falls ||| bit })

/-- The edge is offered to port `p`: an EDGE notice while no latch bit is set and the queue admits it, a fold otherwise. -/
def offerEdge (e : Edge) (s : State) (p : Port) : State :=
  if s.isOpen p && (s.subscription p e.line).takes e.direction then
    if s.edgesHeld p = false ∧ s.admits p = true then s.pushNotice p (.edge e.line e.direction e.stamp s.now)
    else foldEdge s p e
  else s

/-! ### EDGE_EVENT (R128) -/

/-- The edge that line `l`'s filter run has completed at this tick, when its event has not been taken yet. -/
def edgeDue (s : State) (l : InLine) : Option Edge :=
  match (s.filter l).edgeDue, (s.filter l).accepted with
  | true, some a =>
    some { line := l, direction := if a then .fall else .rise, stamp := (s.filter l).runStart.getD s.now }
  | _, _ => none

/-- The filter after its edge: the accepted level is the other one, and the run is over (R126). -/
def acceptEdge (x : Filter) : Filter :=
  { x with accepted := x.accepted.map (!·), runCount := 0, runStart := none, edgeDue := false }

/-- EDGE_EVENT: the accepted level changes, the calendar serves the edge, and then each port is offered it. -/
def edgeEventWork (l : InLine) (s : State) : State :=
  match edgeDue s l with
  | none => s
  | some e => everyPort.foldl (offerEdge e) (serveEdge e (s.withFilter l (acceptEdge (s.filter l)))).done

/-! ### SUBSCRIBE (R130) -/

/-- Whether a kind covers a latch bit of the direction. -/
def Subscription.covers (x : Subscription) (d : Direction) : Bool := x.takes d

/-- The lines of `m` take subscription `k`, and lose the latch bits it does not cover. -/
def subscribeTo (m : InputMask) (k : Subscription) (x : PortInputs) : PortInputs :=
  { subscriptions := table fun l => if inMask m l then k else tget x.subscriptions l
    rises := if k.covers .rise then x.rises else x.rises &&& ~~~m
    falls := if k.covers .fall then x.falls else x.falls &&& ~~~m }

/-- The used input lines. -/
def State.usedInputs (s : State) : InputMask := maskOf fun l => (s.input l).used

/-- The eight subscriptions of a port, IL0 first. -/
def subscriptionBytes (x : PortInputs) : List Byte := everyInLine.flatMap fun l => byte1 (tget x.subscriptions l).code

def serveSubscribe : Serve := fun p _ body _ s =>
  match readSubscribe body with
  | none => refuse .eArg [] s
  | some (m, k) =>
    if k ≠ .none ∧ m &&& ~~~s.usedInputs ≠ 0 then refuse .eArg [m &&& ~~~s.usedInputs] s
    else
      let x := subscribeTo m k (s.inputsOf p)
      ⟨Result.ok.code :: (subscriptionBytes x ++ [x.rises, x.falls]), s.withInputsOf p x, []⟩

/-! ### CLEAR_PENDING (R136) -/

def serveClearPending : Serve := fun p _ body _ s =>
  match readByte body with
  | none => refuse .eArg [] s
  | some m =>
    let x := s.inputsOf p
    ⟨[Result.ok.code, x.rises &&& m, x.falls &&& m],
      s.withInputsOf p { x with rises := x.rises &&& ~~~m, falls := x.falls &&& ~~~m }, []⟩

/-! ### READ_INPUTS (R138) -/

/-- The used lines whose filter state has the property. -/
def State.inputSet (s : State) (f : Filter → Bool) : InputMask :=
  maskOf fun l => (s.input l).used && f (s.filter l)

def inputsReport (s : State) (p : Port) : List Byte :=
  tickBytes s.now
    ++ [s.usedInputs, s.inputSet (·.accepted.isSome), s.inputSet (·.accepted == some true),
        s.inputSet (·.lastSample == some true), s.inputSet (decide <| 0 < ·.runCount)]
    ++ subscriptionBytes (s.inputsOf p) ++ [(s.inputsOf p).rises, (s.inputsOf p).falls]

def serveReadInputs : Serve := fun p _ body _ s =>
  if body = [] then report (inputsReport s p) s else refuse .eArg [] s

/-! ### The rows -/

/-- EDGE_EVENT (R128) -/
def execEdgeEvent (l : InLine) (s : State) : Host.Outcome State Fault Refusal :=
  .next (if s.inReset then s else edgeEventWork l s)

/-- SUBSCRIBE (R130) -/
def execSubscribe (p : Port) (mosi : List Byte) (s : State) : Host.Outcome State Fault Refusal :=
  .next (chipSelectRise (isRequest .subscribe) serveSubscribe p mosi s)

/-- CLEAR_PENDING (R136) -/
def execClearPending (p : Port) (mosi : List Byte) (s : State) : Host.Outcome State Fault Refusal :=
  .next (chipSelectRise (isRequest .clearPending) serveClearPending p mosi s)

/-- READ_INPUTS (R138) -/
def execReadInputs (p : Port) (mosi : List Byte) (s : State) : Host.Outcome State Fault Refusal :=
  .next (chipSelectRise (isRequest .readInputs) serveReadInputs p mosi s)

end Sys2Proof.Machine
end

