-- ==== Sys2Proof/Machine/Configuration.lean ====
section
/-! DEFINITION. The configuration store (chapter 10, R154 to R159): the six CONFIG_WRITE rows and CONFIG_READ. -/

namespace Sys2Proof.Machine

/-! ### Consistency checks (R155 to R158) -/

/-- The other valid pair, of an index other than `i`, in which line `l` stands. -/
def otherPairOf (s : State) (i : PairIndex) (l : OutLine) : Option PairIndex :=
  everyPair.find? fun k => k != i && (s.pair k).valid && (s.pair k).holds l

/-- R156: the refusal, if any, of an OUTPUT_LINE write of line `n`. -/
def outputConflict (s : State) (n : OutLine) (used safe : Bool) : Option (ConfigReason × Nat) :=
  match s.pairOf n with
  | none => none
  | some k =>
    let x := (s.pair k).partner n
    if used = false then some (.pairedLine, k.val)
    else if safe = true ∧ ((s.output x).safe = true ∨ s.level x = .one) then some (.bothActive, k.val)
    else none

/-- Which of two items an E_CONFIG reply names: the one there is, and a free choice when there are two (log entry 1). -/
def pickItem (second : Bool) (x y : Option Nat) : Option Nat :=
  match x, y with
  | some i, some j => some (if second then j else i)
  | some i, none => some i
  | none, o => o

/-- The item of UNUSED_LINE: the unused line of the two. -/
def unusedItem (s : State) (c : PairConfig) : Option Nat :=
  pickItem (Config.namesSecondUnused c.a c.b)
    (if (s.output c.a).used then none else some c.a.val)
    (if (s.output c.b).used then none else some c.b.val)

/-- The item of PAIR_OVERLAP: the other valid pair in which a line of the record stands. -/
def overlapItem (s : State) (i : PairIndex) (c : PairConfig) : Option Nat :=
  match otherPairOf s i c.a, otherPairOf s i c.b with
  | some j, some k => some (if Config.namesSecondOverlap j k then k.val else j.val)
  | some j, none => some j.val
  | none, some k => some k.val
  | none, none => none

/-- R157: the refusal, if any, of a PAIR write of index `i`; the first check that fails. -/
def pairConflict (s : State) (i : PairIndex) (c : PairConfig) : Option (ConfigReason × Nat) :=
  if c.valid = false then none
  else if c.a = c.b then some (.selfPair, c.a.val)
  else
    match unusedItem s c with
    | some n => some (.unusedLine, n)
    | none =>
      match overlapItem s i c with
      | some n => some (.pairOverlap, n)
      | none =>
        if ((s.output c.a).safe = true ∧ (s.output c.b).safe = true) ∨ (s.level c.a = .one ∧ s.level c.b = .one) then
          some (.bothActive, i.val)
        else none

/-! ### The effects of the six writes -/

/-- The clock as a TIMEBASE write leaves it (R144): NOW and the µs count keep their values, the prescaler and gap counts restart,
and the flag is set unless the source stays TCLK. -/
def rewrittenClock (source : Source) (divider lossWindow : Nat) (c : Clock) : Clock :=
  { source := source
    divider := divider
    lossWindow := lossWindow
    prescaler := 0
    gap := 0
    microseconds := c.microseconds
    present :=
      match source, c.source with
      | .tclk, .tclk => c.present
      | _, _ => true
    tickDue := false }

/-- TIMEBASE (R144). Where the last oscillator period has brought a tick or a loss that is not taken yet, the write comes first
at that moment and the period after it: the restarted counts count that period anew (R141, R145, log entry 3). -/
def writeTimebase (source : Source) (divider lossWindow : Nat) (s : State) : State :=
  let c := rewrittenClock source divider lossWindow s.clock
  s.withClock (if s.periodPending then countSource c else c)

/-- OUTPUT_LINE (R156): the line is driven directly to its new state, and the record stored. -/
def writeOutputLine (n : OutLine) (used safe : Bool) (s : State) : State :=
  (driveLine n (configuredLevel { used := used, safe := safe }) s).withOutput n { used := used, safe := safe }

/-- A filter whose run an INPUT_LINE write cuts off (R127). -/
def cutRun (x : Filter) : Filter := { x with runCount := 0, runStart := none, edgeDue := false }

/-- The filter state after an INPUT_LINE write with filter `f` at tick `now` (R127). Where this tick's sample had completed a
run and its edge is not taken yet, the write comes first at that moment and the sample after it: it is judged anew, against
the cut run and the new filter (R126, log entry 4). -/
def writtenFilter (used : Bool) (f : Nat) (now : Tick) (x : Filter) : Filter :=
  if used then
    match x.edgeDue, x.lastSample with
    | true, some level => sampleFilter f now level (cutRun x)
    | _, _ => cutRun x
  else Filter.reset

/-- One port's subscription and latch bits of a line that becomes unused (R127). -/
def unsubscribeLine (n : InLine) (x : PortInputs) : PortInputs :=
  { subscriptions := tset x.subscriptions n .none
    rises := x.rises &&& ~~~(maskOf fun l => l == n)
    falls := x.falls &&& ~~~(maskOf fun l => l == n) }

/-- INPUT_LINE (R127). -/
def writeInputLine (n : InLine) (used : Bool) (filter : Nat) (s : State) : State :=
  let s' := (s.withInput n { used := used, filter := filter }).withFilter n (writtenFilter used filter s.now (s.filter n))
  if used then s'
  else everyPort.foldl (fun t p => t.withInputsOf p (unsubscribeLine n (t.inputsOf p))) s'

/-- The runtime of a pair under its new record (R86): a fall record of one of its lines is kept and the guard computed
afresh from it; otherwise both are absent. -/
def settledRuntime (c : PairConfig) (now : Tick) (r : PairRuntime) : PairRuntime :=
  match r.fall with
  | none => { r with guard := none }
  | some f =>
    if c.valid = true ∧ c.holds f.line = true then
      { r with
        guard := if lateness f.tick now < c.guard then some ⟨after f.tick c.guard, c.partner f.line⟩ else none }
    else { r with fall := none, guard := none }

/-- PAIR (R157): the record is stored and the pair's runtime settled. -/
def writePair (i : PairIndex) (c : PairConfig) (s : State) : State :=
  (s.withPair i c).withRuntime i (settledRuntime c s.now (s.pairRuntime i))

/-- ARBITER (R158): mode and rank; the rotation pointer keeps its value. -/
def writeArbiter (mode : ArbiterMode) (first second third : Port) (s : State) : State :=
  s.withArbiter { mode := mode, first := first, second := second, third := third, pointer := s.arbiter.pointer }

/-- The refusal, if any, of a write that is not consistent with the rest of the configuration (R155, last check). -/
def recordConflict (s : State) (r : Record) : Option (ConfigReason × Nat) :=
  match r with
  | .outputLine n used safe => outputConflict s n used safe
  | .pair i c => pairConflict s i c
  | .quota a b c => if 64 < a + b + c then some (.quotaSum, a + b + c) else none
  | _ => none

/-- The effect of an accepted write. -/
def writeRecord (r : Record) (s : State) : State :=
  match r with
  | .timebase source divider window => writeTimebase source divider window s
  | .outputLine n used safe => writeOutputLine n used safe s
  | .inputLine n used filter => writeInputLine n used filter s
  | .pair i c => writePair i c s
  | .quota a b c => s.withQuotas ⟨a, b, c⟩
  | .arbiter mode p q r => writeArbiter mode p q r s

/-- CONFIG_WRITE (R155), after the session and FAULT tests. -/
def serveConfigWrite : Serve := fun _ _ body _ s =>
  if s.phase ≠ .setup then refuse .ePhase [] s
  else
    match readRecord body with
    | none => refuse .eArg [] s
    | some r =>
      match recordConflict s r with
      | some (reason, item) => refuse .eConfig (byte1 reason.code ++ byte1 item) s
      | none => ⟨Result.ok.code :: r.bytes, writeRecord r s, []⟩

/-- The row of a CONFIG_WRITE of record kind `k`. A frame without a record kind, or with one outside the six, is refused
the same whichever of the six rows takes it (log entry 10). -/
def isConfigWrite (k : Nat) (inbound : Inbound) (_ : Transfer) (_ : State) : Bool :=
  match inbound with
  | .frame kind _ body _ =>
    requestOf kind == some .configWrite &&
      (match body with
       | [] => true
       | b :: _ => decide (b.toNat = k ∨ 5 < b.toNat))
  | _ => false

/-! ### CONFIG_READ (R159) -/

/-- A record as stored. -/
def storedRecord (s : State) (n : RecordName) : Record :=
  match n with
  | .timebase => .timebase s.clock.source s.clock.divider s.clock.lossWindow
  | .outputLine l => .outputLine l (s.output l).used (s.output l).safe
  | .inputLine l => .inputLine l (s.input l).used (s.input l).filter
  | .pair k => .pair k (s.pair k)
  | .quota => .quota (s.quota .a) (s.quota .b) (s.quota .c)
  | .arbiter => .arbiter s.arbiter.mode s.arbiter.first s.arbiter.second s.arbiter.third

def serveConfigRead : Serve := fun _ _ body _ s =>
  match readRecordName body with
  | none => refuse .eArg [] s
  | some n => report (storedRecord s n).bytes s

/-! ### The rows -/

/-- CONFIG_WRITE of the TIMEBASE record (R144, R155) -/
def execConfigWriteTimebase (p : Port) (mosi : List Byte) (s : State) : Host.Outcome State Fault Refusal :=
  .next (chipSelectRise (isConfigWrite 0) serveConfigWrite p mosi s)

/-- CONFIG_WRITE of an OUTPUT_LINE record (R155, R156) -/
def execConfigWriteOutputLine (p : Port) (mosi : List Byte) (s : State) : Host.Outcome State Fault Refusal :=
  .next (chipSelectRise (isConfigWrite 1) serveConfigWrite p mosi s)

/-- CONFIG_WRITE of an INPUT_LINE record (R127, R155, R158) -/
def execConfigWriteInputLine (p : Port) (mosi : List Byte) (s : State) : Host.Outcome State Fault Refusal :=
  .next (chipSelectRise (isConfigWrite 2) serveConfigWrite p mosi s)

/-- CONFIG_WRITE of a PAIR record (R86, R155, R157) -/
def execConfigWritePair (p : Port) (mosi : List Byte) (s : State) : Host.Outcome State Fault Refusal :=
  .next (chipSelectRise (isConfigWrite 3) serveConfigWrite p mosi s)

/-- CONFIG_WRITE of the QUOTA record (R155, R158) -/
def execConfigWriteQuota (p : Port) (mosi : List Byte) (s : State) : Host.Outcome State Fault Refusal :=
  .next (chipSelectRise (isConfigWrite 4) serveConfigWrite p mosi s)

/-- CONFIG_WRITE of the ARBITER record (R155, R158) -/
def execConfigWriteArbiter (p : Port) (mosi : List Byte) (s : State) : Host.Outcome State Fault Refusal :=
  .next (chipSelectRise (isConfigWrite 5) serveConfigWrite p mosi s)

/-- CONFIG_READ (R159) -/
def execConfigRead (p : Port) (mosi : List Byte) (s : State) : Host.Outcome State Fault Refusal :=
  .next (chipSelectRise (isRequest .configRead) serveConfigRead p mosi s)

end Sys2Proof.Machine
end

