-- ==== Sys2Proof/Machine/Phases.lean ====
section
/-! DEFINITION. Phase control (chapter 10, R151 to R165): START, STOP, CLEAR_FAULT and the entry into FAULT. -/

namespace Sys2Proof.Machine

/-- PHASE_CHANGE to the OPEN sessions among `ps` (R165). -/
def Work.tellPhase (w : Work) (ps : List Port) (cause : PhaseCause) (requester : Option Port) : Work :=
  w.emitOpen ps (.phaseChange w.st.phase cause w.st.now requester)

/-- The answer of a request whose work is `w`. -/
def Work.answer (w : Work) (fields : List Byte) : Answer := ⟨Result.ok.code :: fields, w.st, w.out⟩

/-- START (R160). -/
def serveStart : Serve := fun p _ body _ s =>
  if body ≠ [] then refuse .eArg [] s
  else if s.phase = .run then refuse .ePhase [] s
  else if s.clock.present = false then refuse .eNoClock [] s
  else ((Work.of (s.withPhase .run)).tellPhase (otherPorts p) .start (some p)).answer (tickBytes s.now)

/-- A waiting claim is removed by STOP, with CLAIM_EXPIRED(STOPPED) to its port (R106). -/
def expireClaim (w : Work) (p : Port) : Work :=
  match w.st.claim p with
  | none => w
  | some c =>
    (Work.mk (w.st.withClaim p none) w.out).emit (p, .claimExpired .stopped c.mask c.enqueued w.st.now)

/-- Every waiting claim is removed without a notice (R106, entry into FAULT). -/
def dropClaims (s : State) : State := { s with claims := PerPort.all none }

/-- The lines owned by ports other than `p`. -/
def State.ownedByOthers (s : State) (p : Port) : LineMask :=
  lineSet fun l => (s.owner l).isSome && s.owner l != some p

/-- An accepted STOP (R161). -/
def stopWork (p : Port) (s : State) : Work :=
  let w := everyPort.foldl expireClaim (Work.of (discardRises (purge p s)))
  (Work.mk ((directDrive (clearOwners w.st)).withPhase .setup) w.out).tellPhase (otherPorts p) .stop (some p)

/-- STOP (R161). -/
def serveStop : Serve := fun p _ body _ s =>
  if body ≠ [] then refuse .eArg [] s
  else if s.phase = .setup then refuse .ePhase [] s
  else if s.ownedByOthers p ≠ 0 then refuse .eBusyOwners (maskBytes (s.ownedByOthers p)) s
  else (stopWork p s).answer (byte1 (s.stepCount p) ++ maskBytes (s.ownedMask p))

/-- Entry into FAULT (R163). -/
def enterFault (s : State) : Work :=
  let s' := directDrive (clearOwners (dropClaims (discardRises (purgeAll s))))
  (Work.of (s'.withPhase .fault)).tellPhase everyPort .clockLost none

/-- CLEAR_FAULT (R164). -/
def serveClearFault : Serve := fun p _ body _ s =>
  if body ≠ [] then refuse .eArg [] s
  else if s.clock.present = false then refuse .eNoClock [] s
  else if s.phase ≠ .fault then refuse .ePhase [] s
  else ((Work.of (s.withPhase .setup)).tellPhase (otherPorts p) .clearFault (some p)).answer (tickBytes s.now)

/-! ### The rows -/

/-- START (R160) -/
def execStart (p : Port) (mosi : List Byte) (s : State) : Host.Outcome State Fault Refusal :=
  .next (chipSelectRise (isRequest .start) serveStart p mosi s)

/-- STOP (R161) -/
def execStop (p : Port) (mosi : List Byte) (s : State) : Host.Outcome State Fault Refusal :=
  .next (chipSelectRise (isRequest .stop) serveStop p mosi s)

/-- CLEAR_FAULT (R164) -/
def execClearFault (p : Port) (mosi : List Byte) (s : State) : Host.Outcome State Fault Refusal :=
  .next (chipSelectRise (isRequest .clearFault) serveClearFault p mosi s)

end Sys2Proof.Machine
end

