-- ==== Sys2Proof/Machine/Timebase.lean ====
section
/-! DEFINITION. The timebase (chapter 9): tick arrivals, the clock-presence monitor, READ_TIME and SET_TIME, the clock
rows INT_TICK, TCLK_RISE, CLOCK_LOST and OSCILLATOR_PERIOD, and the work of a tick that is still to do when time moves
on. -/

namespace Sys2Proof.Machine

/-! ### Tick arrivals (R140) -/

/-- A tick arrival: NOW advances by one, modulo 2^32, and every used input line is sampled (R126). The other blocks' work
of the tick is each an event of its own. -/
def tickArrival (s : State) : State := sampleInputs ((s.withNow (s.now + 1)).withArmedThisTick [])

/-! ### Work that is still to do at NOW -/

/-- Whether the step in slot `i` has its due, its window end as an ARMED step, or its unset reached marker at NOW. -/
def stepDueNow (s : State) (i : SlotIndex) : Bool :=
  s.dueAt s.now i || (closingNow s i).isSome
    || (match markedNow s i with
        | some st => s.step i != some st
        | none => false)

/-- Whether a due, a deadline or an end of R140's table is at NOW. -/
def State.dueNow (s : State) : Bool :=
  everySlot.any (stepDueNow s)
    || everyPair.any (fun k => guardEndsNow s k || fallRecordEndsNow s k || holdEndsNow s k)
    || everyPort.any fun p => leaseEndsNow s p || waitEndsNow s p

/-- Whether no work of R140's table is left at NOW. With the flag clear no deadline is reached, and only the edge of a
sample that was taken before the loss can be left. -/
def State.quiet (s : State) : Bool :=
  !(s.clock.present && s.dueNow) && !(everyInLine.any fun l => (edgeDue s l).isSome)

/-- The dues, deadlines and ends at NOW, taken block by block in the order of R140's table (log entry 11): bank firings,
window ends and markers; guard ends, hold deadlines and fall record ends; lease deadlines; wait deadlines. -/
def deadlineWork (s : State) : State :=
  let fired := reachedMarkerWork (windowEndWork (everyBank.foldl (fun t k => bankFiringWork k t) s))
  let interlocked := fallRecordEndWork 11 (holdDeadlineWork 11 (guardEndWork 11 fired))
  let leased := everyPort.foldl (fun t p => lapseWork p t) interlocked
  everyPort.foldl (fun t p => waitDeadlineWork p t) leased

/-- The work left at NOW: the deadlines, while the clock is present, and then the edges. -/
def settleWork (s : State) : State :=
  everyInLine.foldl (fun t l => edgeEventWork l t) (if s.clock.present then deadlineWork s else s)

/-- Before time moves on, the work of this tick that no command has taken yet is done. -/
def settle (s : State) : State := if s.quiet then s else settleWork s

/-! ### The clock-presence monitor (R145, R146) -/

/-- A loss is declared: the flag clears, and in RUN the device enters FAULT (R145, R146). -/
def declareLoss (s : State) : State :=
  let s' := s.withClock { s.clock with present := false }
  if s.phase = .run then (enterFault s').done else s'

/-- The work left at NOW that a loss would leave undone: guard ends, fall record ends and lease deadlines. None of them is
reached once the flag is clear (R74, R114), so it is done before the loss is declared. What the entry into FAULT empties, and
an edge, may come after it (R53, R68; log entry 12). -/
def workBeforeLoss (s : State) : State :=
  everyPort.foldl (fun t p => lapseWork p t) (fallRecordEndWork 11 (guardEndWork 11 s))

/-- The clock when the gap count has reached the loss window: a count that is there already needs no more time, and
otherwise TCLK stays quiet until then (log entry 12). -/
def runToLoss (c : Clock) : Clock :=
  if c.lossWindow ≤ c.gap then c else { c with gap := c.lossWindow, microseconds := 0 }

/-- CLOCK_LOST: under TCLK with the flag set, the gap count reaches the loss window, and the clock is declared lost. -/
def clockLostWork (s : State) : State :=
  if s.clock.source = .tclk ∧ s.clock.present = true then
    let t := workBeforeLoss s
    declareLoss (t.withClock (runToLoss t.clock))
  else s

/-! ### The clock events -/

/-- The INT tick of a prescaler that has come round arrives. -/
def takeDueTick (s : State) : State :=
  if s.clock.tickDue then tickArrival (s.withClock { s.clock with tickDue := false }) else s

/-- Everything that is due at this moment is done, before the next clock event. -/
def settleMoment (s : State) : State :=
  let t := settle s
  let u := if t.clock.tickDue then settle (takeDueTick t) else t
  if u.lossDue then declareLoss u else u

/-- The µs count, the prescaler and the gap count after one oscillator period (R141, R145). R145 has two readings of when a
loss is declared. Its counting clauses are followed: the µs count runs free of TCLK, and the gap count advances at each
return of the µs count to 0. Its conclusion, between the window and the window plus 1 µs after the last edge, does not follow
from them (log entry 28). -/
def countPeriod (c : Clock) : Clock :=
  countSource
    { c with microseconds := if Config.periodsPerMicrosecond ≤ c.microseconds + 1 then 0 else c.microseconds + 1 }

/-- OSCILLATOR_PERIOD -/
def oscillatorPeriodWork (pins : InputMask) (s : State) : State :=
  let t := settleMoment s
  (t.withClock (countPeriod t.clock)).withPins pins

/-- The clock at the next INT tick: the periods that the prescaler still lacks have passed (R141). -/
def runToTick (c : Clock) : Clock :=
  let lacking := if c.tickDue then 0 else c.divider - c.prescaler
  { c with
    microseconds := (c.microseconds + lacking) % Config.periodsPerMicrosecond
    prescaler := 0
    tickDue := false }

/-- INT_TICK: under source INT the prescaler comes round and a tick arrives (R141, log entry 13). -/
def intTickWork (pins : InputMask) (s : State) : State :=
  if s.clock.source = .int ∧ s.clock.present = true then
    let t := settle s
    tickArrival ((t.withClock (runToTick t.clock)).withPins pins)
  else s

/-- TCLK_RISE: under source TCLK the gap count returns to 0, a clear flag is set again, and a tick arrives (R142, R147).
Under INT the edge is not watched. -/
def tclkRiseWork (pins : InputMask) (s : State) : State :=
  if s.clock.source = .tclk then
    let t := settleMoment s
    tickArrival ((t.withClock { t.clock with gap := 0, present := true }).withPins pins)
  else s

/-! ### READ_TIME (R148) -/

/-- The READ_TIME reply after its result code. R148 and section 12.2 state no width for source, clock present, divider and
loss window: they take the widths of the TIMEBASE record and of a flag (section 12.6), DEDUCED (log entry 29). -/
def timeReport (s : State) : List Byte :=
  tickBytes s.now ++ byte1 s.clock.source.code ++ flagByte s.clock.present ++ byte2 s.clock.divider
    ++ byte1 s.clock.lossWindow ++ byte1 s.phase.code

def serveReadTime : Serve := fun _ _ body _ s =>
  if body = [] then report (timeReport s) s else refuse .eArg [] s

/-! ### SET_TIME (R149) -/

/-- A session whose lease deadline moves by `d`. -/
def Session.shift (x : Session) (d : Tick) : Session :=
  match x.state with
  | .opened period deadline => { x with state := .opened period (deadline + d) }
  | _ => x

/-- A pair runtime whose fall tick and guard end move by `d`. -/
def PairRuntime.shift (r : PairRuntime) (d : Tick) : PairRuntime :=
  { r with
    fall := r.fall.map fun f => { f with tick := f.tick + d }
    guard := r.guard.map fun g => { g with ends := g.ends + d } }

/-- A filter whose run start moves by `d`. -/
def Filter.shift (x : Filter) (d : Tick) : Filter := { x with runStart := x.runStart.map (· + d) }

/-- NOW becomes `v`, and every stored time that exists in SETUP moves by the same amount (R149). -/
def setTime (v : Tick) (s : State) : State :=
  let d := v - s.now
  { s with
    now := v
    sessions := ⟨s.sessions.a.shift d, s.sessions.b.shift d, s.sessions.c.shift d⟩
    runtime := table fun k => (s.pairRuntime k).shift d
    filters := table fun l => (s.filter l).shift d }

/-- SET_TIME. The work left at the old NOW is done there, before time is moved away from it (R150, log entry 11). -/
def serveSetTime : Serve := fun _ _ body _ s =>
  if s.phase ≠ .setup then refuse .ePhase [] s
  else
    match readSetTime body with
    | none => refuse .eArg [] s
    | some v => ⟨Result.ok.code :: (tickBytes s.now ++ tickBytes v), setTime v (settle s), []⟩

/-! ### The rows -/

/-- READ_TIME (R148) -/
def execReadTime (p : Port) (mosi : List Byte) (s : State) : Host.Outcome State Fault Refusal :=
  .next (chipSelectRise (isRequest .readTime) serveReadTime p mosi s)

/-- SET_TIME (R149) -/
def execSetTime (p : Port) (mosi : List Byte) (s : State) : Host.Outcome State Fault Refusal :=
  .next (chipSelectRise (isRequest .setTime) serveSetTime p mosi s)

/-- INT_TICK (R141) -/
def execIntTick (pins : InputMask) (s : State) : Host.Outcome State Fault Refusal :=
  .next (if s.inReset then s else intTickWork pins s)

/-- TCLK_RISE (R142, R147) -/
def execTclkRise (pins : InputMask) (s : State) : Host.Outcome State Fault Refusal :=
  .next (if s.inReset then s else tclkRiseWork pins s)

/-- CLOCK_LOST (R145, R146, R163) -/
def execClockLost (s : State) : Host.Outcome State Fault Refusal :=
  .next (if s.inReset then s else clockLostWork s)

/-- OSCILLATOR_PERIOD (R141, R145) -/
def execOscillatorPeriod (pins : InputMask) (s : State) : Host.Outcome State Fault Refusal :=
  .next (if s.inReset then s else oscillatorPeriodWork pins s)

end Sys2Proof.Machine
end

