-- ==== Sys2Proof/Machine/Transactions.lean ====
section
/-! DEFINITION. The rows of a host port that carry no request of their own (chapter 11): TRANSACTION_BEGIN,
SPI_CLOCK_CYCLE, NOP, E_FRAME, E_KIND and EDGE_SUMMARY; and RESET and RESET_END (R166, R180). -/

namespace Sys2Proof.Machine

/-- The block that owns a request kind serves it (section 11.5, table). -/
def serveAny : Serve := fun p r body before s =>
  match r with
  | .status => serveStatus p r body before s
  | .openSession => serveOpen p r body before s
  | .closeSession => serveClose p r body before s
  | .renew => serveRenew p r body before s
  | .readTime => serveReadTime p r body before s
  | .configWrite => serveConfigWrite p r body before s
  | .configRead => serveConfigRead p r body before s
  | .setTime => serveSetTime p r body before s
  | .start => serveStart p r body before s
  | .stop => serveStop p r body before s
  | .clearFault => serveClearFault p r body before s
  | .claim => serveClaim p r body before s
  | .claimWithdraw => serveClaimWithdraw p r body before s
  | .release => serveRelease p r body before s
  | .owners => serveOwners p r body before s
  | .readOutputs => serveReadOutputs p r body before s
  | .pairStatus => servePairStatus p r body before s
  | .place => servePlace p r body before s
  | .cancel => serveCancel p r body before s
  | .cancelAll => serveCancelAll p r body before s
  | .amend => serveAmend p r body before s
  | .list => serveList p r body before s
  | .queryStep => serveQueryStep p r body before s
  | .subscribe => serveSubscribe p r body before s
  | .clearPending => serveClearPending p r body before s
  | .readInputs => serveReadInputs p r body before s

/-- No request is handed on: a row whose frame reaches no block. -/
def serveNone : Serve := fun _ _ _ _ s => refuse .eKind [] s

/-- The row of a pure fetch. -/
def isPureFetch (inbound : Inbound) (_ : Transfer) (_ : State) : Bool := inbound == .pureFetch

/-- The row of a frame that fails the frame checks. -/
def isBadFrame (inbound : Inbound) (_ : Transfer) (_ : State) : Bool :=
  match inbound with
  | .bad _ _ => true
  | _ => false

/-- The row of a frame of an unknown kind. -/
def isUnknownKind (inbound : Inbound) (_ : Transfer) (_ : State) : Bool :=
  match inbound with
  | .frame kind _ _ _ => (requestOf kind).isNone
  | _ => false

/-- The row of a transaction at whose end port `p` is sent an EDGE_SUMMARY. -/
def isSummary (p : Port) (_ : Inbound) (x : Transfer) (s : State) : Bool := s.summaryDue p x

/-! ### Pins of a host port -/

/-- A falling edge of chip select: an IDLE port becomes SHIFTING and fixes the outgoing frame. While reset is held no
transaction begins (R180), and at a pin that is low already there is no falling edge. -/
def beginTransaction (p : Port) (s : State) : State :=
  if (s.port p).selected then s
  else
    s.withPort p
      { s.port p with
        selected := true
        transfer := if s.inReset then none else some (s.newTransfer p) }

/-- One clock cycle at a SHIFTING port; an IDLE port ignores its clock. -/
def clockCycle (p : Port) (bit : Bool) (s : State) : State :=
  match (s.port p).transfer with
  | none => s
  | some x => s.withPort p { s.port p with transfer := some (x.cycle bit) }

/-! ### Reset -/

/-- A port as reset leaves it; the level at its chip-select pin is the host's. -/
def resetPort (h : HostPort) : HostPort := { HostPort.reset with selected := h.selected }

/-- Every block at its reset value, with reset held (R166, R180). What is outside the device stays: the levels at its
input pins, and the commands that are waiting. -/
def enterReset (s : State) : State :=
  { State.reset with
    pending := s.pending
    inReset := true
    pins := s.pins
    ports := ⟨resetPort s.ports.a, resetPort s.ports.b, resetPort s.ports.c⟩ }

/-! ### The rows -/

/-- TRANSACTION_BEGIN (R167) -/
def execTransactionBegin (p : Port) (s : State) : Host.Outcome State Fault Refusal :=
  .next (beginTransaction p s)

/-- SPI_CLOCK_CYCLE (R167) -/
def execSpiClockCycle (p : Port) (dataIn : Bool) (s : State) : Host.Outcome State Fault Refusal :=
  .next (if s.inReset then s else clockCycle p dataIn s)

/-- NOP (R168) -/
def execNop (p : Port) (mosi : List Byte) (s : State) : Host.Outcome State Fault Refusal :=
  .next (chipSelectRise isPureFetch serveNone p mosi s)

/-- EDGE_SUMMARY (R134, R168): the rise at which folded edges are reported, with whatever frame it carries (log entry 24). -/
def execEdgeSummary (p : Port) (mosi : List Byte) (s : State) : Host.Outcome State Fault Refusal :=
  .next (chipSelectRise (isSummary p) serveAny p mosi s)

/-- E_FRAME (R169) -/
def execEFrame (p : Port) (mosi : List Byte) (s : State) : Host.Outcome State Fault Refusal :=
  .next (chipSelectRise isBadFrame serveNone p mosi s)

/-- E_KIND (R170) -/
def execEKind (p : Port) (mosi : List Byte) (s : State) : Host.Outcome State Fault Refusal :=
  .next (chipSelectRise isUnknownKind serveNone p mosi s)

/-- RESET (R166) -/
def execReset (s : State) : Host.Outcome State Fault Refusal :=
  .next (enterReset s)

/-- RESET_END (R166, R180): reset is no longer held. -/
def execResetEnd (s : State) : Host.Outcome State Fault Refusal :=
  .next { s with inReset := false }

end Sys2Proof.Machine
end

