-- ==== Sys2Proof/Machine/Dispatch.lean ====
section
/-! DEFINITION. One arm for each command: its meaning. -/

namespace Sys2Proof.Machine

def exec (i : Instr) (s : State) : Host.Outcome State Fault Refusal :=
  match i with
  | .transactionBegin p => Sys2Proof.Machine.execTransactionBegin p s
  | .nop p mosi => Sys2Proof.Machine.execNop p mosi s
  | .edgeSummary p mosi => Sys2Proof.Machine.execEdgeSummary p mosi s
  | .eFrame p mosi => Sys2Proof.Machine.execEFrame p mosi s
  | .eKind p mosi => Sys2Proof.Machine.execEKind p mosi s
  | .status p mosi => Sys2Proof.Machine.execStatus p mosi s
  | .openSession p mosi => Sys2Proof.Machine.execOpen p mosi s
  | .closeSession p mosi => Sys2Proof.Machine.execClose p mosi s
  | .renew p mosi => Sys2Proof.Machine.execRenew p mosi s
  | .readTime p mosi => Sys2Proof.Machine.execReadTime p mosi s
  | .setTime p mosi => Sys2Proof.Machine.execSetTime p mosi s
  | .configWriteTimebase p mosi => Sys2Proof.Machine.execConfigWriteTimebase p mosi s
  | .configWriteOutputLine p mosi => Sys2Proof.Machine.execConfigWriteOutputLine p mosi s
  | .configWriteInputLine p mosi => Sys2Proof.Machine.execConfigWriteInputLine p mosi s
  | .configWritePair p mosi => Sys2Proof.Machine.execConfigWritePair p mosi s
  | .configWriteQuota p mosi => Sys2Proof.Machine.execConfigWriteQuota p mosi s
  | .configWriteArbiter p mosi => Sys2Proof.Machine.execConfigWriteArbiter p mosi s
  | .configRead p mosi => Sys2Proof.Machine.execConfigRead p mosi s
  | .start p mosi => Sys2Proof.Machine.execStart p mosi s
  | .stop p mosi => Sys2Proof.Machine.execStop p mosi s
  | .clearFault p mosi => Sys2Proof.Machine.execClearFault p mosi s
  | .claim p mosi => Sys2Proof.Machine.execClaim p mosi s
  | .claimWithdraw p mosi => Sys2Proof.Machine.execClaimWithdraw p mosi s
  | .release p mosi => Sys2Proof.Machine.execRelease p mosi s
  | .owners p mosi => Sys2Proof.Machine.execOwners p mosi s
  | .readOutputs p mosi => Sys2Proof.Machine.execReadOutputs p mosi s
  | .pairStatus p mosi => Sys2Proof.Machine.execPairStatus p mosi s
  | .place p mosi => Sys2Proof.Machine.execPlace p mosi s
  | .cancel p mosi => Sys2Proof.Machine.execCancel p mosi s
  | .cancelAll p mosi => Sys2Proof.Machine.execCancelAll p mosi s
  | .amend p mosi => Sys2Proof.Machine.execAmend p mosi s
  | .list p mosi => Sys2Proof.Machine.execList p mosi s
  | .queryStep p mosi => Sys2Proof.Machine.execQueryStep p mosi s
  | .subscribe p mosi => Sys2Proof.Machine.execSubscribe p mosi s
  | .clearPending p mosi => Sys2Proof.Machine.execClearPending p mosi s
  | .readInputs p mosi => Sys2Proof.Machine.execReadInputs p mosi s
  | .reset => Sys2Proof.Machine.execReset s
  | .intTick pins => Sys2Proof.Machine.execIntTick pins s
  | .tclkRise pins => Sys2Proof.Machine.execTclkRise pins s
  | .clockLost => Sys2Proof.Machine.execClockLost s
  | .bankFiring k => Sys2Proof.Machine.execBankFiring k s
  | .windowEnd => Sys2Proof.Machine.execWindowEnd s
  | .reachedMarker => Sys2Proof.Machine.execReachedMarker s
  | .edgeEvent l => Sys2Proof.Machine.execEdgeEvent l s
  | .guardEnd k => Sys2Proof.Machine.execGuardEnd k s
  | .fallRecordEnd k => Sys2Proof.Machine.execFallRecordEnd k s
  | .holdDeadline k => Sys2Proof.Machine.execHoldDeadline k s
  | .waitDeadline p => Sys2Proof.Machine.execWaitDeadline p s
  | .lapse p => Sys2Proof.Machine.execLapse p s
  | .spiClockCycle p bit => Sys2Proof.Machine.execSpiClockCycle p bit s
  | .oscillatorPeriod pins => Sys2Proof.Machine.execOscillatorPeriod pins s
  | .resetEnd => Sys2Proof.Machine.execResetEnd s

end Sys2Proof.Machine
end

