-- ==== Sys2Proof/Safety.lean ====
section
/-! DEFINITION. The laws that the manual gives the whole device, each as a property of a state; and the words in which
statements about chip-select rises, firings and the calendar's collections are made. -/

namespace Sys2Proof.Machine

/-! ### The laws -/

/-- The notices among queue entries. -/
def noticeCount (q : List Entry) : Nat := q.countP fun e => e.kind == .notice

/-- The queue law (R179). -/
def QueueLaw (s : State) : Prop :=
  ∀ p, (s.port p).queue.length ≤ 16 ∧ noticeCount (s.port p).queue ≤ 15

/-- The calendar law (R11): an occupied slot is in exactly one of the due list, PENDING, and the armed set, ARMED, in the
list of its trigger line, and is there once; a free slot is in neither. -/
structure CalendarLaw (s : State) : Prop where
  due_once : s.dueList.Nodup
  due_mem : ∀ i, i ∈ s.dueList ↔ ∃ st d, s.step i = some st ∧ st.state = .pending d
  armed_once : ∀ l, (s.armedList l).Nodup
  armed_mem : ∀ l i, i ∈ s.armedList l ↔ ∃ st a, s.step i = some st ∧ st.state = .armed ∧ st.kind = .armed a ∧ a.line = l
  armed_kind : ∀ i st, s.step i = some st → st.state = .armed → ∃ a, st.kind = .armed a

/-- Every step names a line, no line twice, and only lines that its owner owns (section 1.2, R15). -/
def StepLineLaw (s : State) : Prop :=
  ∀ i st, s.step i = some st →
    st.setMask ||| st.clearMask ≠ 0 ∧ st.setMask &&& st.clearMask = 0 ∧
      ∀ j : Position, inMask (st.setMask ||| st.clearMask) j = true → s.owner (lineAt st.bank j) = some st.owner

/-- Outside RUN no line has an owner, the calendar holds no step, the claim queue is empty and no deferred rise exists
(R153). -/
def IdleLaw (s : State) : Prop :=
  s.phase ≠ .run →
    (∀ l, s.owner l = none) ∧ (∀ i, s.step i = none) ∧ (∀ p, s.claim p = none) ∧
      ∀ k, (s.pairRuntime k).deferred = none

/-- A line with an owner is a used line (R90), and so is every line of a waiting claim. -/
def OwnerLaw (s : State) : Prop :=
  (∀ l, s.owner l ≠ none → (s.output l).used = true) ∧
    ∀ p c l, s.claim p = some c → inMask c.mask l = true → (s.output l).used = true

/-- A port whose session is not OPEN owns no line and has no step, no waiting claim, no subscription and no pending-latch
bit (R122). -/
def SessionLaw (s : State) : Prop :=
  ∀ p, s.isOpen p = false →
    (∀ l, s.owner l ≠ some p) ∧ (∀ i, s.ownsStep p i = false) ∧ s.claim p = none ∧
      (∀ l, s.subscription p l = .none) ∧ (s.inputsOf p).rises = 0 ∧ (s.inputsOf p).falls = 0

/-- A pending-latch bit is set only for a line to which the port's subscription is not NONE (R137). -/
def LatchLaw (s : State) : Prop :=
  ∀ p l, inMask (s.inputsOf p).rises l = true ∨ inMask (s.inputsOf p).falls l = true → s.subscription p l ≠ .none

/-- What CONFIG_WRITE keeps of the valid pairs (R155 to R157): two different used lines, not both with safe level 1, and no
line in two of them. -/
structure PairConfigLaw (s : State) : Prop where
  lines : ∀ k, (s.pair k).valid = true → (s.pair k).a ≠ (s.pair k).b
  used : ∀ k l, (s.pair k).valid = true → (s.pair k).holds l = true → (s.output l).used = true
  safe : ∀ k, (s.pair k).valid = true → ¬((s.output (s.pair k).a).safe = true ∧ (s.output (s.pair k).b).safe = true)
  apart : ∀ j k l, (s.pair j).valid = true → (s.pair k).valid = true → (s.pair j).holds l = true →
    (s.pair k).holds l = true → j = k

/-- The two lines of a valid pair are never both at 1 (R84). -/
def PairLaw (s : State) : Prop :=
  ∀ k, (s.pair k).valid = true → ¬(s.level (s.pair k).a = .one ∧ s.level (s.pair k).b = .one)

/-- What the runtime of a pair refers to (R71, R73, R76): the runtime of a pair that is not valid is absent; a fall record,
a guard and a deferred rise are on lines of the pair; a line with a deferred rise is at 0. -/
structure PairRuntimeLaw (s : State) : Prop where
  absent : ∀ k, (s.pair k).valid = false → s.pairRuntime k = PairRuntime.empty
  fall : ∀ k f, (s.pairRuntime k).fall = some f → (s.pair k).holds f.line = true
  guard : ∀ k g, (s.pairRuntime k).guard = some g → (s.pair k).holds g.line = true
  deferred : ∀ k d, (s.pairRuntime k).deferred = some d → (s.pair k).holds d.line = true ∧ s.level d.line = .zero

/-- A deferred rise waits for a reason: its partner is at 1, or a guard runs for its line (R77). -/
def WaitLaw (s : State) : Prop :=
  ∀ k d, (s.pairRuntime k).deferred = some d →
    s.level ((s.pair k).partner d.line) = .one ∨ (s.pairRuntime k).guards d.line = true

/-- A used line is at 0 or 1, and an unused line is at Z (R38). -/
def LevelLaw (s : State) : Prop := ∀ l, s.level l = .z ↔ (s.output l).used = false

/-- Outside RUN every used line stands at its safe level (R153). -/
def SafeLevelLaw (s : State) : Prop :=
  s.phase ≠ .run → ∀ l, (s.output l).used = true → s.level l = if (s.output l).safe then .one else .zero

/-- A port's occupied slots do not exceed its quota, and the quotas do not sum to more than 64 (R14). -/
def QuotaLaw (s : State) : Prop :=
  (∀ p, s.stepCount p ≤ s.quota p) ∧ s.quota .a + s.quota .b + s.quota .c ≤ 64

/-- A run count as a step can hold it: unbounded, or 1 to 255 (R5). -/
def Runs.InRange (r : Runs) : Prop := ∀ n, r = .count n → 1 ≤ n ∧ n ≤ 255

/-- The lead of a PENDING step's due is at most 2^28 (R54); a step's period, runs and trigger delay are within their ranges (R3,
R5, R56). -/
def HorizonLaw (s : State) : Prop :=
  (∀ i st d, s.step i = some st → st.state = .pending d → lead d s.now ≤ 268435456) ∧
    (∀ i st r, s.step i = some st → st.rep = some r →
      1 ≤ r.period ∧ r.period ≤ 16777215 ∧ r.placed.InRange ∧ r.remaining.InRange) ∧
    ∀ i st a, s.step i = some st → st.kind = .armed a → a.delay ≤ 65535

/-- The arbiter's rank names each port once (R102, R155). -/
def RankLaw (s : State) : Prop :=
  s.arbiter.first ≠ s.arbiter.second ∧ s.arbiter.first ≠ s.arbiter.third ∧ s.arbiter.second ≠ s.arbiter.third

/-- The due list is ordered by lead, smallest first (R8). -/
def DueOrderLaw (s : State) : Prop := s.dueList.Pairwise fun i j => s.dueLead i ≤ s.dueLead j

/-- The timebase counts stay in their ranges (chapter 9, opening table); the flag is set under INT (R141), and in RUN, which
begins only with the clock (R160) and ends with it (R146); a tick that is due is an INT tick, whose prescaler has just returned
to 0 (R141, log entry 3). -/
structure ClockLaw (s : State) : Prop where
  divider : 1 ≤ s.clock.divider ∧ s.clock.divider ≤ 256
  window : 1 ≤ s.clock.lossWindow ∧ s.clock.lossWindow ≤ 255
  prescaler : s.clock.prescaler < s.clock.divider
  gap : s.clock.gap ≤ s.clock.lossWindow
  microseconds : s.clock.microseconds ≤ 15
  flag : s.clock.source = .int → s.clock.present = true
  running : s.phase = .run → s.clock.present = true
  due : s.clock.tickDue = true → s.clock.source = .int ∧ s.clock.prescaler = 0

/-- The guards that the falls of paired lines leave (R73, R74, R86): while the lateness of a valid pair's fall tick is less
than the pair's guard, the guard runs, from the fall to fall tick + guard, for the partner of the fallen line; a guard that is
present is one of these, or ends at NOW; and no fall record is older than 65,536 ticks. -/
structure GuardLaw (s : State) : Prop where
  runs : ∀ k f, (s.pair k).valid = true → (s.pairRuntime k).fall = some f → lateness f.tick s.now < (s.pair k).guard →
    (s.pairRuntime k).guard = some { ends := after f.tick (s.pair k).guard, line := (s.pair k).partner f.line }
  follows : ∀ k g, (s.pairRuntime k).guard = some g → ∃ f, (s.pairRuntime k).fall = some f
    ∧ g.ends = after f.tick (s.pair k).guard ∧ g.line = (s.pair k).partner f.line
    ∧ lateness f.tick s.now ≤ (s.pair k).guard
  range : ∀ k, (s.pair k).guard < 65536
  age : ∀ k f, (s.pairRuntime k).fall = some f → lateness f.tick s.now ≤ 65536

/-- While the clock-presence flag is clear no guard and no fall record has its end at NOW: each was taken before the loss, and
NOW is frozen (R74). -/
def FrozenLaw (s : State) : Prop :=
  s.clock.present = false → ∀ k,
    (∀ g, (s.pairRuntime k).guard = some g → g.ends ≠ s.now)
      ∧ ∀ f, (s.pairRuntime k).fall = some f → after f.tick 65536 ≠ s.now

/-- No line of a valid pair rises from `s` to `t` before the pair's guard has passed since its partner's most recent fall, unless
RUN is left or has not begun (R85). The most recent fall is that of the pair's fall record, which the latest fall of either line
replaces (R73, log entry 30). -/
def RiseLaw (s t : State) : Prop :=
  s.phase = .run → t.phase = .run → ∀ k y, (t.pair k).valid = true → (t.pair k).holds y = true →
    s.level y ≠ .one → t.level y = .one →
    ∀ f, (t.pairRuntime k).fall = some f → f.line = (t.pair k).partner y → (t.pair k).guard ≤ lateness f.tick t.now

/-! ### A chip-select rise -/

/-- Port `p`'s transaction, with the bytes `mosi` that still come, ends here: its inbound bytes read as `inbound`, and
orders 1 and 2 of R168 leave `s₁`. -/
def Ends (s : State) (p : Port) (mosi : List Byte) (inbound : Inbound) (s₁ : State) : Prop :=
  s.inReset = false ∧
    ∃ x, (s.port p).transfer = some x ∧ readInbound (x.bytes mosi).inbound = inbound ∧ s₁ = s.fetchEnd p (x.bytes mosi)

/-- The transaction ends with a request frame that is carried out: there is room for its reply (R174), and it is not a
repeat (R173). `s₁` is the state in which the request is taken. -/
structure Takes (s : State) (p : Port) (mosi : List Byte) (r : Request) (tag crc : Byte) (body : List Byte)
    (s₁ : State) : Prop where
  ends : Ends s p mosi (.frame r.code tag body crc) s₁
  room : (s₁.port p).queue.length ≤ 15
  fresh : s₁.repeatOf p r.code tag crc = none

/-- The queue entry of a reply (R181). -/
def replyEntry (kind tag : Byte) (body : List Byte) : Entry := { kind := .reply, code := kind, tag := tag, body := body }

/-- A port after a reply: at the back of its queue, and stored in its cache (R168, R172). -/
def HostPort.replied (h : HostPort) (kind tag crc : Byte) (body : List Byte) : HostPort :=
  { h with
    queue := h.queue ++ [replyEntry kind tag body]
    cache := some { tag := tag, kind := kind, crc := crc, reply := replyEntry kind tag body } }

/-- The ports when port `p` has a reply and no other port is touched. -/
def State.repliedPorts (s : State) (p : Port) (kind tag crc : Byte) (body : List Byte) : PerPort HostPort :=
  s.ports.set p ((s.port p).replied kind tag crc body)

/-- The sessions when port `p`, OPEN with this period, has renewed its lease at NOW (R112). -/
def State.renewedSessions (s : State) (p : Port) (period : Nat) : PerPort Session :=
  s.sessions.set p { state := .opened period (after s.now period), watch := (s.session p).watch }

/-- The sessions after a request from port `p` is taken: renewed when its session is OPEN, and as they were otherwise
(R112). -/
def State.sessionsAfter (s : State) (p : Port) : PerPort Session :=
  match (s.session p).state with
  | .opened period _ => s.renewedSessions p period
  | _ => s.sessions

/-- A port to which a notice is addressed: it is queued with the next sequence number when at most 14 entries stand there,
and lost otherwise, which NOTICE_LOSS shows (R175). -/
def HostPort.told (h : HostPort) (x : Notice) : HostPort :=
  if h.queue.length ≤ 14 then
    { h with
      queue := h.queue ++ [{ kind := .notice, code := x.code, tag := h.sequence, body := x.body }]
      sequence := h.sequence + 1 }
  else { h with noticeLoss := true }

/-- The ports after the notices `es`, told one after the other. -/
def tellAll (ports : PerPort HostPort) (es : List Emit) : PerPort HostPort :=
  es.foldl (fun hs e => hs.set e.1 ((hs.get e.1).told e.2)) ports

/-- Commands taken one after the other, each by its meaning. -/
def execAll : List Instr → State → Host.Outcome State Fault Refusal
  | [], s => .next s
  | c :: cs, s =>
    match exec c s with
    | .next t => execAll cs t
    | o => o

/-- Every row of tick-driven work, in the order in which the model takes what is left of a tick before time moves on (log
entry 11). -/
def tickRows : List Instr :=
  [.bankFiring 0, .bankFiring 1, .bankFiring 2, .windowEnd, .reachedMarker, .guardEnd 11, .holdDeadline 11,
   .fallRecordEnd 11, .lapse .a, .lapse .b, .lapse .c, .waitDeadline .a, .waitDeadline .b, .waitDeadline .c,
   .edgeEvent 0, .edgeEvent 1, .edgeEvent 2, .edgeEvent 3, .edgeEvent 4, .edgeEvent 5, .edgeEvent 6, .edgeEvent 7]

/-- The rows of the work that a loss of the clock would leave undone (log entry 12). -/
def lossRows : List Instr := [.guardEnd 11, .fallRecordEnd 11, .lapse .a, .lapse .b, .lapse .c]

/-- What a refusal from an OPEN session leaves: the reply and the renewed lease, and nothing else (R171). -/
def State.refused (s : State) (p : Port) (period : Nat) (r : Request) (tag crc : Byte) (body : List Byte) : State :=
  { s with ports := s.repliedPorts p r.code tag crc body, sessions := s.renewedSessions p period }

/-- One value for each port, by a function of the port. -/
def PerPort.of {α : Type} (f : Port → α) : PerPort α := ⟨f .a, f .b, f .c⟩

/-! ### Sampling -/

/-- How one sample `b` at tick `now` changes the filter state `x` of a used line with filter `f` (R126), the edge event of
the fourth case being left for EDGE_EVENT (log entry 4). -/
structure SampledBy (f : Nat) (now : Tick) (b : Bool) (x y : Filter) : Prop where
  last : y.lastSample = some b
  first : x.accepted = none → y.accepted = some b ∧ y.runCount = 0
  equal : x.accepted = some b → y.accepted = some b ∧ y.runCount = 0 ∧ y.runStart = none ∧ y.edgeDue = x.edgeDue
  run : x.accepted = some (!b) → x.runCount + 1 ≤ f →
    y.accepted = some (!b) ∧ y.runCount = x.runCount + 1
      ∧ y.runStart = (if x.runCount = 0 then some now else x.runStart) ∧ y.edgeDue = x.edgeDue
  edge : x.accepted = some (!b) → f < x.runCount + 1 →
    y.accepted = some (!b) ∧ y.runCount = x.runCount ∧ y.runStart = x.runStart ∧ y.edgeDue = true

/-- The filter states `fs` that the samples of a tick arrival at tick `now` leave: used lines sampled, others as they were. -/
def Sampled (s : State) (now : Tick) (pins : InputMask) (fs : Vector Filter 8) : Prop :=
  ∀ l, ((s.input l).used = false → tget fs l = s.filter l) ∧
    ((s.input l).used = true → SampledBy (s.input l).filter now (inMask pins l) (s.filter l) (tget fs l))

/-! ### What becomes of a step that fires -/

/-- A slot after the last run of its step `st` at `now`, its generation having been `g` (R45, R46): a REARM step whose window
end has not been reached is ARMED again, and any other step is freed. -/
def AfterLastRun (st : StepRecord) (now : Tick) (g : Byte) (slot : Slot) : Prop :=
  match st.kind with
  | .timed => slot = { generation := g + 1, step := none }
  | .armed a =>
    if st.flags.rearm = true ∧ (∀ w, a.window = some w → w.reached = false ∧ w.tick ≠ now) then
      slot = { generation := g
               step := some
                 { st with
                   kind := .armed { a with armTick := now }
                   state := .armed
                   rep := st.rep.map fun r => { r with remaining := r.placed }
                   runIndex := 0 } }
    else slot = { generation := g + 1, step := none }

/-- A slot after the firing at `now` of its step `st` for the due `due` (R27, R44, R47): with L the lateness and P the period,
m = L div P + 1 runs are consumed, and while runs remain the step is PENDING with due + m·P. -/
def AfterFiring (st : StepRecord) (due now : Tick) (g : Byte) (slot : Slot) : Prop :=
  match st.rep with
  | none => AfterLastRun st now g slot
  | some r =>
    let m := lateness due now / r.period + 1
    let next : Tick := due + BitVec.ofNat 32 (m * r.period)
    match r.remaining with
    | .unbounded =>
      slot = { generation := g
               step := some { st with state := .pending next, runIndex := min (st.runIndex + m) 255 } }
    | .count n =>
      if m < n then
        slot = { generation := g
                 step := some
                   { st with
                     state := .pending next
                     rep := some { r with remaining := .count (n - m) }
                     runIndex := min (st.runIndex + m) 255 } }
      else AfterLastRun st now g slot

/-- The slots whose steps are due at NOW on bank `k`, in due-list order (R39). -/
def State.dueSlots (s : State) (k : Bank) : List SlotIndex :=
  s.dueList.filter fun i =>
    match s.step i with
    | some st => decide (st.bank = k ∧ st.state = .pending s.now)
    | none => false

/-- What the last step of a firing that names position `j` does to it: SET, CLEAR, or nothing when none names it (R40). -/
def firedAction (fs : List Firing) (j : Position) : Option Bool :=
  fs.foldl
    (fun action f =>
      if inMask f.record.setMask j then some true else if inMask f.record.clearMask j then some false else action)
    none

/-- The step of a firing that decides position `j`: the last that names it (R40). -/
def firedBy (fs : List Firing) (j : Position) : Option Firing :=
  fs.foldl (fun d f => if inMask (f.record.setMask ||| f.record.clearMask) j then some f else d) none

/-- The merged CLEARs of a firing of bank `k`, in increasing position (R41, log entry 26), with the notices of the rises that they
override. -/
def firedClears (k : Bank) (fs : List Firing) (w : Work) : Work :=
  (everyPosition.filter fun j => firedAction fs j == some false).foldl (fun w j => clearLine w (lineAt k j)) w

/-- The merged SETs of a firing of bank `k`, in increasing position after the CLEARs (R42): the state they lead to, and what the
interlock answers to each. -/
def firedSets (k : Bank) (fs : List Firing) (w : Work) : State × List (Position × RiseOutcome) :=
  (everyPosition.filter fun j => firedAction fs j == some true).foldl
    (fun acc j =>
      let r := requestRise acc.1 (lineAt k j) ((firedBy fs j).map fun f => f.record.owner)
      (r.1, acc.2 ++ [(j, r.2)]))
    ((firedClears k fs w).st, [])

/-- The rises that a firing of bank `k` loses to a deferred rise of the partner, each told to the owner of the step that decided
it, with the line that held it back (R75, R87). -/
def firedContended (k : Bank) (fs : List Firing) (w : Work) : List Emit :=
  (firedSets k fs w).2.filterMap fun x =>
    match x.2 with
    | .dropped i holding =>
      (firedBy fs x.1).map fun f => (f.record.owner, .riseDropped (lineAt k x.1) .contended i w.st.now w.st.now (some holding))
    | _ => none

/-- The positions that the step `f` decides with SET and that the interlock defers or absorbs (R48). -/
def firedHeld (k : Bank) (fs : List Firing) (w : Work) (f : Firing) : BankMask :=
  maskOf fun j =>
    decide (firedBy fs j = some f) && (firedSets k fs w).2.any fun x => x.1 == j && (x.2 == .deferred || x.2 == .absorbed)

/-- The runs that a firing at `now` of the step `st` for the due `due` consumes, limited to its runs remaining (R27, R47). -/
def StepRecord.runsUsed (st : StepRecord) (due now : Tick) : Nat :=
  match st.rep with
  | none => 1
  | some r =>
    match r.remaining with
    | .unbounded => lateness due now / r.period + 1
    | .count n => min (lateness due now / r.period + 1) n

/-- The notices of one step of a firing of bank `k` at `now`: STEP_FIRED when NOTE_EACH is set, and STEP_DONE when the firing
frees it and NOTE_END is set (R48, R49). -/
def Firing.notices (f : Firing) (k : Bank) (now : Tick) (held : BankMask) (freed : Bool) : List Emit :=
  let st := f.record
  let runIndex := min (st.runIndex + st.runsUsed f.due now) 255
  (if st.flags.noteEach then [(st.owner, .stepFired f.handle now runIndex (lateness f.due now) k held)] else [])
    ++ (if st.flags.noteEnd && freed then
      [(st.owner, .stepDone f.handle
        (match st.kind with
         | .timed => .completed
         | .armed a => if st.flags.rearm = true ∧ a.window.isSome = true then .windowClosed else .completed)
        now runIndex)] else [])

/-- One bank firing among the steps `fs` of an event, as it adds to the work `w` (R27, R39, R50, R60): the levels and pair
runtimes of its CLEARs and then of its SETs; and the notices of the overridden rises, of the contended rises, and of its steps in
the firing's order. `freed` says which slots the event frees. -/
def firedBank (freed : SlotIndex → Bool) (fs : List Firing) (w : Work) (k : Bank) : Work :=
  let here := fs.filter fun f => decide (f.record.bank = k)
  ⟨(firedSets k here w).1,
    (firedClears k here w).out ++ firedContended k here w
      ++ here.flatMap fun f => f.notices k w.st.now (firedHeld k here w f) (freed f.slot)⟩

/-- The bank firings of the steps that one event fires by catch-up, in increasing bank number (R27, R60): the levels and the pair
runtimes they lead to from `s`, and their notices. -/
def firedEvent (freed : SlotIndex → Bool) (fs : List Firing) (s : State) : Work :=
  everyBank.foldl (firedBank freed fs) (Work.of s)

/-- The firings of the steps in the slots `is`, each for its due at NOW. -/
def State.firesOf (s : State) (is : List SlotIndex) : List Firing :=
  is.filterMap fun i => (s.step i).map fun st => ⟨i, s.handle i, st, s.now⟩

/-- What the last step among `is` that names position `j` does to it: SET, CLEAR, or nothing when none names it (R40). -/
def State.mergedAction (s : State) (is : List SlotIndex) (j : Position) : Option Bool := firedAction (s.firesOf is) j

/-- The owner of the step among `is` that decides position `j`: the last that names it (R40). -/
def State.decidingOwner (s : State) (is : List SlotIndex) (j : Position) : Option Port :=
  (firedBy (s.firesOf is) j).map fun f => f.record.owner

/-- The ARMED step in slot `i` that an edge of line `l` to `level` matches at NOW (R57): its line, its edge kind, armed before
this tick, and its window end not at NOW. -/
def State.triggered (s : State) (l : InLine) (level : Bool) (i : SlotIndex) : Option (StepRecord × ArmPart) :=
  match s.step i with
  | none => none
  | some st =>
    match st.state, st.kind with
    | .armed, .armed a =>
      if a.line = l ∧ (a.edge = .either ∨ a.edge = if level then TriggerEdge.rise else .fall) ∧ i ∉ s.armedThisTick
          ∧ a.window.map WindowEnd.tick ≠ some s.now then some (st, a)
      else none
    | _, _ => none

/-- The slots whose steps that edge triggers, in armed-list order (R58). -/
def State.edgeHits (s : State) (l : InLine) (level : Bool) : List SlotIndex :=
  (s.armedList l).filter fun i => (s.triggered l level i).isSome

/-- The firings by catch-up among them: those whose due, `stamp` plus delay, is not in the future (R59, R60). -/
def State.edgeFirings (s : State) (l : InLine) (level : Bool) (stamp : Tick) : List Firing :=
  (s.armedList l).filterMap fun i =>
    match s.triggered l level i with
    | none => none
    | some (st, a) =>
      if a.delay ≤ lateness stamp s.now then
        some ⟨i, s.handle i, { st with state := .pending (after stamp a.delay) }, after stamp a.delay⟩
      else none

/-! ### The collections of the calendar after a firing -/

/-- The step in slot `i` of `t` is one of kind ARMED that waits in state ARMED on input line `l`. -/
def State.armedOn (t : State) (i : SlotIndex) (l : InLine) : Bool :=
  match t.step i with
  | some st =>
    match st.state, st.kind with
    | .armed, .armed a => a.line == l
    | _, _ => false
  | none => false

/-- The step in slot `i` of `t` is in state ARMED. -/
def State.waitsArmed (t : State) (i : SlotIndex) : Bool :=
  match t.step i with
  | some st => decide (st.state = .armed)
  | none => false

/-- The due list from `s` to `t`, when the steps in the slots `is` leave it and those that are then PENDING enter it, in this
order (R9): the others keep their order; one that enters goes behind every other whose due comes no later than its own, and
before every other whose due comes later; of two that enter with one due, the earlier in `is` goes first. -/
structure DueEntered (is : List SlotIndex) (s t : State) : Prop where
  kept : (s.dueList.filter (· ∉ is)).Sublist t.dueList
  members : ∀ i, i ∈ t.dueList ↔ (i ∈ s.dueList ∧ i ∉ is) ∨ (i ∈ is ∧ ∃ st d, t.step i = some st ∧ st.state = .pending d)
  once : t.dueList.Nodup
  placed : ∀ i j, i ∈ is → i ∈ t.dueList → j ∈ s.dueList → j ∉ is →
    (if t.dueLead j ≤ t.dueLead i then [j, i] else [i, j]).Sublist t.dueList
  order : ∀ i j, [i, j].Sublist is → i ∈ t.dueList → j ∈ t.dueList → t.dueLead i = t.dueLead j → [i, j].Sublist t.dueList

/-- The armed set from `s` to `t`, when the steps in the slots `is` leave it and those that are then ARMED enter it (R10, R45,
R62): the others keep their places; those that enter go to the end of their line's list, in the order of `is`, and count as
armed at this tick (R57, log entry 5); a slot of `is` that is freed counts as armed no longer. -/
structure ArmedEntered (is : List SlotIndex) (s t : State) : Prop where
  lists : ∀ l, t.armedList l = (s.armedList l).filter (· ∉ is) ++ is.filter fun i => t.armedOn i l
  since : ∀ i, i ∈ t.armedThisTick ↔
    if i ∈ is then t.waitsArmed i = true ∨ (i ∈ s.armedThisTick ∧ (t.step i).isSome = true) else i ∈ s.armedThisTick

/-- The collections from `s` to `t`, when the steps in the slots that `gone` names are freed and the others stay where they are
(R7, R12, R13). -/
structure Kept (gone : SlotIndex → Bool) (s t : State) : Prop where
  due : t.dueList = s.dueList.filter fun i => !gone i
  armed : ∀ l, t.armedList l = (s.armedList l).filter fun i => !gone i
  since : t.armedThisTick = s.armedThisTick.filter fun i => !gone i

/-! ### Requests as a host sends them (section 12.3) -/

/-- A CLAIM body. -/
def claimBytes (m : LineMask) (wait : Bool) (limit : Option Nat) : List Byte :=
  maskBytes m ++ byte1 (wait.toNat + 2 * limit.isSome.toNat)
    ++ (match limit with | none => [] | some n => byte3 n)

/-- A CANCEL body. -/
def cancelBytes (hs : List Handle) : List Byte := byte1 hs.length ++ hs.flatMap handleBytes

/-- An AMEND body. -/
def amendBytes (h : Handle) (due : Tick) (rep : Option (Runs × Nat)) : List Byte :=
  handleBytes h ++ tickBytes due
    ++ (match rep with | none => [0] | some (runs, period) => 1 :: (byte1 runs.code ++ byte3 period))

/-- The bytes of a descriptor as its markers ask for them. -/
def RawDescriptor.bytes (d : RawDescriptor) : List Byte :=
  [d.head, d.setMask, d.clearMask, d.flags]
    ++ (match d.due with | none => [] | some t => tickBytes t)
    ++ (match d.trigger with | none => [] | some (first, delay) => first :: byte2 delay)
    ++ (match d.window with | none => [] | some t => tickBytes t)
    ++ (match d.rep with | none => [] | some (runs, period) => byte1 runs.code ++ byte3 period)

/-- A runs field and a period as a repeat part can hold them. -/
def RepeatFits (runs : Runs) (period : Nat) : Prop :=
  period < 16777216 ∧ ∀ n, runs = .count n → 1 ≤ n ∧ n ≤ 255

/-- The markers of a descriptor's first byte say which parts it has, and each part fits its field. -/
structure RawDescriptor.Fits (d : RawDescriptor) : Prop where
  due : d.due.isSome = d.head.getLsbD 3
  trigger : d.trigger.isSome = d.head.getLsbD 2
  window : d.window.isSome = d.head.getLsbD 1
  rep : d.rep.isSome = d.head.getLsbD 0
  delay : ∀ first delay, d.trigger = some (first, delay) → delay < 65536
  repeats : ∀ runs period, d.rep = some (runs, period) → RepeatFits runs period

/-- A descriptor as section 12.3 lays it out. -/
def Descriptor.raw (d : Descriptor) : RawDescriptor :=
  match d.timing with
  | .timed due =>
    { head := BitVec.ofNat 8 (16 * d.bank.val + 8 + d.rep.isSome.toNat)
      setMask := d.setMask, clearMask := d.clearMask, flags := BitVec.ofNat 8 d.flags.code
      due := some due, trigger := none, window := none, rep := d.rep }
  | .armed line edge delay window =>
    { head := BitVec.ofNat 8 (64 + 16 * d.bank.val + 4 + 2 * window.isSome.toNat + d.rep.isSome.toNat)
      setMask := d.setMask, clearMask := d.clearMask, flags := BitVec.ofNat 8 d.flags.code
      due := none, trigger := some (BitVec.ofNat 8 (16 * edge.code + line.val), delay), window := window, rep := d.rep }

/-- A descriptor that meets every condition of R21. -/
structure Descriptor.Fits (used : InLine → Bool) (d : Descriptor) : Prop where
  masks : d.setMask ||| d.clearMask ≠ 0 ∧ d.setMask &&& d.clearMask = 0
  timed : ∀ due, d.timing = .timed due → d.flags.rearm = false
  armed : ∀ line edge delay window, d.timing = .armed line edge delay window → used line = true ∧ delay < 65536
  repeats : ∀ runs period, d.rep = some (runs, period) → RepeatFits runs period ∧ 1 ≤ period

/-- A PLACE body. -/
def placeBytes (ds : List RawDescriptor) : List Byte := byte1 ds.length ++ ds.flatMap RawDescriptor.bytes

/-! ### Lines that change hands -/

/-- Owners, claims and arbiter from `s` to `t`, when the lines of `m` lose their owner and a pass follows (R97, R100): an owned
line outside `m` keeps its owner; a line without an owner stays free or goes to a waiting claim that names it, which is granted
whole; the order of the pass is that of `Obligations.ArbiterPassGrantsWholeClaims`. -/
structure Regranted (m : LineMask) (s t : State) : Prop where
  kept : ∀ l q, inMask m l = false → s.owner l = some q → t.owner l = some q
  given : ∀ l, inMask m l = true ∨ s.owner l = none →
    t.owner l = none ∨ ∃ q c, s.claim q = some c ∧ t.claim q = none ∧ inMask c.mask l = true ∧ t.owner l = some q
  claims : ∀ q, t.claim q = s.claim q ∨ ∃ c, s.claim q = some c ∧ t.claim q = none ∧
    ∀ l, inMask c.mask l = true → t.owner l = some q
  rank : t.arbiter.mode = s.arbiter.mode ∧ t.arbiter.first = s.arbiter.first ∧ t.arbiter.second = s.arbiter.second
    ∧ t.arbiter.third = s.arbiter.third
  pass : ∃ u, u = (arbiterPass (Work.of { s with owners := table fun l => if inMask m l then none else s.owner l })).st
    ∧ t.owners = u.owners ∧ t.claims = u.claims ∧ t.arbiter = u.arbiter

/-- Port `q` after the pass: CLAIM_GRANTED when its waiting claim was granted (R101, R107). -/
def HostPort.grantedFrom (h : HostPort) (s t : State) (q : Port) : HostPort :=
  match s.claim q, t.claim q with
  | some c, none => h.told (.claimGranted c.mask c.enqueued s.now (t.ownedMask q))
  | _, _ => h

/-- A deferred rise as the grants of the event leave it: an ownerless one on a line that had lost its owner, and has one
again, is withdrawn (R80, R101). -/
def afterGrants (m : LineMask) (s t : State) (d : Option DeferredRise) : Option DeferredRise :=
  d.filter fun d => !(d.owner.isNone && (inMask m d.line || (s.owner d.line).isNone) && (t.owner d.line).isSome)

/-- The deferred rise that an ownerless request for line `y` of a pair makes at `now` (R76, R83). -/
def ownerlessRise (c : PairConfig) (y : OutLine) (now : Tick) : DeferredRise :=
  { line := y, owner := none, requestTick := now
    holdDeadline := if c.hold = 0 then none else some (now + BitVec.ofNat 32 c.hold) }

/-- The valid pairs from `s` to `t`, when the lines of `m` lose their owner: the deferred rises on those lines are withdrawn
and the lines driven to their safe levels through the interlock (R51, R73, R75, R80, R83). -/
structure DrivenPairs (m : LineMask) (s t : State) : Prop where
  /-- A line at 1 with safe level 0 falls, with its guard. With guard 0 its partner's rise, waiting or asked for by the same
  drive, is granted; with a guard it waits. -/
  falls : ∀ k z, (s.pair k).valid = true → (s.pair k).holds z = true → inMask m z = true →
    (s.output z).safe = false → s.level z = .one →
    let c := s.pair k
    let x := c.partner z
    let waits := (s.pairRuntime k).defers x && !inMask m x
    let asked := inMask m x && (s.output x).safe && s.level x == .zero
    t.level z = .zero ∧ t.level x = (if c.guard = 0 ∧ (waits || asked) = true then .one else s.level x)
      ∧ t.pairRuntime k =
        { fall := some { line := z, tick := s.now }
          guard := if c.guard = 0 then none else some { ends := s.now + BitVec.ofNat 32 c.guard, line := x }
          deferred :=
            if c.guard = 0 then none
            else if asked then afterGrants m s t (some (ownerlessRise c x s.now))
            else if waits then afterGrants m s t (s.pairRuntime k).deferred
            else none }
  /-- A line at 0 with safe level 1, whose partner does not fall, is judged as an ownerless request. -/
  rises : ∀ k y, (s.pair k).valid = true → (s.pair k).holds y = true → inMask m y = true →
    (s.output y).safe = true → s.level y = .zero →
    let c := s.pair k
    let x := c.partner y
    let r := s.pairRuntime k
    let contended := r.defers x && !inMask m x
    let free := s.level x == .zero && !r.guards y
    ¬(inMask m x = true ∧ (s.output x).safe = false ∧ s.level x = .one) →
    t.level x = s.level x ∧ t.level y = (if !contended && free then .one else .zero)
      ∧ t.pairRuntime k =
        { r with
          deferred :=
            if contended then afterGrants m s t r.deferred
            else if free then none
            else afterGrants m s t (some (ownerlessRise c y s.now)) }
  /-- A pair without such a line keeps its levels, its fall record and its guard. -/
  rest : ∀ k, (s.pair k).valid = true →
    (∀ z, (s.pair k).holds z = true → inMask m z = true →
      ((s.output z).safe = false → s.level z ≠ .one) ∧ ((s.output z).safe = true → s.level z ≠ .zero)) →
    (∀ z, (s.pair k).holds z = true → t.level z = s.level z)
      ∧ t.pairRuntime k =
        { s.pairRuntime k with
          deferred := afterGrants m s t ((s.pairRuntime k).deferred.filter fun d => !inMask m d.line) }
  /-- An entry that is not valid keeps its absent runtime. -/
  absent : ∀ k, (s.pair k).valid = false → t.pairRuntime k = s.pairRuntime k

/-- What a direct drive of every used line leaves of a pair's runtime (R52, R73, R81): the line that stood at 1 and has safe
level 0 has fallen, which starts the guard; otherwise fall record and guard stay; no deferred rise is left. -/
def DroppedPairs (s t : State) : Prop :=
  ∀ k, (s.pair k).valid = true →
    (∀ z, (s.pair k).holds z = true → (s.output z).safe = false → s.level z = .one →
      t.pairRuntime k =
        { fall := some { line := z, tick := s.now }
          guard := if (s.pair k).guard = 0 then none
            else some { ends := s.now + BitVec.ofNat 32 (s.pair k).guard, line := (s.pair k).partner z }
          deferred := none })
    ∧ ((∀ z, (s.pair k).holds z = true → (s.output z).safe = true ∨ s.level z ≠ .one) →
      t.pairRuntime k = { s.pairRuntime k with deferred := none })

/-! ### What the end of a session takes back -/

/-- What the end of port `p`'s session takes back, from `s` to `t` (R115, R117): its lines, steps, waiting claim, subscriptions
and latch bits; no other port's step, inputs or session is touched, and the steps that stay keep their places; the freed lines
are driven to their safe levels through the interlock, and the other lines in no valid pair keep theirs; the arbiter's pass
then sees the freed lines. -/
structure TakenBack (p : Port) (s t : State) : Prop where
  lines : ∀ l, t.owner l ≠ some p
  steps : ∀ i, s.ownsStep p i = true → t.slot i = { generation := (s.slot i).generation + 1, step := none }
  otherSteps : ∀ i, s.ownsStep p i = false → t.slot i = s.slot i
  collections : Kept (s.ownsStep p) s t
  claim : t.claim p = none
  inputs : t.inputsOf p = { subscriptions := Vector.replicate 8 .none, rises := 0, falls := 0 }
  otherInputs : ∀ q, q ≠ p → t.inputsOf q = s.inputsOf q
  otherSessions : ∀ q, q ≠ p → t.session q = s.session q
  regranted : Regranted (s.ownedMask p) { s with claims := s.claims.set p none } t
  freed : ∀ l, s.owner l = some p → s.pairOf l = none → s.level l ≠ .z →
    t.level l = if (s.output l).safe then .one else .zero
  kept : ∀ l, s.owner l ≠ some p → s.pairOf l = none → t.level l = s.level l
  pairs : PairConfigLaw s → PairRuntimeLaw s → PairLaw s → DrivenPairs (s.ownedMask p) s t

end Sys2Proof.Machine
end

