-- ==== Sys2Proof/Certificates/Slice0/Obligations.lean ====
section
/-! DEFINITION. The statements for the provers. Each cites in OBLIGATIONS.json the rules or sections it rests on. A rise of
chip select is spoken of through `Ends` and `Takes` (Safety.lean): `s₁` is the state in which the request is taken, after
orders 1 and 2 of R168. A record update says the frame too: every field it does not name is unchanged. -/

open Sys2Proof Sys2Proof.Machine

/-! ### Commands and the queue of commands -/

/-- A step takes the command at the front of the queue, and runs exec on it with the queue's rest. The queue is the
model's (log entry 14). -/
def Obligations.StepTakesTheFrontCommand : Prop :=
  ∀ (c : Instr) (rest : List Instr) (s : State),
    step { s with pending := c :: rest } = exec c { s with pending := rest }

/-! ### Host ports (chapter 11) -/

/-- TRANSACTION_BEGIN (R167): the outgoing frame is the head entry or the idle frame, under the status byte of this
moment; nothing is received or sent yet. The status byte holds MORE, OVERRUN, NOTICE_LOSS, EDGES_HELD, the phase and the
session state, each at its bits (R176, section 12.1). -/
def Obligations.TransactionBeginFixesTheFrame : Prop :=
  (∀ (s : State) (p : Port), s.inReset = false → (s.port p).selected = false →
    exec (.transactionBegin p) s = .next
      { s with
        ports := s.ports.set p
          { s.port p with
            selected := true
            transfer := some
              { inbound := [], partialBits := 0, bitCount := 0, sent := 0
                isHead := !(s.port p).queue.isEmpty
                outgoing :=
                  match (s.port p).queue with
                  | [] => frameBytes 0x00 0x00 (s.statusByte p false) 0x00 []
                  | e :: rest => frameBytes e.kind.code e.code (s.statusByte p (!rest.isEmpty)) e.tag e.body } } })
  ∧ ∀ (s : State) (p : Port) (more : Bool),
    (s.statusByte p more).getLsbD 7 = more
      ∧ (s.statusByte p more).getLsbD 6 = (s.port p).overrun
      ∧ (s.statusByte p more).getLsbD 5 = (s.port p).noticeLoss
      ∧ (s.statusByte p more).getLsbD 4 = decide ((s.inputsOf p).rises ≠ 0 ∨ (s.inputsOf p).falls ≠ 0)
      ∧ (s.statusByte p more).extractLsb' 2 2
          = (match s.phase with | .setup => 0b00#2 | .run => 0b01#2 | .fault => 0b10#2)
      ∧ (s.statusByte p more).extractLsb' 0 2
          = (match (s.session p).state with | .closed => 0b00#2 | .opened _ _ => 0b01#2 | .lapsed => 0b10#2)

/-- Eight SPI_CLOCK_CYCLEs at a byte boundary carry one byte in, most significant bit first, and one byte of the outgoing
frame out, until all of it is sent; before the eighth, no byte is complete (R167). Data out carries the bits of the byte most
significant first, one in each of the eight cycles, and 0 when the whole frame is sent; an IDLE port does not drive it, and
ignores its clock. ATTN is asserted exactly while the queue holds an entry (R177). That data out is a view of the frame, and
the row one whole cycle, is read from R167 by inference (log entry 17). -/
def Obligations.ClockCyclesShiftBytes : Prop :=
  (∀ (s : State) (p : Port), (s.port p).transfer = none →
    s.dataOut p = none ∧ ∀ bit : Bool, exec (.spiClockCycle p bit) s = .next s)
  ∧ (∀ (s : State) (p : Port), s.attention p = true ↔ (s.port p).queue ≠ [])
  ∧ ∀ (s : State) (p : Port) (x : Transfer), s.inReset = false → (s.port p).transfer = some x →
    (∀ (i : Nat) (bits : List Bool), x.bitCount = 0 → i < 8 → bits.length = i →
      ∃ t, execAll (bits.map (.spiClockCycle p)) s = .next t
        ∧ t.dataOut p = some (match x.outgoing[x.sent]? with | none => false | some out => out.getLsbD (7 - i)))
    ∧ (∀ bit : Bool, x.bitCount < 7 → ∃ part : Byte,
      exec (.spiClockCycle p bit) s = .next
        { s with
          ports := s.ports.set p
            { s.port p with transfer := some { x with partialBits := part, bitCount := x.bitCount + 1 } } })
    ∧ ∀ b : Byte, x.bitCount = 0 → x.sent ≤ x.outgoing.length →
      execAll ((List.range 8).map fun i => .spiClockCycle p (b.getLsbD (7 - i))) s = .next
        { s with
          ports := s.ports.set p
            { s.port p with
              transfer := some
                { x with
                  inbound := x.inbound ++ [b]
                  partialBits := 0
                  sent := min (x.sent + 1) x.outgoing.length } } }

/-- The bytes that a rise of chip select carries stand for clock cycles: taken as SPI_CLOCK_CYCLEs before the rise, they
lead to the same state. The model's own reading of the table's rows (log entry 2). -/
def Obligations.BurstStandsForClockCycles : Prop :=
  ∀ (c d : Instr) (s t : State) (p : Port) (row : FrameRow) (x : Transfer) (bytes rest : List Byte),
    c.rise = some (p, row, bytes ++ rest) → d.rise = some (p, row, rest) →
    s.inReset = false → (s.port p).transfer = some x →
    row.admits (readInbound (x.bytes (bytes ++ rest)).inbound) = true →
    (row = .anyFrame → s.summaryDue p (x.bytes (bytes ++ rest)) = true) →
    execAll ((bytes.flatMap bitsOf).map (.spiClockCycle p)) s = .next t →
    exec c s = exec d t

/-- NOP and EDGE_SUMMARY (R134, R168). Inbound bytes are a pure fetch when there are none or the first is 0x00. NOP: a pure
fetch removes the head entry when every byte of it was sent, and leaves it otherwise; when no latch bit is set, the head stays,
or the rest of the queue admits no notice, that is all it does, and the latch stays. EDGE_SUMMARY: when a fetched head leaves,
a latch bit is set and the rest of the queue admits a notice, the folded edges are reported and the latch is cleared, before
the frame of the transaction is taken; a pure fetch taken as NOP does the same. Which rises the row EDGE_SUMMARY stands for is
the model's choice (log entry 24). -/
def Obligations.FetchedHeadsLeaveTheQueue : Prop :=
  (readInbound [] = .pureFetch ∧ ∀ rest : List Byte, readInbound (0x00 :: rest) = .pureFetch)
  ∧ (∀ (s : State) (p : Port) (mosi : List Byte) (x : Transfer),
    s.inReset = false → (s.port p).transfer = some x → readInbound (x.bytes mosi).inbound = .pureFetch →
    (((s.inputsOf p).rises = 0 ∧ (s.inputsOf p).falls = 0)
      ∨ ¬(x.isHead = true ∧ (x.bytes mosi).sent = x.outgoing.length) ∨ 14 < (s.port p).queue.tail.length) →
    exec (.nop p mosi) s = .next
      { s with
        ports := s.ports.set p
          { s.port p with
            selected := false
            transfer := none
            queue :=
              if x.isHead = true ∧ (x.bytes mosi).sent = x.outgoing.length then (s.port p).queue.tail
              else (s.port p).queue } })
  ∧ ∀ (s : State) (p : Port) (mosi : List Byte) (x : Transfer),
    s.inReset = false → (s.port p).transfer = some x → x.isHead = true → (x.bytes mosi).sent = x.outgoing.length →
    ((s.inputsOf p).rises ≠ 0 ∨ (s.inputsOf p).falls ≠ 0) → (s.port p).queue.tail.length ≤ 14 →
    ∃ s₁ : State,
      s₁ = { s with
        ports := s.ports.set p
          { s.port p with
            selected := false
            transfer := none
            queue := (s.port p).queue.tail ++
              [{ kind := .notice, code := 0x08, tag := (s.port p).sequence,
                 body := [(s.inputsOf p).rises, (s.inputsOf p).falls] ++ tickBytes s.now }]
            sequence := (s.port p).sequence + 1 }
        portInputs := s.portInputs.set p { s.inputsOf p with rises := 0, falls := 0 } }
      ∧ exec (.edgeSummary p mosi) s = .next (s₁.take p (readInbound (x.bytes mosi).inbound) serveAny)
      ∧ (readInbound (x.bytes mosi).inbound = .pureFetch →
        exec (.edgeSummary p mosi) s = .next s₁ ∧ exec (.nop p mosi) s = .next s₁)

/-- E_FRAME and E_KIND (R169, R170): a bad frame is answered without touching cache or lease; a frame of an unknown kind
is a taken request, so its reply is cached, and it renews an OPEN session's lease. -/
def Obligations.BadAndUnknownFramesAreAnswered : Prop :=
  (∀ (s s₁ : State) (p : Port) (mosi : List Byte) (kind tag : Byte),
    Ends s p mosi (.bad kind tag) s₁ → (s₁.port p).queue.length ≤ 15 →
    exec (.eFrame p mosi) s = .next
      { s₁ with
        ports := s₁.ports.set p { s₁.port p with queue := (s₁.port p).queue ++ [replyEntry kind tag [0x01]] } })
  ∧ ∀ (s s₁ : State) (p : Port) (mosi : List Byte) (kind tag crc : Byte) (body : List Byte),
    Ends s p mosi (.frame kind tag body crc) s₁ → (s₁.port p).queue.length ≤ 15 → requestOf kind = none →
    s₁.repeatOf p kind tag crc = none →
    exec (.eKind p mosi) s = .next
      { s₁ with ports := s₁.repliedPorts p kind tag crc [0x02], sessions := s₁.sessionsAfter p }

/-- The frame checks (R169): the five cases in which a frame that is not a pure fetch fails, with the tag of its reply;
any other frame passes with its fields, and bytes after the CRC byte do not matter. -/
def Obligations.FrameChecksAreTheFiveCases : Prop :=
  ∀ kind : Byte, kind ≠ 0 →
    readInbound [kind] = .bad kind 0
    ∧ (∀ tag, readInbound [kind, tag] = .bad kind tag)
    ∧ ∀ (tag len : Byte) (more : List Byte),
      (48 < len.toNat → readInbound (kind :: tag :: len :: more) = .bad kind tag)
      ∧ (len.toNat ≤ 48 → more.length < len.toNat + 1 → readInbound (kind :: tag :: len :: more) = .bad kind tag)
      ∧ (∀ (crc : Byte) (body extra : List Byte), len.toNat ≤ 48 → body.length = len.toNat →
          more = body ++ crc :: extra →
          readInbound (kind :: tag :: len :: more)
            = if crc = crc8 (kind :: tag :: len :: body) then .frame kind tag body crc else .bad kind tag)

/-- What a host sends as a request frame is what the port reads, whatever it goes on clocking (section 12.1, R168): the frame
reader undoes the frame encoding for every kind but 0x00, every tag and every body that a frame can carry. -/
def Obligations.RequestFramesRoundTrip : Prop :=
  ∀ (kind tag : Byte) (body extra : List Byte), kind ≠ 0 → body.length ≤ 48 →
    readInbound (requestFrame kind tag body ++ extra)
      = .frame kind tag body (crc8 (kind :: tag :: BitVec.ofNat 8 body.length :: body))

/-- The CRC-8 (R182): the register is preset to 0xFF, each byte is combined with it and shifted out by eight shifts, with 0x2F
combined in where a 1 leaves, and there is no final inversion; so the bytes with their own CRC appended leave 0; and the
manual's examples come out. -/
def Obligations.CrcRegisterShifts : Prop :=
  crc8 [] = 0xFF
  ∧ (∀ (bytes : List Byte) (b : Byte), crc8 (bytes ++ [b]) =
      (List.range 8).foldl (fun r _ => if r.getLsbD 7 then (r <<< 1) ^^^ 0x2F else r <<< 1) (crc8 bytes ^^^ b))
  ∧ (∀ bytes : List Byte, crc8 (bytes ++ [crc8 bytes]) = 0)
  ∧ crc8 [0x01] = 0x6D ∧ crc8 [0x01, 0x00] = 0x51 ∧ crc8 [0x01, 0x00, 0x00] = 0x67 ∧ crc8 [0x00] = 0x42

/-- The reply reservation (R174) and the repeat (R173). A frame that is not a pure fetch and finds 16 entries is discarded;
only OVERRUN changes. A repeat is answered with a copy of the cached reply, marked as a repeat, and carried out no further;
it renews an OPEN session's lease and no other. -/
def Obligations.FullQueuesDiscardAndRepeatsAreAnswered : Prop :=
  (∀ (c : Instr) (s s₁ : State) (p : Port) (row : FrameRow) (mosi : List Byte) (inbound : Inbound),
    c.rise = some (p, row, mosi) → row ≠ .anyFrame → row.admits inbound = true → inbound ≠ .pureFetch →
    Ends s p mosi inbound s₁ → 16 ≤ (s₁.port p).queue.length →
    exec c s = .next { s₁ with ports := s₁.ports.set p { s₁.port p with overrun := true } })
  ∧ ∀ (c : Instr) (s s₁ : State) (p : Port) (row : FrameRow) (mosi : List Byte) (kind tag crc : Byte) (body : List Byte)
    (reply : Entry),
    c.rise = some (p, row, mosi) → row ≠ .anyFrame → row.admits (.frame kind tag body crc) = true →
    Ends s p mosi (.frame kind tag body crc) s₁ → (s₁.port p).queue.length ≤ 15 →
    (s₁.port p).cache = some { tag := tag, kind := kind, crc := crc, reply := reply } →
    exec c s = .next
      { s₁ with
        ports := s₁.ports.set p
          { s₁.port p with queue := (s₁.port p).queue ++ [{ reply with kind := .repeated }] }
        sessions := s₁.sessionsAfter p }

/-- The session test (R110): from CLOSED every request but STATUS, READ_TIME, CONFIG_READ and OPEN is answered E_SESSION;
from LAPSED OPEN is answered E_STATE, and every other request but those and CLOSE E_LAPSED; from OPEN, OPEN is answered
E_STATE. A refusal from CLOSED or LAPSED renews nothing. That one from OPEN renews the lease is R111 and R112, against R110's
last words: the model's choice between them (log entry 27). -/
def Obligations.SessionTestRefuses : Prop :=
  ∀ (c : Instr) (s s₁ : State) (p : Port) (row : FrameRow) (mosi : List Byte) (r : Request) (tag crc : Byte)
    (body : List Byte),
    c.rise = some (p, row, mosi) → row ≠ .anyFrame → row.admits (.frame r.code tag body crc) = true →
    Takes s p mosi r tag crc body s₁ →
    ((s₁.session p).state = .closed → r ≠ .status → r ≠ .readTime → r ≠ .configRead → r ≠ .openSession →
      exec c s = .next { s₁ with ports := s₁.repliedPorts p r.code tag crc [0x04] })
    ∧ ((s₁.session p).state = .lapsed → r = .openSession →
      exec c s = .next { s₁ with ports := s₁.repliedPorts p r.code tag crc [0x06] })
    ∧ ((s₁.session p).state = .lapsed → r ≠ .status → r ≠ .readTime → r ≠ .configRead → r ≠ .openSession →
      r ≠ .closeSession → exec c s = .next { s₁ with ports := s₁.repliedPorts p r.code tag crc [0x05] })
    ∧ ∀ period deadline, (s₁.session p).state = .opened period deadline → r = .openSession →
      exec c s = .next (s₁.refused p period r tag crc [0x06])

/-- The phase test (R152): in FAULT a request from an OPEN session is answered E_FAULT unless it is STATUS, CLOSE,
READ_TIME, CONFIG_READ or CLEAR_FAULT; CONFIG_WRITE and SET_TIME outside SETUP, and the requests on lines and steps
outside RUN, are answered E_PHASE, with index 0 for PLACE and CANCEL. Each refusal renews the lease and does no more. An OPEN
from a CLOSED session in FAULT is answered E_FAULT, and there is no lease to renew (R110, R111). -/
def Obligations.PhaseTestsRefuse : Prop :=
  (∀ (c : Instr) (s s₁ : State) (p : Port) (row : FrameRow) (mosi : List Byte) (r : Request) (tag crc : Byte)
    (body : List Byte) (period : Nat) (deadline : Tick),
    c.rise = some (p, row, mosi) → row ≠ .anyFrame → row.admits (.frame r.code tag body crc) = true →
    Takes s p mosi r tag crc body s₁ → (s₁.session p).state = .opened period deadline → r ≠ .openSession →
    (s₁.phase = .fault → r ∉ [.status, .closeSession, .readTime, .configRead, .clearFault] →
      exec c s = .next (s₁.refused p period r tag crc [0x08]))
    ∧ (s₁.phase = .run → r ∈ [.configWrite, .setTime] → exec c s = .next (s₁.refused p period r tag crc [0x07]))
    ∧ (s₁.phase = .setup → r ∈ [.cancelAll, .amend, .claim, .claimWithdraw, .release] →
      exec c s = .next (s₁.refused p period r tag crc [0x07]))
    ∧ (s₁.phase = .setup → r ∈ [.place, .cancel] → exec c s = .next (s₁.refused p period r tag crc [0x07, 0x00])))
  ∧ ∀ (c : Instr) (s s₁ : State) (p : Port) (row : FrameRow) (mosi : List Byte) (tag crc : Byte) (body : List Byte),
    c.rise = some (p, row, mosi) → row ≠ .anyFrame → row.admits (.frame 0x02 tag body crc) = true →
    Takes s p mosi .openSession tag crc body s₁ → (s₁.session p).state = .closed → s₁.phase = .fault →
    exec c s = .next { s₁ with ports := s₁.repliedPorts p 0x02 tag crc [0x08] }

/-- STATUS (R178), from every session state and in every phase: the port's own view as it stood when the request was taken,
with the lease remaining from before the renewal; OVERRUN and NOTICE_LOSS are cleared after it. A body that is not empty is
refused E_ARG. The presence bits, the moment of the counts, the four bytes of the wait deadline and the one byte each of quota
and next notice sequence are read from the manual by inference (log entries 9, 19 and 18); that the bits of the presence byte
and of the flags byte to which the spec gives no field are 0 is the model's choice (log entry 31). -/
def Obligations.StatusReportsAndClearsFlags : Prop :=
  ∀ (s s₁ : State) (p : Port) (mosi : List Byte) (tag crc : Byte) (body : List Byte),
    Takes s p mosi .status tag crc body s₁ →
    (body = [] → exec (.status p mosi) s = .next
      { s₁ with
        sessions := s₁.sessionsAfter p
        ports := s₁.ports.set p
          (({ s₁.port p with overrun := false, noticeLoss := false } : HostPort).replied 0x01 tag crc
            ([0x00]
              ++ presence [s₁.isOpen p, s₁.isOpen p, (s₁.claim p).isSome, ((s₁.claim p).bind Claim.deadline).isSome]
              ++ byte1 s₁.phase.code
              ++ (match (s₁.session p).state with
                  | .closed => byte1 0 ++ List.replicate 6 0
                  | .opened period deadline => byte1 1 ++ byte3 period ++ byte3 (lead deadline s₁.now)
                  | .lapsed => byte1 2 ++ List.replicate 6 0)
              ++ byte1 (s₁.stepCount p) ++ byte1 (s₁.quota p) ++ maskBytes (s₁.ownedMask p)
              ++ (match s₁.claim p with
                  | none => List.replicate 11 0
                  | some c =>
                    maskBytes c.mask ++ (match c.deadline with | none => List.replicate 4 0 | some t => tickBytes t)
                      ++ tickBytes c.enqueued)
              ++ byte1 (64 * (s₁.port p).overrun.toNat + 32 * (s₁.port p).noticeLoss.toNat + 16 * (s₁.edgesHeld p).toNat)
              ++ byte1 (s₁.port p).queue.length ++ [(s₁.port p).sequence])) })
    ∧ (body ≠ [] → exec (.status p mosi) s = .next
      { s₁ with sessions := s₁.sessionsAfter p, ports := s₁.repliedPorts p 0x01 tag crc [0x03] })

/-! ### Sessions and leases (chapter 7) -/

/-- OPEN and RENEW (R111, R113). OPEN: a CLOSED session becomes OPEN with the lease period, the deadline NOW plus the period,
and WATCH_PEERS as asked; the port's queue, flags and sequence go on; a body of another length, a period below 16 or another
flag is refused E_ARG. RENEW: the lease deadline becomes NOW plus the period, and the reply gives NOW, the deadline and the
period; a body that is not empty is refused E_ARG and renews all the same. -/
def Obligations.OpenAndRenewSetTheLease : Prop :=
  (∀ (s s₁ : State) (p : Port) (mosi : List Byte) (tag crc : Byte) (body : List Byte),
    Takes s p mosi .openSession tag crc body s₁ → (s₁.session p).state = .closed → s₁.phase ≠ .fault →
    (∀ p2 p1 p0 flags : Byte, body = [p2, p1, p0, flags] → 16 ≤ nat3 p2 p1 p0 → flags.toNat ≤ 1 →
      exec (.openSession p mosi) s = .next
        { s₁ with
          sessions := s₁.sessions.set p
            { state := .opened (nat3 p2 p1 p0) (s₁.now + BitVec.ofNat 32 (nat3 p2 p1 p0)), watch := flags.getLsbD 0 }
          ports := s₁.repliedPorts p 0x02 tag crc
            ([0x00] ++ tickBytes s₁.now ++ tickBytes (s₁.now + BitVec.ofNat 32 (nat3 p2 p1 p0)) ++ byte1 s₁.phase.code) })
    ∧ (body.length ≠ 4 ∨ (∃ p2 p1 p0 flags, body = [p2, p1, p0, flags] ∧ (nat3 p2 p1 p0 < 16 ∨ 1 < flags.toNat)) →
      exec (.openSession p mosi) s = .next { s₁ with ports := s₁.repliedPorts p 0x02 tag crc [0x03] }))
  ∧ ∀ (s s₁ : State) (p : Port) (mosi : List Byte) (tag crc : Byte) (body : List Byte) (period : Nat) (deadline : Tick),
    Takes s p mosi .renew tag crc body s₁ → (s₁.session p).state = .opened period deadline → s₁.phase ≠ .fault →
    (body = [] → exec (.renew p mosi) s = .next
      { s₁ with
        sessions := s₁.sessions.set p
          { state := .opened period (s₁.now + BitVec.ofNat 32 period), watch := (s₁.session p).watch }
        ports := s₁.repliedPorts p 0x04 tag crc
          ([0x00] ++ tickBytes s₁.now ++ tickBytes (s₁.now + BitVec.ofNat 32 period) ++ byte3 period) })
    ∧ (body ≠ [] → exec (.renew p mosi) s = .next (s₁.refused p period .renew tag crc [0x03]))

/-- CLOSE (R117, R118): from OPEN the session becomes CLOSED and everything the port held is taken back, with the lines and
the step count in the reply, PEER_CLOSED to the watching OPEN ports, and then CLAIM_GRANTED to a port whose waiting claim the
freed lines let in; from LAPSED only the session returns to CLOSED. A body that is not empty is refused E_ARG. -/
def Obligations.CloseTakesEverythingBack : Prop :=
  ∀ (s s₁ : State) (p : Port) (mosi : List Byte) (tag crc : Byte) (body : List Byte),
    Takes s p mosi .closeSession tag crc body s₁ →
    (∀ period deadline, (s₁.session p).state = .opened period deadline → body = [] →
      ∃ t, exec (.closeSession p mosi) s = .next t
        ∧ t = { s₁ with
                ports := t.ports, sessions := t.sessions, owners := t.owners, latch := t.latch, runtime := t.runtime
                claims := t.claims, arbiter := t.arbiter, slots := t.slots, dueList := t.dueList
                armedSet := t.armedSet, armedThisTick := t.armedThisTick, portInputs := t.portInputs }
        ∧ t.session p = { state := .closed, watch := false }
        ∧ TakenBack p s₁ t
        ∧ t.port p = (s₁.port p).replied 0x03 tag crc
            ([0x00] ++ maskBytes (s₁.ownedMask p) ++ byte1 (s₁.stepCount p))
        ∧ ∀ q, q ≠ p → t.port q =
          (if s₁.isOpen q = true ∧ (s₁.session q).watch = true then
              (s₁.port q).told (.peerClosed p s₁.now (s₁.ownedMask p))
            else s₁.port q).grantedFrom s₁ t q)
    ∧ ((s₁.session p).state = .lapsed → body = [] →
      exec (.closeSession p mosi) s = .next
        { s₁ with
          sessions := s₁.sessions.set p { state := .closed, watch := false }
          ports := s₁.repliedPorts p 0x03 tag crc [0x00, 0, 0, 0, 0] })
    ∧ (∀ period deadline, (s₁.session p).state = .opened period deadline → body ≠ [] →
      exec (.closeSession p mosi) s = .next (s₁.refused p period .closeSession tag crc [0x03]))
    ∧ ((s₁.session p).state = .lapsed → body ≠ [] →
      exec (.closeSession p mosi) s = .next { s₁ with ports := s₁.repliedPorts p 0x03 tag crc [0x03] })

/-- LAPSE (R114 to R116): when NOW is the lease deadline of an OPEN session and the clock is present, the session becomes
LAPSED, its cache is invalidated and everything the port held is taken back, with LAPSED to the port, PEER_LAPSED to the
watching OPEN ports, and then CLAIM_GRANTED to a port whose waiting claim the freed lines let in. -/
def Obligations.LapseTakesEverythingBack : Prop :=
  ∀ (s : State) (p : Port) (period : Nat), s.inReset = false → s.clock.present = true →
    (s.session p).state = .opened period s.now →
    ∃ t, exec (.lapse p) s = .next t
      ∧ t = { s with
              ports := t.ports, sessions := t.sessions, owners := t.owners, latch := t.latch, runtime := t.runtime
              claims := t.claims, arbiter := t.arbiter, slots := t.slots, dueList := t.dueList
              armedSet := t.armedSet, armedThisTick := t.armedThisTick, portInputs := t.portInputs }
      ∧ t.session p = { state := .lapsed, watch := (s.session p).watch }
      ∧ TakenBack p s t
      ∧ t.port p = ({ s.port p with cache := none } : HostPort).told (.lapsed s.now (s.ownedMask p) (s.stepCount p))
      ∧ ∀ q, q ≠ p → t.port q =
        (if s.isOpen q = true ∧ (s.session q).watch = true then (s.port q).told (.peerLapsed p s.now (s.ownedMask p))
          else s.port q).grantedFrom s t q

/-! ### The timebase (chapter 9) -/

/-- INT_TICK and TCLK_RISE (R140 to R142, R147): NOW advances by one, every used input is sampled (R126), and the counts of the
timebase restart; a TCLK edge sets the presence flag again. The work left at the old NOW is done before, as by its rows one after
the other; with none left the tick does no more. A tick that is due already is the one that INT_TICK takes, and no period passes;
a loss that is due is declared before the TCLK edge, as by CLOCK_LOST. Under the other source nothing happens.
The model's own in this: that and in which order work is done that was left (log entry 11), that an event of the other source
does nothing (log entry 13), the tick that is due (log entry 3), the edge that a sample leaves due (log entry 4), and the list
of steps armed since the last tick (log entry 5). -/
def Obligations.TickArrivalsAdvanceNow : Prop :=
  ∀ (s : State) (pins : InputMask), s.inReset = false →
    (∃ u, execAll tickRows s = .next u ∧ u.now = s.now ∧ u.clock = s.clock ∧ (s.quiet = true → u = s)
      ∧ (s.clock.source = .int → s.clock.present = true →
          ∃ fs, Sampled u (s.now + 1) pins fs
          ∧ exec (.intTick pins) s = .next
            { u with
              now := s.now + 1, pins := pins, armedThisTick := [], filters := fs
              clock := { s.clock with
                prescaler := 0
                tickDue := false
                microseconds :=
                  (s.clock.microseconds + if s.clock.tickDue then 0 else s.clock.divider - s.clock.prescaler) % 16 } })
      ∧ (s.clock.source = .tclk → s.clock.tickDue = false → (s.clock.present = false ∨ s.clock.gap < s.clock.lossWindow) →
          ∃ fs, Sampled u (s.now + 1) pins fs
          ∧ exec (.tclkRise pins) s = .next
            { u with
              now := s.now + 1, pins := pins, armedThisTick := [], filters := fs
              clock := { s.clock with gap := 0, present := true } })
      ∧ (s.lossDue = true → s.clock.tickDue = false → u.quiet = true → ∀ v, exec .clockLost u = .next v →
          ∃ fs, Sampled v (s.now + 1) pins fs
          ∧ exec (.tclkRise pins) s = .next
            { v with
              now := s.now + 1, pins := pins, armedThisTick := [], filters := fs
              clock := { v.clock with gap := 0, present := true } }))
    ∧ (s.clock.source = .tclk → s.clock.tickDue = false →
        ∃ t, exec (.tclkRise pins) s = .next t ∧ t.now = s.now + 1 ∧ t.pins = pins)
    ∧ (s.clock.source = .tclk → exec (.intTick pins) s = .next s)
    ∧ (s.clock.source = .int → exec (.tclkRise pins) s = .next s)

/-- OSCILLATOR_PERIOD (R141, R145). The work left at NOW is done before, as by its rows one after the other; with none left the
period does no more than count. The µs count advances and returns to 0 after 15; under INT the prescaler advances, and returns
to 0 where it would reach the divider, which leaves an INT tick due (log entry 3); under TCLK with the flag set the gap count
advances at each µs, which is one of two readings of R145 (log entry 28). A tick that is due is taken first, as by INT_TICK, and
a loss that is due is declared first, as by CLOCK_LOST; then the period counts. The two grains of the INT clock agree: the
periods that the prescaler lacks, and then the tick that they leave due, are the same as the tick taken alone. That work, tick and
loss come in this order before the period is the model's own (log entries 3, 11 and 12). -/
def Obligations.OscillatorPeriodCounts : Prop :=
  (∀ (s : State) (pins : InputMask), s.inReset = false → s.clock.tickDue = false →
    let us := if s.clock.microseconds < 15 then s.clock.microseconds + 1 else 0
    ∃ u, execAll tickRows s = .next u ∧ (s.quiet = true → u = s)
      ∧ (s.clock.source = .int → s.clock.prescaler + 1 < s.clock.divider →
        exec (.oscillatorPeriod pins) s = .next
          { u with pins := pins, clock := { s.clock with microseconds := us, prescaler := s.clock.prescaler + 1 } })
      ∧ (s.clock.source = .int → s.clock.divider ≤ s.clock.prescaler + 1 →
        exec (.oscillatorPeriod pins) s = .next
          { u with pins := pins, clock := { s.clock with microseconds := us, prescaler := 0, tickDue := true } })
      ∧ (s.clock.source = .tclk → s.lossDue = false →
        exec (.oscillatorPeriod pins) s = .next
          { u with
            pins := pins
            clock := { s.clock with
              microseconds := us
              gap := if s.clock.present = true ∧ us = 0 then s.clock.gap + 1 else s.clock.gap } })
      ∧ (s.lossDue = true → u.quiet = true → ∀ v, exec .clockLost u = .next v →
        exec (.oscillatorPeriod pins) s = .next { v with pins := pins, clock := { v.clock with microseconds := us } }))
  ∧ (∀ (s : State) (pins : InputMask), s.inReset = false → s.clock.tickDue = true → s.clock.source = .int →
    s.clock.present = true → s.clock.prescaler = 0 → s.clock.microseconds ≤ 15 →
    ∃ v, exec (.intTick s.pins) s = .next v ∧ v.clock.tickDue = false
      ∧ exec (.oscillatorPeriod pins) s = exec (.oscillatorPeriod pins) v)
  ∧ ∀ (s : State) (pins : InputMask), s.inReset = false → s.clock.tickDue = false → s.quiet = true →
    s.clock.source = .int → s.clock.present = true → s.clock.prescaler < s.clock.divider → s.clock.microseconds ≤ 15 →
    execAll (List.replicate (s.clock.divider - s.clock.prescaler) (.oscillatorPeriod pins) ++ [.intTick pins]) s
      = exec (.intTick pins) s

/-- CLOCK_LOST (R145, R146, R163): under TCLK with the flag set, the flag clears and the gap count stops at the window; in
RUN the device enters FAULT at the same event: every step is freed, deferred rises, waiting claims and owners are gone,
every used line stands at its safe level, a paired line that fell has started its guard, sessions and inputs stay, and every
OPEN session is told. Guard ends, fall record ends and leases that are left at NOW come before the loss, as by their rows.
Under INT, or with the flag clear, nothing happens; and with the flag clear no row of deadline work does anything (R70, R74,
R114). That the command runs the gap count up to the window, and which work comes before the loss, is the model's choice (log
entry 12). -/
def Obligations.ClockLossEntersFaultInRun : Prop :=
  (∀ (s : State) (c : Instr), s.clock.present = false →
    (c ∈ [.windowEnd, .reachedMarker] ∨ (∃ k, c = .bankFiring k)
      ∨ (∃ k, c = .guardEnd k ∨ c = .fallRecordEnd k ∨ c = .holdDeadline k) ∨ ∃ p, c = .waitDeadline p ∨ c = .lapse p) →
    exec c s = .next s)
  ∧ ∀ s : State, s.inReset = false →
    (s.clock.source = .int ∨ s.clock.present = false → exec .clockLost s = .next s)
    ∧ (s.clock.source = .tclk → s.clock.present = true →
      ∃ (u : State) (c : Clock), execAll lossRows s = .next u
        ∧ ((∀ k, guardEndsNow s k = false ∧ fallRecordEndsNow s k = false) → (∀ p, leaseEndsNow s p = false) → u = s)
        ∧ c = (if s.clock.lossWindow ≤ s.clock.gap then { s.clock with present := false }
          else { s.clock with present := false, gap := s.clock.lossWindow, microseconds := 0 })
        ∧ (s.phase ≠ .run → exec .clockLost s = .next { u with clock := c })
        ∧ (s.phase = .run → ∃ t, exec .clockLost s = .next t
          ∧ t = { u with
                  clock := c, phase := .fault, owners := Vector.replicate 24 none, claims := PerPort.all none
                  ports := PerPort.of fun q =>
                    if u.isOpen q = true then (u.port q).told (.phaseChange .fault .clockLost u.now none) else u.port q
                  latch := t.latch, runtime := t.runtime, slots := t.slots, dueList := t.dueList
                  armedSet := t.armedSet, armedThisTick := t.armedThisTick }
          ∧ (∀ k, (t.pairRuntime k).deferred = none)
          ∧ (PairConfigLaw u → PairLaw u → DroppedPairs u t)
          ∧ (∀ l, (u.output l).used = true → t.level l = if (u.output l).safe then .one else .zero)
          ∧ (∀ l, (u.output l).used = false → t.level l = u.level l)
          ∧ (∀ i, (u.step i).isSome = true →
              t.slot i = { generation := (u.slot i).generation + 1, step := none })
          ∧ Kept (fun i => (u.step i).isSome) u t
          ∧ ∀ i, u.step i = none → t.slot i = u.slot i))

/-- READ_TIME and CONFIG_READ (R148, R159), from every session state and in every phase: the timebase, and the record
as stored; an OPEN session is renewed and nothing else changes. A body that is not empty, and a record name outside
the six kinds and their instances, are refused E_ARG. That the record's kind and instance lead its fields, and how many bytes
the fields of READ_TIME have, is inferred (log entries 7 and 29). -/
def Obligations.TimeAndRecordsAreRead : Prop :=
  (∀ (s s₁ : State) (p : Port) (mosi : List Byte) (tag crc : Byte) (body : List Byte),
    Takes s p mosi .readTime tag crc body s₁ →
    exec (.readTime p mosi) s = .next
      { s₁ with
        sessions := s₁.sessionsAfter p
        ports := s₁.repliedPorts p 0x05 tag crc
          (if body = [] then
            0x00 :: (tickBytes s₁.now
              ++ ([if s₁.clock.source = .int then 0 else 1, if s₁.clock.present then 1 else 0] : List Byte)
              ++ byte2 s₁.clock.divider ++ byte1 s₁.clock.lossWindow
              ++ byte1 (match s₁.phase with | .setup => 0 | .run => 1 | .fault => 2))
          else [0x03]) })
  ∧ ∀ (s s₁ : State) (p : Port) (mosi : List Byte) (tag crc : Byte) (body : List Byte),
    Takes s p mosi .configRead tag crc body s₁ →
    ∃ reply, exec (.configRead p mosi) s = .next
        { s₁ with sessions := s₁.sessionsAfter p, ports := s₁.repliedPorts p 0x11 tag crc reply }
      ∧ (body = [0, 0] →
          reply = 0x00 :: (Record.timebase s₁.clock.source s₁.clock.divider s₁.clock.lossWindow).bytes)
      ∧ (∀ l : OutLine, body = [1, BitVec.ofNat 8 l.val] →
          reply = 0x00 :: (Record.outputLine l (s₁.output l).used (s₁.output l).safe).bytes)
      ∧ (∀ l : InLine, body = [2, BitVec.ofNat 8 l.val] →
          reply = 0x00 :: (Record.inputLine l (s₁.input l).used (s₁.input l).filter).bytes)
      ∧ (∀ k : PairIndex, body = [3, BitVec.ofNat 8 k.val] → reply = 0x00 :: (Record.pair k (s₁.pair k)).bytes)
      ∧ (body = [4, 0] → reply = 0x00 :: (Record.quota (s₁.quota .a) (s₁.quota .b) (s₁.quota .c)).bytes)
      ∧ (body = [5, 0] → reply = 0x00 ::
          (Record.arbiter s₁.arbiter.mode s₁.arbiter.first s₁.arbiter.second s₁.arbiter.third).bytes)
      ∧ (body.length ≠ 2 → reply = [0x03])
      ∧ ∀ kind inst : Byte, body = [kind, inst] →
          (5 < kind.toNat ∨ (kind.toNat ∈ [0, 4, 5] ∧ inst ≠ 0) ∨ (kind = 1 ∧ 24 ≤ inst.toNat)
            ∨ (kind = 2 ∧ 8 ≤ inst.toNat) ∨ (kind = 3 ∧ 12 ≤ inst.toNat)) → reply = [0x03]

/-- SET_TIME (R120, R149, R150): in SETUP NOW becomes the value sent, and the lease deadlines, fall ticks, guard ends and run
starts move by the same amount; the prescaler, the gap count and the flag stay. The work left at the old NOW is done there
first, as by its rows, with the sender's lease renewed already (log entry 11). A body of another length is refused E_ARG. -/
def Obligations.SetTimeMovesStoredTimes : Prop :=
  ∀ (s s₁ : State) (p : Port) (mosi : List Byte) (tag crc : Byte) (body : List Byte) (period : Nat) (deadline : Tick),
    Takes s p mosi .setTime tag crc body s₁ → (s₁.session p).state = .opened period deadline → s₁.phase = .setup →
    16 ≤ period → period < 16777216 →
    (∀ v : Tick, body = tickBytes v →
      ∃ u t, execAll tickRows { s₁ with sessions := s₁.renewedSessions p period } = .next u
        ∧ (s₁.quiet = true → u = { s₁ with sessions := s₁.renewedSessions p period })
        ∧ exec (.setTime p mosi) s = .next t
        ∧ t = { u with
                now := v, sessions := t.sessions, runtime := t.runtime, filters := t.filters
                ports := u.repliedPorts p 0x12 tag crc ([0x00] ++ tickBytes s₁.now ++ tickBytes v) }
        ∧ t.session p = { state := .opened period (v + BitVec.ofNat 32 period), watch := (s₁.session p).watch }
        ∧ (∀ q n d, (u.session q).state = .opened n d →
            t.session q = { state := .opened n (d + (v - s₁.now)), watch := (u.session q).watch })
        ∧ (∀ q, u.isOpen q = false → t.session q = u.session q)
        ∧ (∀ k, t.pairRuntime k =
            { fall := (u.pairRuntime k).fall.map fun f => { f with tick := f.tick + (v - s₁.now) }
              guard := (u.pairRuntime k).guard.map fun g => { g with ends := g.ends + (v - s₁.now) }
              deferred := (u.pairRuntime k).deferred })
        ∧ ∀ l, t.filter l =
            { u.filter l with runStart := (u.filter l).runStart.map fun r => r + (v - s₁.now) })
    ∧ (body.length ≠ 4 → exec (.setTime p mosi) s = .next (s₁.refused p period .setTime tag crc [0x03]))

/-! ### Phases (chapter 10) -/

/-- START and CLEAR_FAULT (R160, R164, R165): the phase changes, the reply carries NOW, and every other OPEN session is
told; the checks and their order. -/
def Obligations.StartAndClearFaultChangePhase : Prop :=
  (∀ (s s₁ : State) (p : Port) (mosi : List Byte) (tag crc : Byte) (body : List Byte) (period : Nat) (deadline : Tick),
    Takes s p mosi .start tag crc body s₁ → (s₁.session p).state = .opened period deadline → s₁.phase ≠ .fault →
    (body = [] → s₁.phase = .setup → s₁.clock.present = true →
      exec (.start p mosi) s = .next
        { s₁ with
          phase := .run
          sessions := s₁.renewedSessions p period
          ports := PerPort.of fun q =>
            if q = p then (s₁.port p).replied 0x13 tag crc (0x00 :: tickBytes s₁.now)
            else if s₁.isOpen q = true then (s₁.port q).told (.phaseChange .run .start s₁.now (some p))
            else s₁.port q })
    ∧ (body ≠ [] → exec (.start p mosi) s = .next (s₁.refused p period .start tag crc [0x03]))
    ∧ (body = [] → s₁.phase = .run → exec (.start p mosi) s = .next (s₁.refused p period .start tag crc [0x07]))
    ∧ (body = [] → s₁.phase = .setup → s₁.clock.present = false →
      exec (.start p mosi) s = .next (s₁.refused p period .start tag crc [0x09])))
  ∧ ∀ (s s₁ : State) (p : Port) (mosi : List Byte) (tag crc : Byte) (body : List Byte) (period : Nat) (deadline : Tick),
    Takes s p mosi .clearFault tag crc body s₁ → (s₁.session p).state = .opened period deadline →
    (body = [] → s₁.phase = .fault → s₁.clock.present = true →
      exec (.clearFault p mosi) s = .next
        { s₁ with
          phase := .setup
          sessions := s₁.renewedSessions p period
          ports := PerPort.of fun q =>
            if q = p then (s₁.port p).replied 0x15 tag crc (0x00 :: tickBytes s₁.now)
            else if s₁.isOpen q = true then (s₁.port q).told (.phaseChange .setup .clearFault s₁.now (some p))
            else s₁.port q })
    ∧ (body ≠ [] → exec (.clearFault p mosi) s = .next (s₁.refused p period .clearFault tag crc [0x03]))
    ∧ (body = [] → s₁.clock.present = false →
      exec (.clearFault p mosi) s = .next (s₁.refused p period .clearFault tag crc [0x09]))
    ∧ (body = [] → s₁.clock.present = true → s₁.phase ≠ .fault →
      exec (.clearFault p mosi) s = .next (s₁.refused p period .clearFault tag crc [0x07]))

/-- STOP (R161): the sender's steps, every deferred rise, waiting claim and owner are gone, every used line stands at its
safe level, a paired line that fell has started its guard, and the phase is SETUP; waiting ports are sent
CLAIM_EXPIRED(STOPPED) and then the other OPEN ports PHASE_CHANGE. A line of another port, another phase and a body that is
not empty refuse it. -/
def Obligations.StopEndsRun : Prop :=
  ∀ (s s₁ : State) (p : Port) (mosi : List Byte) (tag crc : Byte) (body : List Byte) (period : Nat) (deadline : Tick),
    Takes s p mosi .stop tag crc body s₁ → (s₁.session p).state = .opened period deadline → s₁.phase ≠ .fault →
    (body = [] → s₁.phase = .run → (∀ l q, s₁.owner l = some q → q = p) →
      ∃ t, exec (.stop p mosi) s = .next t
        ∧ t = { s₁ with
                phase := .setup, owners := Vector.replicate 24 none, claims := PerPort.all none
                sessions := s₁.renewedSessions p period
                ports := PerPort.of fun q =>
                  let h := if q = p then
                      (s₁.port p).replied 0x14 tag crc
                        ([0x00] ++ byte1 (s₁.stepCount p) ++ maskBytes (s₁.ownedMask p))
                    else s₁.port q
                  let h' := match s₁.claim q with
                    | none => h
                    | some c => h.told (.claimExpired .stopped c.mask c.enqueued s₁.now)
                  if q ≠ p ∧ s₁.isOpen q = true then h'.told (.phaseChange .setup .stop s₁.now (some p)) else h'
                latch := t.latch, runtime := t.runtime, slots := t.slots, dueList := t.dueList
                armedSet := t.armedSet, armedThisTick := t.armedThisTick }
        ∧ (∀ k, (t.pairRuntime k).deferred = none)
        ∧ (PairConfigLaw s₁ → PairLaw s₁ → DroppedPairs s₁ t)
        ∧ (∀ l, (s₁.output l).used = true → t.level l = if (s₁.output l).safe then .one else .zero)
        ∧ (∀ l, (s₁.output l).used = false → t.level l = s₁.level l)
        ∧ (∀ i, s₁.ownsStep p i = true → t.slot i = { generation := (s₁.slot i).generation + 1, step := none })
        ∧ (∀ i, s₁.ownsStep p i = false → t.slot i = s₁.slot i)
        ∧ Kept (s₁.ownsStep p) s₁ t)
    ∧ (body ≠ [] → exec (.stop p mosi) s = .next (s₁.refused p period .stop tag crc [0x03]))
    ∧ (body = [] → s₁.phase = .setup → exec (.stop p mosi) s = .next (s₁.refused p period .stop tag crc [0x07]))
    ∧ (body = [] → s₁.phase = .run → (∃ l q, s₁.owner l = some q ∧ q ≠ p) →
      ∃ m : LineMask, (∀ l, inMask m l = true ↔ ∃ q, s₁.owner l = some q ∧ q ≠ p)
        ∧ exec (.stop p mosi) s = .next (s₁.refused p period .stop tag crc (0x12 :: maskBytes m)))

/-! ### Configuration (chapter 10) -/

/-- CONFIG_WRITE of TIMEBASE (R144), QUOTA and ARBITER (R155, R158). TIMEBASE: NOW and the µs count stay, the
prescaler and gap counts restart, and the flag is set unless the source stays TCLK. QUOTA and ARBITER: the quotas that
sum to at most 64, and the mode and rank, are stored; the rotation pointer keeps its value. The reply to a write is
the record, by inference (log entry 7). Where the last oscillator period brought a tick or a loss that no row has taken yet,
the write comes first and that period counts after it, on the restarted counts: the order that the model takes (log entry 3). -/
def Obligations.TimebaseQuotaAndArbiterWrites : Prop :=
  (∀ (s s₁ : State) (p : Port) (mosi : List Byte) (tag crc : Byte) (period : Nat) (deadline : Tick) (source : Source)
    (divider window : Nat),
    Takes s p mosi .configWrite tag crc (Record.timebase source divider window).bytes s₁ →
    (s₁.session p).state = .opened period deadline → s₁.phase = .setup →
    1 ≤ divider → divider ≤ 256 → 1 ≤ window → window ≤ 255 →
    let written : Clock := { s₁.clock with
      source := source, divider := divider, lossWindow := window, prescaler := 0, gap := 0, tickDue := false
      present := if source = .tclk ∧ s₁.clock.source = .tclk then s₁.clock.present else true }
    let answer := fun (c : Clock) => exec (.configWriteTimebase p mosi) s = .next
      { s₁ with
        sessions := s₁.renewedSessions p period
        ports := s₁.repliedPorts p 0x10 tag crc (0x00 :: (Record.timebase source divider window).bytes)
        clock := c }
    (s₁.clock.tickDue = false → s₁.lossDue = false → answer written)
    ∧ (s₁.clock.tickDue = true ∨ s₁.lossDue = true →
      (source = .int → divider = 1 → answer { written with tickDue := true })
      ∧ (source = .int → divider ≠ 1 → answer { written with prescaler := 1 })
      ∧ (source = .tclk → answer
          (if written.present = true ∧ written.microseconds = 0 then { written with gap := 1 } else written))))
  ∧ (∀ (s s₁ : State) (p : Port) (mosi : List Byte) (tag crc : Byte) (period : Nat) (deadline : Tick) (a b c : Nat),
    Takes s p mosi .configWrite tag crc (Record.quota a b c).bytes s₁ → a + b + c ≤ 64 →
    (s₁.session p).state = .opened period deadline → s₁.phase = .setup →
    exec (.configWriteQuota p mosi) s = .next
      { s₁ with
        sessions := s₁.renewedSessions p period
        ports := s₁.repliedPorts p 0x10 tag crc (0x00 :: (Record.quota a b c).bytes)
        quotas := { a := a, b := b, c := c } })
  ∧ ∀ (s s₁ : State) (p : Port) (mosi : List Byte) (tag crc : Byte) (period : Nat) (deadline : Tick) (m : ArbiterMode)
    (x y z : Port),
    Takes s p mosi .configWrite tag crc (Record.arbiter m x y z).bytes s₁ → x ≠ y → x ≠ z → y ≠ z →
    (s₁.session p).state = .opened period deadline → s₁.phase = .setup →
    exec (.configWriteArbiter p mosi) s = .next
      { s₁ with
        sessions := s₁.renewedSessions p period
        ports := s₁.repliedPorts p 0x10 tag crc (0x00 :: (Record.arbiter m x y z).bytes)
        arbiter := { mode := m, first := x, second := y, third := z, pointer := s₁.arbiter.pointer } }

/-- CONFIG_WRITE of OUTPUT_LINE (R52, R156): the record is stored and the line driven directly to its safe level, or to Z;
a fall of a paired line is recorded with NOW and starts the pair's guard. That the reply carries kind and instance ahead of
the fields is inferred (log entry 7). -/
def Obligations.OutputLineWriteDrivesTheLine : Prop :=
  ∀ (s s₁ : State) (p : Port) (mosi : List Byte) (tag crc : Byte) (period : Nat) (deadline : Tick) (l : OutLine)
    (used safe : Bool),
    Takes s p mosi .configWrite tag crc (Record.outputLine l used safe).bytes s₁ →
    (s₁.session p).state = .opened period deadline → s₁.phase = .setup →
    let written : State := { s₁ with
      sessions := s₁.renewedSessions p period
      ports := s₁.repliedPorts p 0x10 tag crc (0x00 :: (Record.outputLine l used safe).bytes)
      outputs := tset s₁.outputs l { used := used, safe := safe }
      latch := tset s₁.latch l (if used then (if safe then .one else .zero) else .z) }
    (s₁.pairOf l = none → exec (.configWriteOutputLine p mosi) s = .next written)
    ∧ ∀ k, s₁.pairOf l = some k → used = true → (s₁.pairRuntime k).deferred = none →
      (safe = false ∨ ((s₁.output ((s₁.pair k).partner l)).safe = false ∧ s₁.level ((s₁.pair k).partner l) ≠ .one)) →
      exec (.configWriteOutputLine p mosi) s = .next
        (if safe = false ∧ s₁.level l = .one then
          { written with
            runtime := tset s₁.runtime k
              { fall := some { line := l, tick := s₁.now }
                guard := if (s₁.pair k).guard = 0 then none
                  else some { ends := s₁.now + BitVec.ofNat 32 (s₁.pair k).guard, line := (s₁.pair k).partner l }
                deferred := none } }
        else written)

/-- CONFIG_WRITE of INPUT_LINE (R126, R127): the run is cut off and the accepted level kept while the line stays used; a line
made unused loses its filter state, and its subscription and latch bits at every port. Where this tick's sample had completed
a run and its edge is not taken yet, the write comes first and the sample is judged after it: with the new filter 0 it is an
edge again, stamped NOW, and otherwise the first sample of a new run (log entry 4). That the reply carries kind and instance
ahead of the fields is inferred (log entry 7). -/
def Obligations.InputLineWriteResetsTheFilter : Prop :=
  ∀ (s s₁ : State) (p : Port) (mosi : List Byte) (tag crc : Byte) (period : Nat) (deadline : Tick) (l : InLine)
    (used : Bool) (filter : Nat),
    Takes s p mosi .configWrite tag crc (Record.inputLine l used filter).bytes s₁ → filter ≤ 255 →
    (s₁.session p).state = .opened period deadline → s₁.phase = .setup →
    ∃ t, exec (.configWriteInputLine p mosi) s = .next t
      ∧ t = { s₁ with
              sessions := s₁.renewedSessions p period
              ports := s₁.repliedPorts p 0x10 tag crc (0x00 :: (Record.inputLine l used filter).bytes)
              inputs := tset s₁.inputs l { used := used, filter := filter }
              filters := tset s₁.filters l (t.filter l)
              portInputs := t.portInputs }
      ∧ (used = false → t.filter l =
          { accepted := none, runCount := 0, runStart := none, lastSample := none, edgeDue := false })
      ∧ (used = true → (s₁.filter l).edgeDue = false → t.filter l =
          { s₁.filter l with runCount := 0, runStart := none, edgeDue := false })
      ∧ (∀ level : Bool, used = true → (s₁.filter l).edgeDue = true → (s₁.filter l).lastSample = some level →
          SampledBy filter s₁.now level { s₁.filter l with runCount := 0, runStart := none, edgeDue := false } (t.filter l))
      ∧ (used = true → t.portInputs = s₁.portInputs)
      ∧ (used = false → ∀ q j,
          t.subscription q j = (if j = l then .none else s₁.subscription q j)
          ∧ inMask (t.inputsOf q).rises j = (!decide (j = l) && inMask (s₁.inputsOf q).rises j)
          ∧ inMask (t.inputsOf q).falls j = (!decide (j = l) && inMask (s₁.inputsOf q).falls j))

/-- CONFIG_WRITE of PAIR (R86, R157): the record is stored; a fall record of one of its lines is kept and the guard
computed afresh from it when the pair is valid, and both are absent otherwise; no level changes. That the reply carries kind
and instance ahead of the fields is inferred (log entry 7). -/
def Obligations.PairWriteSettlesTheRuntime : Prop :=
  ∀ (s s₁ : State) (p : Port) (mosi : List Byte) (tag crc : Byte) (period : Nat) (deadline : Tick) (k : PairIndex)
    (c : PairConfig),
    Takes s p mosi .configWrite tag crc (Record.pair k c).bytes s₁ → c.guard < 65536 → c.hold < 65536 →
    (s₁.session p).state = .opened period deadline → s₁.phase = .setup →
    (c.valid = true → c.a ≠ c.b ∧ (s₁.output c.a).used = true ∧ (s₁.output c.b).used = true
      ∧ (∀ j, j ≠ k → (s₁.pair j).valid = true → (s₁.pair j).holds c.a = false ∧ (s₁.pair j).holds c.b = false)
      ∧ ((s₁.output c.a).safe = false ∨ (s₁.output c.b).safe = false) ∧ (s₁.level c.a ≠ .one ∨ s₁.level c.b ≠ .one)) →
    ∃ r : PairRuntime,
      exec (.configWritePair p mosi) s = .next
        { s₁ with
          sessions := s₁.renewedSessions p period
          ports := s₁.repliedPorts p 0x10 tag crc (0x00 :: (Record.pair k c).bytes)
          pairs := tset s₁.pairs k c
          runtime := tset s₁.runtime k r }
      ∧ r.deferred = (s₁.pairRuntime k).deferred
      ∧ (∀ f, (s₁.pairRuntime k).fall = some f → c.valid = true → (f.line = c.a ∨ f.line = c.b) →
          r.fall = some f
          ∧ r.guard = if lateness f.tick s₁.now < c.guard then
              some { ends := f.tick + BitVec.ofNat 32 c.guard, line := if f.line = c.a then c.b else c.a }
            else none)
      ∧ (∀ f, (s₁.pairRuntime k).fall = some f → (c.valid = false ∨ (f.line ≠ c.a ∧ f.line ≠ c.b)) →
          r.fall = none ∧ r.guard = none)
      ∧ ((s₁.pairRuntime k).fall = none → r.fall = none ∧ r.guard = none)

/-- Writes that are not consistent with the rest of the configuration are refused E_CONFIG with the reason and the item of
R155, and change nothing else: a PAIR record by the first of R157's four checks that fails, an OUTPUT_LINE record by
R156's two cases, a QUOTA record by its sum. Before that, a body that is no record is refused E_ARG: a record kind outside the
six, another length than the kind's, an instance or a field outside the ranges of R154, a rank that names a port twice. Where
both lines or two other pairs are at fault, which of them is the item is left open (log entry 1). A frame of none of the six
kinds may come under any of the six rows (log entry 10). -/
def Obligations.InconsistentWritesAreRefused : Prop :=
  (∀ (c : Instr) (s s₁ : State) (p : Port) (row : FrameRow) (mosi : List Byte) (tag crc : Byte) (body : List Byte)
    (period : Nat) (deadline : Tick),
    c.rise = some (p, row, mosi) → row ≠ .anyFrame → row.admits (.frame 0x10 tag body crc) = true →
    Takes s p mosi .configWrite tag crc body s₁ → (s₁.session p).state = .opened period deadline → s₁.phase = .setup →
    (body.length < 2
      ∨ (∃ kind inst fields, body = kind :: inst :: fields ∧
          (5 < kind.toNat ∨ fields.length ≠ [4, 2, 2, 7, 3, 4].getD kind.toNat 0
            ∨ (kind.toNat ∈ [0, 4, 5] ∧ inst ≠ 0) ∨ (kind = 1 ∧ 24 ≤ inst.toNat) ∨ (kind = 2 ∧ 8 ≤ inst.toNat)
            ∨ (kind = 3 ∧ 12 ≤ inst.toNat)))
      ∨ (∃ source d1 d0 window : Byte, body = [0, 0, source, d1, d0, window] ∧
          (1 < source.toNat ∨ nat2 d1 d0 = 0 ∨ 256 < nat2 d1 d0 ∨ window = 0))
      ∨ (∃ inst used safe : Byte, body = [1, inst, used, safe] ∧ (1 < used.toNat ∨ 1 < safe.toNat))
      ∨ (∃ inst used filter : Byte, body = [2, inst, used, filter] ∧ 1 < used.toNat)
      ∨ (∃ inst valid a b g1 g0 h1 h0 : Byte, body = [3, inst, valid, a, b, g1, g0, h1, h0] ∧
          (1 < valid.toNat ∨ 24 ≤ a.toNat ∨ 24 ≤ b.toNat))
      ∨ (∃ a b c : Byte, body = [4, 0, a, b, c] ∧ (64 < a.toNat ∨ 64 < b.toNat ∨ 64 < c.toNat))
      ∨ ∃ mode x y z : Byte, body = [5, 0, mode, x, y, z] ∧
          (1 < mode.toNat ∨ 2 < x.toNat ∨ 2 < y.toNat ∨ 2 < z.toNat ∨ x = y ∨ x = z ∨ y = z)) →
    exec c s = .next (s₁.refused p period .configWrite tag crc [0x03]))
  ∧ ∀ (s s₁ : State) (p : Port) (mosi : List Byte) (tag crc : Byte) (period : Nat) (deadline : Tick) (record : Record),
    Takes s p mosi .configWrite tag crc record.bytes s₁ →
    (s₁.session p).state = .opened period deadline → s₁.phase = .setup →
    (∀ k (c : PairConfig), record = .pair k c → c.valid = true → c.guard < 65536 → c.hold < 65536 →
      (c.a = c.b → exec (.configWritePair p mosi) s = .next
        (s₁.refused p period .configWrite tag crc [0x0A, 0, BitVec.ofNat 8 c.a.val]))
      ∧ (c.a ≠ c.b → ((s₁.output c.a).used = false ∨ (s₁.output c.b).used = false) →
        ∃ l, (l = c.a ∨ l = c.b) ∧ (s₁.output l).used = false ∧ exec (.configWritePair p mosi) s = .next
          (s₁.refused p period .configWrite tag crc [0x0A, 1, BitVec.ofNat 8 l.val]))
      ∧ (c.a ≠ c.b → (s₁.output c.a).used = true → (s₁.output c.b).used = true →
        (∃ j, j ≠ k ∧ (s₁.pair j).valid = true ∧ ((s₁.pair j).holds c.a = true ∨ (s₁.pair j).holds c.b = true)) →
        ∃ j, j ≠ k ∧ (s₁.pair j).valid = true ∧ ((s₁.pair j).holds c.a = true ∨ (s₁.pair j).holds c.b = true)
          ∧ exec (.configWritePair p mosi) s = .next
            (s₁.refused p period .configWrite tag crc [0x0A, 2, BitVec.ofNat 8 j.val]))
      ∧ (c.a ≠ c.b → (s₁.output c.a).used = true → (s₁.output c.b).used = true →
        (∀ j, j ≠ k → (s₁.pair j).valid = true → (s₁.pair j).holds c.a = false ∧ (s₁.pair j).holds c.b = false) →
        (((s₁.output c.a).safe = true ∧ (s₁.output c.b).safe = true) ∨ (s₁.level c.a = .one ∧ s₁.level c.b = .one)) →
        exec (.configWritePair p mosi) s = .next
          (s₁.refused p period .configWrite tag crc [0x0A, 4, BitVec.ofNat 8 k.val])))
    ∧ (∀ l used safe k, record = .outputLine l used safe → s₁.pairOf l = some k →
      (used = false → exec (.configWriteOutputLine p mosi) s = .next
        (s₁.refused p period .configWrite tag crc [0x0A, 3, BitVec.ofNat 8 k.val]))
      ∧ (used = true → safe = true →
        ((s₁.output ((s₁.pair k).partner l)).safe = true ∨ s₁.level ((s₁.pair k).partner l) = .one) →
        exec (.configWriteOutputLine p mosi) s = .next
          (s₁.refused p period .configWrite tag crc [0x0A, 4, BitVec.ofNat 8 k.val])))
    ∧ ∀ a b c, record = .quota a b c → a ≤ 64 → b ≤ 64 → c ≤ 64 → 64 < a + b + c →
      exec (.configWriteQuota p mosi) s = .next
        (s₁.refused p period .configWrite tag crc [0x0A, 5, BitVec.ofNat 8 (a + b + c)])

/-! ### Line ownership and claims (chapter 6) -/

/-- CLAIM (R91 to R94), for every body that its layout allows: a claim of lines that are free or the sender's own takes them at
once and withdraws the ownerless deferred rises on the newly granted lines; one with a conflict is refused E_HELD without WAIT,
and is queued with it unless the sender has a claim waiting. Any other body is refused E_ARG: a length that its limit marker
does not ask for, and, after an empty mask, unused lines and a limit without WAIT, a bit of the flags byte besides the two. The
presence byte of QUEUED is inferred (log entry 18), and that its other bits are 0 is the model's choice (log entry 31). -/
def Obligations.ClaimTakesLinesOrWaits : Prop :=
  (∀ (s s₁ : State) (p : Port) (mosi : List Byte) (tag crc : Byte) (body : List Byte) (period : Nat) (deadline : Tick),
    Takes s p mosi .claim tag crc body s₁ → (s₁.session p).state = .opened period deadline → s₁.phase = .run →
    ((body.length ≠ 4 ∧ body.length ≠ 7)
        ∨ (∃ (m : LineMask) (flags : Byte) (rest : List Byte), body = maskBytes m ++ flags :: rest ∧
          rest.isEmpty = flags.getLsbD 1) →
      exec (.claim p mosi) s = .next (s₁.refused p period .claim tag crc [0x03]))
    ∧ ∀ (m : LineMask) (flags : Byte) (rest : List Byte), body = maskBytes m ++ flags :: rest →
      (rest.length = if flags.getLsbD 1 then 3 else 0) → 4 ≤ flags.toNat → m &&& ~~~s₁.usedMask = 0 →
      exec (.claim p mosi) s = .next (s₁.refused p period .claim tag crc [0x03]))
  ∧ ∀ (s s₁ : State) (p : Port) (mosi : List Byte) (tag crc : Byte) (period : Nat) (deadline : Tick) (m : LineMask)
    (wait : Bool) (limit : Option Nat),
    Takes s p mosi .claim tag crc (claimBytes m wait limit) s₁ → (s₁.session p).state = .opened period deadline →
    s₁.phase = .run → (∀ n, limit = some n → n < 16777216) →
    (m = 0 → exec (.claim p mosi) s = .next (s₁.refused p period .claim tag crc [0x03]))
    ∧ (m ≠ 0 → m &&& ~~~s₁.usedMask ≠ 0 → exec (.claim p mosi) s = .next
        (s₁.refused p period .claim tag crc (0x03 :: maskBytes (m &&& ~~~s₁.usedMask))))
    ∧ (m ≠ 0 → m &&& ~~~s₁.usedMask = 0 → limit.isSome = true → wait = false →
        exec (.claim p mosi) s = .next (s₁.refused p period .claim tag crc [0x03]))
    ∧ (m ≠ 0 → m &&& ~~~s₁.usedMask = 0 → (limit.isSome = true → wait = true) →
      ((∀ l, inMask m l = true → s₁.owner l = none ∨ s₁.owner l = some p) →
        ∃ t, exec (.claim p mosi) s = .next t
          ∧ t = { s₁ with
                  sessions := s₁.renewedSessions p period
                  ports := s₁.repliedPorts p 0x20 tag crc ([0x00] ++ maskBytes m ++ maskBytes (m ||| s₁.ownedMask p))
                  owners := table fun l => if inMask m l then some p else s₁.owner l
                  runtime := t.runtime }
          ∧ ∀ k, t.pairRuntime k =
              { fall := (s₁.pairRuntime k).fall
                guard := (s₁.pairRuntime k).guard
                deferred := (s₁.pairRuntime k).deferred.filter fun d =>
                  !(inMask m d.line && (s₁.owner d.line).isNone && d.owner.isNone) })
      ∧ ((∃ l q, inMask m l = true ∧ s₁.owner l = some q ∧ q ≠ p) →
        ∃ conflict : LineMask,
          (∀ l, inMask conflict l = true ↔ inMask m l = true ∧ ∃ q, s₁.owner l = some q ∧ q ≠ p)
          ∧ (wait = false → exec (.claim p mosi) s = .next
              (s₁.refused p period .claim tag crc (0x0C :: maskBytes conflict)))
          ∧ (∀ c, wait = true → s₁.claim p = some c → exec (.claim p mosi) s = .next
              (s₁.refused p period .claim tag crc (0x0D :: maskBytes c.mask)))
          ∧ (wait = true → s₁.claim p = none → ((limit = none ∨ limit = some 0) → exec (.claim p mosi) s = .next
              { s₁ with
                sessions := s₁.renewedSessions p period
                ports := s₁.repliedPorts p 0x20 tag crc ([0x20, 0x00] ++ maskBytes conflict ++ [0, 0, 0, 0])
                claims := s₁.claims.set p (some { mask := m, deadline := none, enqueued := s₁.now }) })
            ∧ ∀ n, limit = some n → n ≠ 0 → exec (.claim p mosi) s = .next
              { s₁ with
                sessions := s₁.renewedSessions p period
                ports := s₁.repliedPorts p 0x20 tag crc
                  ([0x20, 0x01] ++ maskBytes conflict ++ tickBytes (s₁.now + BitVec.ofNat 32 n))
                claims := s₁.claims.set p
                  (some { mask := m, deadline := some (s₁.now + BitVec.ofNat 32 n), enqueued := s₁.now }) })))

/-- RELEASE (R12, R96 to R98): the released lines lose their owner; the sender's steps lose those lines, a step without lines is
freed, and every other step keeps its place in the due list or its armed list; the released lines are driven to their safe
levels through the interlock; the arbiter's pass then sees them free, and the ports whose claims it grants are told. No other
step changes, no owned line outside the mask changes its owner, and no line outside the mask that is in no valid pair changes
its level. A body of another length, and a mask that is empty or names a line that is not the sender's, is refused. The reply's
owned mask is that before the arbiter pass, by inference (log entry 16). -/
def Obligations.ReleaseFreesLines : Prop :=
  (∀ (s s₁ : State) (p : Port) (mosi : List Byte) (tag crc : Byte) (body : List Byte) (period : Nat) (deadline : Tick),
    Takes s p mosi .release tag crc body s₁ → (s₁.session p).state = .opened period deadline → s₁.phase = .run →
    body.length ≠ 3 → exec (.release p mosi) s = .next (s₁.refused p period .release tag crc [0x03]))
  ∧ ∀ (s s₁ : State) (p : Port) (mosi : List Byte) (tag crc : Byte) (period : Nat) (deadline : Tick) (m : LineMask),
    Takes s p mosi .release tag crc (maskBytes m) s₁ → (s₁.session p).state = .opened period deadline →
    s₁.phase = .run →
    (m = 0 → exec (.release p mosi) s = .next (s₁.refused p period .release tag crc [0x03]))
    ∧ (m &&& ~~~(s₁.ownedMask p) ≠ 0 → exec (.release p mosi) s = .next
        (s₁.refused p period .release tag crc (0x0B :: maskBytes (m &&& ~~~(s₁.ownedMask p)))))
    ∧ (m ≠ 0 → (∀ l, inMask m l = true → s₁.owner l = some p) →
      ∃ t, exec (.release p mosi) s = .next t
        ∧ t = { s₁ with
                sessions := s₁.renewedSessions p period
                ports := t.ports, owners := t.owners, latch := t.latch, runtime := t.runtime, claims := t.claims
                arbiter := t.arbiter, slots := t.slots, dueList := t.dueList, armedSet := t.armedSet
                armedThisTick := t.armedThisTick }
        ∧ Regranted m s₁ t
        ∧ (∀ i, s₁.ownsStep p i = false → t.slot i = s₁.slot i)
        ∧ (∀ i st, s₁.step i = some st → st.owner = p → st.setMask ||| st.clearMask ≠ 0 →
            (let set' := st.setMask &&& ~~~(bankPart m st.bank)
             let clear' := st.clearMask &&& ~~~(bankPart m st.bank)
             t.slot i =
               if set' ||| clear' = 0 then { generation := (s₁.slot i).generation + 1, step := none }
               else { generation := (s₁.slot i).generation
                      step := some { st with setMask := set', clearMask := clear' } }))
        ∧ Kept (s₁.emptiedBy p m) s₁ t
        ∧ (∀ l, inMask m l = true → s₁.pairOf l = none → s₁.level l ≠ .z →
            t.level l = if (s₁.output l).safe then .one else .zero)
        ∧ (∀ l, inMask m l = false → s₁.pairOf l = none → t.level l = s₁.level l)
        ∧ (PairConfigLaw s₁ → PairRuntimeLaw s₁ → PairLaw s₁ → DrivenPairs m s₁ t)
        ∧ ∀ q, t.port q =
            (if q = p then
              (s₁.port p).replied 0x22 tag crc
                ([0x00] ++ maskBytes m ++ byte1 (everySlot.countP (s₁.emptiedBy p m)) ++ maskBytes (s₁.ownedMask p &&& ~~~m))
            else s₁.port q).grantedFrom s₁ t q)

/-- The claim arbiter (R100 to R102), whose rank names each port once (the rank law, which every step keeps): a pass grants
claims whole or not at all, takes no line from anyone, leaves no waiting claim that could be granted, serves the first port of
its order first, and changes nothing but owners, claims, ownerless deferred rises and, under ROTATING, the pointer, which then
names the port after the last one granted; mode and rank stay. It produces CLAIM_GRANTED for each granted port, in the order of
the pass, and no other notice (R101, R107). -/
def Obligations.ArbiterPassGrantsWholeClaims : Prop :=
  ∀ s : State,
    s.arbiter.first ≠ s.arbiter.second → s.arbiter.first ≠ s.arbiter.third → s.arbiter.second ≠ s.arbiter.third →
    let next := fun p : Port => (match p with | .a => .b | .b => .c | .c => .a : Port)
    let order := match s.arbiter.mode with
      | .fixed => [s.arbiter.first, s.arbiter.second, s.arbiter.third]
      | .rotating => [s.arbiter.pointer, next s.arbiter.pointer, next (next s.arbiter.pointer)]
    ∃ t out, arbiterPass (Work.of s) = ⟨t, out⟩
      ∧ t = { s with owners := t.owners, runtime := t.runtime, claims := t.claims, arbiter := t.arbiter }
      ∧ (∀ q, t.claim q = s.claim q ∨ ∃ c, s.claim q = some c ∧ t.claim q = none ∧
          ∀ l, inMask c.mask l = true → t.owner l = some q)
      ∧ (∀ q c, t.claim q = some c → ∃ l r, inMask c.mask l = true ∧ t.owner l = some r ∧ r ≠ q)
      ∧ (∀ l q, s.owner l = some q → t.owner l = some q)
      ∧ (∀ l q, s.owner l = none → t.owner l = some q → ∃ c, s.claim q = some c ∧ t.claim q = none ∧ inMask c.mask l = true)
      ∧ (∀ f c, order.head? = some f →
          s.claim f = some c → (∀ l, inMask c.mask l = true → s.owner l = none ∨ s.owner l = some f) → t.claim f = none)
      ∧ (∀ k, (t.pairRuntime k).fall = (s.pairRuntime k).fall ∧ (t.pairRuntime k).guard = (s.pairRuntime k).guard
          ∧ ((t.pairRuntime k).deferred = (s.pairRuntime k).deferred
            ∨ ∃ d, (s.pairRuntime k).deferred = some d ∧ d.owner = none ∧ s.owner d.line = none ∧ t.owner d.line ≠ none
                ∧ (t.pairRuntime k).deferred = none))
      ∧ (∀ k d, (s.pairRuntime k).deferred = some d → d.owner = none → s.owner d.line = none → t.owner d.line ≠ none →
          (t.pairRuntime k).deferred = none)
      ∧ t.arbiter = { s.arbiter with
          pointer := match s.arbiter.mode, (order.filter fun q => (s.claim q).isSome && (t.claim q).isNone).getLast? with
            | .rotating, some q => next q
            | _, _ => s.arbiter.pointer }
      ∧ out = order.filterMap fun q => match s.claim q, t.claim q with
          | some c, none => some (q, .claimGranted c.mask c.enqueued s.now (t.ownedMask q))
          | _, _ => none

/-- CLAIM_WITHDRAW and WAIT_DEADLINE (R103, R105): the waiting claim leaves the queue, with the reply or with
CLAIM_EXPIRED(TIMEOUT) at its deadline, while the clock is present; no owner changes. That WAIT_DEADLINE does nothing where
the deadline is not at NOW is the model's choice (log entry 13). -/
def Obligations.WaitingClaimsLeaveTheQueue : Prop :=
  (∀ (s s₁ : State) (p : Port) (mosi : List Byte) (tag crc : Byte) (body : List Byte) (period : Nat) (deadline : Tick),
    Takes s p mosi .claimWithdraw tag crc body s₁ → (s₁.session p).state = .opened period deadline → s₁.phase = .run →
    (∀ c, body = [] → s₁.claim p = some c → exec (.claimWithdraw p mosi) s = .next
      { s₁ with
        sessions := s₁.renewedSessions p period
        ports := s₁.repliedPorts p 0x21 tag crc ([0x00] ++ maskBytes c.mask ++ tickBytes c.enqueued)
        claims := s₁.claims.set p none })
    ∧ (body = [] → s₁.claim p = none →
      exec (.claimWithdraw p mosi) s = .next (s₁.refused p period .claimWithdraw tag crc [0x11]))
    ∧ (body ≠ [] → exec (.claimWithdraw p mosi) s = .next (s₁.refused p period .claimWithdraw tag crc [0x03])))
  ∧ ∀ (s : State) (p : Port) (c : Claim), s.inReset = false → s.clock.present = true → s.claim p = some c →
    (c.deadline = some s.now → exec (.waitDeadline p) s = .next
      { s with
        claims := s.claims.set p none
        ports := s.ports.set p ((s.port p).told (.claimExpired .timeout c.mask c.enqueued s.now)) })
    ∧ (c.deadline ≠ some s.now → exec (.waitDeadline p) s = .next s)

/-- OWNERS (R108, section 12.4): phase, arbiter, used lines, the owner of every line and the three waiting claims, read and not
changed; a body that is not empty is refused E_ARG. That the bits to which the spec gives no field are 0, in the byte of phase,
mode and pointer, the rank byte and the presence byte, is the model's choice (log entry 31). -/
def Obligations.OwnersReportsTheTable : Prop :=
  ∀ (s s₁ : State) (p : Port) (mosi : List Byte) (tag crc : Byte) (body : List Byte) (period : Nat) (deadline : Tick),
    Takes s p mosi .owners tag crc body s₁ → (s₁.session p).state = .opened period deadline → s₁.phase ≠ .fault →
    (body = [] → ∃ (used : LineMask) (codes : BitVec 48),
      (∀ l, inMask used l = (s₁.output l).used)
      ∧ (∀ l : OutLine, codes.extractLsb' (2 * l.val) 2 =
          match s₁.owner l with | some .a => 0b00#2 | some .b => 0b01#2 | some .c => 0b10#2 | none => 0b11#2)
      ∧ exec (.owners p mosi) s = .next
        { s₁ with
          sessions := s₁.renewedSessions p period
          ports := s₁.repliedPorts p 0x23 tag crc
            (([0x00] : List Byte) ++ tickBytes s₁.now
              ++ byte1 (64 * s₁.phase.code + 32 * s₁.arbiter.mode.code + portCode s₁.arbiter.pointer)
              ++ byte1 (16 * portCode s₁.arbiter.first + 4 * portCode s₁.arbiter.second + portCode s₁.arbiter.third)
              ++ maskBytes used ++ byte2 (codes.toNat / 4294967296) ++ byte4 codes.toNat
              ++ presence
                  [(s₁.claim .a).isSome, (s₁.claim .b).isSome, (s₁.claim .c).isSome,
                   ((s₁.claim .a).bind Claim.deadline).isSome, ((s₁.claim .b).bind Claim.deadline).isSome,
                   ((s₁.claim .c).bind Claim.deadline).isSome]
              ++ [Port.a, Port.b, Port.c].flatMap fun q =>
                  match s₁.claim q with
                  | none => List.replicate 10 0
                  | some c =>
                    maskBytes c.mask ++ (match c.deadline with | none => List.replicate 3 0 | some t => byte3 (lead t s₁.now))
                      ++ tickBytes c.enqueued) })
    ∧ (body ≠ [] → exec (.owners p mosi) s = .next (s₁.refused p period .owners tag crc [0x03]))

/-! ### Outputs and the interlock (chapters 3 and 5) -/

/-- READ_OUTPUTS and PAIR_STATUS (R55, R88): the driven lines, the lines at 1 and the lines with a deferred rise; one pair's
configuration, levels and runtime, or the summary of all pairs. Nothing but the lease changes. The places of the presence bits
and the one byte of the valid field are inferred (log entry 18); that the bits to which the spec gives no field are 0, in the
presence byte and in a set of pairs, is the model's choice (log entry 31). -/
def Obligations.OutputsAndPairsAreRead : Prop :=
  (∀ (s s₁ : State) (p : Port) (mosi : List Byte) (tag crc : Byte) (body : List Byte) (period : Nat) (deadline : Tick),
    Takes s p mosi .readOutputs tag crc body s₁ → (s₁.session p).state = .opened period deadline → s₁.phase ≠ .fault →
    (body ≠ [] → exec (.readOutputs p mosi) s = .next (s₁.refused p period .readOutputs tag crc [0x03]))
    ∧ (body = [] → ∃ driven high deferred : LineMask,
      (∀ l, inMask driven l = true ↔ s₁.level l ≠ .z) ∧ (∀ l, inMask high l = true ↔ s₁.level l = .one)
      ∧ (∀ l, inMask deferred l = true ↔ ∃ k d, (s₁.pairRuntime k).deferred = some d ∧ d.line = l)
      ∧ exec (.readOutputs p mosi) s = .next
        { s₁ with
          sessions := s₁.renewedSessions p period
          ports := s₁.repliedPorts p 0x24 tag crc
            ([0x00] ++ tickBytes s₁.now ++ maskBytes driven ++ maskBytes high ++ maskBytes deferred) }))
  ∧ ∀ (s s₁ : State) (p : Port) (mosi : List Byte) (tag crc : Byte) (body : List Byte) (period : Nat) (deadline : Tick),
    Takes s p mosi .pairStatus tag crc body s₁ → (s₁.session p).state = .opened period deadline → s₁.phase ≠ .fault →
    (body = [0xFF] → ∃ (valid guarded : BitVec 12) (deferred ownerless : LineMask),
      (∀ k : PairIndex, valid.getLsbD k.val = (s₁.pair k).valid)
      ∧ (∀ k : PairIndex, guarded.getLsbD k.val = (s₁.pairRuntime k).guard.isSome)
      ∧ (∀ l, inMask deferred l = true ↔ ∃ k d, (s₁.pairRuntime k).deferred = some d ∧ d.line = l)
      ∧ (∀ l, inMask ownerless l = true ↔
          ∃ k d, (s₁.pairRuntime k).deferred = some d ∧ d.line = l ∧ d.owner = none)
      ∧ exec (.pairStatus p mosi) s = .next
        { s₁ with
          sessions := s₁.renewedSessions p period
          ports := s₁.repliedPorts p 0x25 tag crc
            ([0x00] ++ tickBytes s₁.now ++ byte2 valid.toNat ++ byte2 guarded.toNat ++ maskBytes deferred
              ++ maskBytes ownerless) })
    ∧ (∀ k : PairIndex, body = [BitVec.ofNat 8 k.val] → (s₁.pair k).valid = true →
      exec (.pairStatus p mosi) s = .next
        { s₁ with
          sessions := s₁.renewedSessions p period
          ports := s₁.repliedPorts p 0x25 tag crc
            ([0x00]
              ++ presence
                  [(s₁.pairRuntime k).fall.isSome, (s₁.pairRuntime k).guard.isSome, (s₁.pairRuntime k).deferred.isSome,
                   ((s₁.pairRuntime k).deferred.bind DeferredRise.holdDeadline).isSome]
              ++ tickBytes s₁.now ++ byte1 1 ++ byte1 (s₁.pair k).a.val ++ byte1 (s₁.pair k).b.val
              ++ byte2 (s₁.pair k).guard ++ byte2 (s₁.pair k).hold
              ++ byte1 (s₁.level (s₁.pair k).a).code ++ byte1 (s₁.level (s₁.pair k).b).code
              ++ (match (s₁.pairRuntime k).fall with
                  | none => List.replicate 5 0
                  | some f => byte1 f.line.val ++ tickBytes f.tick)
              ++ (match (s₁.pairRuntime k).guard with
                  | none => List.replicate 5 0
                  | some g => tickBytes g.ends ++ byte1 g.line.val)
              ++ (match (s₁.pairRuntime k).deferred with
                  | none => List.replicate 10 0
                  | some d =>
                    byte1 d.line.val
                      ++ byte1 (match d.owner with | some .a => 0 | some .b => 1 | some .c => 2 | none => 3)
                      ++ tickBytes d.requestTick
                      ++ (match d.holdDeadline with | none => [0, 0, 0, 0] | some t => tickBytes t))) })
    ∧ (∀ k : PairIndex, body = [BitVec.ofNat 8 k.val] → (s₁.pair k).valid = false →
      exec (.pairStatus p mosi) s = .next
        { s₁ with
          sessions := s₁.renewedSessions p period
          ports := s₁.repliedPorts p 0x25 tag crc
            ([0x00, 0x00] ++ tickBytes s₁.now ++ byte1 0 ++ byte1 (s₁.pair k).a.val ++ byte1 (s₁.pair k).b.val
              ++ byte2 (s₁.pair k).guard ++ byte2 (s₁.pair k).hold
              ++ byte1 (s₁.level (s₁.pair k).a).code ++ byte1 (s₁.level (s₁.pair k).b).code ++ List.replicate 20 0) })
    ∧ ((body.length ≠ 1 ∨ ∃ b : Byte, body = [b] ∧ 12 ≤ b.toNat ∧ b ≠ 0xFF) →
      exec (.pairStatus p mosi) s = .next (s₁.refused p period .pairStatus tag crc [0x03]))

/-- The interlock judges a rise of a paired line at 0 by the first of R75's four tests that holds; a rise of an unpaired
line at 0 goes to the latch, and a line that is not at 0 is left alone (R42). A fall of a paired line is recorded, starts
the guard and, with guard 0, grants the partner's deferred rise (R73); a CLEAR on a line with a deferred rise removes the
rise and reports it (R78). -/
def Obligations.InterlockJudgesRisesAndFalls : Prop :=
  (∀ (s : State) (y : OutLine) (owner : Option Port),
    (s.level y ≠ .zero → requestRise s y owner = (s, .kept))
    ∧ (s.level y = .zero → s.pairOf y = none → requestRise s y owner = ({ s with latch := tset s.latch y .one }, .granted))
    ∧ ∀ k, s.level y = .zero → s.pairOf y = some k →
      let x := (s.pair k).partner y
      let r := s.pairRuntime k
      (r.defers y = true → requestRise s y owner = (s, .absorbed))
      ∧ (r.defers y = false → r.defers x = true → requestRise s y owner = (s, .dropped k x))
      ∧ (r.defers y = false → r.defers x = false → s.level x = .zero → r.guards y = false →
          requestRise s y owner = ({ s with latch := tset s.latch y .one }, .granted))
      ∧ (r.defers y = false → r.defers x = false → (s.level x ≠ .zero ∨ r.guards y = true) →
          requestRise s y owner =
            ({ s with
                runtime := tset s.runtime k
                  { r with
                    deferred := some
                      { line := y, owner := owner, requestTick := s.now
                        holdDeadline := if (s.pair k).hold = 0 then none
                          else some (s.now + BitVec.ofNat 32 (s.pair k).hold) } } }, .deferred)))
  ∧ (∀ (s : State) (z : OutLine) (k : PairIndex), s.pairOf z = some k →
      let x := (s.pair k).partner z
      let r : PairRuntime :=
        { s.pairRuntime k with
          fall := some { line := z, tick := s.now }
          guard := if (s.pair k).guard = 0 then none
            else some { ends := s.now + BitVec.ofNat 32 (s.pair k).guard, line := x } }
      fallLine z s =
        if (s.pair k).guard = 0 ∧ (s.pairRuntime k).defers x = true then
          { s with latch := tset (tset s.latch z .zero) x .one, runtime := tset s.runtime k { r with deferred := none } }
        else { s with latch := tset s.latch z .zero, runtime := tset s.runtime k r })
  ∧ ∀ (s : State) (z : OutLine) (k : PairIndex) (d : DeferredRise), s.pairOf z = some k → s.level z = .zero →
      (s.pairRuntime k).deferred = some d → d.line = z →
      clearLine (Work.of s) z =
        ⟨{ s with runtime := tset s.runtime k { s.pairRuntime k with deferred := none } },
          match d.owner with
          | none => []
          | some q => [(q, .riseDropped z .overridden k d.requestTick s.now none)]⟩

/-- GUARD_END, FALL_RECORD_END and HOLD_DEADLINE (R74, R77, R79, R87), while the clock is present, for the pairs 0 to `k`: a
guard whose end is NOW becomes absent and grants the deferred rise on its line when the partner is at 0; a fall record becomes
absent 65,536 ticks after the fall; a deferred rise whose hold deadline is NOW, and that no guard end of this tick grants, is
dropped and reported to its owner, in increasing pair index. No other pair changes, no line that is not granted, and no port
that is not the owner of a dropped rise. The meaning of the operand is the model's (log entry 15), and so is that a row with
nothing due does nothing (log entry 13). -/
def Obligations.InterlockTickWork : Prop :=
  ∀ (s : State) (k : PairIndex), s.inReset = false → s.clock.present = true → PairConfigLaw s → PairRuntimeLaw s →
    let ending := fun (j : PairIndex) => (s.pairRuntime j).guard.any fun g => g.ends == s.now
    let grants := fun (j : PairIndex) (l : OutLine) =>
      (s.pairRuntime j).guard = some { ends := s.now, line := l } ∧ (s.pairRuntime j).defers l = true
        ∧ s.level ((s.pair j).partner l) = .zero
    let held := fun (j : PairIndex) => (s.pairRuntime j).deferred.any fun d => d.holdDeadline == some s.now
    (∃ t, exec (.guardEnd k) s = .next t
      ∧ t = { s with latch := t.latch, runtime := t.runtime }
      ∧ (∀ j l, j ≤ k → grants j l → t.level l = .one
          ∧ t.pairRuntime j = { s.pairRuntime j with guard := none, deferred := none })
      ∧ (∀ j, j ≤ k → ending j = true → (∀ l, ¬grants j l) → t.pairRuntime j = { s.pairRuntime j with guard := none })
      ∧ (∀ j, (k < j ∨ ending j = false) → t.pairRuntime j = s.pairRuntime j)
      ∧ ∀ l, (∀ j, j ≤ k → ¬grants j l) → t.level l = s.level l)
    ∧ (∃ t, exec (.fallRecordEnd k) s = .next t
      ∧ t = { s with runtime := t.runtime }
      ∧ ∀ j, t.pairRuntime j =
          if j ≤ k ∧ (s.pairRuntime j).fall.any (fun f => f.tick + 65536#32 == s.now) = true then
            { s.pairRuntime j with fall := none }
          else s.pairRuntime j)
    ∧ ∃ t, exec (.holdDeadline k) s = .next t
      ∧ t = { s with latch := t.latch, runtime := t.runtime, ports := t.ports }
      ∧ (∀ j d, j ≤ k → (s.pairRuntime j).deferred = some d → held j = true → grants j d.line →
          t.level d.line = .one ∧ t.pairRuntime j = { s.pairRuntime j with guard := none, deferred := none })
      ∧ (∀ j d, j ≤ k → (s.pairRuntime j).deferred = some d → held j = true → ¬grants j d.line →
          t.pairRuntime j =
            { s.pairRuntime j with
              guard := if ending j then none else (s.pairRuntime j).guard
              deferred := none })
      ∧ (∀ j, (k < j ∨ held j = false) → t.pairRuntime j = s.pairRuntime j)
      ∧ (∀ l, (∀ j, j ≤ k → held j = true → ¬grants j l) → t.level l = s.level l)
      ∧ ∃ drops : List (PairIndex × DeferredRise),
        drops = (everyPair.filterMap fun j => (s.pairRuntime j).deferred.map fun d => (j, d)).filter (fun x =>
          decide (x.1 ≤ k) && held x.1
            && !((s.pairRuntime x.1).guard == some { ends := s.now, line := x.2.line }
              && s.level ((s.pair x.1).partner x.2.line) == .zero))
        ∧ t.ports = tellAll s.ports (drops.filterMap fun x => x.2.owner.map fun q =>
            (q, .riseDropped x.2.line .timeout x.1 x.2.requestTick s.now none))

/-- BANK_FIRING (R9, R39, R40, R44 to R47), while the clock is present: every step of bank `k` that is due at NOW repeats,
re-arms or is freed, and no other slot changes; a line of the bank in no valid pair takes the action of the last due step, in
due-list order, that names it, and any other line in no valid pair keeps its level. A step that repeats re-enters the due list
behind every step whose due comes no later than its own, the repeating steps of one firing in the firing's order; a step that
re-arms goes to the end of its line's armed list, those of one firing in the firing's order, and counts as armed at this tick
(R10, R57); the other steps keep their places. The list of the slots armed at this tick is the model's own (log entry 5). -/
def Obligations.BankFiringMergesDueSteps : Prop :=
  ∀ (s : State) (k : Bank), s.inReset = false → s.clock.present = true → CalendarLaw s →
    ∃ t, exec (.bankFiring k) s = .next t
      ∧ t = { s with
              ports := t.ports, latch := t.latch, runtime := t.runtime, slots := t.slots, dueList := t.dueList
              armedSet := t.armedSet, armedThisTick := t.armedThisTick }
      ∧ (∀ i st, s.step i = some st → st.bank = k → st.state = .pending s.now →
          AfterFiring st s.now s.now (s.slot i).generation (t.slot i))
      ∧ (∀ i, i ∉ s.dueSlots k → t.slot i = s.slot i)
      ∧ (DueOrderLaw s → DueEntered (s.dueSlots k) s t)
      ∧ ArmedEntered (s.dueSlots k) s t
      ∧ (∀ j, s.pairOf (lineAt k j) = none → s.level (lineAt k j) ≠ .z →
          t.level (lineAt k j) =
            match s.mergedAction (s.dueSlots k) j with
            | some true => .one
            | some false => .zero
            | none => s.level (lineAt k j))
      ∧ ∀ l, s.pairOf l = none → (∀ j, l ≠ lineAt k j) → t.level l = s.level l

/-- BANK_FIRING on lines of valid pairs (R41 to R43, R73, R75, R78): the latch and the pair runtimes are those that the merged
CLEARs leave, in increasing position, and after them the merged SETs, in increasing position, each by the interlock. For a line
`z` of the bank whose partner the firing does not name: a CLEAR at 1 is a fall, with its guard or, with guard 0, the grant of
the partner's deferred rise; a CLEAR at 0 overrides a deferred rise on the line; a SET at 0 is absorbed, dropped, granted or
deferred as R75 judges it; a SET at 1 does nothing. Where the firing lowers one line and raises its partner, the raised line
is at 1 with guard 0 and deferred with a guard. A pair that the firing does not name keeps its levels and its runtime. That
CLEARs are taken in increasing position is the model's choice (log entry 26). -/
def Obligations.BankFiringActsThroughTheInterlock : Prop :=
  ∀ (s : State) (k : Bank), s.inReset = false → s.clock.present = true → CalendarLaw s → PairConfigLaw s →
    PairRuntimeLaw s →
    ∃ t, exec (.bankFiring k) s = .next t
      ∧ t.latch = (firedSets k (s.firesOf (s.dueSlots k)) (Work.of s)).1.latch
      ∧ t.runtime = (firedSets k (s.firesOf (s.dueSlots k)) (Work.of s)).1.runtime
      ∧ (∀ i, (s.pair i).valid = true →
          (∀ j, (s.pair i).holds (lineAt k j) = true → s.mergedAction (s.dueSlots k) j = none) →
          t.pairRuntime i = s.pairRuntime i ∧ ∀ z, (s.pair i).holds z = true → t.level z = s.level z)
      ∧ ∀ i j, s.pairOf (lineAt k j) = some i →
        let c := s.pair i
        let z := lineAt k j
        let x := c.partner z
        let r := s.pairRuntime i
        let action := s.mergedAction (s.dueSlots k)
        let guard : Option Guard :=
          if c.guard = 0 then none else some { ends := s.now + BitVec.ofNat 32 c.guard, line := x }
        ((∀ j', x = lineAt k j' → action j' = none) →
          (action j = some false → s.level z = .one →
            t.level z = .zero ∧ t.level x = (if c.guard = 0 ∧ r.defers x = true then .one else s.level x)
            ∧ t.pairRuntime i =
              { fall := some { line := z, tick := s.now }, guard := guard
                deferred := if c.guard = 0 then none else r.deferred })
          ∧ (action j = some false → s.level z ≠ .one →
            t.level z = s.level z ∧ t.level x = s.level x
            ∧ t.pairRuntime i = { r with deferred := if r.defers z then none else r.deferred })
          ∧ (action j = some true → s.level z = .zero →
            t.level x = s.level x
            ∧ t.level z =
              (if r.defers z = false ∧ r.defers x = false ∧ s.level x = .zero ∧ r.guards z = false then .one else .zero)
            ∧ t.pairRuntime i =
              if r.defers z = true ∨ r.defers x = true ∨ (s.level x = .zero ∧ r.guards z = false) then r
              else
                { r with
                  deferred := some
                    { line := z, owner := s.decidingOwner (s.dueSlots k) j, requestTick := s.now
                      holdDeadline := if c.hold = 0 then none else some (s.now + BitVec.ofNat 32 c.hold) } })
          ∧ (action j = some true → s.level z ≠ .zero →
            t.level z = s.level z ∧ t.level x = s.level x ∧ t.pairRuntime i = r))
        ∧ ∀ j', x = lineAt k j' → action j = some false → action j' = some true → s.level z = .one → s.level x = .zero →
          t.level z = .zero ∧ t.level x = (if c.guard = 0 then .one else .zero)
          ∧ t.pairRuntime i =
            { fall := some { line := z, tick := s.now }, guard := guard
              deferred :=
                if c.guard = 0 then none
                else if r.defers x then r.deferred
                else some
                  { line := x, owner := s.decidingOwner (s.dueSlots k) j', requestTick := s.now
                    holdDeadline := if c.hold = 0 then none else some (s.now + BitVec.ofNat 32 c.hold) } }

/-- The notices of a bank firing, in their order (R48 to R50, R75, R78, R87), as `firedBank` (Safety.lean) lists them:
RISE_DROPPED(OVERRIDDEN) for the CLEARs in increasing position; RISE_DROPPED(CONTENDED) for the SETs in increasing position, with
the line that held the rise back; then for each step in due-list order its STEP_FIRED, when NOTE_EACH is set, with the run index
after this firing, lateness 0 and the positions that it decided with SET and that the interlock deferred or absorbed, and its
STEP_DONE, when the firing frees it and NOTE_END is set. Each goes to the owner of the step or the rise, by that port's admission
check, and no port is told anything else. That CLEARs are taken in increasing position, on which it rests whether a rise deferred
behind a line that the same firing clears is overridden or first granted, is the model's choice (log entry 26). -/
def Obligations.FiringNoticesReachTheOwner : Prop :=
  ∀ (s : State) (k : Bank), s.inReset = false → s.clock.present = true → CalendarLaw s →
    ∃ t, exec (.bankFiring k) s = .next t
      ∧ t.ports = tellAll s.ports
        (firedBank (fun i => (t.step i).isNone) (s.firesOf (s.dueSlots k)) (Work.of s) k).out

/-! ### The calendar and its requests (chapters 1 and 2) -/

/-- PLACE bodies (R19, R21, section 12.3). One to three descriptors, laid out as their markers say, are read back part for part,
and no shorter or longer body is a PLACE body; nor is one with another count. A descriptor that meets R21 is read as what it
says; and one is refused exactly when one of R21's conditions fails: the kind, the bank, the masks, the flags, the timing that
its kind asks for, the trigger's line and edge, the period. -/
def Obligations.PlaceBodiesAreRead : Prop :=
  (∀ ds : List RawDescriptor, 1 ≤ ds.length → ds.length ≤ 3 → (∀ d, d ∈ ds → d.Fits) →
    readPlace (placeBytes ds) = some ds
      ∧ (∀ n, n < (placeBytes ds).length → readPlace ((placeBytes ds).take n) = none)
      ∧ ∀ extra, extra ≠ [] → readPlace (placeBytes ds ++ extra) = none)
  ∧ (∀ (count : Byte) (rest : List Byte), count.toNat = 0 ∨ 3 < count.toNat → readPlace (count :: rest) = none)
  ∧ (∀ (used : InLine → Bool) (d : Descriptor), d.Fits used → d.raw.Fits ∧ readDescriptor d.raw used = some d)
  ∧ ∀ (used : InLine → Bool) (d : RawDescriptor),
    let kind := d.head.extractLsb' 6 2
    readDescriptor d used = none ↔
      kind = 2 ∨ kind = 3
      ∨ d.head.extractLsb' 4 2 = 3
      ∨ d.setMask &&& d.clearMask ≠ 0 ∨ (d.setMask = 0 ∧ d.clearMask = 0)
      ∨ 16 ≤ d.flags.toNat ∨ (kind = 0 ∧ d.flags.getLsbD 3 = true)
      ∨ (kind = 0 ∧ (d.due = none ∨ d.trigger ≠ none ∨ d.window ≠ none))
      ∨ (kind = 1 ∧ (d.trigger = none ∨ d.due ≠ none))
      ∨ (kind = 1 ∧ ∃ first delay, d.trigger = some (first, delay) ∧
          ((∀ l : InLine, first.extractLsb' 0 4 = BitVec.ofNat 4 l.val → used l = false)
            ∨ first.extractLsb' 4 4 ∉ [1#4, 2#4, 3#4]))
      ∨ ∃ runs, d.rep = some (runs, 0)

/-- PLACE (R1, R9, R26, R28) of descriptors that pass the checks and are not late: each takes the lowest-numbered slot still
free, under its generation, with the record that it describes; a TIMED step stands in the due list, behind every step whose
due comes no later, those of one PLACE in descriptor order; the ARMED steps of a line stand at the end of its armed list in
descriptor order, and count as armed at this tick (R57); no other slot changes. The list of the slots armed at this tick is the
model's own (log entry 5). -/
def Obligations.PlacePutsStepsIn : Prop :=
  ∀ (s s₁ : State) (p : Port) (mosi : List Byte) (tag crc : Byte) (body : List Byte) (period : Nat) (deadline : Tick)
    (raws : List RawDescriptor) (ds : List Descriptor),
    Takes s p mosi .place tag crc body s₁ → (s₁.session p).state = .opened period deadline → s₁.phase = .run →
    readPlace body = some raws → checkDescriptors s₁ p 0 raws = .ok ds →
    (∀ d due, d ∈ ds → d.timing = .timed due → timeClass due s₁.now = .future) →
    ∃ t, exec (.place p mosi) s = .next t
      ∧ t = { s₁ with
              sessions := s₁.renewedSessions p period
              ports := s₁.repliedPorts p 0x30 tag crc
                ([0x00] ++ (s₁.freeSlots.take ds.length).flatMap fun i =>
                  handleBytes (s₁.handle i) ++ List.replicate 9 0)
              slots := t.slots, dueList := t.dueList, armedSet := t.armedSet, armedThisTick := t.armedThisTick }
      ∧ (∀ (j : Nat) (i : SlotIndex) (d : Descriptor), s₁.freeSlots[j]? = some i → ds[j]? = some d →
          ∃ st, t.slot i = { generation := (s₁.slot i).generation, step := some st }
            ∧ st.owner = p ∧ st.bank = d.bank ∧ st.setMask = d.setMask ∧ st.clearMask = d.clearMask
            ∧ st.flags = d.flags ∧ st.runIndex = 0
            ∧ st.rep = d.rep.map (fun r => { placed := r.1, remaining := r.1, period := r.2 })
            ∧ (∀ due, d.timing = .timed due → st.kind = .timed ∧ st.state = .pending due ∧ i ∈ t.dueList)
            ∧ ∀ line edge delay window, d.timing = .armed line edge delay window →
                st.state = .armed
                ∧ st.kind = .armed
                    { line := line, edge := edge, delay := delay, armTick := s₁.now
                      window := window.map fun w => { tick := w, reached := false } })
      ∧ (∀ i, i ∉ s₁.freeSlots.take ds.length → t.slot i = s₁.slot i)
      ∧ (CalendarLaw s₁ → DueOrderLaw s₁ →
        s₁.dueList.Sublist t.dueList
        ∧ (∀ (a : Nat) (i j : SlotIndex) (d : Descriptor) (due : Tick), s₁.freeSlots[a]? = some i → ds[a]? = some d →
            d.timing = .timed due → j ∈ s₁.dueList →
            (if s₁.dueLead j ≤ lead due s₁.now then [j, i] else [i, j]).Sublist t.dueList)
        ∧ ∀ (a b : Nat) (i j : SlotIndex) (d e : Descriptor) (due : Tick), a < b → s₁.freeSlots[a]? = some i →
            ds[a]? = some d → s₁.freeSlots[b]? = some j → ds[b]? = some e → d.timing = .timed due → e.timing = .timed due →
            [i, j].Sublist t.dueList)
      ∧ (∀ l, t.armedList l = s₁.armedList l ++
          ((s₁.freeSlots.zip ds).filter fun x =>
            match x.2.timing with
            | .armed line _ _ _ => line == l
            | .timed _ => false).map Prod.fst)
      ∧ ∀ i, i ∈ t.armedThisTick ↔ i ∈ s₁.armedThisTick
          ∨ ∃ d line edge delay window, (i, d) ∈ s₁.freeSlots.zip ds ∧ d.timing = .armed line edge delay window

/-- PLACE's checks (R19, R21 to R25): a body that does not hold its 1 to 3 descriptors is refused E_ARG with index 0; the
first descriptor that fails decides, by the first of range, ownership, quota and timing that it fails, and the reply carries
its index. Nothing but the lease changes. -/
def Obligations.PlaceChecksInOrder : Prop :=
  ∀ (s s₁ : State) (p : Port) (mosi : List Byte) (tag crc : Byte) (body : List Byte) (period : Nat) (deadline : Tick),
    Takes s p mosi .place tag crc body s₁ → (s₁.session p).state = .opened period deadline → s₁.phase = .run →
    (readPlace body = none → exec (.place p mosi) s = .next (s₁.refused p period .place tag crc [0x03, 0x00]))
    ∧ ∀ (pre post : List RawDescriptor) (raw : RawDescriptor) (passed : List Descriptor),
      readPlace body = some (pre ++ raw :: post) → checkDescriptors s₁ p 0 pre = .ok passed →
      let answer := fun (code : Byte) => exec (.place p mosi) s = .next
        (s₁.refused p period .place tag crc [code, BitVec.ofNat 8 pre.length])
      (readDescriptor raw (fun l => (s₁.input l).used) = none → answer 0x03)
      ∧ ∀ d, readDescriptor raw (fun l => (s₁.input l).used) = some d →
        let owns := ∀ j, inMask (d.setMask ||| d.clearMask) j = true → s₁.owner (lineAt d.bank j) = some p
        let within := s₁.stepCount p + pre.length + 1 ≤ s₁.quota p ∧ pre.length + 1 ≤ s₁.freeSlots.length
        (¬owns → answer 0x0B)
        ∧ (owns → ¬within → answer 0x0E)
        ∧ (owns → within →
          (∀ due, d.timing = .timed due →
            (lead due s₁.now = 0 ∨ lateness due s₁.now ≤ 268435456) → d.flags.lateOk = false → answer 0x0F)
          ∧ (∀ due, d.timing = .timed due → 268435456 < lead due s₁.now → 268435456 < lateness due s₁.now → answer 0x10)
          ∧ ∀ line edge delay w, d.timing = .armed line edge delay (some w) →
              (lead w s₁.now = 0 ∨ 268435456 < lead w s₁.now) → answer 0x10)

/-- PLACE of any accepted descriptors, late ones among them (R1, R9, R10, R24, R26 to R28). The descriptors take the
lowest-numbered free slots in descriptor order. One that is not late is put in as PlacePutsStepsIn says; a late one, whose
flags have LATE_OK, fires at acceptance, once, by catch-up, and is then PENDING with its next due, or freed. The reply gives
for each its handle, outcome, lateness and runs skipped. The late steps' lines take the merged actions of their bank firings,
one for each bank, in increasing bank and for each bank in descriptor order: a line in no valid pair the action of the last
that names it, a paired line what the interlock makes of it, CLEARs before SETs. Their notices follow the reply, the overridden
and the contended rises of a bank before its steps' STEP_FIRED and STEP_DONE. All steps enter the due list and the armed set in
descriptor order, a late one with its next due. The order of the parts of a placement is inferred (log entry 20), CLEARs in
increasing position are the model's choice (log entry 26), and so is the list of the slots armed at this tick (log entry 5). -/
def Obligations.LatePlacementFiresOnce : Prop :=
  ∀ (s s₁ : State) (p : Port) (mosi : List Byte) (tag crc : Byte) (body : List Byte) (period : Nat) (deadline : Tick)
    (raws : List RawDescriptor) (ds : List Descriptor),
    Takes s p mosi .place tag crc body s₁ → (s₁.session p).state = .opened period deadline → s₁.phase = .run →
    readPlace body = some raws → checkDescriptors s₁ p 0 raws = .ok ds →
    let placed := s₁.freeSlots.zip ds
    let record := fun (d : Descriptor) =>
      ({ owner := p, bank := d.bank, setMask := d.setMask, clearMask := d.clearMask
         kind := match d.timing with
           | .timed _ => .timed
           | .armed line edge delay window =>
             .armed { line := line, edge := edge, delay := delay, armTick := s₁.now
                      window := window.map fun w => { tick := w, reached := false } }
         state := match d.timing with
           | .timed due => .pending due
           | .armed .. => .armed
         rep := d.rep.map fun r => { placed := r.1, remaining := r.1, period := r.2 }
         runIndex := 0, flags := d.flags } : StepRecord)
    let late := fun (d : Descriptor) => (match d.timing with
      | .timed due => if timeClass due s₁.now = .late then some due else none
      | .armed .. => none : Option Tick)
    let fs := placed.filterMap fun x => (late x.2).map fun due =>
      (⟨x.1, s₁.handle x.1, record x.2, due⟩ : Firing)
    ∃ t, exec (.place p mosi) s = .next t
      ∧ (let fired := firedEvent (fun i => (t.step i).isNone) fs s₁
        t = { s₁ with
              sessions := s₁.renewedSessions p period
              ports := tellAll
                (s₁.repliedPorts p 0x30 tag crc
                  ([0x00] ++ placed.flatMap fun x => handleBytes (s₁.handle x.1)
                    ++ match late x.2 with
                      | none => List.replicate 9 0
                      | some due =>
                        byte1 (if (t.step x.1).isSome then 1 else 2) ++ byte4 (lateness due s₁.now)
                          ++ byte4 ((record x.2).runsUsed due s₁.now - 1)))
                fired.out
              latch := fired.st.latch, runtime := fired.st.runtime, slots := t.slots, dueList := t.dueList
              armedSet := t.armedSet, armedThisTick := t.armedThisTick })
      ∧ placed.map Prod.snd = ds
      ∧ (∀ x, x ∈ placed → ∀ due, late x.2 = some due → x.2.flags.lateOk = true ∧
          AfterFiring (record x.2) due s₁.now (s₁.slot x.1).generation (t.slot x.1))
      ∧ (∀ x, x ∈ placed → late x.2 = none →
          t.slot x.1 = { generation := (s₁.slot x.1).generation, step := some (record x.2) })
      ∧ (∀ i, i ∉ placed.map Prod.fst → t.slot i = s₁.slot i)
      ∧ (CalendarLaw s₁ → DueOrderLaw s₁ → DueEntered (placed.map Prod.fst) s₁ t)
      ∧ (CalendarLaw s₁ → ArmedEntered (placed.map Prod.fst) s₁ t)
      ∧ (∀ k j, s₁.pairOf (lineAt k j) = none → s₁.level (lineAt k j) ≠ .z →
          t.level (lineAt k j) =
            match firedAction (fs.filter fun f => decide (f.record.bank = k)) j with
            | some true => .one
            | some false => .zero
            | none => s₁.level (lineAt k j))

/-- CANCEL and CANCEL_ALL (R7, R30, R31): the named steps, or the sender's steps on the selected banks, are freed at one event
and leave their collections, with no notice; no other slot changes, and the other steps keep their places. A CANCEL with a
handle that fails a check frees none, and the reply names the first that fails; one whose count is 0 or more than 8, or does
not match its length, is refused E_ARG with index 0. -/
def Obligations.CancelFreesSteps : Prop :=
  (∀ (s s₁ : State) (p : Port) (mosi : List Byte) (tag crc : Byte) (body : List Byte) (period : Nat) (deadline : Tick),
    Takes s p mosi .cancel tag crc body s₁ → (s₁.session p).state = .opened period deadline → s₁.phase = .run →
    (body = [] ∨ ∃ count rest, body = count :: rest ∧ (count = 0 ∨ 8 < count.toNat ∨ rest.length ≠ 2 * count.toNat)) →
    exec (.cancel p mosi) s = .next (s₁.refused p period .cancel tag crc [0x03, 0x00]))
  ∧ (∀ (s s₁ : State) (p : Port) (mosi : List Byte) (tag crc : Byte) (period : Nat) (deadline : Tick) (hs : List Handle),
    Takes s p mosi .cancel tag crc (cancelBytes hs) s₁ → (s₁.session p).state = .opened period deadline →
    s₁.phase = .run → 1 ≤ hs.length → hs.length ≤ 8 →
    (hs.Nodup → (∀ h, h ∈ hs → ∃ i, s₁.named h = some i ∧ s₁.ownsStep p i = true) →
      ∃ t, exec (.cancel p mosi) s = .next t
        ∧ t = { s₁ with
                sessions := s₁.renewedSessions p period
                ports := s₁.repliedPorts p 0x31 tag crc ([0x00] ++ byte1 hs.length)
                slots := t.slots, dueList := t.dueList, armedSet := t.armedSet, armedThisTick := t.armedThisTick }
        ∧ (∀ h i, h ∈ hs → s₁.named h = some i →
            t.slot i = { generation := (s₁.slot i).generation + 1, step := none })
        ∧ (∀ i, (∀ h, h ∈ hs → s₁.named h ≠ some i) → t.slot i = s₁.slot i)
        ∧ Kept (fun i => hs.any fun h => s₁.named h == some i) s₁ t)
    ∧ ∀ (pre post : List Handle) (h : Handle), hs = pre ++ h :: post → pre.Nodup →
      (∀ g, g ∈ pre → ∃ i, s₁.named g = some i ∧ s₁.ownsStep p i = true) →
      let answer := fun (code : Byte) => exec (.cancel p mosi) s = .next
        (s₁.refused p period .cancel tag crc [code, BitVec.ofNat 8 pre.length])
      (64 ≤ (h.extractLsb' 0 8).toNat ∨ h ∈ pre → answer 0x03)
      ∧ ((h.extractLsb' 0 8).toNat < 64 → h ∉ pre → s₁.named h = none → answer 0x11)
      ∧ ∀ i, h ∉ pre → s₁.named h = some i → s₁.ownsStep p i = false → answer 0x0B)
  ∧ ∀ (s s₁ : State) (p : Port) (mosi : List Byte) (tag crc : Byte) (body : List Byte) (period : Nat) (deadline : Tick),
    Takes s p mosi .cancelAll tag crc body s₁ → (s₁.session p).state = .opened period deadline → s₁.phase = .run →
    (∀ sel : Option Bank, body = [match sel with | none => 0xFF | some k => BitVec.ofNat 8 k.val] →
      let hit := fun i => (match s₁.step i with
        | none => false
        | some st => decide (st.owner = p) && (match sel with | none => true | some k => decide (st.bank = k)))
      ∃ t, exec (.cancelAll p mosi) s = .next t
        ∧ t = { s₁ with
                sessions := s₁.renewedSessions p period
                ports := s₁.repliedPorts p 0x32 tag crc ([0x00] ++ byte1 (everySlot.countP hit))
                slots := t.slots, dueList := t.dueList, armedSet := t.armedSet, armedThisTick := t.armedThisTick }
        ∧ (∀ i, hit i = true →
            t.slot i = { generation := (s₁.slot i).generation + 1, step := none })
        ∧ (∀ i, hit i = false → t.slot i = s₁.slot i)
        ∧ Kept hit s₁ t)
    ∧ ((body.length ≠ 1 ∨ ∃ b : Byte, body = [b] ∧ 3 ≤ b.toNat ∧ b ≠ 0xFF) →
      exec (.cancelAll p mosi) s = .next (s₁.refused p period .cancelAll tag crc [0x03]))

/-- AMEND (R32 to R34) of a PENDING step of the sender: a future due moves the step behind every step that is not due later,
and restarts the runs when a repeat part is sent; a late due with LATE_OK fires it once by catch-up (R27): its lines take its
actions, a paired one through the interlock, it is then PENDING with its next due behind every step that is not due later,
ARMED at the end of its line's armed list, or freed, and its notices follow the reply. The reply gives the outcome, the due and
the runs remaining that the step then has, the lateness and the runs skipped; what the byte of the runs remaining holds for a
step that stays is inferred, and for one that is gone it is a free value (log entry 8). The handle is kept while the step
stays, no other slot changes, and the other steps keep their places. The list of the slots armed at this tick is the model's
own (log entry 5), and that one step's CLEARs are taken in increasing position, which shows where it clears both lines of a
pair with guard 0, is its choice (log entry 26), as is that the other bits of the presence byte are 0 (log entry 31). The
checks in their order: a body whose length does not match its marker, another flag, a slot byte over 63 or a period of 0 is
refused E_ARG, a stale handle E_NOT_FOUND, another port's step E_NOT_OWNER, an ARMED step E_STATE, a late due without LATE_OK
E_LATE, a far one E_FAR. -/
def Obligations.AmendMovesOrFiresTheStep : Prop :=
  (∀ (s s₁ : State) (p : Port) (mosi : List Byte) (tag crc : Byte) (body : List Byte) (period : Nat) (deadline : Tick),
    Takes s p mosi .amend tag crc body s₁ → (s₁.session p).state = .opened period deadline → s₁.phase = .run →
    ((body.length ≠ 7 ∧ body.length ≠ 11)
        ∨ (∃ (h : Handle) (due : Tick) (flags : Byte) (rest : List Byte),
          body = handleBytes h ++ tickBytes due ++ flags :: rest ∧
          (rest.isEmpty = flags.getLsbD 0 ∨ 2 ≤ flags.toNat ∨ 64 ≤ (h.extractLsb' 0 8).toNat
            ∨ ∃ runs, rest = [runs, 0, 0, 0])) →
      exec (.amend p mosi) s = .next (s₁.refused p period .amend tag crc [0x03]))
    ∧ ∀ (h : Handle) (due : Tick) (rep : Option (Runs × Nat)), body = amendBytes h due rep →
      (∀ runs n, rep = some (runs, n) → RepeatFits runs n ∧ 1 ≤ n) →
      ((h.extractLsb' 0 8).toNat < 64 → s₁.named h = none →
        exec (.amend p mosi) s = .next (s₁.refused p period .amend tag crc [0x11]))
      ∧ (∀ i st, s₁.named h = some i → s₁.step i = some st → st.owner ≠ p →
        exec (.amend p mosi) s = .next (s₁.refused p period .amend tag crc [0x0B]))
      ∧ ∀ i st, s₁.named h = some i → s₁.step i = some st → st.owner = p → st.state = .armed →
        exec (.amend p mosi) s = .next (s₁.refused p period .amend tag crc [0x06]))
  ∧ ∀ (s s₁ : State) (p : Port) (mosi : List Byte) (tag crc : Byte) (period : Nat) (deadline : Tick) (h : Handle)
    (due old : Tick) (rep : Option (Runs × Nat)) (i : SlotIndex) (st : StepRecord),
    Takes s p mosi .amend tag crc (amendBytes h due rep) s₁ → (s₁.session p).state = .opened period deadline →
    s₁.phase = .run → (∀ runs n, rep = some (runs, n) → 1 ≤ n ∧ n ≤ 16777215 ∧ ∀ c, runs = .count c → 1 ≤ c ∧ c ≤ 255) →
    s₁.named h = some i → s₁.step i = some st → st.owner = p → st.state = .pending old →
    let st' : StepRecord :=
      match rep with
      | none => { st with state := .pending due }
      | some (runs, n) =>
        { st with state := .pending due, rep := some { placed := runs, remaining := runs, period := n }, runIndex := 0 }
    (timeClass due s₁.now = .future →
      ∃ t, exec (.amend p mosi) s = .next t
        ∧ t = { s₁ with
                sessions := s₁.renewedSessions p period
                ports := s₁.repliedPorts p 0x33 tag crc
                  (0x00 :: 0x00 :: 0x01 :: tickBytes due
                    ++ byte1 (match st'.rep with | none => 1 | some r => r.remaining.code) ++ List.replicate 8 0)
                slots := tset s₁.slots i { generation := (s₁.slot i).generation, step := some st' }
                dueList := t.dueList, armedSet := t.armedSet }
        ∧ (∀ l, t.armedList l = (s₁.armedList l).filter (· ≠ i))
        ∧ ∃ pre post, t.dueList = pre ++ i :: post ∧ pre ++ post = s₁.dueList.filter (· ≠ i)
          ∧ (∀ j, j ∈ pre → s₁.dueLead j ≤ lead due s₁.now)
          ∧ ∀ j, post.head? = some j → lead due s₁.now < s₁.dueLead j)
    ∧ (timeClass due s₁.now = .late → st.flags.lateOk = true →
      let fs : List Firing := [⟨i, s₁.handle i, st', due⟩]
      ∃ t, exec (.amend p mosi) s = .next t
        ∧ (let fired := firedEvent (fun i => (t.step i).isNone) fs s₁
          t = { s₁ with
                sessions := s₁.renewedSessions p period
                ports := tellAll
                  (s₁.repliedPorts p 0x33 tag crc
                    (0x00 :: ((match t.step i with
                      | none => [0x02, 0x00, 0, 0, 0, 0, Config.doneLateRuns h]
                      | some st'' =>
                        (match st''.state with
                         | .pending next => 0x01 :: 0x01 :: tickBytes next
                         | .armed => [0x03, 0x00, 0, 0, 0, 0] : List Byte)
                          ++ byte1 (match st''.rep with | none => 1 | some r => r.remaining.code) : List Byte)
                      ++ byte4 (lateness due s₁.now) ++ byte4 (st'.runsUsed due s₁.now - 1))))
                  fired.out
                latch := fired.st.latch, runtime := fired.st.runtime, slots := t.slots, dueList := t.dueList
                armedSet := t.armedSet, armedThisTick := t.armedThisTick })
        ∧ (∀ j, j ≠ i → t.slot j = s₁.slot j)
        ∧ AfterFiring st' due s₁.now (s₁.slot i).generation (t.slot i)
        ∧ (CalendarLaw s₁ → DueOrderLaw s₁ → DueEntered [i] s₁ t)
        ∧ (CalendarLaw s₁ → ArmedEntered [i] s₁ t)
        ∧ (∀ k j, s₁.pairOf (lineAt k j) = none → s₁.level (lineAt k j) ≠ .z →
            t.level (lineAt k j) =
              if k ≠ st.bank then s₁.level (lineAt k j)
              else if inMask st.setMask j then .one
              else if inMask st.clearMask j then .zero
              else s₁.level (lineAt k j)))
    ∧ (timeClass due s₁.now = .late → st.flags.lateOk = false →
      exec (.amend p mosi) s = .next (s₁.refused p period .amend tag crc [0x0F]))
    ∧ (timeClass due s₁.now = .far → exec (.amend p mosi) s = .next (s₁.refused p period .amend tag crc [0x10]))

/-- LIST and QUERY_STEP (R16, R17): the total of the matching slots, up to 15 of them from the start slot upward, and the slot
to go on from; and the whole record of one step with its rank. Nothing but the lease changes. A body of another length, a start
slot over 63, another owner filter and a slot byte over 63 are refused E_ARG, a stale handle E_NOT_FOUND. The places of the
presence bits and the one byte each of bank and run index are inferred (log entry 18); that the bits to which the spec gives no
field are 0, in the last byte of a LIST entry and in the presence byte, is the model's choice (log entry 31). -/
def Obligations.CalendarIsRead : Prop :=
  (∀ (s s₁ : State) (p : Port) (mosi : List Byte) (tag crc : Byte) (body : List Byte) (period : Nat) (deadline : Tick),
    (s₁.session p).state = .opened period deadline → s₁.phase ≠ .fault →
    (Takes s p mosi .list tag crc body s₁ →
      (body.length ≠ 2 ∨ ∃ start filter : Byte, body = [start, filter] ∧ (64 ≤ start.toNat ∨ 3 < filter.toNat)) →
      exec (.list p mosi) s = .next (s₁.refused p period .list tag crc [0x03]))
    ∧ (Takes s p mosi .queryStep tag crc body s₁ → body.length ≠ 2 →
      exec (.queryStep p mosi) s = .next (s₁.refused p period .queryStep tag crc [0x03])))
  ∧ (∀ (s s₁ : State) (p : Port) (mosi : List Byte) (tag crc : Byte) (period : Nat) (deadline : Tick) (start : SlotIndex)
    (filter : Option Port),
    Takes s p mosi .list tag crc
      [BitVec.ofNat 8 start.val, match filter with | some .a => 0 | some .b => 1 | some .c => 2 | none => 3] s₁ →
    (s₁.session p).state = .opened period deadline → s₁.phase ≠ .fault →
    let passes := fun i => (match s₁.step i with
      | none => false
      | some st => (match filter with | none => true | some q => decide (st.owner = q)))
    let found := everySlot.filter fun i => decide (start ≤ i) && passes i
    exec (.list p mosi) s = .next
      { s₁ with
        sessions := s₁.renewedSessions p period
        ports := s₁.repliedPorts p 0x34 tag crc
          (([0x00] : List Byte) ++ byte1 (everySlot.countP passes)
            ++ byte1 (match found[14]? with | some i => i.val + 1 | none => 64)
            ++ (found.take 15).flatMap fun i =>
                match s₁.step i with
                | none => []
                | some st =>
                  [(s₁.slot i).generation, BitVec.ofNat 8 i.val,
                   BitVec.ofNat 8 (64 * portCode st.owner + 16 * st.bank.val
                    + (match st.kind with | .timed => 0 | .armed _ => 2)
                    + (match st.state with | .pending _ => 0 | .armed => 1))]) })
  ∧ ∀ (s s₁ : State) (p : Port) (mosi : List Byte) (tag crc : Byte) (period : Nat) (deadline : Tick) (h : Handle),
    Takes s p mosi .queryStep tag crc (handleBytes h) s₁ → (s₁.session p).state = .opened period deadline →
    s₁.phase ≠ .fault →
    (64 ≤ (h.extractLsb' 0 8).toNat →
      exec (.queryStep p mosi) s = .next (s₁.refused p period .queryStep tag crc [0x03]))
    ∧ ((h.extractLsb' 0 8).toNat < 64 → s₁.named h = none →
      exec (.queryStep p mosi) s = .next (s₁.refused p period .queryStep tag crc [0x11]))
    ∧ ∀ i st, s₁.named h = some i → s₁.step i = some st →
      let due := match st.state with | .pending d => some d | .armed => none
      let arm := match st.kind with | .timed => none | .armed a => some a
      let window := arm.bind ArmPart.window
      let tick := fun (t : Option Tick) => (match t with | none => List.replicate 4 0 | some t => tickBytes t : List Byte)
      exec (.queryStep p mosi) s = .next
        { s₁ with
          sessions := s₁.renewedSessions p period
          ports := s₁.repliedPorts p 0x35 tag crc
            (([0x00] : List Byte)
              ++ presence
                  [due.isSome, arm.isSome, arm.isSome, window.isSome, st.rep.isSome, (window.map WindowEnd.reached).getD false]
              ++ handleBytes h ++ byte1 (portCode st.owner) ++ byte1 st.bank.val
              ++ byte1 arm.isSome.toNat ++ byte1 (match st.state with | .pending _ => 0 | .armed => 1)
              ++ [st.setMask, st.clearMask] ++ byte1 st.flags.code ++ tick due
              ++ (match arm with | none => [0, 0, 0] | some a => byte1 (16 * a.edge.code + a.line.val) ++ byte2 a.delay)
              ++ tick (arm.map ArmPart.armTick) ++ tick (window.map WindowEnd.tick)
              ++ (match st.rep with
                  | none => [1, 1, 0, 0, 0]
                  | some r => byte1 r.placed.code ++ byte1 r.remaining.code ++ byte3 r.period)
              ++ byte1 st.runIndex
              ++ byte1 (match st.state, arm with
                  | .pending _, _ => (s₁.dueList.takeWhile (· ≠ i)).length
                  | .armed, some a => ((s₁.armedList a.line).takeWhile (· ≠ i)).length
                  | .armed, none => 0)) }

/-! ### Armed steps and input lines (chapters 4 and 8) -/

/-- WINDOW_END and REACHED_MARKER (R63 to R65), while the clock is present: an ARMED step whose window end is NOW is freed,
with TRIGGER_TIMEOUT to its owner, the notices line by line in increasing input line number and within a line in armed-list
order, and no port is told anything else; a PENDING REARM step whose window end is NOW has its marker set and nothing else
changed. No other slot changes, and the other steps keep their places. That one command takes all that are due at NOW is the
model's (log entry 15). -/
def Obligations.WindowEndsFreeOrMark : Prop :=
  (∀ s : State, s.inReset = false → s.clock.present = true → CalendarLaw s →
    let closes := fun (i : SlotIndex) (st : StepRecord) (a : ArmPart) =>
      s.step i = some st ∧ st.state = .armed ∧ st.kind = .armed a ∧ a.window.map WindowEnd.tick = some s.now
    ∃ t, exec .windowEnd s = .next t
      ∧ t = { s with
              ports := t.ports, slots := t.slots, armedSet := t.armedSet, armedThisTick := t.armedThisTick }
      ∧ (∀ i st a, closes i st a →
          t.slot i = { generation := (s.slot i).generation + 1, step := none })
      ∧ (∃ gone : SlotIndex → Bool, (∀ i, gone i = true ↔ ∃ st a, closes i st a) ∧ Kept gone s t)
      ∧ (∀ i, (∀ st a, ¬closes i st a) → t.slot i = s.slot i)
      ∧ t.ports = tellAll s.ports ((everyInLine.flatMap s.armedList).filterMap fun i =>
          match s.step i with
          | none => none
          | some st =>
            match st.kind with
            | .timed => none
            | .armed a =>
              if a.window.map WindowEnd.tick = some s.now then
                some (st.owner, .triggerTimeout (s.handle i) a.line a.armTick s.now)
              else none))
  ∧ ∀ s : State, s.inReset = false → s.clock.present = true →
    let marks := fun (i : SlotIndex) (st : StepRecord) (a : ArmPart) (w : WindowEnd) =>
      s.step i = some st ∧ (∃ d, st.state = .pending d) ∧ st.kind = .armed a ∧ a.window = some w ∧ w.tick = s.now
        ∧ st.flags.rearm = true
    ∃ t, exec .reachedMarker s = .next t
      ∧ t = { s with slots := t.slots }
      ∧ (∀ i st a w, marks i st a w →
          t.slot i =
            { generation := (s.slot i).generation
              step := some { st with kind := .armed { a with window := some { w with reached := true } } } })
      ∧ ∀ i, (∀ st a w, ¬marks i st a w) → t.slot i = s.slot i

/-- EDGE_EVENT (R126, R128, R131 to R133): the accepted level changes and the run is over; the steps that the edge fires by
catch-up have their bank firings, in increasing bank, whose notices each go to their owner (R60; `firedEvent`, Safety.lean);
and after them each OPEN port whose subscription matches is sent EDGE while it holds no latch bit and its queue admits a
notice, and the edge is folded into its latch otherwise. No other part of the state changes but the steps that the edge
triggers and the lines of those that it fires (`EdgesTriggerArmedSteps`). CLEARs in increasing position are the model's choice
(log entry 26). The edge is taken apart from the sample that completed its run, and with no edge due the row does nothing: the
model's own (log entries 4 and 13). -/
def Obligations.EdgesAreReportedOrFolded : Prop :=
  ∀ (s : State) (l : InLine), s.inReset = false →
    ((s.filter l).edgeDue = false → exec (.edgeEvent l) s = .next s)
    ∧ ∀ level : Bool, (s.filter l).edgeDue = true → (s.filter l).accepted = some (!level) → (s.armedList l).Nodup →
      let direction := if level then Direction.rise else .fall
      let stamp := (s.filter l).runStart.getD s.now
      let offered := fun q => s.isOpen q = true ∧
        (s.subscription q l = .both ∨ s.subscription q l = if level then Subscription.rise else .fall)
      ∃ t, exec (.edgeEvent l) s = .next t ∧
        let base := tellAll s.ports (firedEvent (fun i => (t.step i).isNone) (s.edgeFirings l level stamp) s).out
        let noticed := fun q => (s.inputsOf q).rises = 0 ∧ (s.inputsOf q).falls = 0 ∧ (base.get q).queue.length ≤ 14
        t = { s with
                filters := tset s.filters l
                  { s.filter l with accepted := some level, runCount := 0, runStart := none, edgeDue := false }
                ports := t.ports, portInputs := t.portInputs, latch := t.latch, runtime := t.runtime, slots := t.slots
                dueList := t.dueList, armedSet := t.armedSet, armedThisTick := t.armedThisTick }
        ∧ (∀ q, offered q → noticed q →
            t.port q = (base.get q).told (.edge l direction stamp s.now) ∧ t.inputsOf q = s.inputsOf q)
        ∧ (∀ q, offered q → ¬noticed q → t.port q = base.get q
            ∧ (t.inputsOf q).subscriptions = (s.inputsOf q).subscriptions
            ∧ (∀ j, inMask (t.inputsOf q).rises j = (inMask (s.inputsOf q).rises j || (level && decide (j = l))))
            ∧ ∀ j, inMask (t.inputsOf q).falls j = (inMask (s.inputsOf q).falls j || (!level && decide (j = l))))
        ∧ ∀ q, ¬offered q → t.port q = base.get q ∧ t.inputsOf q = s.inputsOf q

/-- EDGE_EVENT and the armed set (R9, R10, R57 to R60): an ARMED step of the line that the edge matches, armed before this tick
and with its window end not at NOW, becomes PENDING with due stamp + delay, or, when that is not in the future, fires at once
by catch-up; every other slot is left alone. The triggered steps leave the armed set and enter the due list in armed-list
order, each behind every step whose due comes no later; the others keep their places. The levels and the pair runtimes are
those of the bank firings of the steps that fire, in increasing bank, each by the interlock; a line in no valid pair takes the
action of the last step of its bank that names it. Their notices are those of `EdgesAreReportedOrFolded`. The model's own in
this: the edge that a sample leaves due (log entry 4), the list of the slots armed at this tick (log entry 5), that re-armed
steps of different banks rejoin the armed list in their former order (log entry 25), and CLEARs in increasing position (log
entry 26). -/
def Obligations.EdgesTriggerArmedSteps : Prop :=
  ∀ (s : State) (l : InLine) (level : Bool), s.inReset = false → CalendarLaw s →
    (s.filter l).edgeDue = true → (s.filter l).accepted = some (!level) →
    let stamp := (s.filter l).runStart.getD s.now
    let fs := s.edgeFirings l level stamp
    ∃ t, exec (.edgeEvent l) s = .next t
      ∧ (let fired := firedEvent (fun i => (t.step i).isNone) fs s
        t = { s with
              filters := tset s.filters l
                { s.filter l with accepted := some level, runCount := 0, runStart := none, edgeDue := false }
              ports := t.ports, portInputs := t.portInputs, latch := fired.st.latch, runtime := fired.st.runtime
              slots := t.slots, dueList := t.dueList, armedSet := t.armedSet, armedThisTick := t.armedThisTick })
      ∧ (∀ i st a, s.triggered l level i = some (st, a) → lateness stamp s.now < a.delay →
          t.slot i = { generation := (s.slot i).generation
                       step := some { st with state := .pending (stamp + BitVec.ofNat 32 a.delay) } })
      ∧ (∀ i st a, s.triggered l level i = some (st, a) → a.delay ≤ lateness stamp s.now →
          AfterFiring st (stamp + BitVec.ofNat 32 a.delay) s.now (s.slot i).generation (t.slot i))
      ∧ (∀ i, s.triggered l level i = none → t.slot i = s.slot i)
      ∧ (DueOrderLaw s → DueEntered (s.edgeHits l level) s t)
      ∧ ArmedEntered (s.edgeHits l level) s t
      ∧ ∀ k j, s.pairOf (lineAt k j) = none → s.level (lineAt k j) ≠ .z →
          t.level (lineAt k j) =
            match firedAction (fs.filter fun f => decide (f.record.bank = k)) j with
            | some true => .one
            | some false => .zero
            | none => s.level (lineAt k j)

/-- SUBSCRIBE, CLEAR_PENDING and READ_INPUTS (R130, R136, R138): the lines of the mask take the kind and lose the latch bits
it does not cover; the latch bits of the mask are cleared and reported; the filter states, subscriptions and latch are
read. Only the sender's lease, subscriptions and latch change. A body of another length, a mask without lines and a kind that
is none of the four are refused E_ARG, and so is a kind other than NONE for an unused line, which the reply names. -/
def Obligations.InputRequestsAreServed : Prop :=
  (∀ (s s₁ : State) (p : Port) (mosi : List Byte) (tag crc : Byte) (body : List Byte) (period : Nat) (deadline : Tick),
    Takes s p mosi .subscribe tag crc body s₁ → (s₁.session p).state = .opened period deadline → s₁.phase ≠ .fault →
    (body.length ≠ 2 ∨ ∃ m kind : Byte, body = [m, kind] ∧ 3 < kind.toNat) →
    exec (.subscribe p mosi) s = .next (s₁.refused p period .subscribe tag crc [0x03]))
  ∧ (∀ (s s₁ : State) (p : Port) (mosi : List Byte) (tag crc : Byte) (period : Nat) (deadline : Tick) (m : InputMask)
    (kind : Subscription),
    Takes s p mosi .subscribe tag crc [m, BitVec.ofNat 8 kind.code] s₁ →
    (s₁.session p).state = .opened period deadline → s₁.phase ≠ .fault →
    (m = 0 → exec (.subscribe p mosi) s = .next (s₁.refused p period .subscribe tag crc [0x03]))
    ∧ (m ≠ 0 → kind ≠ .none → (∃ l, inMask m l = true ∧ (s₁.input l).used = false) →
      ∃ unused : InputMask, (∀ l, inMask unused l = (inMask m l && !(s₁.input l).used))
        ∧ exec (.subscribe p mosi) s = .next (s₁.refused p period .subscribe tag crc [0x03, unused]))
    ∧ (m ≠ 0 → (kind = .none ∨ ∀ l, inMask m l = true → (s₁.input l).used = true) →
      ∃ x : PortInputs,
        (∀ l, tget x.subscriptions l = if inMask m l then kind else s₁.subscription p l)
        ∧ x.rises = (if kind = .rise ∨ kind = .both then (s₁.inputsOf p).rises else (s₁.inputsOf p).rises &&& ~~~m)
        ∧ x.falls = (if kind = .fall ∨ kind = .both then (s₁.inputsOf p).falls else (s₁.inputsOf p).falls &&& ~~~m)
        ∧ exec (.subscribe p mosi) s = .next
          { s₁ with
            sessions := s₁.renewedSessions p period
            ports := s₁.repliedPorts p 0x40 tag crc
              ([0x00] ++ (List.finRange 8).map (fun l => BitVec.ofNat 8 (tget x.subscriptions l).code)
                ++ [x.rises, x.falls])
            portInputs := s₁.portInputs.set p x }))
  ∧ (∀ (s s₁ : State) (p : Port) (mosi : List Byte) (tag crc : Byte) (body : List Byte) (period : Nat) (deadline : Tick),
    Takes s p mosi .clearPending tag crc body s₁ → (s₁.session p).state = .opened period deadline → s₁.phase ≠ .fault →
    (∀ m : InputMask, body = [m] → exec (.clearPending p mosi) s = .next
      { s₁ with
        sessions := s₁.renewedSessions p period
        ports := s₁.repliedPorts p 0x41 tag crc [0x00, (s₁.inputsOf p).rises &&& m, (s₁.inputsOf p).falls &&& m]
        portInputs := s₁.portInputs.set p
          { s₁.inputsOf p with rises := (s₁.inputsOf p).rises &&& ~~~m, falls := (s₁.inputsOf p).falls &&& ~~~m } })
    ∧ (body.length ≠ 1 → exec (.clearPending p mosi) s = .next (s₁.refused p period .clearPending tag crc [0x03])))
  ∧ ∀ (s s₁ : State) (p : Port) (mosi : List Byte) (tag crc : Byte) (body : List Byte) (period : Nat) (deadline : Tick),
    Takes s p mosi .readInputs tag crc body s₁ → (s₁.session p).state = .opened period deadline → s₁.phase ≠ .fault →
    (body ≠ [] → exec (.readInputs p mosi) s = .next (s₁.refused p period .readInputs tag crc [0x03]))
    ∧ (body = [] → ∃ used settled level sample run : InputMask,
      (∀ l, inMask used l = (s₁.input l).used)
      ∧ (∀ l, inMask settled l = ((s₁.input l).used && (s₁.filter l).accepted.isSome))
      ∧ (∀ l, inMask level l = ((s₁.input l).used && (s₁.filter l).accepted == some true))
      ∧ (∀ l, inMask sample l = ((s₁.input l).used && (s₁.filter l).lastSample == some true))
      ∧ (∀ l, inMask run l = ((s₁.input l).used && decide (0 < (s₁.filter l).runCount)))
      ∧ exec (.readInputs p mosi) s = .next
        { s₁ with
          sessions := s₁.renewedSessions p period
          ports := s₁.repliedPorts p 0x42 tag crc
            ([0x00] ++ tickBytes s₁.now ++ [used, settled, level, sample, run]
              ++ (List.finRange 8).map (fun l => BitVec.ofNat 8 (s₁.subscription p l).code)
              ++ [(s₁.inputsOf p).rises, (s₁.inputsOf p).falls]) })

/-! ### Reset -/

/-- RESET and RESET_END (R18, R166, R180): from any state, every block is at its reset value while the levels at the pins and
the waiting commands stay; every output pin is at Z, nothing is sent, data out is not driven and ATTN is released; after
RESET_END only the hold on reset is gone. While reset is held no clock, tick or transaction command acts: TRANSACTION_BEGIN and
a rise of chip select only move the pin, and every other command but RESET and RESET_END leaves the state as it is (log entry
23). At a port without a transaction a rise only leaves the pin high, and at a pin that is low there is no falling edge; so a
port whose chip select is low when reset ends stays IDLE until it rises. The model's own in this: that the pins and the waiting
commands are outside the device (log entry 6), and the reset of the tick that is due, the edges that are due and the steps
armed since the last tick (log entries 3, 4 and 5). -/
def Obligations.ResetRestoresEveryBlock : Prop :=
  (∀ s : State, ∃ t, exec .reset s = .next t
    ∧ t.inReset = true ∧ t.pending = s.pending ∧ t.pins = s.pins
    ∧ t.now = 0 ∧ t.phase = .setup
    ∧ t.clock = { source := .int, divider := 16, lossWindow := 64, prescaler := 0, gap := 0, microseconds := 0
                  present := true, tickDue := false }
    ∧ (∀ p, t.port p = { selected := (s.port p).selected, transfer := none, queue := [], cache := none, overrun := false
                         noticeLoss := false, sequence := 0 })
    ∧ (∀ p, t.session p = { state := .closed, watch := false })
    ∧ (∀ l, t.output l = { used := false, safe := false } ∧ t.owner l = none ∧ t.level l = .z ∧ t.pinLevel l = .z)
    ∧ (∀ l, t.input l = { used := true, filter := 0 }
        ∧ t.filter l = { accepted := none, runCount := 0, runStart := none, lastSample := none, edgeDue := false })
    ∧ (∀ k, t.pair k = { valid := false, a := 0, b := 0, guard := 0, hold := 0 }
        ∧ t.pairRuntime k = { fall := none, guard := none, deferred := none })
    ∧ t.quotas = { a := 21, b := 21, c := 22 }
    ∧ t.arbiter = { mode := .rotating, first := .a, second := .b, third := .c, pointer := .a }
    ∧ (∀ p, t.claim p = none) ∧ (∀ i, t.slot i = { generation := 0, step := none }) ∧ t.dueList = []
    ∧ (∀ l, t.armedList l = []) ∧ t.armedThisTick = []
    ∧ (∀ p, (∀ l, t.subscription p l = .none) ∧ (t.inputsOf p).rises = 0 ∧ (t.inputsOf p).falls = 0)
    ∧ (∀ p, t.dataOut p = none ∧ t.attention p = false)
    ∧ exec .resetEnd t = .next { t with inReset := false })
  ∧ (∀ (s : State) (p : Port), (s.inReset = true ∨ (s.port p).selected = true) →
    exec (.transactionBegin p) s = .next
      (if (s.port p).selected then s
      else { s with ports := s.ports.set p { s.port p with selected := true, transfer := none } }))
  ∧ (∀ (c : Instr) (s : State) (p : Port) (row : FrameRow) (mosi : List Byte), c.rise = some (p, row, mosi) →
    (s.inReset = true ∨ (s.port p).transfer = none) →
    exec c s = .next { s with ports := s.ports.set p { s.port p with selected := false } })
  ∧ ∀ (c : Instr) (s : State), s.inReset = true → c.rise = none → c ≠ .reset → c ≠ .resetEnd →
    (∀ p, c ≠ .transactionBegin p) → exec c s = .next s

/-! ### The laws of the whole device -/

/-- The queue law (R179): a port's outbound queue holds at most 16 entries, of which at most 15 are notices, whatever
command is taken. -/
def Obligations.EveryStepKeepsTheQueueLaw : Prop :=
  ∀ s t : State, QueueLaw s → step s = .next t → QueueLaw t

/-- The calendar law (R11): every occupied slot is in exactly one of the due list and the armed set, once, and a free slot in
neither, whatever command is taken. -/
def Obligations.EveryStepKeepsTheCalendarLaw : Prop :=
  ∀ s t : State, CalendarLaw s → step s = .next t → CalendarLaw t

/-- The law for ports without a session (R122) and the law of the pending latch (R137). -/
def Obligations.EveryStepKeepsTheSessionLaw : Prop :=
  ∀ s t : State, SessionLaw s → LatchLaw s → step s = .next t → SessionLaw t ∧ LatchLaw t

/-- Outside RUN nothing is owned, scheduled, waiting or deferred, and every used line stands at its safe level (R153); a step
names only lines that its owner owns (R15); a line with an owner is used (R90); no port's steps exceed its quota (R14); and the
arbiter's rank names each port once (R102, R155). -/
def Obligations.EveryStepKeepsTheOwnershipLaws : Prop :=
  ∀ s t : State, IdleLaw s → SafeLevelLaw s → StepLineLaw s → OwnerLaw s → QuotaLaw s → RankLaw s →
    step s = .next t → IdleLaw t ∧ SafeLevelLaw t ∧ StepLineLaw t ∧ OwnerLaw t ∧ QuotaLaw t ∧ RankLaw t

/-- The pair law (R84): the two lines of a valid pair are never both at 1; with it, what the configuration and the runtime
of the pairs keep, and that a deferred rise waits only while its partner is at 1 or a guard runs for its line. -/
def Obligations.EveryStepKeepsThePairLaw : Prop :=
  ∀ s t : State, IdleLaw s → LevelLaw s → PairConfigLaw s → PairRuntimeLaw s → WaitLaw s → PairLaw s →
    StepLineLaw s → OwnerLaw s → step s = .next t →
    LevelLaw t ∧ PairConfigLaw t ∧ PairRuntimeLaw t ∧ WaitLaw t ∧ PairLaw t

/-- The guard law (R73, R74, R85, R86): while the phase is RUN no line of a valid pair rises before the pair's guard has passed
since its partner's most recent fall. With it, what the runtime keeps: the guard that such a fall starts runs until its end,
and no guard and no fall record ends while the clock-presence flag is clear, in which no tick is due (chapter 9). That the ends
at NOW are taken before time moves on and before a loss is the model's choice (log entries 11 and 12). The most recent fall is
the one in the pair's fall record. Where a line that a direct drive raised while a guard ran for it falls, R73 lets its fall
replace that guard and the record of its partner's fall, and R85 would keep them; that R73 is followed is the model's choice
(log entry 30). -/
def Obligations.EveryStepKeepsTheGuardLaw : Prop :=
  ∀ s t : State, IdleLaw s → LevelLaw s → PairConfigLaw s → PairRuntimeLaw s → WaitLaw s → PairLaw s →
    StepLineLaw s → OwnerLaw s → ClockLaw s → GuardLaw s → FrozenLaw s → step s = .next t →
    GuardLaw t ∧ FrozenLaw t ∧ RiseLaw s t

/-- The horizon law (R54) and the order of the due list (R8): no due is more than 2^28 ticks ahead, the due list is ordered by
lead, across the wrap of NOW, and periods, run counts and delays stay in their ranges, so that a step that still stands has a run
left (R5, R46). That the firings at NOW are taken before time moves on is the model's choice (log
entry 11). -/
def Obligations.EveryStepKeepsTheHorizonLaw : Prop :=
  ∀ s t : State, IdleLaw s → StepLineLaw s → CalendarLaw s → ClockLaw s → HorizonLaw s → DueOrderLaw s → step s = .next t →
    HorizonLaw t ∧ DueOrderLaw t

/-- The counts of the timebase stay in their ranges, under INT and in RUN the clock-presence flag is set, and a tick is due only
under INT with the prescaler at 0, whatever command is taken (chapters 9 and 10). That a tick can be due is the model's own (log
entry 3). -/
def Obligations.EveryStepKeepsTheClockLaw : Prop :=
  ∀ s t : State, ClockLaw s → step s = .next t → ClockLaw t

/-- The state right after reset meets every law. -/
def Obligations.ResetMeetsTheLaws : Prop :=
  QueueLaw State.reset ∧ CalendarLaw State.reset ∧ SessionLaw State.reset ∧ LatchLaw State.reset ∧ IdleLaw State.reset
    ∧ StepLineLaw State.reset ∧ OwnerLaw State.reset ∧ QuotaLaw State.reset ∧ LevelLaw State.reset
    ∧ PairConfigLaw State.reset ∧ PairRuntimeLaw State.reset ∧ WaitLaw State.reset ∧ PairLaw State.reset
    ∧ HorizonLaw State.reset ∧ DueOrderLaw State.reset ∧ SafeLevelLaw State.reset ∧ ClockLaw State.reset
    ∧ GuardLaw State.reset ∧ FrozenLaw State.reset ∧ RankLaw State.reset
end

