-- ==== Sys2Proof/Laws/Tables.lean ====
section
/-! SUPPORT. Tables, masks, per-port values and enumerations: reading after writing, membership, and equality entry by
entry. -/

namespace Sys2Proof

/-! ### Tables -/

section
variable {α : Type} {n : Nat}

@[simp] theorem tget_tset (v : Vector α n) (i j : Fin n) (x : α) :
    tget (tset v i x) j = if j = i then x else tget v j := by
  by_cases h : j = i
  · subst h; simp [tget, tset]
  · have h' : i.val ≠ j.val := fun e => h (Fin.ext e.symm)
    simp [tget, tset, h, Vector.getElem_set_ne, h']

@[simp] theorem tget_table (f : Fin n → α) (i : Fin n) : tget (table f) i = f i := by
  simp [tget, table]

@[simp] theorem tget_replicate (x : α) (i : Fin n) : tget (Vector.replicate n x) i = x := by
  simp [tget]

/-- Two tables with the same entries are equal. -/
theorem table_ext {v w : Vector α n} (h : ∀ i, tget v i = tget w i) : v = w := by
  ext i hi
  exact h ⟨i, hi⟩

/-- A table is the table of its entries. -/
@[simp] theorem table_tget (v : Vector α n) : (table fun i => tget v i) = v :=
  table_ext fun i => by simp

@[simp] theorem tset_tset (v : Vector α n) (i : Fin n) (x y : α) : tset (tset v i x) i y = tset v i y :=
  table_ext fun j => by by_cases h : j = i <;> simp [h]

@[simp] theorem tset_tget (v : Vector α n) (i : Fin n) : tset v i (tget v i) = v :=
  table_ext fun j => by by_cases h : j = i <;> simp [h]

/-- Writes to two entries may be made in either order. -/
theorem tset_comm (v : Vector α n) {i j : Fin n} (x y : α) (h : i ≠ j) :
    tset (tset v i x) j y = tset (tset v j y) i x :=
  table_ext fun k => by
    by_cases hi : k = i <;> by_cases hj : k = j <;> simp_all

end

/-! ### Masks -/

section
variable {n : Nat}

@[simp] theorem inMask_maskOf (f : Fin n → Bool) (i : Fin n) : inMask (maskOf f) i = f i := by
  simp [inMask, maskOf]

@[simp] theorem inMask_zero (i : Fin n) : inMask (0#n) i = false := by simp [inMask]

@[simp] theorem inMask_or (a b : BitVec n) (i : Fin n) : inMask (a ||| b) i = (inMask a i || inMask b i) := by
  simp [inMask]

@[simp] theorem inMask_and (a b : BitVec n) (i : Fin n) : inMask (a &&& b) i = (inMask a i && inMask b i) := by
  simp [inMask]

@[simp] theorem inMask_not (a : BitVec n) (i : Fin n) : inMask (~~~a) i = !inMask a i := by
  simp [inMask]

/-- Two masks with the same members are equal. -/
theorem mask_ext {a b : BitVec n} (h : ∀ i, inMask a i = inMask b i) : a = b :=
  BitVec.eq_of_getLsbD_eq fun i hi => h ⟨i, hi⟩

/-- A mask without members is 0. -/
theorem mask_eq_zero {a : BitVec n} : a = 0 ↔ ∀ i, inMask a i = false :=
  ⟨fun h i => by simp [h], fun h => mask_ext fun i => by simp [h i]⟩

/-- A mask with a member is not 0. -/
theorem mask_ne_zero {a : BitVec n} : a ≠ 0 ↔ ∃ i, inMask a i = true := by
  rw [ne_eq, mask_eq_zero]
  simp

end

namespace Machine

/-! ### Per-port values -/

section
variable {α : Type}

@[simp] theorem PerPort.get_set (v : PerPort α) (p q : Port) (x : α) :
    (v.set p x).get q = if q = p then x else v.get q := by
  cases p <;> cases q <;> rfl

@[simp] theorem PerPort.get_all (x : α) (p : Port) : (PerPort.all x).get p = x := by cases p <;> rfl

@[simp] theorem PerPort.set_set (v : PerPort α) (p : Port) (x y : α) : (v.set p x).set p y = v.set p y := by
  cases p <;> rfl

@[simp] theorem PerPort.set_get (v : PerPort α) (p : Port) : v.set p (v.get p) = v := by cases p <;> rfl

/-- Writes for two ports may be made in either order. -/
theorem PerPort.set_comm (v : PerPort α) {p q : Port} (x y : α) (h : p ≠ q) :
    (v.set p x).set q y = (v.set q y).set p x := by
  cases p <;> cases q <;> first | rfl | exact absurd rfl h

/-- Two per-port values that agree at every port are equal. -/
theorem PerPort.ext_get {v w : PerPort α} (h : ∀ p, v.get p = w.get p) : v = w := by
  cases v; cases w
  have ha := h .a; have hb := h .b; have hc := h .c
  simp_all [PerPort.get]

end

/-! ### Enumerations -/

@[simp] theorem mem_everyPort (p : Port) : p ∈ everyPort := by cases p <;> simp [everyPort]
@[simp] theorem mem_everyBank (k : Bank) : k ∈ everyBank := by revert k; decide
@[simp] theorem mem_everyOutLine (l : OutLine) : l ∈ everyOutLine := List.mem_finRange l
@[simp] theorem mem_everyInLine (l : InLine) : l ∈ everyInLine := List.mem_finRange l
@[simp] theorem mem_everyPosition (i : Position) : i ∈ everyPosition := List.mem_finRange i
@[simp] theorem mem_everyPair (k : PairIndex) : k ∈ everyPair := List.mem_finRange k
@[simp] theorem mem_everySlot (i : SlotIndex) : i ∈ everySlot := List.mem_finRange i

@[simp] theorem mem_otherPorts (p q : Port) : q ∈ otherPorts p ↔ q ≠ p := by
  cases p <;> cases q <;> simp [otherPorts, everyPort]

/-- Every line is at one position of one bank. -/
theorem lineAt_surjective (l : OutLine) : ∃ k i, lineAt k i = l :=
  ⟨⟨l.val / 8, by omega⟩, ⟨l.val % 8, by omega⟩, Fin.ext (by simp [lineAt]; omega)⟩

/-- Two positions of two banks are two lines. -/
theorem lineAt_inj {k k' : Bank} {i i' : Position} : lineAt k i = lineAt k' i' ↔ k = k' ∧ i = i' := by
  constructor
  · intro h
    have h' := congrArg Fin.val h
    simp only [lineAt] at h'
    exact ⟨Fin.ext (by omega), Fin.ext (by omega)⟩
  · rintro ⟨rfl, rfl⟩; rfl

@[simp] theorem inMask_bankPart (m : LineMask) (k : Bank) (i : Position) :
    inMask (bankPart m k) i = inMask m (lineAt k i) := inMask_maskOf _ i

@[simp] theorem inMask_lineSet (f : OutLine → Bool) (l : OutLine) : inMask (lineSet f) l = f l := inMask_maskOf f l

@[simp] theorem inMask_ownedMask (s : State) (p : Port) (l : OutLine) :
    inMask (s.ownedMask p) l = (s.owner l == some p) := inMask_lineSet _ l

@[simp] theorem inMask_usedMask (s : State) (l : OutLine) : inMask s.usedMask l = (s.output l).used := inMask_lineSet _ l

end Machine

end Sys2Proof
end

