-- ==== Sys2Proof/Laws/State.lean ====
section
/-! SUPPORT. The state's updates, field by field: what each update writes and what it leaves, and the same of the readers
of Flags.lean. Every proof is rfl or one table lemma. -/

namespace Sys2Proof.Machine


/-! ### withNow -/

section
variable (s : State) (t : Tick)

@[simp] theorem State.withNow_pending : (s.withNow t).pending = s.pending := rfl
@[simp] theorem State.withNow_inReset : (s.withNow t).inReset = s.inReset := rfl
@[simp] theorem State.withNow_pins : (s.withNow t).pins = s.pins := rfl
@[simp] theorem State.withNow_now : (s.withNow t).now = t := rfl
@[simp] theorem State.withNow_clock : (s.withNow t).clock = s.clock := rfl
@[simp] theorem State.withNow_phase : (s.withNow t).phase = s.phase := rfl
@[simp] theorem State.withNow_ports : (s.withNow t).ports = s.ports := rfl
@[simp] theorem State.withNow_sessions : (s.withNow t).sessions = s.sessions := rfl
@[simp] theorem State.withNow_outputs : (s.withNow t).outputs = s.outputs := rfl
@[simp] theorem State.withNow_inputs : (s.withNow t).inputs = s.inputs := rfl
@[simp] theorem State.withNow_pairs : (s.withNow t).pairs = s.pairs := rfl
@[simp] theorem State.withNow_quotas : (s.withNow t).quotas = s.quotas := rfl
@[simp] theorem State.withNow_arbiter : (s.withNow t).arbiter = s.arbiter := rfl
@[simp] theorem State.withNow_owners : (s.withNow t).owners = s.owners := rfl
@[simp] theorem State.withNow_latch : (s.withNow t).latch = s.latch := rfl
@[simp] theorem State.withNow_runtime : (s.withNow t).runtime = s.runtime := rfl
@[simp] theorem State.withNow_claims : (s.withNow t).claims = s.claims := rfl
@[simp] theorem State.withNow_slots : (s.withNow t).slots = s.slots := rfl
@[simp] theorem State.withNow_dueList : (s.withNow t).dueList = s.dueList := rfl
@[simp] theorem State.withNow_armedSet : (s.withNow t).armedSet = s.armedSet := rfl
@[simp] theorem State.withNow_armedThisTick : (s.withNow t).armedThisTick = s.armedThisTick := rfl
@[simp] theorem State.withNow_filters : (s.withNow t).filters = s.filters := rfl
@[simp] theorem State.withNow_portInputs : (s.withNow t).portInputs = s.portInputs := rfl
@[simp] theorem State.withNow_port (q : Port) : (s.withNow t).port q = s.port q := rfl
@[simp] theorem State.withNow_session (q : Port) : (s.withNow t).session q = s.session q := rfl
@[simp] theorem State.withNow_output (j : OutLine) : (s.withNow t).output j = s.output j := rfl
@[simp] theorem State.withNow_input (j : InLine) : (s.withNow t).input j = s.input j := rfl
@[simp] theorem State.withNow_pair (j : PairIndex) : (s.withNow t).pair j = s.pair j := rfl
@[simp] theorem State.withNow_quota (q : Port) : (s.withNow t).quota q = s.quota q := rfl
@[simp] theorem State.withNow_owner (j : OutLine) : (s.withNow t).owner j = s.owner j := rfl
@[simp] theorem State.withNow_level (j : OutLine) : (s.withNow t).level j = s.level j := rfl
@[simp] theorem State.withNow_pairRuntime (j : PairIndex) : (s.withNow t).pairRuntime j = s.pairRuntime j := rfl
@[simp] theorem State.withNow_claim (q : Port) : (s.withNow t).claim q = s.claim q := rfl
@[simp] theorem State.withNow_slot (j : SlotIndex) : (s.withNow t).slot j = s.slot j := rfl
@[simp] theorem State.withNow_step (j : SlotIndex) : (s.withNow t).step j = s.step j := rfl
@[simp] theorem State.withNow_armedList (j : InLine) : (s.withNow t).armedList j = s.armedList j := rfl
@[simp] theorem State.withNow_filter (j : InLine) : (s.withNow t).filter j = s.filter j := rfl
@[simp] theorem State.withNow_inputsOf (q : Port) : (s.withNow t).inputsOf q = s.inputsOf q := rfl

end


/-! ### withClock -/

section
variable (s : State) (c : Clock)

@[simp] theorem State.withClock_pending : (s.withClock c).pending = s.pending := rfl
@[simp] theorem State.withClock_inReset : (s.withClock c).inReset = s.inReset := rfl
@[simp] theorem State.withClock_pins : (s.withClock c).pins = s.pins := rfl
@[simp] theorem State.withClock_now : (s.withClock c).now = s.now := rfl
@[simp] theorem State.withClock_clock : (s.withClock c).clock = c := rfl
@[simp] theorem State.withClock_phase : (s.withClock c).phase = s.phase := rfl
@[simp] theorem State.withClock_ports : (s.withClock c).ports = s.ports := rfl
@[simp] theorem State.withClock_sessions : (s.withClock c).sessions = s.sessions := rfl
@[simp] theorem State.withClock_outputs : (s.withClock c).outputs = s.outputs := rfl
@[simp] theorem State.withClock_inputs : (s.withClock c).inputs = s.inputs := rfl
@[simp] theorem State.withClock_pairs : (s.withClock c).pairs = s.pairs := rfl
@[simp] theorem State.withClock_quotas : (s.withClock c).quotas = s.quotas := rfl
@[simp] theorem State.withClock_arbiter : (s.withClock c).arbiter = s.arbiter := rfl
@[simp] theorem State.withClock_owners : (s.withClock c).owners = s.owners := rfl
@[simp] theorem State.withClock_latch : (s.withClock c).latch = s.latch := rfl
@[simp] theorem State.withClock_runtime : (s.withClock c).runtime = s.runtime := rfl
@[simp] theorem State.withClock_claims : (s.withClock c).claims = s.claims := rfl
@[simp] theorem State.withClock_slots : (s.withClock c).slots = s.slots := rfl
@[simp] theorem State.withClock_dueList : (s.withClock c).dueList = s.dueList := rfl
@[simp] theorem State.withClock_armedSet : (s.withClock c).armedSet = s.armedSet := rfl
@[simp] theorem State.withClock_armedThisTick : (s.withClock c).armedThisTick = s.armedThisTick := rfl
@[simp] theorem State.withClock_filters : (s.withClock c).filters = s.filters := rfl
@[simp] theorem State.withClock_portInputs : (s.withClock c).portInputs = s.portInputs := rfl
@[simp] theorem State.withClock_port (q : Port) : (s.withClock c).port q = s.port q := rfl
@[simp] theorem State.withClock_session (q : Port) : (s.withClock c).session q = s.session q := rfl
@[simp] theorem State.withClock_output (j : OutLine) : (s.withClock c).output j = s.output j := rfl
@[simp] theorem State.withClock_input (j : InLine) : (s.withClock c).input j = s.input j := rfl
@[simp] theorem State.withClock_pair (j : PairIndex) : (s.withClock c).pair j = s.pair j := rfl
@[simp] theorem State.withClock_quota (q : Port) : (s.withClock c).quota q = s.quota q := rfl
@[simp] theorem State.withClock_owner (j : OutLine) : (s.withClock c).owner j = s.owner j := rfl
@[simp] theorem State.withClock_level (j : OutLine) : (s.withClock c).level j = s.level j := rfl
@[simp] theorem State.withClock_pairRuntime (j : PairIndex) : (s.withClock c).pairRuntime j = s.pairRuntime j := rfl
@[simp] theorem State.withClock_claim (q : Port) : (s.withClock c).claim q = s.claim q := rfl
@[simp] theorem State.withClock_slot (j : SlotIndex) : (s.withClock c).slot j = s.slot j := rfl
@[simp] theorem State.withClock_step (j : SlotIndex) : (s.withClock c).step j = s.step j := rfl
@[simp] theorem State.withClock_armedList (j : InLine) : (s.withClock c).armedList j = s.armedList j := rfl
@[simp] theorem State.withClock_filter (j : InLine) : (s.withClock c).filter j = s.filter j := rfl
@[simp] theorem State.withClock_inputsOf (q : Port) : (s.withClock c).inputsOf q = s.inputsOf q := rfl

end


/-! ### withPhase -/

section
variable (s : State) (f : Phase)

@[simp] theorem State.withPhase_pending : (s.withPhase f).pending = s.pending := rfl
@[simp] theorem State.withPhase_inReset : (s.withPhase f).inReset = s.inReset := rfl
@[simp] theorem State.withPhase_pins : (s.withPhase f).pins = s.pins := rfl
@[simp] theorem State.withPhase_now : (s.withPhase f).now = s.now := rfl
@[simp] theorem State.withPhase_clock : (s.withPhase f).clock = s.clock := rfl
@[simp] theorem State.withPhase_phase : (s.withPhase f).phase = f := rfl
@[simp] theorem State.withPhase_ports : (s.withPhase f).ports = s.ports := rfl
@[simp] theorem State.withPhase_sessions : (s.withPhase f).sessions = s.sessions := rfl
@[simp] theorem State.withPhase_outputs : (s.withPhase f).outputs = s.outputs := rfl
@[simp] theorem State.withPhase_inputs : (s.withPhase f).inputs = s.inputs := rfl
@[simp] theorem State.withPhase_pairs : (s.withPhase f).pairs = s.pairs := rfl
@[simp] theorem State.withPhase_quotas : (s.withPhase f).quotas = s.quotas := rfl
@[simp] theorem State.withPhase_arbiter : (s.withPhase f).arbiter = s.arbiter := rfl
@[simp] theorem State.withPhase_owners : (s.withPhase f).owners = s.owners := rfl
@[simp] theorem State.withPhase_latch : (s.withPhase f).latch = s.latch := rfl
@[simp] theorem State.withPhase_runtime : (s.withPhase f).runtime = s.runtime := rfl
@[simp] theorem State.withPhase_claims : (s.withPhase f).claims = s.claims := rfl
@[simp] theorem State.withPhase_slots : (s.withPhase f).slots = s.slots := rfl
@[simp] theorem State.withPhase_dueList : (s.withPhase f).dueList = s.dueList := rfl
@[simp] theorem State.withPhase_armedSet : (s.withPhase f).armedSet = s.armedSet := rfl
@[simp] theorem State.withPhase_armedThisTick : (s.withPhase f).armedThisTick = s.armedThisTick := rfl
@[simp] theorem State.withPhase_filters : (s.withPhase f).filters = s.filters := rfl
@[simp] theorem State.withPhase_portInputs : (s.withPhase f).portInputs = s.portInputs := rfl
@[simp] theorem State.withPhase_port (q : Port) : (s.withPhase f).port q = s.port q := rfl
@[simp] theorem State.withPhase_session (q : Port) : (s.withPhase f).session q = s.session q := rfl
@[simp] theorem State.withPhase_output (j : OutLine) : (s.withPhase f).output j = s.output j := rfl
@[simp] theorem State.withPhase_input (j : InLine) : (s.withPhase f).input j = s.input j := rfl
@[simp] theorem State.withPhase_pair (j : PairIndex) : (s.withPhase f).pair j = s.pair j := rfl
@[simp] theorem State.withPhase_quota (q : Port) : (s.withPhase f).quota q = s.quota q := rfl
@[simp] theorem State.withPhase_owner (j : OutLine) : (s.withPhase f).owner j = s.owner j := rfl
@[simp] theorem State.withPhase_level (j : OutLine) : (s.withPhase f).level j = s.level j := rfl
@[simp] theorem State.withPhase_pairRuntime (j : PairIndex) : (s.withPhase f).pairRuntime j = s.pairRuntime j := rfl
@[simp] theorem State.withPhase_claim (q : Port) : (s.withPhase f).claim q = s.claim q := rfl
@[simp] theorem State.withPhase_slot (j : SlotIndex) : (s.withPhase f).slot j = s.slot j := rfl
@[simp] theorem State.withPhase_step (j : SlotIndex) : (s.withPhase f).step j = s.step j := rfl
@[simp] theorem State.withPhase_armedList (j : InLine) : (s.withPhase f).armedList j = s.armedList j := rfl
@[simp] theorem State.withPhase_filter (j : InLine) : (s.withPhase f).filter j = s.filter j := rfl
@[simp] theorem State.withPhase_inputsOf (q : Port) : (s.withPhase f).inputsOf q = s.inputsOf q := rfl

end


/-! ### withPins -/

section
variable (s : State) (m : InputMask)

@[simp] theorem State.withPins_pending : (s.withPins m).pending = s.pending := rfl
@[simp] theorem State.withPins_inReset : (s.withPins m).inReset = s.inReset := rfl
@[simp] theorem State.withPins_pins : (s.withPins m).pins = m := rfl
@[simp] theorem State.withPins_now : (s.withPins m).now = s.now := rfl
@[simp] theorem State.withPins_clock : (s.withPins m).clock = s.clock := rfl
@[simp] theorem State.withPins_phase : (s.withPins m).phase = s.phase := rfl
@[simp] theorem State.withPins_ports : (s.withPins m).ports = s.ports := rfl
@[simp] theorem State.withPins_sessions : (s.withPins m).sessions = s.sessions := rfl
@[simp] theorem State.withPins_outputs : (s.withPins m).outputs = s.outputs := rfl
@[simp] theorem State.withPins_inputs : (s.withPins m).inputs = s.inputs := rfl
@[simp] theorem State.withPins_pairs : (s.withPins m).pairs = s.pairs := rfl
@[simp] theorem State.withPins_quotas : (s.withPins m).quotas = s.quotas := rfl
@[simp] theorem State.withPins_arbiter : (s.withPins m).arbiter = s.arbiter := rfl
@[simp] theorem State.withPins_owners : (s.withPins m).owners = s.owners := rfl
@[simp] theorem State.withPins_latch : (s.withPins m).latch = s.latch := rfl
@[simp] theorem State.withPins_runtime : (s.withPins m).runtime = s.runtime := rfl
@[simp] theorem State.withPins_claims : (s.withPins m).claims = s.claims := rfl
@[simp] theorem State.withPins_slots : (s.withPins m).slots = s.slots := rfl
@[simp] theorem State.withPins_dueList : (s.withPins m).dueList = s.dueList := rfl
@[simp] theorem State.withPins_armedSet : (s.withPins m).armedSet = s.armedSet := rfl
@[simp] theorem State.withPins_armedThisTick : (s.withPins m).armedThisTick = s.armedThisTick := rfl
@[simp] theorem State.withPins_filters : (s.withPins m).filters = s.filters := rfl
@[simp] theorem State.withPins_portInputs : (s.withPins m).portInputs = s.portInputs := rfl
@[simp] theorem State.withPins_port (q : Port) : (s.withPins m).port q = s.port q := rfl
@[simp] theorem State.withPins_session (q : Port) : (s.withPins m).session q = s.session q := rfl
@[simp] theorem State.withPins_output (j : OutLine) : (s.withPins m).output j = s.output j := rfl
@[simp] theorem State.withPins_input (j : InLine) : (s.withPins m).input j = s.input j := rfl
@[simp] theorem State.withPins_pair (j : PairIndex) : (s.withPins m).pair j = s.pair j := rfl
@[simp] theorem State.withPins_quota (q : Port) : (s.withPins m).quota q = s.quota q := rfl
@[simp] theorem State.withPins_owner (j : OutLine) : (s.withPins m).owner j = s.owner j := rfl
@[simp] theorem State.withPins_level (j : OutLine) : (s.withPins m).level j = s.level j := rfl
@[simp] theorem State.withPins_pairRuntime (j : PairIndex) : (s.withPins m).pairRuntime j = s.pairRuntime j := rfl
@[simp] theorem State.withPins_claim (q : Port) : (s.withPins m).claim q = s.claim q := rfl
@[simp] theorem State.withPins_slot (j : SlotIndex) : (s.withPins m).slot j = s.slot j := rfl
@[simp] theorem State.withPins_step (j : SlotIndex) : (s.withPins m).step j = s.step j := rfl
@[simp] theorem State.withPins_armedList (j : InLine) : (s.withPins m).armedList j = s.armedList j := rfl
@[simp] theorem State.withPins_filter (j : InLine) : (s.withPins m).filter j = s.filter j := rfl
@[simp] theorem State.withPins_inputsOf (q : Port) : (s.withPins m).inputsOf q = s.inputsOf q := rfl

end


/-! ### withPort -/

section
variable (s : State) (p : Port) (h : HostPort)

@[simp] theorem State.withPort_pending : (s.withPort p h).pending = s.pending := rfl
@[simp] theorem State.withPort_inReset : (s.withPort p h).inReset = s.inReset := rfl
@[simp] theorem State.withPort_pins : (s.withPort p h).pins = s.pins := rfl
@[simp] theorem State.withPort_now : (s.withPort p h).now = s.now := rfl
@[simp] theorem State.withPort_clock : (s.withPort p h).clock = s.clock := rfl
@[simp] theorem State.withPort_phase : (s.withPort p h).phase = s.phase := rfl
@[simp] theorem State.withPort_ports : (s.withPort p h).ports = s.ports.set p h := rfl
@[simp] theorem State.withPort_sessions : (s.withPort p h).sessions = s.sessions := rfl
@[simp] theorem State.withPort_outputs : (s.withPort p h).outputs = s.outputs := rfl
@[simp] theorem State.withPort_inputs : (s.withPort p h).inputs = s.inputs := rfl
@[simp] theorem State.withPort_pairs : (s.withPort p h).pairs = s.pairs := rfl
@[simp] theorem State.withPort_quotas : (s.withPort p h).quotas = s.quotas := rfl
@[simp] theorem State.withPort_arbiter : (s.withPort p h).arbiter = s.arbiter := rfl
@[simp] theorem State.withPort_owners : (s.withPort p h).owners = s.owners := rfl
@[simp] theorem State.withPort_latch : (s.withPort p h).latch = s.latch := rfl
@[simp] theorem State.withPort_runtime : (s.withPort p h).runtime = s.runtime := rfl
@[simp] theorem State.withPort_claims : (s.withPort p h).claims = s.claims := rfl
@[simp] theorem State.withPort_slots : (s.withPort p h).slots = s.slots := rfl
@[simp] theorem State.withPort_dueList : (s.withPort p h).dueList = s.dueList := rfl
@[simp] theorem State.withPort_armedSet : (s.withPort p h).armedSet = s.armedSet := rfl
@[simp] theorem State.withPort_armedThisTick : (s.withPort p h).armedThisTick = s.armedThisTick := rfl
@[simp] theorem State.withPort_filters : (s.withPort p h).filters = s.filters := rfl
@[simp] theorem State.withPort_portInputs : (s.withPort p h).portInputs = s.portInputs := rfl
@[simp] theorem State.withPort_session (q : Port) : (s.withPort p h).session q = s.session q := rfl
@[simp] theorem State.withPort_output (j : OutLine) : (s.withPort p h).output j = s.output j := rfl
@[simp] theorem State.withPort_input (j : InLine) : (s.withPort p h).input j = s.input j := rfl
@[simp] theorem State.withPort_pair (j : PairIndex) : (s.withPort p h).pair j = s.pair j := rfl
@[simp] theorem State.withPort_quota (q : Port) : (s.withPort p h).quota q = s.quota q := rfl
@[simp] theorem State.withPort_owner (j : OutLine) : (s.withPort p h).owner j = s.owner j := rfl
@[simp] theorem State.withPort_level (j : OutLine) : (s.withPort p h).level j = s.level j := rfl
@[simp] theorem State.withPort_pairRuntime (j : PairIndex) : (s.withPort p h).pairRuntime j = s.pairRuntime j := rfl
@[simp] theorem State.withPort_claim (q : Port) : (s.withPort p h).claim q = s.claim q := rfl
@[simp] theorem State.withPort_slot (j : SlotIndex) : (s.withPort p h).slot j = s.slot j := rfl
@[simp] theorem State.withPort_step (j : SlotIndex) : (s.withPort p h).step j = s.step j := rfl
@[simp] theorem State.withPort_armedList (j : InLine) : (s.withPort p h).armedList j = s.armedList j := rfl
@[simp] theorem State.withPort_filter (j : InLine) : (s.withPort p h).filter j = s.filter j := rfl
@[simp] theorem State.withPort_inputsOf (q : Port) : (s.withPort p h).inputsOf q = s.inputsOf q := rfl

end


/-! ### withSession -/

section
variable (s : State) (p : Port) (x : Session)

@[simp] theorem State.withSession_pending : (s.withSession p x).pending = s.pending := rfl
@[simp] theorem State.withSession_inReset : (s.withSession p x).inReset = s.inReset := rfl
@[simp] theorem State.withSession_pins : (s.withSession p x).pins = s.pins := rfl
@[simp] theorem State.withSession_now : (s.withSession p x).now = s.now := rfl
@[simp] theorem State.withSession_clock : (s.withSession p x).clock = s.clock := rfl
@[simp] theorem State.withSession_phase : (s.withSession p x).phase = s.phase := rfl
@[simp] theorem State.withSession_ports : (s.withSession p x).ports = s.ports := rfl
@[simp] theorem State.withSession_sessions : (s.withSession p x).sessions = s.sessions.set p x := rfl
@[simp] theorem State.withSession_outputs : (s.withSession p x).outputs = s.outputs := rfl
@[simp] theorem State.withSession_inputs : (s.withSession p x).inputs = s.inputs := rfl
@[simp] theorem State.withSession_pairs : (s.withSession p x).pairs = s.pairs := rfl
@[simp] theorem State.withSession_quotas : (s.withSession p x).quotas = s.quotas := rfl
@[simp] theorem State.withSession_arbiter : (s.withSession p x).arbiter = s.arbiter := rfl
@[simp] theorem State.withSession_owners : (s.withSession p x).owners = s.owners := rfl
@[simp] theorem State.withSession_latch : (s.withSession p x).latch = s.latch := rfl
@[simp] theorem State.withSession_runtime : (s.withSession p x).runtime = s.runtime := rfl
@[simp] theorem State.withSession_claims : (s.withSession p x).claims = s.claims := rfl
@[simp] theorem State.withSession_slots : (s.withSession p x).slots = s.slots := rfl
@[simp] theorem State.withSession_dueList : (s.withSession p x).dueList = s.dueList := rfl
@[simp] theorem State.withSession_armedSet : (s.withSession p x).armedSet = s.armedSet := rfl
@[simp] theorem State.withSession_armedThisTick : (s.withSession p x).armedThisTick = s.armedThisTick := rfl
@[simp] theorem State.withSession_filters : (s.withSession p x).filters = s.filters := rfl
@[simp] theorem State.withSession_portInputs : (s.withSession p x).portInputs = s.portInputs := rfl
@[simp] theorem State.withSession_port (q : Port) : (s.withSession p x).port q = s.port q := rfl
@[simp] theorem State.withSession_output (j : OutLine) : (s.withSession p x).output j = s.output j := rfl
@[simp] theorem State.withSession_input (j : InLine) : (s.withSession p x).input j = s.input j := rfl
@[simp] theorem State.withSession_pair (j : PairIndex) : (s.withSession p x).pair j = s.pair j := rfl
@[simp] theorem State.withSession_quota (q : Port) : (s.withSession p x).quota q = s.quota q := rfl
@[simp] theorem State.withSession_owner (j : OutLine) : (s.withSession p x).owner j = s.owner j := rfl
@[simp] theorem State.withSession_level (j : OutLine) : (s.withSession p x).level j = s.level j := rfl
@[simp] theorem State.withSession_pairRuntime (j : PairIndex) : (s.withSession p x).pairRuntime j = s.pairRuntime j := rfl
@[simp] theorem State.withSession_claim (q : Port) : (s.withSession p x).claim q = s.claim q := rfl
@[simp] theorem State.withSession_slot (j : SlotIndex) : (s.withSession p x).slot j = s.slot j := rfl
@[simp] theorem State.withSession_step (j : SlotIndex) : (s.withSession p x).step j = s.step j := rfl
@[simp] theorem State.withSession_armedList (j : InLine) : (s.withSession p x).armedList j = s.armedList j := rfl
@[simp] theorem State.withSession_filter (j : InLine) : (s.withSession p x).filter j = s.filter j := rfl
@[simp] theorem State.withSession_inputsOf (q : Port) : (s.withSession p x).inputsOf q = s.inputsOf q := rfl

end


/-! ### withOutput -/

section
variable (s : State) (l : OutLine) (c : OutputConfig)

@[simp] theorem State.withOutput_pending : (s.withOutput l c).pending = s.pending := rfl
@[simp] theorem State.withOutput_inReset : (s.withOutput l c).inReset = s.inReset := rfl
@[simp] theorem State.withOutput_pins : (s.withOutput l c).pins = s.pins := rfl
@[simp] theorem State.withOutput_now : (s.withOutput l c).now = s.now := rfl
@[simp] theorem State.withOutput_clock : (s.withOutput l c).clock = s.clock := rfl
@[simp] theorem State.withOutput_phase : (s.withOutput l c).phase = s.phase := rfl
@[simp] theorem State.withOutput_ports : (s.withOutput l c).ports = s.ports := rfl
@[simp] theorem State.withOutput_sessions : (s.withOutput l c).sessions = s.sessions := rfl
@[simp] theorem State.withOutput_outputs : (s.withOutput l c).outputs = tset s.outputs l c := rfl
@[simp] theorem State.withOutput_inputs : (s.withOutput l c).inputs = s.inputs := rfl
@[simp] theorem State.withOutput_pairs : (s.withOutput l c).pairs = s.pairs := rfl
@[simp] theorem State.withOutput_quotas : (s.withOutput l c).quotas = s.quotas := rfl
@[simp] theorem State.withOutput_arbiter : (s.withOutput l c).arbiter = s.arbiter := rfl
@[simp] theorem State.withOutput_owners : (s.withOutput l c).owners = s.owners := rfl
@[simp] theorem State.withOutput_latch : (s.withOutput l c).latch = s.latch := rfl
@[simp] theorem State.withOutput_runtime : (s.withOutput l c).runtime = s.runtime := rfl
@[simp] theorem State.withOutput_claims : (s.withOutput l c).claims = s.claims := rfl
@[simp] theorem State.withOutput_slots : (s.withOutput l c).slots = s.slots := rfl
@[simp] theorem State.withOutput_dueList : (s.withOutput l c).dueList = s.dueList := rfl
@[simp] theorem State.withOutput_armedSet : (s.withOutput l c).armedSet = s.armedSet := rfl
@[simp] theorem State.withOutput_armedThisTick : (s.withOutput l c).armedThisTick = s.armedThisTick := rfl
@[simp] theorem State.withOutput_filters : (s.withOutput l c).filters = s.filters := rfl
@[simp] theorem State.withOutput_portInputs : (s.withOutput l c).portInputs = s.portInputs := rfl
@[simp] theorem State.withOutput_port (q : Port) : (s.withOutput l c).port q = s.port q := rfl
@[simp] theorem State.withOutput_session (q : Port) : (s.withOutput l c).session q = s.session q := rfl
@[simp] theorem State.withOutput_input (j : InLine) : (s.withOutput l c).input j = s.input j := rfl
@[simp] theorem State.withOutput_pair (j : PairIndex) : (s.withOutput l c).pair j = s.pair j := rfl
@[simp] theorem State.withOutput_quota (q : Port) : (s.withOutput l c).quota q = s.quota q := rfl
@[simp] theorem State.withOutput_owner (j : OutLine) : (s.withOutput l c).owner j = s.owner j := rfl
@[simp] theorem State.withOutput_level (j : OutLine) : (s.withOutput l c).level j = s.level j := rfl
@[simp] theorem State.withOutput_pairRuntime (j : PairIndex) : (s.withOutput l c).pairRuntime j = s.pairRuntime j := rfl
@[simp] theorem State.withOutput_claim (q : Port) : (s.withOutput l c).claim q = s.claim q := rfl
@[simp] theorem State.withOutput_slot (j : SlotIndex) : (s.withOutput l c).slot j = s.slot j := rfl
@[simp] theorem State.withOutput_step (j : SlotIndex) : (s.withOutput l c).step j = s.step j := rfl
@[simp] theorem State.withOutput_armedList (j : InLine) : (s.withOutput l c).armedList j = s.armedList j := rfl
@[simp] theorem State.withOutput_filter (j : InLine) : (s.withOutput l c).filter j = s.filter j := rfl
@[simp] theorem State.withOutput_inputsOf (q : Port) : (s.withOutput l c).inputsOf q = s.inputsOf q := rfl

end


/-! ### withInput -/

section
variable (s : State) (l : InLine) (c : InputConfig)

@[simp] theorem State.withInput_pending : (s.withInput l c).pending = s.pending := rfl
@[simp] theorem State.withInput_inReset : (s.withInput l c).inReset = s.inReset := rfl
@[simp] theorem State.withInput_pins : (s.withInput l c).pins = s.pins := rfl
@[simp] theorem State.withInput_now : (s.withInput l c).now = s.now := rfl
@[simp] theorem State.withInput_clock : (s.withInput l c).clock = s.clock := rfl
@[simp] theorem State.withInput_phase : (s.withInput l c).phase = s.phase := rfl
@[simp] theorem State.withInput_ports : (s.withInput l c).ports = s.ports := rfl
@[simp] theorem State.withInput_sessions : (s.withInput l c).sessions = s.sessions := rfl
@[simp] theorem State.withInput_outputs : (s.withInput l c).outputs = s.outputs := rfl
@[simp] theorem State.withInput_inputs : (s.withInput l c).inputs = tset s.inputs l c := rfl
@[simp] theorem State.withInput_pairs : (s.withInput l c).pairs = s.pairs := rfl
@[simp] theorem State.withInput_quotas : (s.withInput l c).quotas = s.quotas := rfl
@[simp] theorem State.withInput_arbiter : (s.withInput l c).arbiter = s.arbiter := rfl
@[simp] theorem State.withInput_owners : (s.withInput l c).owners = s.owners := rfl
@[simp] theorem State.withInput_latch : (s.withInput l c).latch = s.latch := rfl
@[simp] theorem State.withInput_runtime : (s.withInput l c).runtime = s.runtime := rfl
@[simp] theorem State.withInput_claims : (s.withInput l c).claims = s.claims := rfl
@[simp] theorem State.withInput_slots : (s.withInput l c).slots = s.slots := rfl
@[simp] theorem State.withInput_dueList : (s.withInput l c).dueList = s.dueList := rfl
@[simp] theorem State.withInput_armedSet : (s.withInput l c).armedSet = s.armedSet := rfl
@[simp] theorem State.withInput_armedThisTick : (s.withInput l c).armedThisTick = s.armedThisTick := rfl
@[simp] theorem State.withInput_filters : (s.withInput l c).filters = s.filters := rfl
@[simp] theorem State.withInput_portInputs : (s.withInput l c).portInputs = s.portInputs := rfl
@[simp] theorem State.withInput_port (q : Port) : (s.withInput l c).port q = s.port q := rfl
@[simp] theorem State.withInput_session (q : Port) : (s.withInput l c).session q = s.session q := rfl
@[simp] theorem State.withInput_output (j : OutLine) : (s.withInput l c).output j = s.output j := rfl
@[simp] theorem State.withInput_pair (j : PairIndex) : (s.withInput l c).pair j = s.pair j := rfl
@[simp] theorem State.withInput_quota (q : Port) : (s.withInput l c).quota q = s.quota q := rfl
@[simp] theorem State.withInput_owner (j : OutLine) : (s.withInput l c).owner j = s.owner j := rfl
@[simp] theorem State.withInput_level (j : OutLine) : (s.withInput l c).level j = s.level j := rfl
@[simp] theorem State.withInput_pairRuntime (j : PairIndex) : (s.withInput l c).pairRuntime j = s.pairRuntime j := rfl
@[simp] theorem State.withInput_claim (q : Port) : (s.withInput l c).claim q = s.claim q := rfl
@[simp] theorem State.withInput_slot (j : SlotIndex) : (s.withInput l c).slot j = s.slot j := rfl
@[simp] theorem State.withInput_step (j : SlotIndex) : (s.withInput l c).step j = s.step j := rfl
@[simp] theorem State.withInput_armedList (j : InLine) : (s.withInput l c).armedList j = s.armedList j := rfl
@[simp] theorem State.withInput_filter (j : InLine) : (s.withInput l c).filter j = s.filter j := rfl
@[simp] theorem State.withInput_inputsOf (q : Port) : (s.withInput l c).inputsOf q = s.inputsOf q := rfl

end


/-! ### withPair -/

section
variable (s : State) (k : PairIndex) (c : PairConfig)

@[simp] theorem State.withPair_pending : (s.withPair k c).pending = s.pending := rfl
@[simp] theorem State.withPair_inReset : (s.withPair k c).inReset = s.inReset := rfl
@[simp] theorem State.withPair_pins : (s.withPair k c).pins = s.pins := rfl
@[simp] theorem State.withPair_now : (s.withPair k c).now = s.now := rfl
@[simp] theorem State.withPair_clock : (s.withPair k c).clock = s.clock := rfl
@[simp] theorem State.withPair_phase : (s.withPair k c).phase = s.phase := rfl
@[simp] theorem State.withPair_ports : (s.withPair k c).ports = s.ports := rfl
@[simp] theorem State.withPair_sessions : (s.withPair k c).sessions = s.sessions := rfl
@[simp] theorem State.withPair_outputs : (s.withPair k c).outputs = s.outputs := rfl
@[simp] theorem State.withPair_inputs : (s.withPair k c).inputs = s.inputs := rfl
@[simp] theorem State.withPair_pairs : (s.withPair k c).pairs = tset s.pairs k c := rfl
@[simp] theorem State.withPair_quotas : (s.withPair k c).quotas = s.quotas := rfl
@[simp] theorem State.withPair_arbiter : (s.withPair k c).arbiter = s.arbiter := rfl
@[simp] theorem State.withPair_owners : (s.withPair k c).owners = s.owners := rfl
@[simp] theorem State.withPair_latch : (s.withPair k c).latch = s.latch := rfl
@[simp] theorem State.withPair_runtime : (s.withPair k c).runtime = s.runtime := rfl
@[simp] theorem State.withPair_claims : (s.withPair k c).claims = s.claims := rfl
@[simp] theorem State.withPair_slots : (s.withPair k c).slots = s.slots := rfl
@[simp] theorem State.withPair_dueList : (s.withPair k c).dueList = s.dueList := rfl
@[simp] theorem State.withPair_armedSet : (s.withPair k c).armedSet = s.armedSet := rfl
@[simp] theorem State.withPair_armedThisTick : (s.withPair k c).armedThisTick = s.armedThisTick := rfl
@[simp] theorem State.withPair_filters : (s.withPair k c).filters = s.filters := rfl
@[simp] theorem State.withPair_portInputs : (s.withPair k c).portInputs = s.portInputs := rfl
@[simp] theorem State.withPair_port (q : Port) : (s.withPair k c).port q = s.port q := rfl
@[simp] theorem State.withPair_session (q : Port) : (s.withPair k c).session q = s.session q := rfl
@[simp] theorem State.withPair_output (j : OutLine) : (s.withPair k c).output j = s.output j := rfl
@[simp] theorem State.withPair_input (j : InLine) : (s.withPair k c).input j = s.input j := rfl
@[simp] theorem State.withPair_quota (q : Port) : (s.withPair k c).quota q = s.quota q := rfl
@[simp] theorem State.withPair_owner (j : OutLine) : (s.withPair k c).owner j = s.owner j := rfl
@[simp] theorem State.withPair_level (j : OutLine) : (s.withPair k c).level j = s.level j := rfl
@[simp] theorem State.withPair_pairRuntime (j : PairIndex) : (s.withPair k c).pairRuntime j = s.pairRuntime j := rfl
@[simp] theorem State.withPair_claim (q : Port) : (s.withPair k c).claim q = s.claim q := rfl
@[simp] theorem State.withPair_slot (j : SlotIndex) : (s.withPair k c).slot j = s.slot j := rfl
@[simp] theorem State.withPair_step (j : SlotIndex) : (s.withPair k c).step j = s.step j := rfl
@[simp] theorem State.withPair_armedList (j : InLine) : (s.withPair k c).armedList j = s.armedList j := rfl
@[simp] theorem State.withPair_filter (j : InLine) : (s.withPair k c).filter j = s.filter j := rfl
@[simp] theorem State.withPair_inputsOf (q : Port) : (s.withPair k c).inputsOf q = s.inputsOf q := rfl

end


/-! ### withQuotas -/

section
variable (s : State) (v : PerPort Nat)

@[simp] theorem State.withQuotas_pending : (s.withQuotas v).pending = s.pending := rfl
@[simp] theorem State.withQuotas_inReset : (s.withQuotas v).inReset = s.inReset := rfl
@[simp] theorem State.withQuotas_pins : (s.withQuotas v).pins = s.pins := rfl
@[simp] theorem State.withQuotas_now : (s.withQuotas v).now = s.now := rfl
@[simp] theorem State.withQuotas_clock : (s.withQuotas v).clock = s.clock := rfl
@[simp] theorem State.withQuotas_phase : (s.withQuotas v).phase = s.phase := rfl
@[simp] theorem State.withQuotas_ports : (s.withQuotas v).ports = s.ports := rfl
@[simp] theorem State.withQuotas_sessions : (s.withQuotas v).sessions = s.sessions := rfl
@[simp] theorem State.withQuotas_outputs : (s.withQuotas v).outputs = s.outputs := rfl
@[simp] theorem State.withQuotas_inputs : (s.withQuotas v).inputs = s.inputs := rfl
@[simp] theorem State.withQuotas_pairs : (s.withQuotas v).pairs = s.pairs := rfl
@[simp] theorem State.withQuotas_quotas : (s.withQuotas v).quotas = v := rfl
@[simp] theorem State.withQuotas_arbiter : (s.withQuotas v).arbiter = s.arbiter := rfl
@[simp] theorem State.withQuotas_owners : (s.withQuotas v).owners = s.owners := rfl
@[simp] theorem State.withQuotas_latch : (s.withQuotas v).latch = s.latch := rfl
@[simp] theorem State.withQuotas_runtime : (s.withQuotas v).runtime = s.runtime := rfl
@[simp] theorem State.withQuotas_claims : (s.withQuotas v).claims = s.claims := rfl
@[simp] theorem State.withQuotas_slots : (s.withQuotas v).slots = s.slots := rfl
@[simp] theorem State.withQuotas_dueList : (s.withQuotas v).dueList = s.dueList := rfl
@[simp] theorem State.withQuotas_armedSet : (s.withQuotas v).armedSet = s.armedSet := rfl
@[simp] theorem State.withQuotas_armedThisTick : (s.withQuotas v).armedThisTick = s.armedThisTick := rfl
@[simp] theorem State.withQuotas_filters : (s.withQuotas v).filters = s.filters := rfl
@[simp] theorem State.withQuotas_portInputs : (s.withQuotas v).portInputs = s.portInputs := rfl
@[simp] theorem State.withQuotas_port (q : Port) : (s.withQuotas v).port q = s.port q := rfl
@[simp] theorem State.withQuotas_session (q : Port) : (s.withQuotas v).session q = s.session q := rfl
@[simp] theorem State.withQuotas_output (j : OutLine) : (s.withQuotas v).output j = s.output j := rfl
@[simp] theorem State.withQuotas_input (j : InLine) : (s.withQuotas v).input j = s.input j := rfl
@[simp] theorem State.withQuotas_pair (j : PairIndex) : (s.withQuotas v).pair j = s.pair j := rfl
@[simp] theorem State.withQuotas_owner (j : OutLine) : (s.withQuotas v).owner j = s.owner j := rfl
@[simp] theorem State.withQuotas_level (j : OutLine) : (s.withQuotas v).level j = s.level j := rfl
@[simp] theorem State.withQuotas_pairRuntime (j : PairIndex) : (s.withQuotas v).pairRuntime j = s.pairRuntime j := rfl
@[simp] theorem State.withQuotas_claim (q : Port) : (s.withQuotas v).claim q = s.claim q := rfl
@[simp] theorem State.withQuotas_slot (j : SlotIndex) : (s.withQuotas v).slot j = s.slot j := rfl
@[simp] theorem State.withQuotas_step (j : SlotIndex) : (s.withQuotas v).step j = s.step j := rfl
@[simp] theorem State.withQuotas_armedList (j : InLine) : (s.withQuotas v).armedList j = s.armedList j := rfl
@[simp] theorem State.withQuotas_filter (j : InLine) : (s.withQuotas v).filter j = s.filter j := rfl
@[simp] theorem State.withQuotas_inputsOf (q : Port) : (s.withQuotas v).inputsOf q = s.inputsOf q := rfl

end


/-! ### withArbiter -/

section
variable (s : State) (a : Arbiter)

@[simp] theorem State.withArbiter_pending : (s.withArbiter a).pending = s.pending := rfl
@[simp] theorem State.withArbiter_inReset : (s.withArbiter a).inReset = s.inReset := rfl
@[simp] theorem State.withArbiter_pins : (s.withArbiter a).pins = s.pins := rfl
@[simp] theorem State.withArbiter_now : (s.withArbiter a).now = s.now := rfl
@[simp] theorem State.withArbiter_clock : (s.withArbiter a).clock = s.clock := rfl
@[simp] theorem State.withArbiter_phase : (s.withArbiter a).phase = s.phase := rfl
@[simp] theorem State.withArbiter_ports : (s.withArbiter a).ports = s.ports := rfl
@[simp] theorem State.withArbiter_sessions : (s.withArbiter a).sessions = s.sessions := rfl
@[simp] theorem State.withArbiter_outputs : (s.withArbiter a).outputs = s.outputs := rfl
@[simp] theorem State.withArbiter_inputs : (s.withArbiter a).inputs = s.inputs := rfl
@[simp] theorem State.withArbiter_pairs : (s.withArbiter a).pairs = s.pairs := rfl
@[simp] theorem State.withArbiter_quotas : (s.withArbiter a).quotas = s.quotas := rfl
@[simp] theorem State.withArbiter_arbiter : (s.withArbiter a).arbiter = a := rfl
@[simp] theorem State.withArbiter_owners : (s.withArbiter a).owners = s.owners := rfl
@[simp] theorem State.withArbiter_latch : (s.withArbiter a).latch = s.latch := rfl
@[simp] theorem State.withArbiter_runtime : (s.withArbiter a).runtime = s.runtime := rfl
@[simp] theorem State.withArbiter_claims : (s.withArbiter a).claims = s.claims := rfl
@[simp] theorem State.withArbiter_slots : (s.withArbiter a).slots = s.slots := rfl
@[simp] theorem State.withArbiter_dueList : (s.withArbiter a).dueList = s.dueList := rfl
@[simp] theorem State.withArbiter_armedSet : (s.withArbiter a).armedSet = s.armedSet := rfl
@[simp] theorem State.withArbiter_armedThisTick : (s.withArbiter a).armedThisTick = s.armedThisTick := rfl
@[simp] theorem State.withArbiter_filters : (s.withArbiter a).filters = s.filters := rfl
@[simp] theorem State.withArbiter_portInputs : (s.withArbiter a).portInputs = s.portInputs := rfl
@[simp] theorem State.withArbiter_port (q : Port) : (s.withArbiter a).port q = s.port q := rfl
@[simp] theorem State.withArbiter_session (q : Port) : (s.withArbiter a).session q = s.session q := rfl
@[simp] theorem State.withArbiter_output (j : OutLine) : (s.withArbiter a).output j = s.output j := rfl
@[simp] theorem State.withArbiter_input (j : InLine) : (s.withArbiter a).input j = s.input j := rfl
@[simp] theorem State.withArbiter_pair (j : PairIndex) : (s.withArbiter a).pair j = s.pair j := rfl
@[simp] theorem State.withArbiter_quota (q : Port) : (s.withArbiter a).quota q = s.quota q := rfl
@[simp] theorem State.withArbiter_owner (j : OutLine) : (s.withArbiter a).owner j = s.owner j := rfl
@[simp] theorem State.withArbiter_level (j : OutLine) : (s.withArbiter a).level j = s.level j := rfl
@[simp] theorem State.withArbiter_pairRuntime (j : PairIndex) : (s.withArbiter a).pairRuntime j = s.pairRuntime j := rfl
@[simp] theorem State.withArbiter_claim (q : Port) : (s.withArbiter a).claim q = s.claim q := rfl
@[simp] theorem State.withArbiter_slot (j : SlotIndex) : (s.withArbiter a).slot j = s.slot j := rfl
@[simp] theorem State.withArbiter_step (j : SlotIndex) : (s.withArbiter a).step j = s.step j := rfl
@[simp] theorem State.withArbiter_armedList (j : InLine) : (s.withArbiter a).armedList j = s.armedList j := rfl
@[simp] theorem State.withArbiter_filter (j : InLine) : (s.withArbiter a).filter j = s.filter j := rfl
@[simp] theorem State.withArbiter_inputsOf (q : Port) : (s.withArbiter a).inputsOf q = s.inputsOf q := rfl

end


/-! ### withOwners -/

section
variable (s : State) (v : Vector (Option Port) 24)

@[simp] theorem State.withOwners_pending : (s.withOwners v).pending = s.pending := rfl
@[simp] theorem State.withOwners_inReset : (s.withOwners v).inReset = s.inReset := rfl
@[simp] theorem State.withOwners_pins : (s.withOwners v).pins = s.pins := rfl
@[simp] theorem State.withOwners_now : (s.withOwners v).now = s.now := rfl
@[simp] theorem State.withOwners_clock : (s.withOwners v).clock = s.clock := rfl
@[simp] theorem State.withOwners_phase : (s.withOwners v).phase = s.phase := rfl
@[simp] theorem State.withOwners_ports : (s.withOwners v).ports = s.ports := rfl
@[simp] theorem State.withOwners_sessions : (s.withOwners v).sessions = s.sessions := rfl
@[simp] theorem State.withOwners_outputs : (s.withOwners v).outputs = s.outputs := rfl
@[simp] theorem State.withOwners_inputs : (s.withOwners v).inputs = s.inputs := rfl
@[simp] theorem State.withOwners_pairs : (s.withOwners v).pairs = s.pairs := rfl
@[simp] theorem State.withOwners_quotas : (s.withOwners v).quotas = s.quotas := rfl
@[simp] theorem State.withOwners_arbiter : (s.withOwners v).arbiter = s.arbiter := rfl
@[simp] theorem State.withOwners_owners : (s.withOwners v).owners = v := rfl
@[simp] theorem State.withOwners_latch : (s.withOwners v).latch = s.latch := rfl
@[simp] theorem State.withOwners_runtime : (s.withOwners v).runtime = s.runtime := rfl
@[simp] theorem State.withOwners_claims : (s.withOwners v).claims = s.claims := rfl
@[simp] theorem State.withOwners_slots : (s.withOwners v).slots = s.slots := rfl
@[simp] theorem State.withOwners_dueList : (s.withOwners v).dueList = s.dueList := rfl
@[simp] theorem State.withOwners_armedSet : (s.withOwners v).armedSet = s.armedSet := rfl
@[simp] theorem State.withOwners_armedThisTick : (s.withOwners v).armedThisTick = s.armedThisTick := rfl
@[simp] theorem State.withOwners_filters : (s.withOwners v).filters = s.filters := rfl
@[simp] theorem State.withOwners_portInputs : (s.withOwners v).portInputs = s.portInputs := rfl
@[simp] theorem State.withOwners_port (q : Port) : (s.withOwners v).port q = s.port q := rfl
@[simp] theorem State.withOwners_session (q : Port) : (s.withOwners v).session q = s.session q := rfl
@[simp] theorem State.withOwners_output (j : OutLine) : (s.withOwners v).output j = s.output j := rfl
@[simp] theorem State.withOwners_input (j : InLine) : (s.withOwners v).input j = s.input j := rfl
@[simp] theorem State.withOwners_pair (j : PairIndex) : (s.withOwners v).pair j = s.pair j := rfl
@[simp] theorem State.withOwners_quota (q : Port) : (s.withOwners v).quota q = s.quota q := rfl
@[simp] theorem State.withOwners_level (j : OutLine) : (s.withOwners v).level j = s.level j := rfl
@[simp] theorem State.withOwners_pairRuntime (j : PairIndex) : (s.withOwners v).pairRuntime j = s.pairRuntime j := rfl
@[simp] theorem State.withOwners_claim (q : Port) : (s.withOwners v).claim q = s.claim q := rfl
@[simp] theorem State.withOwners_slot (j : SlotIndex) : (s.withOwners v).slot j = s.slot j := rfl
@[simp] theorem State.withOwners_step (j : SlotIndex) : (s.withOwners v).step j = s.step j := rfl
@[simp] theorem State.withOwners_armedList (j : InLine) : (s.withOwners v).armedList j = s.armedList j := rfl
@[simp] theorem State.withOwners_filter (j : InLine) : (s.withOwners v).filter j = s.filter j := rfl
@[simp] theorem State.withOwners_inputsOf (q : Port) : (s.withOwners v).inputsOf q = s.inputsOf q := rfl

end


/-! ### withLevel -/

section
variable (s : State) (l : OutLine) (v : Level)

@[simp] theorem State.withLevel_pending : (s.withLevel l v).pending = s.pending := rfl
@[simp] theorem State.withLevel_inReset : (s.withLevel l v).inReset = s.inReset := rfl
@[simp] theorem State.withLevel_pins : (s.withLevel l v).pins = s.pins := rfl
@[simp] theorem State.withLevel_now : (s.withLevel l v).now = s.now := rfl
@[simp] theorem State.withLevel_clock : (s.withLevel l v).clock = s.clock := rfl
@[simp] theorem State.withLevel_phase : (s.withLevel l v).phase = s.phase := rfl
@[simp] theorem State.withLevel_ports : (s.withLevel l v).ports = s.ports := rfl
@[simp] theorem State.withLevel_sessions : (s.withLevel l v).sessions = s.sessions := rfl
@[simp] theorem State.withLevel_outputs : (s.withLevel l v).outputs = s.outputs := rfl
@[simp] theorem State.withLevel_inputs : (s.withLevel l v).inputs = s.inputs := rfl
@[simp] theorem State.withLevel_pairs : (s.withLevel l v).pairs = s.pairs := rfl
@[simp] theorem State.withLevel_quotas : (s.withLevel l v).quotas = s.quotas := rfl
@[simp] theorem State.withLevel_arbiter : (s.withLevel l v).arbiter = s.arbiter := rfl
@[simp] theorem State.withLevel_owners : (s.withLevel l v).owners = s.owners := rfl
@[simp] theorem State.withLevel_latch : (s.withLevel l v).latch = tset s.latch l v := rfl
@[simp] theorem State.withLevel_runtime : (s.withLevel l v).runtime = s.runtime := rfl
@[simp] theorem State.withLevel_claims : (s.withLevel l v).claims = s.claims := rfl
@[simp] theorem State.withLevel_slots : (s.withLevel l v).slots = s.slots := rfl
@[simp] theorem State.withLevel_dueList : (s.withLevel l v).dueList = s.dueList := rfl
@[simp] theorem State.withLevel_armedSet : (s.withLevel l v).armedSet = s.armedSet := rfl
@[simp] theorem State.withLevel_armedThisTick : (s.withLevel l v).armedThisTick = s.armedThisTick := rfl
@[simp] theorem State.withLevel_filters : (s.withLevel l v).filters = s.filters := rfl
@[simp] theorem State.withLevel_portInputs : (s.withLevel l v).portInputs = s.portInputs := rfl
@[simp] theorem State.withLevel_port (q : Port) : (s.withLevel l v).port q = s.port q := rfl
@[simp] theorem State.withLevel_session (q : Port) : (s.withLevel l v).session q = s.session q := rfl
@[simp] theorem State.withLevel_output (j : OutLine) : (s.withLevel l v).output j = s.output j := rfl
@[simp] theorem State.withLevel_input (j : InLine) : (s.withLevel l v).input j = s.input j := rfl
@[simp] theorem State.withLevel_pair (j : PairIndex) : (s.withLevel l v).pair j = s.pair j := rfl
@[simp] theorem State.withLevel_quota (q : Port) : (s.withLevel l v).quota q = s.quota q := rfl
@[simp] theorem State.withLevel_owner (j : OutLine) : (s.withLevel l v).owner j = s.owner j := rfl
@[simp] theorem State.withLevel_pairRuntime (j : PairIndex) : (s.withLevel l v).pairRuntime j = s.pairRuntime j := rfl
@[simp] theorem State.withLevel_claim (q : Port) : (s.withLevel l v).claim q = s.claim q := rfl
@[simp] theorem State.withLevel_slot (j : SlotIndex) : (s.withLevel l v).slot j = s.slot j := rfl
@[simp] theorem State.withLevel_step (j : SlotIndex) : (s.withLevel l v).step j = s.step j := rfl
@[simp] theorem State.withLevel_armedList (j : InLine) : (s.withLevel l v).armedList j = s.armedList j := rfl
@[simp] theorem State.withLevel_filter (j : InLine) : (s.withLevel l v).filter j = s.filter j := rfl
@[simp] theorem State.withLevel_inputsOf (q : Port) : (s.withLevel l v).inputsOf q = s.inputsOf q := rfl

end


/-! ### withRuntime -/

section
variable (s : State) (k : PairIndex) (r : PairRuntime)

@[simp] theorem State.withRuntime_pending : (s.withRuntime k r).pending = s.pending := rfl
@[simp] theorem State.withRuntime_inReset : (s.withRuntime k r).inReset = s.inReset := rfl
@[simp] theorem State.withRuntime_pins : (s.withRuntime k r).pins = s.pins := rfl
@[simp] theorem State.withRuntime_now : (s.withRuntime k r).now = s.now := rfl
@[simp] theorem State.withRuntime_clock : (s.withRuntime k r).clock = s.clock := rfl
@[simp] theorem State.withRuntime_phase : (s.withRuntime k r).phase = s.phase := rfl
@[simp] theorem State.withRuntime_ports : (s.withRuntime k r).ports = s.ports := rfl
@[simp] theorem State.withRuntime_sessions : (s.withRuntime k r).sessions = s.sessions := rfl
@[simp] theorem State.withRuntime_outputs : (s.withRuntime k r).outputs = s.outputs := rfl
@[simp] theorem State.withRuntime_inputs : (s.withRuntime k r).inputs = s.inputs := rfl
@[simp] theorem State.withRuntime_pairs : (s.withRuntime k r).pairs = s.pairs := rfl
@[simp] theorem State.withRuntime_quotas : (s.withRuntime k r).quotas = s.quotas := rfl
@[simp] theorem State.withRuntime_arbiter : (s.withRuntime k r).arbiter = s.arbiter := rfl
@[simp] theorem State.withRuntime_owners : (s.withRuntime k r).owners = s.owners := rfl
@[simp] theorem State.withRuntime_latch : (s.withRuntime k r).latch = s.latch := rfl
@[simp] theorem State.withRuntime_runtime : (s.withRuntime k r).runtime = tset s.runtime k r := rfl
@[simp] theorem State.withRuntime_claims : (s.withRuntime k r).claims = s.claims := rfl
@[simp] theorem State.withRuntime_slots : (s.withRuntime k r).slots = s.slots := rfl
@[simp] theorem State.withRuntime_dueList : (s.withRuntime k r).dueList = s.dueList := rfl
@[simp] theorem State.withRuntime_armedSet : (s.withRuntime k r).armedSet = s.armedSet := rfl
@[simp] theorem State.withRuntime_armedThisTick : (s.withRuntime k r).armedThisTick = s.armedThisTick := rfl
@[simp] theorem State.withRuntime_filters : (s.withRuntime k r).filters = s.filters := rfl
@[simp] theorem State.withRuntime_portInputs : (s.withRuntime k r).portInputs = s.portInputs := rfl
@[simp] theorem State.withRuntime_port (q : Port) : (s.withRuntime k r).port q = s.port q := rfl
@[simp] theorem State.withRuntime_session (q : Port) : (s.withRuntime k r).session q = s.session q := rfl
@[simp] theorem State.withRuntime_output (j : OutLine) : (s.withRuntime k r).output j = s.output j := rfl
@[simp] theorem State.withRuntime_input (j : InLine) : (s.withRuntime k r).input j = s.input j := rfl
@[simp] theorem State.withRuntime_pair (j : PairIndex) : (s.withRuntime k r).pair j = s.pair j := rfl
@[simp] theorem State.withRuntime_quota (q : Port) : (s.withRuntime k r).quota q = s.quota q := rfl
@[simp] theorem State.withRuntime_owner (j : OutLine) : (s.withRuntime k r).owner j = s.owner j := rfl
@[simp] theorem State.withRuntime_level (j : OutLine) : (s.withRuntime k r).level j = s.level j := rfl
@[simp] theorem State.withRuntime_claim (q : Port) : (s.withRuntime k r).claim q = s.claim q := rfl
@[simp] theorem State.withRuntime_slot (j : SlotIndex) : (s.withRuntime k r).slot j = s.slot j := rfl
@[simp] theorem State.withRuntime_step (j : SlotIndex) : (s.withRuntime k r).step j = s.step j := rfl
@[simp] theorem State.withRuntime_armedList (j : InLine) : (s.withRuntime k r).armedList j = s.armedList j := rfl
@[simp] theorem State.withRuntime_filter (j : InLine) : (s.withRuntime k r).filter j = s.filter j := rfl
@[simp] theorem State.withRuntime_inputsOf (q : Port) : (s.withRuntime k r).inputsOf q = s.inputsOf q := rfl

end


/-! ### withRuntimes -/

section
variable (s : State) (v : Vector PairRuntime 12)

@[simp] theorem State.withRuntimes_pending : (s.withRuntimes v).pending = s.pending := rfl
@[simp] theorem State.withRuntimes_inReset : (s.withRuntimes v).inReset = s.inReset := rfl
@[simp] theorem State.withRuntimes_pins : (s.withRuntimes v).pins = s.pins := rfl
@[simp] theorem State.withRuntimes_now : (s.withRuntimes v).now = s.now := rfl
@[simp] theorem State.withRuntimes_clock : (s.withRuntimes v).clock = s.clock := rfl
@[simp] theorem State.withRuntimes_phase : (s.withRuntimes v).phase = s.phase := rfl
@[simp] theorem State.withRuntimes_ports : (s.withRuntimes v).ports = s.ports := rfl
@[simp] theorem State.withRuntimes_sessions : (s.withRuntimes v).sessions = s.sessions := rfl
@[simp] theorem State.withRuntimes_outputs : (s.withRuntimes v).outputs = s.outputs := rfl
@[simp] theorem State.withRuntimes_inputs : (s.withRuntimes v).inputs = s.inputs := rfl
@[simp] theorem State.withRuntimes_pairs : (s.withRuntimes v).pairs = s.pairs := rfl
@[simp] theorem State.withRuntimes_quotas : (s.withRuntimes v).quotas = s.quotas := rfl
@[simp] theorem State.withRuntimes_arbiter : (s.withRuntimes v).arbiter = s.arbiter := rfl
@[simp] theorem State.withRuntimes_owners : (s.withRuntimes v).owners = s.owners := rfl
@[simp] theorem State.withRuntimes_latch : (s.withRuntimes v).latch = s.latch := rfl
@[simp] theorem State.withRuntimes_runtime : (s.withRuntimes v).runtime = v := rfl
@[simp] theorem State.withRuntimes_claims : (s.withRuntimes v).claims = s.claims := rfl
@[simp] theorem State.withRuntimes_slots : (s.withRuntimes v).slots = s.slots := rfl
@[simp] theorem State.withRuntimes_dueList : (s.withRuntimes v).dueList = s.dueList := rfl
@[simp] theorem State.withRuntimes_armedSet : (s.withRuntimes v).armedSet = s.armedSet := rfl
@[simp] theorem State.withRuntimes_armedThisTick : (s.withRuntimes v).armedThisTick = s.armedThisTick := rfl
@[simp] theorem State.withRuntimes_filters : (s.withRuntimes v).filters = s.filters := rfl
@[simp] theorem State.withRuntimes_portInputs : (s.withRuntimes v).portInputs = s.portInputs := rfl
@[simp] theorem State.withRuntimes_port (q : Port) : (s.withRuntimes v).port q = s.port q := rfl
@[simp] theorem State.withRuntimes_session (q : Port) : (s.withRuntimes v).session q = s.session q := rfl
@[simp] theorem State.withRuntimes_output (j : OutLine) : (s.withRuntimes v).output j = s.output j := rfl
@[simp] theorem State.withRuntimes_input (j : InLine) : (s.withRuntimes v).input j = s.input j := rfl
@[simp] theorem State.withRuntimes_pair (j : PairIndex) : (s.withRuntimes v).pair j = s.pair j := rfl
@[simp] theorem State.withRuntimes_quota (q : Port) : (s.withRuntimes v).quota q = s.quota q := rfl
@[simp] theorem State.withRuntimes_owner (j : OutLine) : (s.withRuntimes v).owner j = s.owner j := rfl
@[simp] theorem State.withRuntimes_level (j : OutLine) : (s.withRuntimes v).level j = s.level j := rfl
@[simp] theorem State.withRuntimes_claim (q : Port) : (s.withRuntimes v).claim q = s.claim q := rfl
@[simp] theorem State.withRuntimes_slot (j : SlotIndex) : (s.withRuntimes v).slot j = s.slot j := rfl
@[simp] theorem State.withRuntimes_step (j : SlotIndex) : (s.withRuntimes v).step j = s.step j := rfl
@[simp] theorem State.withRuntimes_armedList (j : InLine) : (s.withRuntimes v).armedList j = s.armedList j := rfl
@[simp] theorem State.withRuntimes_filter (j : InLine) : (s.withRuntimes v).filter j = s.filter j := rfl
@[simp] theorem State.withRuntimes_inputsOf (q : Port) : (s.withRuntimes v).inputsOf q = s.inputsOf q := rfl

end


/-! ### withClaim -/

section
variable (s : State) (p : Port) (c : Option Claim)

@[simp] theorem State.withClaim_pending : (s.withClaim p c).pending = s.pending := rfl
@[simp] theorem State.withClaim_inReset : (s.withClaim p c).inReset = s.inReset := rfl
@[simp] theorem State.withClaim_pins : (s.withClaim p c).pins = s.pins := rfl
@[simp] theorem State.withClaim_now : (s.withClaim p c).now = s.now := rfl
@[simp] theorem State.withClaim_clock : (s.withClaim p c).clock = s.clock := rfl
@[simp] theorem State.withClaim_phase : (s.withClaim p c).phase = s.phase := rfl
@[simp] theorem State.withClaim_ports : (s.withClaim p c).ports = s.ports := rfl
@[simp] theorem State.withClaim_sessions : (s.withClaim p c).sessions = s.sessions := rfl
@[simp] theorem State.withClaim_outputs : (s.withClaim p c).outputs = s.outputs := rfl
@[simp] theorem State.withClaim_inputs : (s.withClaim p c).inputs = s.inputs := rfl
@[simp] theorem State.withClaim_pairs : (s.withClaim p c).pairs = s.pairs := rfl
@[simp] theorem State.withClaim_quotas : (s.withClaim p c).quotas = s.quotas := rfl
@[simp] theorem State.withClaim_arbiter : (s.withClaim p c).arbiter = s.arbiter := rfl
@[simp] theorem State.withClaim_owners : (s.withClaim p c).owners = s.owners := rfl
@[simp] theorem State.withClaim_latch : (s.withClaim p c).latch = s.latch := rfl
@[simp] theorem State.withClaim_runtime : (s.withClaim p c).runtime = s.runtime := rfl
@[simp] theorem State.withClaim_claims : (s.withClaim p c).claims = s.claims.set p c := rfl
@[simp] theorem State.withClaim_slots : (s.withClaim p c).slots = s.slots := rfl
@[simp] theorem State.withClaim_dueList : (s.withClaim p c).dueList = s.dueList := rfl
@[simp] theorem State.withClaim_armedSet : (s.withClaim p c).armedSet = s.armedSet := rfl
@[simp] theorem State.withClaim_armedThisTick : (s.withClaim p c).armedThisTick = s.armedThisTick := rfl
@[simp] theorem State.withClaim_filters : (s.withClaim p c).filters = s.filters := rfl
@[simp] theorem State.withClaim_portInputs : (s.withClaim p c).portInputs = s.portInputs := rfl
@[simp] theorem State.withClaim_port (q : Port) : (s.withClaim p c).port q = s.port q := rfl
@[simp] theorem State.withClaim_session (q : Port) : (s.withClaim p c).session q = s.session q := rfl
@[simp] theorem State.withClaim_output (j : OutLine) : (s.withClaim p c).output j = s.output j := rfl
@[simp] theorem State.withClaim_input (j : InLine) : (s.withClaim p c).input j = s.input j := rfl
@[simp] theorem State.withClaim_pair (j : PairIndex) : (s.withClaim p c).pair j = s.pair j := rfl
@[simp] theorem State.withClaim_quota (q : Port) : (s.withClaim p c).quota q = s.quota q := rfl
@[simp] theorem State.withClaim_owner (j : OutLine) : (s.withClaim p c).owner j = s.owner j := rfl
@[simp] theorem State.withClaim_level (j : OutLine) : (s.withClaim p c).level j = s.level j := rfl
@[simp] theorem State.withClaim_pairRuntime (j : PairIndex) : (s.withClaim p c).pairRuntime j = s.pairRuntime j := rfl
@[simp] theorem State.withClaim_slot (j : SlotIndex) : (s.withClaim p c).slot j = s.slot j := rfl
@[simp] theorem State.withClaim_step (j : SlotIndex) : (s.withClaim p c).step j = s.step j := rfl
@[simp] theorem State.withClaim_armedList (j : InLine) : (s.withClaim p c).armedList j = s.armedList j := rfl
@[simp] theorem State.withClaim_filter (j : InLine) : (s.withClaim p c).filter j = s.filter j := rfl
@[simp] theorem State.withClaim_inputsOf (q : Port) : (s.withClaim p c).inputsOf q = s.inputsOf q := rfl

end


/-! ### withSlot -/

section
variable (s : State) (i : SlotIndex) (x : Slot)

@[simp] theorem State.withSlot_pending : (s.withSlot i x).pending = s.pending := rfl
@[simp] theorem State.withSlot_inReset : (s.withSlot i x).inReset = s.inReset := rfl
@[simp] theorem State.withSlot_pins : (s.withSlot i x).pins = s.pins := rfl
@[simp] theorem State.withSlot_now : (s.withSlot i x).now = s.now := rfl
@[simp] theorem State.withSlot_clock : (s.withSlot i x).clock = s.clock := rfl
@[simp] theorem State.withSlot_phase : (s.withSlot i x).phase = s.phase := rfl
@[simp] theorem State.withSlot_ports : (s.withSlot i x).ports = s.ports := rfl
@[simp] theorem State.withSlot_sessions : (s.withSlot i x).sessions = s.sessions := rfl
@[simp] theorem State.withSlot_outputs : (s.withSlot i x).outputs = s.outputs := rfl
@[simp] theorem State.withSlot_inputs : (s.withSlot i x).inputs = s.inputs := rfl
@[simp] theorem State.withSlot_pairs : (s.withSlot i x).pairs = s.pairs := rfl
@[simp] theorem State.withSlot_quotas : (s.withSlot i x).quotas = s.quotas := rfl
@[simp] theorem State.withSlot_arbiter : (s.withSlot i x).arbiter = s.arbiter := rfl
@[simp] theorem State.withSlot_owners : (s.withSlot i x).owners = s.owners := rfl
@[simp] theorem State.withSlot_latch : (s.withSlot i x).latch = s.latch := rfl
@[simp] theorem State.withSlot_runtime : (s.withSlot i x).runtime = s.runtime := rfl
@[simp] theorem State.withSlot_claims : (s.withSlot i x).claims = s.claims := rfl
@[simp] theorem State.withSlot_slots : (s.withSlot i x).slots = tset s.slots i x := rfl
@[simp] theorem State.withSlot_dueList : (s.withSlot i x).dueList = s.dueList := rfl
@[simp] theorem State.withSlot_armedSet : (s.withSlot i x).armedSet = s.armedSet := rfl
@[simp] theorem State.withSlot_armedThisTick : (s.withSlot i x).armedThisTick = s.armedThisTick := rfl
@[simp] theorem State.withSlot_filters : (s.withSlot i x).filters = s.filters := rfl
@[simp] theorem State.withSlot_portInputs : (s.withSlot i x).portInputs = s.portInputs := rfl
@[simp] theorem State.withSlot_port (q : Port) : (s.withSlot i x).port q = s.port q := rfl
@[simp] theorem State.withSlot_session (q : Port) : (s.withSlot i x).session q = s.session q := rfl
@[simp] theorem State.withSlot_output (j : OutLine) : (s.withSlot i x).output j = s.output j := rfl
@[simp] theorem State.withSlot_input (j : InLine) : (s.withSlot i x).input j = s.input j := rfl
@[simp] theorem State.withSlot_pair (j : PairIndex) : (s.withSlot i x).pair j = s.pair j := rfl
@[simp] theorem State.withSlot_quota (q : Port) : (s.withSlot i x).quota q = s.quota q := rfl
@[simp] theorem State.withSlot_owner (j : OutLine) : (s.withSlot i x).owner j = s.owner j := rfl
@[simp] theorem State.withSlot_level (j : OutLine) : (s.withSlot i x).level j = s.level j := rfl
@[simp] theorem State.withSlot_pairRuntime (j : PairIndex) : (s.withSlot i x).pairRuntime j = s.pairRuntime j := rfl
@[simp] theorem State.withSlot_claim (q : Port) : (s.withSlot i x).claim q = s.claim q := rfl
@[simp] theorem State.withSlot_armedList (j : InLine) : (s.withSlot i x).armedList j = s.armedList j := rfl
@[simp] theorem State.withSlot_filter (j : InLine) : (s.withSlot i x).filter j = s.filter j := rfl
@[simp] theorem State.withSlot_inputsOf (q : Port) : (s.withSlot i x).inputsOf q = s.inputsOf q := rfl

end


/-! ### withDueList -/

section
variable (s : State) (l : List SlotIndex)

@[simp] theorem State.withDueList_pending : (s.withDueList l).pending = s.pending := rfl
@[simp] theorem State.withDueList_inReset : (s.withDueList l).inReset = s.inReset := rfl
@[simp] theorem State.withDueList_pins : (s.withDueList l).pins = s.pins := rfl
@[simp] theorem State.withDueList_now : (s.withDueList l).now = s.now := rfl
@[simp] theorem State.withDueList_clock : (s.withDueList l).clock = s.clock := rfl
@[simp] theorem State.withDueList_phase : (s.withDueList l).phase = s.phase := rfl
@[simp] theorem State.withDueList_ports : (s.withDueList l).ports = s.ports := rfl
@[simp] theorem State.withDueList_sessions : (s.withDueList l).sessions = s.sessions := rfl
@[simp] theorem State.withDueList_outputs : (s.withDueList l).outputs = s.outputs := rfl
@[simp] theorem State.withDueList_inputs : (s.withDueList l).inputs = s.inputs := rfl
@[simp] theorem State.withDueList_pairs : (s.withDueList l).pairs = s.pairs := rfl
@[simp] theorem State.withDueList_quotas : (s.withDueList l).quotas = s.quotas := rfl
@[simp] theorem State.withDueList_arbiter : (s.withDueList l).arbiter = s.arbiter := rfl
@[simp] theorem State.withDueList_owners : (s.withDueList l).owners = s.owners := rfl
@[simp] theorem State.withDueList_latch : (s.withDueList l).latch = s.latch := rfl
@[simp] theorem State.withDueList_runtime : (s.withDueList l).runtime = s.runtime := rfl
@[simp] theorem State.withDueList_claims : (s.withDueList l).claims = s.claims := rfl
@[simp] theorem State.withDueList_slots : (s.withDueList l).slots = s.slots := rfl
@[simp] theorem State.withDueList_dueList : (s.withDueList l).dueList = l := rfl
@[simp] theorem State.withDueList_armedSet : (s.withDueList l).armedSet = s.armedSet := rfl
@[simp] theorem State.withDueList_armedThisTick : (s.withDueList l).armedThisTick = s.armedThisTick := rfl
@[simp] theorem State.withDueList_filters : (s.withDueList l).filters = s.filters := rfl
@[simp] theorem State.withDueList_portInputs : (s.withDueList l).portInputs = s.portInputs := rfl
@[simp] theorem State.withDueList_port (q : Port) : (s.withDueList l).port q = s.port q := rfl
@[simp] theorem State.withDueList_session (q : Port) : (s.withDueList l).session q = s.session q := rfl
@[simp] theorem State.withDueList_output (j : OutLine) : (s.withDueList l).output j = s.output j := rfl
@[simp] theorem State.withDueList_input (j : InLine) : (s.withDueList l).input j = s.input j := rfl
@[simp] theorem State.withDueList_pair (j : PairIndex) : (s.withDueList l).pair j = s.pair j := rfl
@[simp] theorem State.withDueList_quota (q : Port) : (s.withDueList l).quota q = s.quota q := rfl
@[simp] theorem State.withDueList_owner (j : OutLine) : (s.withDueList l).owner j = s.owner j := rfl
@[simp] theorem State.withDueList_level (j : OutLine) : (s.withDueList l).level j = s.level j := rfl
@[simp] theorem State.withDueList_pairRuntime (j : PairIndex) : (s.withDueList l).pairRuntime j = s.pairRuntime j := rfl
@[simp] theorem State.withDueList_claim (q : Port) : (s.withDueList l).claim q = s.claim q := rfl
@[simp] theorem State.withDueList_slot (j : SlotIndex) : (s.withDueList l).slot j = s.slot j := rfl
@[simp] theorem State.withDueList_step (j : SlotIndex) : (s.withDueList l).step j = s.step j := rfl
@[simp] theorem State.withDueList_armedList (j : InLine) : (s.withDueList l).armedList j = s.armedList j := rfl
@[simp] theorem State.withDueList_filter (j : InLine) : (s.withDueList l).filter j = s.filter j := rfl
@[simp] theorem State.withDueList_inputsOf (q : Port) : (s.withDueList l).inputsOf q = s.inputsOf q := rfl

end


/-! ### withArmedList -/

section
variable (s : State) (l : InLine) (x : List SlotIndex)

@[simp] theorem State.withArmedList_pending : (s.withArmedList l x).pending = s.pending := rfl
@[simp] theorem State.withArmedList_inReset : (s.withArmedList l x).inReset = s.inReset := rfl
@[simp] theorem State.withArmedList_pins : (s.withArmedList l x).pins = s.pins := rfl
@[simp] theorem State.withArmedList_now : (s.withArmedList l x).now = s.now := rfl
@[simp] theorem State.withArmedList_clock : (s.withArmedList l x).clock = s.clock := rfl
@[simp] theorem State.withArmedList_phase : (s.withArmedList l x).phase = s.phase := rfl
@[simp] theorem State.withArmedList_ports : (s.withArmedList l x).ports = s.ports := rfl
@[simp] theorem State.withArmedList_sessions : (s.withArmedList l x).sessions = s.sessions := rfl
@[simp] theorem State.withArmedList_outputs : (s.withArmedList l x).outputs = s.outputs := rfl
@[simp] theorem State.withArmedList_inputs : (s.withArmedList l x).inputs = s.inputs := rfl
@[simp] theorem State.withArmedList_pairs : (s.withArmedList l x).pairs = s.pairs := rfl
@[simp] theorem State.withArmedList_quotas : (s.withArmedList l x).quotas = s.quotas := rfl
@[simp] theorem State.withArmedList_arbiter : (s.withArmedList l x).arbiter = s.arbiter := rfl
@[simp] theorem State.withArmedList_owners : (s.withArmedList l x).owners = s.owners := rfl
@[simp] theorem State.withArmedList_latch : (s.withArmedList l x).latch = s.latch := rfl
@[simp] theorem State.withArmedList_runtime : (s.withArmedList l x).runtime = s.runtime := rfl
@[simp] theorem State.withArmedList_claims : (s.withArmedList l x).claims = s.claims := rfl
@[simp] theorem State.withArmedList_slots : (s.withArmedList l x).slots = s.slots := rfl
@[simp] theorem State.withArmedList_dueList : (s.withArmedList l x).dueList = s.dueList := rfl
@[simp] theorem State.withArmedList_armedSet : (s.withArmedList l x).armedSet = tset s.armedSet l x := rfl
@[simp] theorem State.withArmedList_armedThisTick : (s.withArmedList l x).armedThisTick = s.armedThisTick := rfl
@[simp] theorem State.withArmedList_filters : (s.withArmedList l x).filters = s.filters := rfl
@[simp] theorem State.withArmedList_portInputs : (s.withArmedList l x).portInputs = s.portInputs := rfl
@[simp] theorem State.withArmedList_port (q : Port) : (s.withArmedList l x).port q = s.port q := rfl
@[simp] theorem State.withArmedList_session (q : Port) : (s.withArmedList l x).session q = s.session q := rfl
@[simp] theorem State.withArmedList_output (j : OutLine) : (s.withArmedList l x).output j = s.output j := rfl
@[simp] theorem State.withArmedList_input (j : InLine) : (s.withArmedList l x).input j = s.input j := rfl
@[simp] theorem State.withArmedList_pair (j : PairIndex) : (s.withArmedList l x).pair j = s.pair j := rfl
@[simp] theorem State.withArmedList_quota (q : Port) : (s.withArmedList l x).quota q = s.quota q := rfl
@[simp] theorem State.withArmedList_owner (j : OutLine) : (s.withArmedList l x).owner j = s.owner j := rfl
@[simp] theorem State.withArmedList_level (j : OutLine) : (s.withArmedList l x).level j = s.level j := rfl
@[simp] theorem State.withArmedList_pairRuntime (j : PairIndex) : (s.withArmedList l x).pairRuntime j = s.pairRuntime j := rfl
@[simp] theorem State.withArmedList_claim (q : Port) : (s.withArmedList l x).claim q = s.claim q := rfl
@[simp] theorem State.withArmedList_slot (j : SlotIndex) : (s.withArmedList l x).slot j = s.slot j := rfl
@[simp] theorem State.withArmedList_step (j : SlotIndex) : (s.withArmedList l x).step j = s.step j := rfl
@[simp] theorem State.withArmedList_filter (j : InLine) : (s.withArmedList l x).filter j = s.filter j := rfl
@[simp] theorem State.withArmedList_inputsOf (q : Port) : (s.withArmedList l x).inputsOf q = s.inputsOf q := rfl

end


/-! ### withArmedThisTick -/

section
variable (s : State) (l : List SlotIndex)

@[simp] theorem State.withArmedThisTick_pending : (s.withArmedThisTick l).pending = s.pending := rfl
@[simp] theorem State.withArmedThisTick_inReset : (s.withArmedThisTick l).inReset = s.inReset := rfl
@[simp] theorem State.withArmedThisTick_pins : (s.withArmedThisTick l).pins = s.pins := rfl
@[simp] theorem State.withArmedThisTick_now : (s.withArmedThisTick l).now = s.now := rfl
@[simp] theorem State.withArmedThisTick_clock : (s.withArmedThisTick l).clock = s.clock := rfl
@[simp] theorem State.withArmedThisTick_phase : (s.withArmedThisTick l).phase = s.phase := rfl
@[simp] theorem State.withArmedThisTick_ports : (s.withArmedThisTick l).ports = s.ports := rfl
@[simp] theorem State.withArmedThisTick_sessions : (s.withArmedThisTick l).sessions = s.sessions := rfl
@[simp] theorem State.withArmedThisTick_outputs : (s.withArmedThisTick l).outputs = s.outputs := rfl
@[simp] theorem State.withArmedThisTick_inputs : (s.withArmedThisTick l).inputs = s.inputs := rfl
@[simp] theorem State.withArmedThisTick_pairs : (s.withArmedThisTick l).pairs = s.pairs := rfl
@[simp] theorem State.withArmedThisTick_quotas : (s.withArmedThisTick l).quotas = s.quotas := rfl
@[simp] theorem State.withArmedThisTick_arbiter : (s.withArmedThisTick l).arbiter = s.arbiter := rfl
@[simp] theorem State.withArmedThisTick_owners : (s.withArmedThisTick l).owners = s.owners := rfl
@[simp] theorem State.withArmedThisTick_latch : (s.withArmedThisTick l).latch = s.latch := rfl
@[simp] theorem State.withArmedThisTick_runtime : (s.withArmedThisTick l).runtime = s.runtime := rfl
@[simp] theorem State.withArmedThisTick_claims : (s.withArmedThisTick l).claims = s.claims := rfl
@[simp] theorem State.withArmedThisTick_slots : (s.withArmedThisTick l).slots = s.slots := rfl
@[simp] theorem State.withArmedThisTick_dueList : (s.withArmedThisTick l).dueList = s.dueList := rfl
@[simp] theorem State.withArmedThisTick_armedSet : (s.withArmedThisTick l).armedSet = s.armedSet := rfl
@[simp] theorem State.withArmedThisTick_armedThisTick : (s.withArmedThisTick l).armedThisTick = l := rfl
@[simp] theorem State.withArmedThisTick_filters : (s.withArmedThisTick l).filters = s.filters := rfl
@[simp] theorem State.withArmedThisTick_portInputs : (s.withArmedThisTick l).portInputs = s.portInputs := rfl
@[simp] theorem State.withArmedThisTick_port (q : Port) : (s.withArmedThisTick l).port q = s.port q := rfl
@[simp] theorem State.withArmedThisTick_session (q : Port) : (s.withArmedThisTick l).session q = s.session q := rfl
@[simp] theorem State.withArmedThisTick_output (j : OutLine) : (s.withArmedThisTick l).output j = s.output j := rfl
@[simp] theorem State.withArmedThisTick_input (j : InLine) : (s.withArmedThisTick l).input j = s.input j := rfl
@[simp] theorem State.withArmedThisTick_pair (j : PairIndex) : (s.withArmedThisTick l).pair j = s.pair j := rfl
@[simp] theorem State.withArmedThisTick_quota (q : Port) : (s.withArmedThisTick l).quota q = s.quota q := rfl
@[simp] theorem State.withArmedThisTick_owner (j : OutLine) : (s.withArmedThisTick l).owner j = s.owner j := rfl
@[simp] theorem State.withArmedThisTick_level (j : OutLine) : (s.withArmedThisTick l).level j = s.level j := rfl
@[simp] theorem State.withArmedThisTick_pairRuntime (j : PairIndex) : (s.withArmedThisTick l).pairRuntime j = s.pairRuntime j := rfl
@[simp] theorem State.withArmedThisTick_claim (q : Port) : (s.withArmedThisTick l).claim q = s.claim q := rfl
@[simp] theorem State.withArmedThisTick_slot (j : SlotIndex) : (s.withArmedThisTick l).slot j = s.slot j := rfl
@[simp] theorem State.withArmedThisTick_step (j : SlotIndex) : (s.withArmedThisTick l).step j = s.step j := rfl
@[simp] theorem State.withArmedThisTick_armedList (j : InLine) : (s.withArmedThisTick l).armedList j = s.armedList j := rfl
@[simp] theorem State.withArmedThisTick_filter (j : InLine) : (s.withArmedThisTick l).filter j = s.filter j := rfl
@[simp] theorem State.withArmedThisTick_inputsOf (q : Port) : (s.withArmedThisTick l).inputsOf q = s.inputsOf q := rfl

end


/-! ### withFilter -/

section
variable (s : State) (l : InLine) (f : Filter)

@[simp] theorem State.withFilter_pending : (s.withFilter l f).pending = s.pending := rfl
@[simp] theorem State.withFilter_inReset : (s.withFilter l f).inReset = s.inReset := rfl
@[simp] theorem State.withFilter_pins : (s.withFilter l f).pins = s.pins := rfl
@[simp] theorem State.withFilter_now : (s.withFilter l f).now = s.now := rfl
@[simp] theorem State.withFilter_clock : (s.withFilter l f).clock = s.clock := rfl
@[simp] theorem State.withFilter_phase : (s.withFilter l f).phase = s.phase := rfl
@[simp] theorem State.withFilter_ports : (s.withFilter l f).ports = s.ports := rfl
@[simp] theorem State.withFilter_sessions : (s.withFilter l f).sessions = s.sessions := rfl
@[simp] theorem State.withFilter_outputs : (s.withFilter l f).outputs = s.outputs := rfl
@[simp] theorem State.withFilter_inputs : (s.withFilter l f).inputs = s.inputs := rfl
@[simp] theorem State.withFilter_pairs : (s.withFilter l f).pairs = s.pairs := rfl
@[simp] theorem State.withFilter_quotas : (s.withFilter l f).quotas = s.quotas := rfl
@[simp] theorem State.withFilter_arbiter : (s.withFilter l f).arbiter = s.arbiter := rfl
@[simp] theorem State.withFilter_owners : (s.withFilter l f).owners = s.owners := rfl
@[simp] theorem State.withFilter_latch : (s.withFilter l f).latch = s.latch := rfl
@[simp] theorem State.withFilter_runtime : (s.withFilter l f).runtime = s.runtime := rfl
@[simp] theorem State.withFilter_claims : (s.withFilter l f).claims = s.claims := rfl
@[simp] theorem State.withFilter_slots : (s.withFilter l f).slots = s.slots := rfl
@[simp] theorem State.withFilter_dueList : (s.withFilter l f).dueList = s.dueList := rfl
@[simp] theorem State.withFilter_armedSet : (s.withFilter l f).armedSet = s.armedSet := rfl
@[simp] theorem State.withFilter_armedThisTick : (s.withFilter l f).armedThisTick = s.armedThisTick := rfl
@[simp] theorem State.withFilter_filters : (s.withFilter l f).filters = tset s.filters l f := rfl
@[simp] theorem State.withFilter_portInputs : (s.withFilter l f).portInputs = s.portInputs := rfl
@[simp] theorem State.withFilter_port (q : Port) : (s.withFilter l f).port q = s.port q := rfl
@[simp] theorem State.withFilter_session (q : Port) : (s.withFilter l f).session q = s.session q := rfl
@[simp] theorem State.withFilter_output (j : OutLine) : (s.withFilter l f).output j = s.output j := rfl
@[simp] theorem State.withFilter_input (j : InLine) : (s.withFilter l f).input j = s.input j := rfl
@[simp] theorem State.withFilter_pair (j : PairIndex) : (s.withFilter l f).pair j = s.pair j := rfl
@[simp] theorem State.withFilter_quota (q : Port) : (s.withFilter l f).quota q = s.quota q := rfl
@[simp] theorem State.withFilter_owner (j : OutLine) : (s.withFilter l f).owner j = s.owner j := rfl
@[simp] theorem State.withFilter_level (j : OutLine) : (s.withFilter l f).level j = s.level j := rfl
@[simp] theorem State.withFilter_pairRuntime (j : PairIndex) : (s.withFilter l f).pairRuntime j = s.pairRuntime j := rfl
@[simp] theorem State.withFilter_claim (q : Port) : (s.withFilter l f).claim q = s.claim q := rfl
@[simp] theorem State.withFilter_slot (j : SlotIndex) : (s.withFilter l f).slot j = s.slot j := rfl
@[simp] theorem State.withFilter_step (j : SlotIndex) : (s.withFilter l f).step j = s.step j := rfl
@[simp] theorem State.withFilter_armedList (j : InLine) : (s.withFilter l f).armedList j = s.armedList j := rfl
@[simp] theorem State.withFilter_inputsOf (q : Port) : (s.withFilter l f).inputsOf q = s.inputsOf q := rfl

end


/-! ### withInputsOf -/

section
variable (s : State) (p : Port) (x : PortInputs)

@[simp] theorem State.withInputsOf_pending : (s.withInputsOf p x).pending = s.pending := rfl
@[simp] theorem State.withInputsOf_inReset : (s.withInputsOf p x).inReset = s.inReset := rfl
@[simp] theorem State.withInputsOf_pins : (s.withInputsOf p x).pins = s.pins := rfl
@[simp] theorem State.withInputsOf_now : (s.withInputsOf p x).now = s.now := rfl
@[simp] theorem State.withInputsOf_clock : (s.withInputsOf p x).clock = s.clock := rfl
@[simp] theorem State.withInputsOf_phase : (s.withInputsOf p x).phase = s.phase := rfl
@[simp] theorem State.withInputsOf_ports : (s.withInputsOf p x).ports = s.ports := rfl
@[simp] theorem State.withInputsOf_sessions : (s.withInputsOf p x).sessions = s.sessions := rfl
@[simp] theorem State.withInputsOf_outputs : (s.withInputsOf p x).outputs = s.outputs := rfl
@[simp] theorem State.withInputsOf_inputs : (s.withInputsOf p x).inputs = s.inputs := rfl
@[simp] theorem State.withInputsOf_pairs : (s.withInputsOf p x).pairs = s.pairs := rfl
@[simp] theorem State.withInputsOf_quotas : (s.withInputsOf p x).quotas = s.quotas := rfl
@[simp] theorem State.withInputsOf_arbiter : (s.withInputsOf p x).arbiter = s.arbiter := rfl
@[simp] theorem State.withInputsOf_owners : (s.withInputsOf p x).owners = s.owners := rfl
@[simp] theorem State.withInputsOf_latch : (s.withInputsOf p x).latch = s.latch := rfl
@[simp] theorem State.withInputsOf_runtime : (s.withInputsOf p x).runtime = s.runtime := rfl
@[simp] theorem State.withInputsOf_claims : (s.withInputsOf p x).claims = s.claims := rfl
@[simp] theorem State.withInputsOf_slots : (s.withInputsOf p x).slots = s.slots := rfl
@[simp] theorem State.withInputsOf_dueList : (s.withInputsOf p x).dueList = s.dueList := rfl
@[simp] theorem State.withInputsOf_armedSet : (s.withInputsOf p x).armedSet = s.armedSet := rfl
@[simp] theorem State.withInputsOf_armedThisTick : (s.withInputsOf p x).armedThisTick = s.armedThisTick := rfl
@[simp] theorem State.withInputsOf_filters : (s.withInputsOf p x).filters = s.filters := rfl
@[simp] theorem State.withInputsOf_portInputs : (s.withInputsOf p x).portInputs = s.portInputs.set p x := rfl
@[simp] theorem State.withInputsOf_port (q : Port) : (s.withInputsOf p x).port q = s.port q := rfl
@[simp] theorem State.withInputsOf_session (q : Port) : (s.withInputsOf p x).session q = s.session q := rfl
@[simp] theorem State.withInputsOf_output (j : OutLine) : (s.withInputsOf p x).output j = s.output j := rfl
@[simp] theorem State.withInputsOf_input (j : InLine) : (s.withInputsOf p x).input j = s.input j := rfl
@[simp] theorem State.withInputsOf_pair (j : PairIndex) : (s.withInputsOf p x).pair j = s.pair j := rfl
@[simp] theorem State.withInputsOf_quota (q : Port) : (s.withInputsOf p x).quota q = s.quota q := rfl
@[simp] theorem State.withInputsOf_owner (j : OutLine) : (s.withInputsOf p x).owner j = s.owner j := rfl
@[simp] theorem State.withInputsOf_level (j : OutLine) : (s.withInputsOf p x).level j = s.level j := rfl
@[simp] theorem State.withInputsOf_pairRuntime (j : PairIndex) : (s.withInputsOf p x).pairRuntime j = s.pairRuntime j := rfl
@[simp] theorem State.withInputsOf_claim (q : Port) : (s.withInputsOf p x).claim q = s.claim q := rfl
@[simp] theorem State.withInputsOf_slot (j : SlotIndex) : (s.withInputsOf p x).slot j = s.slot j := rfl
@[simp] theorem State.withInputsOf_step (j : SlotIndex) : (s.withInputsOf p x).step j = s.step j := rfl
@[simp] theorem State.withInputsOf_armedList (j : InLine) : (s.withInputsOf p x).armedList j = s.armedList j := rfl
@[simp] theorem State.withInputsOf_filter (j : InLine) : (s.withInputsOf p x).filter j = s.filter j := rfl

end

/-! ### What an update writes, as its reader reads it -/

section
variable (s : State)

@[simp] theorem State.port_withPort (p q : Port) (h : HostPort) :
    (s.withPort p h).port q = if q = p then h else s.port q := PerPort.get_set s.ports p q h
@[simp] theorem State.session_withSession (p q : Port) (x : Session) :
    (s.withSession p x).session q = if q = p then x else s.session q := PerPort.get_set s.sessions p q x
@[simp] theorem State.output_withOutput (l j : OutLine) (c : OutputConfig) :
    (s.withOutput l c).output j = if j = l then c else s.output j := tget_tset s.outputs l j c
@[simp] theorem State.input_withInput (l j : InLine) (c : InputConfig) :
    (s.withInput l c).input j = if j = l then c else s.input j := tget_tset s.inputs l j c
@[simp] theorem State.pair_withPair (k j : PairIndex) (c : PairConfig) :
    (s.withPair k c).pair j = if j = k then c else s.pair j := tget_tset s.pairs k j c
@[simp] theorem State.level_withLevel (l j : OutLine) (v : Level) :
    (s.withLevel l v).level j = if j = l then v else s.level j := tget_tset s.latch l j v
@[simp] theorem State.pairRuntime_withRuntime (k j : PairIndex) (r : PairRuntime) :
    (s.withRuntime k r).pairRuntime j = if j = k then r else s.pairRuntime j := tget_tset s.runtime k j r
@[simp] theorem State.pairRuntime_withRuntimes (j : PairIndex) (v : Vector PairRuntime 12) :
    (s.withRuntimes v).pairRuntime j = tget v j := rfl
@[simp] theorem State.owner_withOwners (j : OutLine) (v : Vector (Option Port) 24) :
    (s.withOwners v).owner j = tget v j := rfl
@[simp] theorem State.quota_withQuotas (q : Port) (v : PerPort Nat) : (s.withQuotas v).quota q = v.get q := rfl
@[simp] theorem State.claim_withClaim (p q : Port) (c : Option Claim) :
    (s.withClaim p c).claim q = if q = p then c else s.claim q := PerPort.get_set s.claims p q c
@[simp] theorem State.slot_withSlot (i j : SlotIndex) (x : Slot) :
    (s.withSlot i x).slot j = if j = i then x else s.slot j := tget_tset s.slots i j x
@[simp] theorem State.step_withSlot (i j : SlotIndex) (x : Slot) :
    (s.withSlot i x).step j = if j = i then x.step else s.step j := by
  simp only [State.step, State.slot_withSlot]; split <;> rfl
@[simp] theorem State.armedList_withArmedList (l j : InLine) (x : List SlotIndex) :
    (s.withArmedList l x).armedList j = if j = l then x else s.armedList j := tget_tset s.armedSet l j x
@[simp] theorem State.filter_withFilter (l j : InLine) (f : Filter) :
    (s.withFilter l f).filter j = if j = l then f else s.filter j := tget_tset s.filters l j f
@[simp] theorem State.inputsOf_withInputsOf (p q : Port) (x : PortInputs) :
    (s.withInputsOf p x).inputsOf q = if q = p then x else s.inputsOf q := PerPort.get_set s.portInputs p q x

/-- A port written twice keeps the second. -/
@[simp] theorem State.withPort_withPort (p : Port) (h h' : HostPort) :
    (s.withPort p h).withPort p h' = s.withPort p h' := by cases p <;> rfl
/-- A port written with what it holds is no change. -/
@[simp] theorem State.withPort_port (p : Port) : s.withPort p (s.port p) = s := by cases p <;> rfl
@[simp] theorem State.withSession_withSession (p : Port) (x y : Session) :
    (s.withSession p x).withSession p y = s.withSession p y := by cases p <;> rfl
@[simp] theorem State.withRuntime_withRuntime (k : PairIndex) (r r' : PairRuntime) :
    (s.withRuntime k r).withRuntime k r' = s.withRuntime k r' := by simp [State.withRuntime]
@[simp] theorem State.withSlot_withSlot (i : SlotIndex) (x y : Slot) :
    (s.withSlot i x).withSlot i y = s.withSlot i y := by simp [State.withSlot]

end

end Sys2Proof.Machine
end

