-- ==== Sys2Proof/Laws/Ports.lean ====
section
/-! SUPPORT. What the shared operations of a host port do: notices, renewal, the end of a transaction, the taking of a
frame, and the answer to a request. -/

namespace Sys2Proof.Machine

/-! ### Notices (R175) -/

/-- One notice: its port is told, and nothing else changes. -/
theorem State.notify_eq (s : State) (p : Port) (x : Notice) : s.notify (p, x) = s.withPort p ((s.port p).told x) := by
  by_cases h : (s.port p).queue.length ≤ 14 <;>
    simp [State.notify, State.admits, HostPort.told, Config.noticeRoom, State.pushNotice, Notice.entry, h]

@[simp] theorem State.deliver_nil (s : State) : s.deliver [] = s := rfl

@[simp] theorem State.deliver_cons (s : State) (p : Port) (x : Notice) (es : List Emit) :
    s.deliver ((p, x) :: es) = (s.withPort p ((s.port p).told x)).deliver es := by
  rw [← State.notify_eq]; rfl

theorem State.deliver_append (s : State) (es fs : List Emit) : s.deliver (es ++ fs) = (s.deliver es).deliver fs :=
  List.foldl_append

/-- Notices change ports and nothing else. -/
theorem State.deliver_frame (s : State) (es : List Emit) : s.deliver es = { s with ports := (s.deliver es).ports } := by
  induction es generalizing s with
  | nil => rfl
  | cons e es ih =>
    obtain ⟨p, x⟩ := e
    rw [State.deliver_cons, ih]
    rfl

/-- The ports after a delivery. -/
theorem State.deliver_ports (s : State) (es : List Emit) : (s.deliver es).ports = tellAll s.ports es := by
  induction es generalizing s with
  | nil => rfl
  | cons e es ih =>
    obtain ⟨p, x⟩ := e
    rw [State.deliver_cons, ih]
    rfl

/-- The notices that each port is told, in the order they were produced. -/
theorem State.deliver_port (s : State) (es : List Emit) (q : Port) :
    (s.deliver es).port q = ((es.filter fun e => e.1 = q).map Prod.snd).foldl HostPort.told (s.port q) := by
  induction es generalizing s with
  | nil => rfl
  | cons e es ih =>
    obtain ⟨p, x⟩ := e
    rw [State.deliver_cons, ih]
    by_cases h : p = q
    · subst h; simp
    · simp [h, Ne.symm h]

/-- A port to which no notice is addressed keeps its state. -/
theorem State.deliver_port_of_none (s : State) (es : List Emit) (q : Port) (h : ∀ e, e ∈ es → e.1 ≠ q) :
    (s.deliver es).port q = s.port q := by
  rw [State.deliver_port]
  have : (es.filter fun e => e.1 = q) = [] := by simpa using h
  rw [this]; rfl

/-- A notice joins at the back, or not at all. -/
theorem HostPort.told_queue_prefix (h : HostPort) (x : Notice) : h.queue <+: (h.told x).queue := by
  unfold HostPort.told
  split
  · exact List.prefix_append _ _
  · exact List.prefix_refl _

/-- Delivery leaves every queued entry in its place. -/
theorem State.deliver_queue_prefix (s : State) (es : List Emit) (q : Port) :
    (s.port q).queue <+: ((s.deliver es).port q).queue := by
  rw [State.deliver_port]
  generalize ((es.filter fun e => e.1 = q).map Prod.snd) = xs
  generalize s.port q = h
  induction xs generalizing h with
  | nil => exact List.prefix_refl _
  | cons x xs ih => exact (HostPort.told_queue_prefix h x).trans (ih _)

/-- A queue keeps its law when a notice is addressed to it. -/
theorem HostPort.told_queue_law (h : HostPort) (x : Notice)
    (hq : h.queue.length ≤ 16 ∧ noticeCount h.queue ≤ 15) :
    (h.told x).queue.length ≤ 16 ∧ noticeCount (h.told x).queue ≤ 15 := by
  have hc : noticeCount h.queue ≤ h.queue.length := List.countP_le_length
  unfold HostPort.told
  split
  · simp only [List.length_append, List.length_cons, List.length_nil, noticeCount, List.countP_append,
      List.countP_cons, List.countP_nil] at *
    refine ⟨by omega, ?_⟩
    split <;> omega
  · exact hq

/-! ### Renewal (R112) -/

/-- Renewal changes the session alone. -/
theorem State.renew_eq (s : State) (p : Port) : s.renew p = { s with sessions := s.sessionsAfter p } := by
  unfold State.renew State.sessionsAfter
  cases (s.session p).state <;> rfl

/-! ### The end of a transaction (R168) -/

/-- Orders 1 and 2 of R168 change the port and its latch alone. -/
theorem State.fetchEnd_frame (s : State) (p : Port) (x : Transfer) :
    s.fetchEnd p x = { s with ports := (s.fetchEnd p x).ports, portInputs := (s.fetchEnd p x).portInputs } := by
  unfold State.fetchEnd
  split <;> rfl

/-- Without a summary that is due, order 1 is all. -/
theorem State.fetchEnd_of_no_summary {s : State} {p : Port} {x : Transfer} (h : s.summaryDue p x = false) :
    s.fetchEnd p x = s.endTransfer p x := by simp [State.fetchEnd, h]

/-- The port is IDLE after the end of a transaction. -/
theorem State.fetchEnd_idle (s : State) (p : Port) (x : Transfer) :
    ((s.fetchEnd p x).port p).transfer = none ∧ ((s.fetchEnd p x).port p).selected = false := by
  unfold State.fetchEnd
  split <;> simp [State.queueSummary, State.pushNotice, State.endTransfer]

/-! ### Frames and requests -/

/-- A request's KIND byte names that request. -/
@[simp] theorem requestOf_code (r : Request) : requestOf r.code = some r := by cases r <;> decide

/-- A KIND byte that names a request is that request's. -/
theorem code_of_requestOf {kind : Byte} {r : Request} (h : requestOf kind = some r) : kind = r.code := by
  have h' := List.find?_some h
  exact (beq_iff_eq.mp h').symm

/-- A rise whose row's test holds: the transaction ends and its frame is taken. -/
theorem chipSelectRise_of_ends {row : Inbound → Transfer → State → Bool} {serve : Serve} {s s₁ : State} {p : Port}
    {mosi : List Byte} {inbound : Inbound} (h : Ends s p mosi inbound s₁)
    (hr : ∀ x, (s.port p).transfer = some x → row inbound (x.bytes mosi) s = true) :
    chipSelectRise row serve p mosi s = s₁.take p inbound serve := by
  obtain ⟨hreset, x, hx, hi, rfl⟩ := h
  simp [chipSelectRise, hreset, hx, hi, hr x hx]

/-- A request that is carried out is answered. -/
theorem State.take_of_takes {serve : Serve} {s s₁ : State} {p : Port} {mosi : List Byte} {r : Request} {tag crc : Byte}
    {body : List Byte} (h : Takes s p mosi r tag crc body s₁) :
    s₁.take p (.frame r.code tag body crc) serve
      = State.answered p r.code tag crc (answerOf serve p r.code body s₁) := by
  have hroom : ¬16 ≤ (s₁.port p).queue.length := by have := h.room; omega
  simp [State.take, Config.queueEntries, hroom, h.fresh]

/-- A row of a request, on a frame of that request that is carried out. -/
theorem chipSelectRise_of_takes {serve : Serve} {s s₁ : State} {p : Port} {mosi : List Byte} {r : Request}
    {tag crc : Byte} {body : List Byte} (h : Takes s p mosi r tag crc body s₁) :
    chipSelectRise (isRequest r) serve p mosi s
      = State.answered p r.code tag crc (answerOf serve p r.code body s₁) := by
  rw [chipSelectRise_of_ends h.ends (fun x _ => by simp [isRequest]), State.take_of_takes h]

/-- The answer to a request: the session test, the phase test, and the block that owns it. -/
theorem answerOf_request (serve : Serve) (p : Port) (r : Request) (body : List Byte) (s : State) :
    answerOf serve p r.code body s =
      match sessionRefusal r (s.session p).state with
      | some e => refuse e [] (s.renew p)
      | none =>
        match phaseRefusal r s.phase with
        | some e => refuse e [] (s.renew p)
        | none => serve p r body s (s.renew p) := by
  rw [answerOf, requestOf_code] <;> rfl

/-- An answer: the reply is queued and cached, and the notices follow it. -/
theorem State.answered_eq (p : Port) (kind tag crc : Byte) (a : Answer) :
    State.answered p kind tag crc a
      = ({ a.st with ports := a.st.repliedPorts p kind tag crc a.body } : State).deliver a.out := by
  simp only [State.answered, State.pushEntry, State.port_withPort, if_true, State.withPort_withPort]
  rfl

/-- A refusal changes nothing but the reply and, from an OPEN session, the lease. -/
theorem State.answered_refuse (p : Port) (kind tag crc : Byte) (e : Result) (item : List Byte) (s : State) :
    State.answered p kind tag crc (refuse e item (s.renew p))
      = { s with ports := s.repliedPorts p kind tag crc (e.code :: item), sessions := s.sessionsAfter p } := by
  rw [State.answered_eq, State.renew_eq]
  rfl

end Sys2Proof.Machine
end

