-- ==== Sys2Proof/Laws/Interlock.lean ====
section
/-! SUPPORT. What the interlock's operations do: each changes levels and pair runtimes alone, and which. -/

namespace Sys2Proof.Machine

/-! ### The frame of the interlock -/

/-- `t` differs from `s` in the levels and the pair runtimes alone. -/
def OutputsOnly (s t : State) : Prop := t = { s with latch := t.latch, runtime := t.runtime }

theorem OutputsOnly.refl (s : State) : OutputsOnly s s := rfl

theorem OutputsOnly.trans {s t u : State} (h : OutputsOnly s t) (h' : OutputsOnly t u) : OutputsOnly s u := by
  unfold OutputsOnly at *
  rw [h', h]

theorem OutputsOnly.foldl {α : Type} {f : State → α → State} (hf : ∀ s a, OutputsOnly s (f s a)) (l : List α)
    (s : State) : OutputsOnly s (l.foldl f s) := by
  induction l generalizing s with
  | nil => exact OutputsOnly.refl s
  | cons a l ih => exact (hf s a).trans (ih _)

theorem OutputsOnly.foldl_work {α : Type} {f : Work → α → Work} (hf : ∀ w a, OutputsOnly w.st (f w a).st) (l : List α)
    (w : Work) : OutputsOnly w.st (l.foldl f w).st := by
  induction l generalizing w with
  | nil => exact OutputsOnly.refl _
  | cons a l ih => exact (hf w a).trans (ih _)

/-- A notice in a work leaves its state alone. -/
@[simp] theorem Work.emit_st (w : Work) (e : Emit) : (w.emit e).st = w.st := rfl

@[simp] theorem Work.emitTo_st (w : Work) (o : Option Port) (x : Notice) : (w.emitTo o x).st = w.st := by
  cases o <;> rfl

@[simp] theorem reportDrop_st (w : Work) (y : OutLine) (owner : Option Port) (o : RiseOutcome) :
    (reportDrop w y owner o).st = w.st := by cases o <;> simp [reportDrop]

theorem outputsOnly_grantRise (k : PairIndex) (l : OutLine) (s : State) : OutputsOnly s (grantRise k l s) := rfl

theorem outputsOnly_recordFall (k : PairIndex) (z : OutLine) (s : State) : OutputsOnly s (recordFall k z s) := by
  unfold recordFall
  dsimp only
  split <;> rfl

theorem outputsOnly_fallLine (l : OutLine) (s : State) : OutputsOnly s (fallLine l s) := by
  unfold fallLine
  dsimp only
  split
  · rfl
  · exact OutputsOnly.trans (t := s.withLevel l .zero) rfl (outputsOnly_recordFall _ _ _)

theorem outputsOnly_overrideRise (k : PairIndex) (l : OutLine) (w : Work) : OutputsOnly w.st (overrideRise k l w).st := by
  unfold overrideRise
  split
  · rfl
  · split
    · rw [Work.emitTo_st]; rfl
    · rfl

theorem outputsOnly_clearLine (w : Work) (l : OutLine) : OutputsOnly w.st (clearLine w l).st := by
  have key : ∀ v : Work, OutputsOnly v.st (if v.st.level l = .one then (⟨fallLine l v.st, v.out⟩ : Work) else v).st := by
    intro v
    split
    · exact outputsOnly_fallLine _ _
    · rfl
  unfold clearLine
  dsimp only
  cases w.st.pairOf l with
  | none => exact key w
  | some k => exact (outputsOnly_overrideRise k l w).trans (key _)

theorem outputsOnly_requestRise (s : State) (y : OutLine) (owner : Option Port) :
    OutputsOnly s (requestRise s y owner).1 := by
  unfold requestRise
  split
  · split
    · rfl
    · split <;> rfl
  · rfl

theorem outputsOnly_withdrawRises (f : DeferredRise → Bool) (s : State) : OutputsOnly s (withdrawRises f s) := rfl

theorem outputsOnly_safeDrive (m : LineMask) (s : State) : OutputsOnly s (safeDrive m s) := by
  refine OutputsOnly.foldl (fun s k => ?_) _ s
  refine OutputsOnly.trans (OutputsOnly.foldl (f := safeFall m) (fun s l => ?_) _ s)
    (OutputsOnly.foldl (f := safeRise m) (fun s l => ?_) _ _)
  · unfold safeFall; split
    · exact outputsOnly_fallLine _ _
    · rfl
  · unfold safeRise; split
    · exact outputsOnly_requestRise _ _ _
    · rfl

theorem outputsOnly_driveLine (l : OutLine) (v : Level) (s : State) : OutputsOnly s (driveLine l v s) := by
  unfold driveLine
  split
  · exact outputsOnly_fallLine _ _
  · rfl

theorem outputsOnly_directDrive (s : State) : OutputsOnly s (directDrive s) := by
  refine OutputsOnly.foldl (fun s l => ?_) _ s
  unfold driveSafe
  split
  · exact outputsOnly_driveLine _ _ _
  · rfl

theorem outputsOnly_endGuard (s : State) (k : PairIndex) : OutputsOnly s (endGuard s k) := by
  unfold endGuard
  split
  · rfl
  · split
    · dsimp only
      split <;> rfl
    · rfl

theorem outputsOnly_endFallRecord (s : State) (k : PairIndex) : OutputsOnly s (endFallRecord s k) := by
  unfold endFallRecord
  split <;> rfl

theorem outputsOnly_holdEnd (w : Work) (k : PairIndex) : OutputsOnly w.st (holdEnd w k).st := by
  unfold holdEnd
  split
  · dsimp only
    split
    · exact outputsOnly_endGuard _ _
    · rw [Work.emitTo_st]
      exact (outputsOnly_endGuard w.st k).trans rfl
  · rfl

/-! ### Pairs -/

/-- The pair of a line is valid and holds it. -/
theorem State.pairOf_some {s : State} {l : OutLine} {k : PairIndex} (h : s.pairOf l = some k) :
    (s.pair k).valid = true ∧ (s.pair k).holds l = true := by
  have := List.find?_some h
  simpa using this

/-- A line is in no valid pair exactly when no valid pair holds it. -/
theorem State.pairOf_none {s : State} {l : OutLine} :
    s.pairOf l = none ↔ ∀ k, (s.pair k).valid = true → (s.pair k).holds l = false := by
  simp [State.pairOf]

/-- Under the law of the pair records, the pair of a line is the one valid pair that holds it. -/
theorem State.pairOf_eq {s : State} (law : PairConfigLaw s) {l : OutLine} {k : PairIndex}
    (hv : (s.pair k).valid = true) (hl : (s.pair k).holds l = true) : s.pairOf l = some k := by
  cases h : s.pairOf l with
  | none => rw [State.pairOf_none.mp h k hv] at hl; cases hl
  | some j =>
    obtain ⟨hj, hjl⟩ := State.pairOf_some h
    rw [law.apart j k l hj hv hjl hl]

/-- The partner of a line of an entry is a line of the entry. -/
theorem PairConfig.holds_partner (c : PairConfig) (l : OutLine) : c.holds (c.partner l) = true := by
  unfold PairConfig.holds PairConfig.partner
  split <;> simp

/-- The partner of the partner of a line of an entry is the line. -/
theorem PairConfig.partner_partner (c : PairConfig) (l : OutLine) (h : c.holds l = true) :
    c.partner (c.partner l) = l := by
  unfold PairConfig.holds at h
  unfold PairConfig.partner
  by_cases ha : c.a = l <;> by_cases hb : c.b = c.a <;> simp_all

/-- A line in no valid pair is no line's partner in one. -/
theorem State.ne_partner {s : State} {l z : OutLine} {k : PairIndex} (hl : s.pairOf l = none)
    (hz : s.pairOf z = some k) : l ≠ (s.pair k).partner z := by
  rintro rfl
  have := State.pairOf_none.mp hl k (State.pairOf_some hz).1
  rw [PairConfig.holds_partner] at this
  cases this

/-! ### Levels of lines in no valid pair -/

/-- A fall of another line, or of a line in a pair, leaves the level of a line in no valid pair. -/
theorem level_fallLine_of_unpaired {s : State} {l z : OutLine} (hl : s.pairOf l = none) :
    (fallLine z s).level l = if l = z then .zero else s.level l := by
  unfold fallLine
  dsimp only
  cases hz : s.pairOf z with
  | none => simp
  | some k =>
    have hp := State.ne_partner hl hz
    simp only [recordFall]
    split <;> simp [grantRise, hp]

/-- A rise asked for leaves the level of every other line that is in no valid pair. -/
theorem level_requestRise_of_unpaired {s : State} {l y : OutLine} {o : Option Port} (hl : s.pairOf l = none) :
    (requestRise s y o).1.level l = if l = y ∧ s.level y = .zero then .one else s.level l := by
  unfold requestRise
  split
  · next h =>
    cases hy : s.pairOf y with
    | none => simp [h]
    | some k =>
      have hne : l ≠ y := by rintro rfl; rw [hl] at hy; cases hy
      dsimp only
      split <;> simp [hne]
  · next h => simp [h]

/-! ### Withdrawals -/

@[simp] theorem pairRuntime_withdrawRises (f : DeferredRise → Bool) (s : State) (k : PairIndex) :
    (withdrawRises f s).pairRuntime k = dropDeferred f (s.pairRuntime k) := by simp [withdrawRises]

/-- What a withdrawal leaves of one pair's runtime. -/
theorem dropDeferred_eq (f : DeferredRise → Bool) (r : PairRuntime) :
    dropDeferred f r = { r with deferred := r.deferred.filter fun d => !f d } := by
  unfold dropDeferred
  cases r with
  | mk fall guard deferred =>
    cases deferred with
    | none => rfl
    | some d => cases h : f d <;> simp [h, Option.filter]

/-- After RUN ends no rise is deferred. -/
theorem deferred_discardRises (s : State) (k : PairIndex) : ((discardRises s).pairRuntime k).deferred = none := by
  unfold discardRises
  rw [pairRuntime_withdrawRises, dropDeferred_eq]
  cases (s.pairRuntime k).deferred <;> rfl

end Sys2Proof.Machine
end

