-- ==== Sys2Proof/Laws/Calendar.lean ====
section
/-! SUPPORT. What the calendar's operations do to slots and collections, and what becomes of a step that fires. -/

namespace Sys2Proof.Machine

/-! ### The frame of the calendar -/

/-- `t` differs from `s` in the calendar alone. -/
def CalendarOnly (s t : State) : Prop :=
  t = { s with slots := t.slots, dueList := t.dueList, armedSet := t.armedSet, armedThisTick := t.armedThisTick }

theorem CalendarOnly.refl (s : State) : CalendarOnly s s := rfl

theorem CalendarOnly.trans {s t u : State} (h : CalendarOnly s t) (h' : CalendarOnly t u) : CalendarOnly s u := by
  unfold CalendarOnly at *
  rw [h', h]

theorem CalendarOnly.foldl {α : Type} {f : State → α → State} (hf : ∀ s a, CalendarOnly s (f s a)) (l : List α)
    (s : State) : CalendarOnly s (l.foldl f s) := by
  induction l generalizing s with
  | nil => exact CalendarOnly.refl s
  | cons a l ih => exact (hf s a).trans (ih _)

theorem calendarOnly_leave (i : SlotIndex) (s : State) : CalendarOnly s (leave i s) := rfl
theorem calendarOnly_putStep (i : SlotIndex) (st : StepRecord) (s : State) : CalendarOnly s (putStep i st s) := rfl
theorem calendarOnly_freeSlot (i : SlotIndex) (s : State) : CalendarOnly s (freeSlot i s) := rfl
theorem calendarOnly_enterDue (i : SlotIndex) (s : State) : CalendarOnly s (enterDue i s) := rfl
theorem calendarOnly_enterArmed (i : SlotIndex) (l : InLine) (s : State) : CalendarOnly s (enterArmed i l s) := rfl

theorem calendarOnly_freeSlots (is : List SlotIndex) (s : State) : CalendarOnly s (freeSlots is s) :=
  CalendarOnly.foldl (fun s i => calendarOnly_freeSlot i s) is s

theorem calendarOnly_trimSlot (p : Port) (m : LineMask) (s : State) (i : SlotIndex) :
    CalendarOnly s (trimSlot p m s i) := by
  unfold trimSlot
  split
  · rfl
  · split
    · split <;> rfl
    · rfl

theorem calendarOnly_trim (p : Port) (m : LineMask) (s : State) : CalendarOnly s (trim p m s) :=
  CalendarOnly.foldl (fun s i => calendarOnly_trimSlot p m s i) _ s

theorem calendarOnly_settleSlot (i : SlotIndex) (st : StepRecord) (x : Settled) (s : State) :
    CalendarOnly s (settleSlot i st x s) := by
  unfold settleSlot
  split
  · rfl
  · split <;> rfl
  · rfl

/-! ### Slots -/

@[simp] theorem slot_leave (i j : SlotIndex) (s : State) : (leave i s).slot j = s.slot j := rfl

@[simp] theorem slot_putStep (i j : SlotIndex) (st : StepRecord) (s : State) :
    (putStep i st s).slot j = if j = i then { s.slot i with step := some st } else s.slot j := by simp [putStep]

/-- A freed slot is empty and its generation has moved on (R7). -/
@[simp] theorem slot_freeSlot (i j : SlotIndex) (s : State) :
    (freeSlot i s).slot j = if j = i then { generation := (s.slot i).generation + 1, step := none } else s.slot j := by
  simp [freeSlot]

@[simp] theorem slot_enterDue (i j : SlotIndex) (s : State) : (enterDue i s).slot j = s.slot j := rfl

@[simp] theorem slot_enterArmed (i j : SlotIndex) (l : InLine) (s : State) : (enterArmed i l s).slot j = s.slot j := rfl

/-- The slots of a list without repeats, freed one after the other. -/
theorem slot_freeSlots {is : List SlotIndex} (hn : is.Nodup) (j : SlotIndex) (s : State) :
    (freeSlots is s).slot j
      = if j ∈ is then { generation := (s.slot j).generation + 1, step := none } else s.slot j := by
  induction is generalizing s with
  | nil => simp [freeSlots]
  | cons i is ih =>
    obtain ⟨hi, hn⟩ := List.nodup_cons.mp hn
    have h := ih hn (freeSlot i s)
    simp only [freeSlots, List.foldl_cons] at h ⊢
    rw [h]
    by_cases hj : j = i
    · subst hj; simp [hi]
    · simp [hj]

theorem everySlot_nodup : everySlot.Nodup := List.nodup_finRange 64

/-- A purge frees the port's steps and no other slot (R13). -/
theorem slot_purge (p : Port) (j : SlotIndex) (s : State) :
    (purge p s).slot j
      = if s.ownsStep p j then { generation := (s.slot j).generation + 1, step := none } else s.slot j := by
  unfold purge State.slotsOf
  rw [slot_freeSlots (everySlot_nodup.filter _)]
  simp

/-- A purge of the whole calendar frees every occupied slot (R13). -/
theorem slot_purgeAll (j : SlotIndex) (s : State) :
    (purgeAll s).slot j
      = if (s.step j).isSome then { generation := (s.slot j).generation + 1, step := none } else s.slot j := by
  unfold purgeAll State.occupied
  rw [slot_freeSlots (everySlot_nodup.filter _)]
  simp

/-- One slot's trim touches that slot alone. -/
theorem slot_trimSlot_ne {p : Port} {m : LineMask} {s : State} {i j : SlotIndex} (h : j ≠ i) :
    (trimSlot p m s i).slot j = s.slot j := by
  unfold trimSlot
  split
  · rfl
  · split
    · split <;> simp [h]
    · rfl

/-- The firing of one step touches its slot alone. -/
theorem slot_settleSlot_ne {i j : SlotIndex} {st : StepRecord} {x : Settled} {s : State} (h : j ≠ i) :
    (settleSlot i st x s).slot j = s.slot j := by
  unfold settleSlot
  split
  · simp [h]
  · split <;> simp [h]
  · simp [h]

/-! ### Collections -/

@[simp] theorem dueList_leave (i : SlotIndex) (s : State) : (leave i s).dueList = s.dueList.filter (· ≠ i) := rfl

@[simp] theorem armedList_leave (i : SlotIndex) (s : State) (l : InLine) :
    (leave i s).armedList l = (s.armedList l).filter (· ≠ i) := by simp [leave, State.armedList]

@[simp] theorem dueList_freeSlot (i : SlotIndex) (s : State) : (freeSlot i s).dueList = s.dueList.filter (· ≠ i) := rfl

@[simp] theorem armedList_freeSlot (i : SlotIndex) (s : State) (l : InLine) :
    (freeSlot i s).armedList l = (s.armedList l).filter (· ≠ i) := by simp [freeSlot]

@[simp] theorem dueList_putStep (i : SlotIndex) (st : StepRecord) (s : State) :
    (putStep i st s).dueList = s.dueList := rfl

@[simp] theorem armedList_putStep (i : SlotIndex) (st : StepRecord) (s : State) (l : InLine) :
    (putStep i st s).armedList l = s.armedList l := rfl

@[simp] theorem dueList_enterDue (i : SlotIndex) (s : State) :
    (enterDue i s).dueList = insertDue s.dueLead i s.dueList := rfl

@[simp] theorem armedList_enterDue (i : SlotIndex) (s : State) (l : InLine) :
    (enterDue i s).armedList l = s.armedList l := rfl

@[simp] theorem dueList_enterArmed (i : SlotIndex) (l : InLine) (s : State) :
    (enterArmed i l s).dueList = s.dueList := rfl

@[simp] theorem armedList_enterArmed (i : SlotIndex) (l j : InLine) (s : State) :
    (enterArmed i l s).armedList j = if j = l then s.armedList l ++ [i] else s.armedList j := by simp [enterArmed]

/-- A step put into a due list stands there once more, and no other step moves (R9). -/
theorem insertDue_perm (f : SlotIndex → Nat) (i : SlotIndex) (l : List SlotIndex) : (insertDue f i l).Perm (i :: l) := by
  induction l with
  | nil => exact List.Perm.refl _
  | cons j l ih =>
    unfold insertDue
    split
    · exact List.Perm.refl _
    · exact (ih.cons j).trans (List.Perm.swap i j l)

@[simp] theorem mem_insertDue {f : SlotIndex → Nat} {i j : SlotIndex} {l : List SlotIndex} :
    j ∈ insertDue f i l ↔ j = i ∨ j ∈ l := by
  rw [(insertDue_perm f i l).mem_iff, List.mem_cons]

/-- The due list stays ordered by lead (R8, R9). -/
theorem insertDue_pairwise {f : SlotIndex → Nat} {i : SlotIndex} {l : List SlotIndex}
    (h : l.Pairwise fun a b => f a ≤ f b) : (insertDue f i l).Pairwise fun a b => f a ≤ f b := by
  induction l with
  | nil => simp [insertDue]
  | cons j l ih =>
    obtain ⟨hj, hl⟩ := List.pairwise_cons.mp h
    unfold insertDue
    split
    · next hlt =>
      refine List.pairwise_cons.mpr ⟨fun a ha => ?_, h⟩
      rcases List.mem_cons.mp ha with rfl | ha
      · omega
      · have := hj a ha; omega
    · next hge =>
      refine List.pairwise_cons.mpr ⟨fun a ha => ?_, ih hl⟩
      rcases mem_insertDue.mp ha with rfl | ha
      · omega
      · exact hj a ha

/-- The slots of a list leave every collection when they are freed. -/
theorem dueList_freeSlots (is : List SlotIndex) (s : State) :
    (freeSlots is s).dueList = s.dueList.filter (· ∉ is) := by
  induction is generalizing s with
  | nil => simp [freeSlots]
  | cons i is ih =>
    have h := ih (freeSlot i s)
    simp only [freeSlots, List.foldl_cons] at h ⊢
    rw [h, dueList_freeSlot, List.filter_filter]
    congr 1
    funext a
    by_cases ha : a = i <;> simp [ha]

theorem armedList_freeSlots (is : List SlotIndex) (s : State) (l : InLine) :
    (freeSlots is s).armedList l = (s.armedList l).filter (· ∉ is) := by
  induction is generalizing s with
  | nil => simp [freeSlots]
  | cons i is ih =>
    have h := ih (freeSlot i s)
    simp only [freeSlots, List.foldl_cons] at h ⊢
    rw [h, armedList_freeSlot, List.filter_filter]
    congr 1
    funext a
    by_cases ha : a = i <;> simp [ha]

/-! ### A step that fires -/

theorem capRun_eq (n : Nat) : capRun n = min n 255 := by
  unfold capRun Config.runIndexMax
  split <;> omega

/-- What a slot holds after the last run of its step. -/
theorem afterLastRun_settleSlot {i : SlotIndex} {st : StepRecord} {s : State} {n sk : Nat} :
    AfterLastRun st s.now (s.slot i).generation
      ((settleSlot i st { runIndex := n, skipped := sk, after := lastRun st s.now } s).slot i) := by
  unfold AfterLastRun
  cases hk : st.kind with
  | timed => simp [settleSlot, lastRun, hk]
  | armed a =>
    dsimp only
    have hw : windowReached st s.now = true ↔ ¬∀ w, a.window = some w → w.reached = false ∧ w.tick ≠ s.now := by
      unfold windowReached StepRecord.window
      simp only [hk]
      cases a.window with
      | none => simp
      | some w => cases hr : w.reached <;> simp [hr]
    by_cases hr : st.flags.rearm = true
    · by_cases hc : ∀ w, a.window = some w → w.reached = false ∧ w.tick ≠ s.now
      · have hf : windowReached st s.now = false := by
          cases h : windowReached st s.now with
          | false => rfl
          | true => exact absurd hc (hw.mp h)
        rw [if_pos ⟨hr, hc⟩]
        simp [settleSlot, lastRun, hk, hr, hf, rearmed]
      · rw [if_neg (fun h => hc h.2)]
        simp [settleSlot, lastRun, hk, hr, hw.mpr hc]
    · rw [if_neg (fun h => hr h.1)]
      simp [settleSlot, lastRun, hk, hr]

/-- What a slot holds after a firing of its step, by catch-up or at its due (R44 to R47). -/
theorem afterFiring_settleSlot {i : SlotIndex} {st : StepRecord} {due : Tick} {s : State} :
    AfterFiring st due s.now (s.slot i).generation ((settleSlot i st (settleRun st due s.now) s).slot i) := by
  unfold AfterFiring settleRun
  cases hr : st.rep with
  | none => exact afterLastRun_settleSlot
  | some r =>
    cases hm : r.remaining with
    | unbounded =>
      simp only [hm]
      simp [settleSlot, capRun_eq, after]
    | count n =>
      simp only [hm]
      by_cases hlt : lateness due s.now / r.period + 1 < n
      · simp [settleSlot, capRun_eq, after, hlt]
      · rw [if_neg hlt, if_neg hlt]
        exact afterLastRun_settleSlot

end Sys2Proof.Machine
end

