-- ==== Sys2Proof/Laws/Firing.lean ====
section
/-! SUPPORT. What firings, arbiter passes, tick arrivals and phase changes do to the state besides their notices: the
frames of the shared operations above the calendar and the interlock. -/

namespace Sys2Proof.Machine

/-! ### Firings -/

theorem outputsOnly_applySet (k : Bank) (fs : List Firing) (m : Merge) (i : Position) :
    OutputsOnly m.work.st (applySet k fs m i).work.st := by
  unfold applySet
  split
  · rfl
  · split
    · dsimp only
      split <;> simpa using outputsOnly_requestRise _ _ _
    · rfl

/-- One bank firing changes levels and pair runtimes alone. -/
theorem outputsOnly_fireBank (fs : List Firing) (w : Work) (k : Bank) : OutputsOnly w.st (fireBank fs w k).st := by
  have hset : ∀ (here : List Firing) (l : List Position) (m : Merge),
      OutputsOnly m.work.st (l.foldl (applySet k here) m).work.st := by
    intro here l
    induction l with
    | nil => exact fun m => OutputsOnly.refl _
    | cons i l ih => exact fun m => (outputsOnly_applySet k here m i).trans (ih _)
  unfold fireBank applyBank
  exact (OutputsOnly.foldl_work (fun w i => outputsOnly_clearLine w (lineAt k i)) _ w).trans (hset _ _ _)

/-- The calendar's part of a firing touches the calendar alone. -/
theorem calendarOnly_settleAll (fs : List Firing) (s : State) : CalendarOnly s (settleAll fs s) :=
  CalendarOnly.foldl (fun _ _ => calendarOnly_settleSlot _ _ _ _) fs s

/-- Steps that fire change the calendar, the levels and the pair runtimes, and nothing else. -/
theorem fireSteps_frame (fs : List Firing) (s : State) :
    (fireSteps fs s).st =
      { s with
        slots := (fireSteps fs s).st.slots, dueList := (fireSteps fs s).st.dueList
        armedSet := (fireSteps fs s).st.armedSet, armedThisTick := (fireSteps fs s).st.armedThisTick
        latch := (fireSteps fs s).st.latch, runtime := (fireSteps fs s).st.runtime } := by
  have h1 := calendarOnly_settleAll fs s
  have h2 : OutputsOnly (settleAll fs s) (fireSteps fs s).st :=
    OutputsOnly.foldl_work (fun w k => outputsOnly_fireBank fs w k) everyBank (Work.of (settleAll fs s))
  unfold OutputsOnly at h2
  unfold CalendarOnly at h1
  rw [h2, h1]

/-- Levels and pair runtimes aside, a firing leaves what its calendar part leaves. -/
theorem fireSteps_slot (fs : List Firing) (s : State) (i : SlotIndex) :
    (fireSteps fs s).st.slot i = (settleAll fs s).slot i := by
  have h2 : OutputsOnly (settleAll fs s) (fireSteps fs s).st :=
    OutputsOnly.foldl_work (fun w k => outputsOnly_fireBank fs w k) everyBank (Work.of (settleAll fs s))
  unfold OutputsOnly at h2
  rw [h2]
  rfl

/-! ### Ownership -/

/-- `t` differs from `s` in owners, pair runtimes, claims and the arbiter alone. -/
def OwnersOnly (s t : State) : Prop :=
  t = { s with owners := t.owners, runtime := t.runtime, claims := t.claims, arbiter := t.arbiter }

theorem OwnersOnly.refl (s : State) : OwnersOnly s s := rfl

theorem OwnersOnly.trans {s t u : State} (h : OwnersOnly s t) (h' : OwnersOnly t u) : OwnersOnly s u := by
  unfold OwnersOnly at *
  rw [h', h]

theorem ownersOnly_withOwners (s : State) (v : Vector (Option Port) 24) : OwnersOnly s (s.withOwners v) := rfl
theorem ownersOnly_withRuntimes (s : State) (v : Vector PairRuntime 12) : OwnersOnly s (s.withRuntimes v) := rfl
theorem ownersOnly_withClaim (s : State) (p : Port) (c : Option Claim) : OwnersOnly s (s.withClaim p c) := rfl
theorem ownersOnly_withArbiter (s : State) (a : Arbiter) : OwnersOnly s (s.withArbiter a) := rfl

theorem ownersOnly_grantLines (p : Port) (m : LineMask) (s : State) : OwnersOnly s (grantLines p m s) :=
  (ownersOnly_withOwners s _).trans (ownersOnly_withRuntimes _ _)

@[simp] theorem owner_setOwners (m : LineMask) (o : Option Port) (s : State) (l : OutLine) :
    (setOwners m o s).owner l = if inMask m l then o else s.owner l := by simp [setOwners]

/-- A grant gives the port the free lines of the mask and no other (R92, R101). -/
@[simp] theorem owner_grantLines (p : Port) (m : LineMask) (s : State) (l : OutLine) :
    (grantLines p m s).owner l = if inMask m l = true ∧ s.owner l = none then some p else s.owner l := by
  unfold grantLines withdrawOwnerless withdrawRises
  rw [State.withRuntimes_owner, owner_setOwners]
  simp [State.freeIn]

/-- A grant withdraws the ownerless deferred rises on the newly granted lines and touches no other runtime (R80). -/
theorem pairRuntime_grantLines (p : Port) (m : LineMask) (s : State) (k : PairIndex) :
    (grantLines p m s).pairRuntime k
      = dropDeferred (fun d => inMask (s.freeIn m) d.line && d.owner.isNone) (s.pairRuntime k) := by
  unfold grantLines withdrawOwnerless setOwners
  rw [pairRuntime_withdrawRises, State.withOwners_pairRuntime]

/-- A port's turn changes owners, pair runtimes, claims and the arbiter alone. -/
theorem ownersOnly_arbiterTurn (w : Work) (p : Port) : OwnersOnly w.st (arbiterTurn w p).st := by
  unfold arbiterTurn
  split
  · exact OwnersOnly.refl _
  · split
    · exact ((ownersOnly_grantLines _ _ _).trans (ownersOnly_withClaim _ _ _)).trans (ownersOnly_withArbiter _ _)
    · exact OwnersOnly.refl _

/-- The lines of `m` that a port other than `p` owns: none exactly when every line of `m` is free or `p`'s own (R92). -/
theorem conflicts_eq_zero {s : State} {p : Port} {m : LineMask} :
    s.conflicts p m = 0 ↔ ∀ l, inMask m l = true → s.owner l = none ∨ s.owner l = some p := by
  rw [mask_eq_zero]
  refine forall_congr' fun l => ?_
  simp only [State.conflicts, inMask_lineSet]
  cases inMask m l <;> cases s.owner l <;> simp

/-! ### Tick arrivals (R126, R140) -/

/-- One sample of a used line does what R126's table says. -/
theorem sampledBy_sampleFilter (f : Nat) (now : Tick) (b : Bool) (x : Filter) :
    SampledBy f now b x (sampleFilter f now b x) := by
  obtain ⟨accepted, runCount, runStart, lastSample, edgeDue⟩ := x
  cases accepted with
  | none => constructor <;> simp [sampleFilter]
  | some a =>
    by_cases hab : b = a
    · subst hab
      constructor <;> simp [sampleFilter]
    · have ha : a = !b := by cases a <;> cases b <;> simp_all
      subst ha
      by_cases hf : runCount + 1 ≤ f
      · constructor <;> simp [sampleFilter, hf]
        omega
      · constructor <;> simp [sampleFilter, hf]

/-- At a tick arrival NOW advances by one and every used input line is sampled. -/
theorem tickArrival_eq (s : State) :
    ∃ fs, Sampled s (s.now + 1) s.pins fs
      ∧ tickArrival s = { s with now := s.now + 1, armedThisTick := [], filters := fs } := by
  refine ⟨(tickArrival s).filters, fun l => ?_, rfl⟩
  have h : tget (tickArrival s).filters l
      = if (s.input l).used then sampleFilter (s.input l).filter (s.now + 1) (inMask s.pins l) (s.filter l)
        else s.filter l := by
    simp only [tickArrival, sampleInputs, tget_table]
    rfl
  rw [h]
  exact ⟨fun hu => by simp [hu], fun hu => by rw [if_pos hu]; exact sampledBy_sampleFilter _ _ _ _⟩

/-! ### Tick-driven work and the clock-presence flag (R70, R74, R114) -/

/-- Outside reset and with the clock present, a row of tick-driven work does its work. -/
theorem State.atTick_of_present {s : State} (f : State → State) (hr : s.inReset = false) (hp : s.clock.present = true) :
    s.atTick f = f s := by
  simp [State.atTick, State.timeRuns, hr, hp]

/-- While the clock is lost, such a row does nothing. -/
theorem State.atTick_of_lost {s : State} (f : State → State) (hp : s.clock.present = false) : s.atTick f = s := by
  simp [State.atTick, State.timeRuns, hp]

/-- With no work left at NOW, settling does nothing. -/
theorem settle_of_quiet {s : State} (h : s.quiet = true) : settle s = s := if_pos h

/-- With no guard end, fall record end or lease deadline at NOW, nothing comes before a loss. -/
theorem workBeforeLoss_of_none {s : State} (hk : ∀ k, guardEndsNow s k = false ∧ fallRecordEndsNow s k = false)
    (hp : ∀ p, leaseEndsNow s p = false) : workBeforeLoss s = s := by
  have guards : guardEndWork 11 s = s := List.foldl_fixed' (fun k => by
    have h := (hk k).1
    unfold guardEndsNow at h
    unfold endGuard
    cases hg : (s.pairRuntime k).guard with
    | none => rfl
    | some g => simp_all) _
  have falls : fallRecordEndWork 11 s = s := List.foldl_fixed' (fun k => by simp [endFallRecord, (hk k).2]) _
  unfold workBeforeLoss
  rw [guards, falls]
  exact List.foldl_fixed' (fun p => by simp [lapseWork, hp p]) _

end Sys2Proof.Machine
end

