-- ==== Sys2Proof/Laws/PerInstr.lean ====
section
/-! SUPPORT. The family Frames of statements about every command, made per constructor: the bytes that a well-formed command
carries are a frame of the command's own row. -/

namespace Sys2Proof.Laws.Frames

open Sys2Proof Sys2Proof.Machine

/-- A command that is a rise of chip select is well formed exactly when its bytes are none or a frame of its row; any other
command is well formed. -/
def Statement (i : Instr) : Prop :=
  (i.rise = none → i.wellFormed = true)
    ∧ ∀ p row mosi, i.rise = some (p, row, mosi) →
        (i.wellFormed = true ↔ mosi = [] ∨ row.admits (readInbound mosi) = true)

/-- The statement holds of every command. -/
theorem of_rise (i : Instr) : Statement i := by
  refine ⟨fun h => by simp [Instr.wellFormed, h], fun p row mosi h => ?_⟩
  simp [Instr.wellFormed, h]

theorem transactionBegin (p : Port) : Statement (Instr.transactionBegin p) := of_rise _
theorem nop (p : Port) (mosi : List Byte) : Statement (Instr.nop p mosi) := of_rise _
theorem edgeSummary (p : Port) (mosi : List Byte) : Statement (Instr.edgeSummary p mosi) := of_rise _
theorem eFrame (p : Port) (mosi : List Byte) : Statement (Instr.eFrame p mosi) := of_rise _
theorem eKind (p : Port) (mosi : List Byte) : Statement (Instr.eKind p mosi) := of_rise _
theorem status (p : Port) (mosi : List Byte) : Statement (Instr.status p mosi) := of_rise _
theorem openSession (p : Port) (mosi : List Byte) : Statement (Instr.openSession p mosi) := of_rise _
theorem closeSession (p : Port) (mosi : List Byte) : Statement (Instr.closeSession p mosi) := of_rise _
theorem renew (p : Port) (mosi : List Byte) : Statement (Instr.renew p mosi) := of_rise _
theorem readTime (p : Port) (mosi : List Byte) : Statement (Instr.readTime p mosi) := of_rise _
theorem setTime (p : Port) (mosi : List Byte) : Statement (Instr.setTime p mosi) := of_rise _
theorem configWriteTimebase (p : Port) (mosi : List Byte) : Statement (Instr.configWriteTimebase p mosi) := of_rise _
theorem configWriteOutputLine (p : Port) (mosi : List Byte) : Statement (Instr.configWriteOutputLine p mosi) := of_rise _
theorem configWriteInputLine (p : Port) (mosi : List Byte) : Statement (Instr.configWriteInputLine p mosi) := of_rise _
theorem configWritePair (p : Port) (mosi : List Byte) : Statement (Instr.configWritePair p mosi) := of_rise _
theorem configWriteQuota (p : Port) (mosi : List Byte) : Statement (Instr.configWriteQuota p mosi) := of_rise _
theorem configWriteArbiter (p : Port) (mosi : List Byte) : Statement (Instr.configWriteArbiter p mosi) := of_rise _
theorem configRead (p : Port) (mosi : List Byte) : Statement (Instr.configRead p mosi) := of_rise _
theorem start (p : Port) (mosi : List Byte) : Statement (Instr.start p mosi) := of_rise _
theorem stop (p : Port) (mosi : List Byte) : Statement (Instr.stop p mosi) := of_rise _
theorem clearFault (p : Port) (mosi : List Byte) : Statement (Instr.clearFault p mosi) := of_rise _
theorem claim (p : Port) (mosi : List Byte) : Statement (Instr.claim p mosi) := of_rise _
theorem claimWithdraw (p : Port) (mosi : List Byte) : Statement (Instr.claimWithdraw p mosi) := of_rise _
theorem release (p : Port) (mosi : List Byte) : Statement (Instr.release p mosi) := of_rise _
theorem owners (p : Port) (mosi : List Byte) : Statement (Instr.owners p mosi) := of_rise _
theorem readOutputs (p : Port) (mosi : List Byte) : Statement (Instr.readOutputs p mosi) := of_rise _
theorem pairStatus (p : Port) (mosi : List Byte) : Statement (Instr.pairStatus p mosi) := of_rise _
theorem place (p : Port) (mosi : List Byte) : Statement (Instr.place p mosi) := of_rise _
theorem cancel (p : Port) (mosi : List Byte) : Statement (Instr.cancel p mosi) := of_rise _
theorem cancelAll (p : Port) (mosi : List Byte) : Statement (Instr.cancelAll p mosi) := of_rise _
theorem amend (p : Port) (mosi : List Byte) : Statement (Instr.amend p mosi) := of_rise _
theorem list (p : Port) (mosi : List Byte) : Statement (Instr.list p mosi) := of_rise _
theorem queryStep (p : Port) (mosi : List Byte) : Statement (Instr.queryStep p mosi) := of_rise _
theorem subscribe (p : Port) (mosi : List Byte) : Statement (Instr.subscribe p mosi) := of_rise _
theorem clearPending (p : Port) (mosi : List Byte) : Statement (Instr.clearPending p mosi) := of_rise _
theorem readInputs (p : Port) (mosi : List Byte) : Statement (Instr.readInputs p mosi) := of_rise _
theorem reset : Statement (Instr.reset) := of_rise _
theorem intTick (pins : InputMask) : Statement (Instr.intTick pins) := of_rise _
theorem tclkRise (pins : InputMask) : Statement (Instr.tclkRise pins) := of_rise _
theorem clockLost : Statement (Instr.clockLost) := of_rise _
theorem bankFiring (k : Bank) : Statement (Instr.bankFiring k) := of_rise _
theorem windowEnd : Statement (Instr.windowEnd) := of_rise _
theorem reachedMarker : Statement (Instr.reachedMarker) := of_rise _
theorem edgeEvent (l : InLine) : Statement (Instr.edgeEvent l) := of_rise _
theorem guardEnd (k : PairIndex) : Statement (Instr.guardEnd k) := of_rise _
theorem fallRecordEnd (k : PairIndex) : Statement (Instr.fallRecordEnd k) := of_rise _
theorem holdDeadline (k : PairIndex) : Statement (Instr.holdDeadline k) := of_rise _
theorem waitDeadline (p : Port) : Statement (Instr.waitDeadline p) := of_rise _
theorem lapse (p : Port) : Statement (Instr.lapse p) := of_rise _
theorem spiClockCycle (p : Port) (dataIn : Bool) : Statement (Instr.spiClockCycle p dataIn) := of_rise _
theorem oscillatorPeriod (pins : InputMask) : Statement (Instr.oscillatorPeriod pins) := of_rise _
theorem resetEnd : Statement (Instr.resetEnd) := of_rise _

end Sys2Proof.Laws.Frames
end

