-- ==== Sys2Proof/Laws/Timebase.lean ====
section
/-! SUPPORT. What the counts of the timebase, and a write of its record, can do. -/

namespace Sys2Proof.Machine

@[simp] theorem countSource_source (c : Clock) : (countSource c).source = c.source := by
  unfold countSource; split <;> split <;> simp_all

@[simp] theorem countSource_divider (c : Clock) : (countSource c).divider = c.divider := by
  unfold countSource; split <;> split <;> rfl

@[simp] theorem countSource_lossWindow (c : Clock) : (countSource c).lossWindow = c.lossWindow := by
  unfold countSource; split <;> split <;> rfl

@[simp] theorem countSource_microseconds (c : Clock) : (countSource c).microseconds = c.microseconds := by
  unfold countSource; split <;> split <;> rfl

@[simp] theorem countSource_present (c : Clock) : (countSource c).present = c.present := by
  unfold countSource; split <;> split <;> rfl

/-- Under INT only the prescaler and the tick that is due move (R141). -/
theorem countSource_int {c : Clock} (h : c.source = .int) :
    countSource c =
      if c.divider ≤ c.prescaler + 1 then { c with prescaler := 0, tickDue := true }
      else { c with prescaler := c.prescaler + 1 } := by
  simp [countSource, h]

/-- Under TCLK only the gap count moves (R145). -/
theorem countSource_tclk {c : Clock} (h : c.source = .tclk) :
    countSource c = if c.present = true ∧ c.microseconds = 0 then { c with gap := c.gap + 1 } else c := by
  simp [countSource, h]

/-- A count keeps the ranges of a clock whose due tick has been taken and whose flag is set only below the loss window. -/
theorem countSource_ranges {c : Clock} (hp : c.prescaler < c.divider)
    (hg : c.source = .tclk → c.present = true → c.gap < c.lossWindow) (hw : c.gap ≤ c.lossWindow) :
    (countSource c).prescaler < (countSource c).divider ∧ (countSource c).gap ≤ (countSource c).lossWindow := by
  cases h : c.source with
  | int => rw [countSource_int h]; split <;> constructor <;> (simp_all; try omega)
  | tclk =>
    rw [countSource_tclk h]
    split
    · rename_i hc
      exact ⟨hp, hg h hc.1⟩
    · exact ⟨hp, hw⟩

/-- A write of TIMEBASE touches the clock only. Where the last period has brought a tick or a loss that is not taken yet, that period
counts on what was written (R144, log entry 3). -/
theorem writeTimebase_eq (source : Source) (divider lossWindow : Nat) (s : State) :
    writeTimebase source divider lossWindow s =
      { s with
        clock :=
          if s.clock.tickDue = true ∨ s.lossDue = true then countSource (rewrittenClock source divider lossWindow s.clock)
          else rewrittenClock source divider lossWindow s.clock } := by
  simp [writeTimebase, State.periodPending, State.withClock]

end Sys2Proof.Machine
end

