-- ==== Sys2Proof/Tests/Slice0.lean ====
section
/-! SUPPORT. Tests on small states: the CRC and frames of chapter 12, the well-formedness checks, single commands, and for
every statement with hypotheses a state and operands that meet them. -/

namespace Sys2Proof.Tests

-- one theorem after the other: each is small, and there are many
set_option Elab.async false

open Sys2Proof Sys2Proof.Machine

/-! ### CRC and frames: values from R182, R169 and section 12.1 -/

theorem test_crc_of_zero : crc8 [0x00] = 0x42 := by decide +kernel
theorem test_crc_of_status_step1 : crcByte 0xFF 0x01 = 0x6D := by decide +kernel
theorem test_crc_of_status_step2 : crcByte 0x6D 0x00 = 0x51 := by decide +kernel
theorem test_crc_of_status_step3 : crcByte 0x51 0x00 = 0x67 := by decide +kernel
theorem test_status_request : requestFrame 0x01 0x00 [] = [0x01, 0x00, 0x00, 0x67] := by decide +kernel
theorem test_status_request_is_read :
    readInbound [0x01, 0x00, 0x00, 0x67, 0x55] = .frame 0x01 0x00 [] 0x67 := by decide +kernel
theorem test_no_byte_is_a_pure_fetch : readInbound [] = .pureFetch := by decide +kernel
theorem test_zero_first_is_a_pure_fetch : readInbound [0x00, 0x12, 0x34] = .pureFetch := by decide +kernel
theorem test_kind_alone : readInbound [0x01] = .bad 0x01 0x00 := by decide +kernel
theorem test_kind_and_tag_alone : readInbound [0x01, 0x09] = .bad 0x01 0x09 := by decide +kernel
theorem test_wrong_crc : readInbound [0x01, 0x00, 0x00, 0x66] = .bad 0x01 0x00 := by decide +kernel
theorem test_too_short : readInbound [0x01, 0x07, 0x01, 0x00] = .bad 0x01 0x07 := by decide +kernel
theorem test_longest_body : 48 = Config.maxBody ∧
    readInbound (0x01 :: 0x07 :: 49 :: List.replicate 60 0) = .bad 0x01 0x07 := by decide +kernel
theorem test_idle_frame_kind : (idleFrame 0x04).take 5 = [0x00, 0x00, 0x04, 0x00, 0x00] := by decide +kernel

/-! ### Well-formedness: the check refuses an ill-formed command of each kind -/

theorem test_wellFormed_status : (Instr.status .a [0x01, 0x00, 0x00, 0x67]).wellFormed = true := by decide +kernel
theorem test_illFormed_other_request : (Instr.renew .a [0x01, 0x00, 0x00, 0x67]).wellFormed = false := by decide +kernel
theorem test_illFormed_bad_crc : (Instr.status .a [0x01, 0x00, 0x00, 0x68]).wellFormed = false := by decide +kernel
theorem test_illFormed_not_a_fetch : (Instr.nop .a [0x01, 0x00, 0x00, 0x67]).wellFormed = false := by decide +kernel
theorem test_illFormed_not_bad : (Instr.eFrame .a [0x01, 0x00, 0x00, 0x67]).wellFormed = false := by decide +kernel
theorem test_illFormed_known_kind : (Instr.eKind .a [0x01, 0x00, 0x00, 0x67]).wellFormed = false := by decide +kernel
theorem test_wellFormed_unknown_kind : (Instr.eKind .a (requestFrame 0x7F 0x00 [])).wellFormed = true := by decide +kernel
theorem test_illFormed_other_record :
    (Instr.configWritePair .a (requestFrame 0x10 0x00 [4, 0, 1, 2, 3])).wellFormed = false := by decide +kernel
theorem test_wellFormed_events :
    (Instr.bankFiring 2).wellFormed = true ∧ Instr.reset.wellFormed = true ∧ (Instr.lapse .c).wellFormed = true := by decide +kernel

/-! ### States to try commands on -/

/-- An OPEN session. -/
def opened (period : Nat) (deadline : Tick) (watch : Bool) : Session := ⟨.opened period deadline, watch⟩

/-- SETUP: A OPEN, B OPEN with WATCH_PEERS, C CLOSED; lines 0 to 15 used, line 3 with safe level 1; pair 0 of lines 0 and 1
with guard 5 and hold 3. -/
def setup : State :=
  { State.reset with
    sessions := ⟨opened 100 100 false, opened 50 50 true, ⟨.closed, false⟩⟩
    outputs := table fun l => { used := decide (l.val < 16), safe := decide (l.val = 3) }
    latch := table fun l => if l.val < 16 then (if l.val = 3 then .one else .zero) else .z
    pairs := tset State.reset.pairs 0 { valid := true, a := 0, b := 1, guard := 5, hold := 3 } }

/-- A TIMED step of port A that sets line 2. -/
def timedStep (due : Tick) : StepRecord :=
  { owner := .a, bank := 0, setMask := 4, clearMask := 0, kind := .timed, state := .pending due, rep := none
    runIndex := 0, flags := ⟨true, true, true, false⟩ }

/-- A step of kind ARMED of port A that sets line 2, triggered by rises of IL0 with delay 3. -/
def armedStep (state : StepState) (window : Option WindowEnd) : StepRecord :=
  { owner := .a, bank := 0, setMask := 4, clearMask := 0
    kind := .armed { line := 0, edge := .rise, delay := 3, armTick := 0, window := window }
    state := state, rep := none, runIndex := 0, flags := ⟨false, true, true, true⟩ }

/-- RUN at NOW 0: A owns lines 0 to 3 and B line 9; B waits for line 2. Slot 0 holds a step due now, slot 1 an ARMED step,
slot 2 an ARMED step whose window ends now and slot 3 a PENDING one whose window ends now; IL0 has an edge to take and B
subscribes to it. -/
def running : State :=
  { setup with
    phase := .run
    owners := table fun l => if l.val < 4 then some .a else if l.val = 9 then some .b else none
    claims := ⟨none, some { mask := 0x4, deadline := some 0, enqueued := 0 }, none⟩
    slots := table fun i =>
      { generation := 0
        step :=
          if i.val = 0 then some (timedStep 0)
          else if i.val = 1 then some (armedStep .armed none)
          else if i.val = 2 then some (armedStep .armed (some ⟨0, false⟩))
          else if i.val = 3 then some (armedStep (.pending 9) (some ⟨0, false⟩))
          else none }
    dueList := [0, 3]
    armedSet := table fun l => if l.val = 0 then [1, 2] else []
    filters := table fun l =>
      if l.val = 0 then { accepted := some false, runCount := 0, runStart := none, lastSample := some true, edgeDue := true }
      else Filter.reset
    portInputs := ⟨PortInputs.reset, { PortInputs.reset with subscriptions := Vector.replicate 8 .both }, PortInputs.reset⟩ }

/-- The state a command leaves. -/
def run (c : Instr) (s : State) : State :=
  match exec c s with
  | .next t => t
  | _ => s

theorem test_bank_firing_sets_line_2_and_frees :
    ((run (.bankFiring 0) running).level 2, (run (.bankFiring 0) running).slot 0) = (.one, ⟨1, none⟩) := by decide +kernel
theorem test_bank_firing_sends_two_notices :
    ((run (.bankFiring 0) running).port .a).queue.map Entry.code = [0x01, 0x02] := by decide +kernel

/-! ### Witnesses: states and operands that meet the hypotheses of the statements -/

/-- `s` with port `p` SHIFTING, these bytes received and an idle frame going out. -/
def shifting (s : State) (p : Port) (bytes : List Byte) : State :=
  s.withPort p
    { s.port p with
      selected := true
      transfer := some
        { inbound := bytes, partialBits := 0, bitCount := 0, outgoing := idleFrame 0, isHead := false, sent := 0 } }

/-- `s` with port `p` SHIFTING and the frame of a request received, under tag 0x11. -/
def asking (s : State) (p : Port) (r : Request) (body : List Byte) : State :=
  shifting s p (requestFrame r.code 0x11 body)

/-- The CRC byte of that frame. -/
abbrev crcOf (r : Request) (body : List Byte) : Byte := crc8 (r.code :: 0x11 :: BitVec.ofNat 8 body.length :: body)

/-- Port `p` is IDLE outside reset. -/
def atRest (s : State) (p : Port) : Bool := !s.inReset && !(s.port p).selected && (s.port p).transfer == none

/-- The transaction of `shifting` ends in the state before it. -/
theorem ends_shifting {s : State} {p : Port} {bytes : List Byte} {inbound : Inbound} (h : atRest s p = true)
    (hr : readInbound bytes = inbound) : Ends (shifting s p bytes) p [] inbound s := by
  simp only [atRest, Bool.and_eq_true, Bool.not_eq_true', beq_iff_eq] at h
  obtain ⟨⟨h1, h2⟩, h3⟩ := h
  refine ⟨by simp [shifting, h1],
    { inbound := bytes, partialBits := 0, bitCount := 0, outgoing := idleFrame 0, isHead := false, sent := 0 },
    by simp [shifting], hr, ?_⟩
  have hs : s.port p = { s.port p with selected := false, transfer := none } := by rw [← h2, ← h3]
  rw [State.fetchEnd_of_no_summary (by simp [State.summaryDue, Transfer.removesHead, Transfer.bytes])]
  simp only [State.endTransfer, shifting, State.port_withPort, if_true, State.withPort_withPort]
  simp only [Transfer.bytes, Transfer.removesHead, List.foldl_nil, Bool.false_and, Bool.false_eq_true, if_false]
  conv_lhs => rw [← State.withPort_port s p, hs]

/-- The request of `asking` is taken in the state before it. -/
abbrev Asked (s : State) (p : Port) (r : Request) (body : List Byte) : Prop :=
  Takes (asking s p r body) p [] r 0x11 (crcOf r body) body s

theorem asked {s : State} {p : Port} {r : Request} {body : List Byte}
    (h : (atRest s p && decide ((s.port p).queue.length ≤ 15) && decide ((s.port p).cache = none)) = true)
    (hr : readInbound (requestFrame r.code 0x11 body) = .frame r.code 0x11 body (crcOf r body)) : Asked s p r body := by
  simp only [Bool.and_eq_true, decide_eq_true_eq] at h
  exact ⟨ends_shifting h.1.1 hr, h.1.2, by simp [State.repeatOf, h.2]⟩

/-- An idle frame about to go out, under the status byte 0. -/
def freshTransfer : Transfer :=
  { inbound := [], partialBits := 0, bitCount := 0, outgoing := idleFrame 0, isHead := false, sent := 0 }

/-- The state after chip select has fallen at a port. -/
def begun (p : Port) : State := run (.transactionBegin p) State.reset

/-- A transaction in which `n` of the six bytes of an empty reply have gone out. -/
def fetched (n : Nat) (inbound : List Byte) : Transfer :=
  { inbound := inbound, partialBits := 0, bitCount := 0, outgoing := frameBytes 1 1 0 0 [], isHead := true, sent := n }

/-- `setup` with `n` replies in A's queue. -/
def queued (n : Nat) : State :=
  setup.withPort .a { setup.port .a with queue := List.replicate n (replyEntry 0x01 0x00 []) }

/-- A fetches its only entry. -/
def fetching (n : Nat) (rest : List Entry) (inbound : List Byte) : State :=
  setup.withPort .a
    { setup.port .a with
      selected := true, transfer := some (fetched n inbound), queue := replyEntry 0x01 0x00 [] :: rest }

/-- A has fetched the head of `n` entries, with a folded edge of IL0. -/
def folded (n : Nat) : State :=
  (fetching 6 (List.replicate (n - 1) (replyEntry 0x01 0x00 [])) [0x00]).withInputsOf .a
    { subscriptions := Vector.replicate 8 .both, rises := 1, falls := 0 }

/-- A's last reply was to the STATUS request of R182. -/
def cachedStatus : State :=
  setup.withPort .a
    { setup.port .a with
      cache := some { tag := 0x00, kind := 0x01, crc := 0x67, reply := replyEntry 0x01 0x00 [0x00] } }

/-- C is LAPSED. -/
def lapsedC : State := setup.withSession .c ⟨.lapsed, false⟩

/-- FAULT, the clock present again. -/
def faulted : State := setup.withPhase .fault

/-- `s` at another NOW. -/
def later (s : State) (t : Tick) : State := s.withNow t

/-- `s` under source TCLK with this gap count and presence flag. -/
def tclk (s : State) (gap : Nat) (present : Bool) : State :=
  s.withClock { s.clock with source := .tclk, gap := gap, present := present }

/-- `setup` with this prescaler and µs count. -/
def counted (prescaler us : Nat) : State := setup.withClock { setup.clock with prescaler := prescaler, microseconds := us }

/-- `setup` with an INT tick due. -/
def ticking : State := setup.withClock { setup.clock with tickDue := true }

/-- `running` with A the only owner. -/
def alone : State := running.withOwners (table fun l => if l.val < 4 then some .a else none)

/-- `s` with line `l` at 1. -/
def high (s : State) (l : OutLine) : State := s.withLevel l .one

/-- `setup` at `now`, pair 0 having recorded a fall of line `l` at tick 0. -/
def fallen (l : OutLine) (now : Tick) : State :=
  (setup.withNow now).withRuntime 0 { fall := some ⟨l, 0⟩, guard := none, deferred := none }

/-- A's rise on line 1, whose hold deadline is tick 0. -/
def heldRise : DeferredRise := { line := 1, owner := some .a, requestTick := 0, holdDeadline := some 0 }

/-- `running` with that rise deferred, and a guard for line 1 that ends at `t`. -/
def held (t : Tick) : State :=
  running.withRuntime 0 { fall := some ⟨0, 0⟩, guard := some ⟨t, 1⟩, deferred := some heldRise }

/-- `s` with the masks of slot 0's step, due now on bank 0, replaced. -/
def driving (set clear : BankMask) (s : State) : State :=
  s.withSlot 0 { generation := 0, step := some { timedStep 0 with setMask := set, clearMask := clear } }

/-- `running` with slot 0's step repeating every 9 ticks. -/
def repeating : State :=
  running.withSlot 0
    { generation := 0
      step := some { timedStep 0 with rep := some { placed := .unbounded, remaining := .unbounded, period := 9 } } }

/-- `running` with slot 3's step due now and no window, so that it re-arms. -/
def rearming : State := running.withSlot 3 { generation := 0, step := some (armedStep (.pending 0) none) }

/-- The same with LATE_OK. -/
def rearmingLate : State :=
  running.withSlot 3
    { generation := 0, step := some { armedStep (.pending 0) none with flags := ⟨true, true, true, true⟩ } }

/-- `running` with line 0 at 1, and pair 1 of lines 2 and 3, with line 3 at 0. -/
def paired : State :=
  { (running.withLevel 0 .one).withLevel 3 .zero with
    pairs := tset running.pairs 1 { valid := true, a := 2, b := 3, guard := 0, hold := 0 } }

/-- Pair 1 of lines 2 and 3, with guard 0, line 2 at 1 and A's rise on line 3 deferred; slot 0's step clears both. -/
def clearingBoth : State :=
  driving 0 12 ((high paired 2).withRuntime 1 { fall := none, guard := none, deferred := some ⟨3, some .a, 0, none⟩ })

/-- `running` with a quota of four for A, which its steps fill. -/
def quotaFour : State := running.withQuotas ⟨4, 30, 30⟩

/-- `running` with a claim of A that can be granted. -/
def waiting : State := running.withClaim .a (some ⟨0x11, none, 0⟩)

/-- `waiting` with an ownerless rise of line 4, which the claim names. -/
def ownerless : State :=
  waiting.withRuntime 0 { fall := none, guard := none, deferred := some ⟨4, none, 0, none⟩ }

/-- `running` with nothing armed on IL0. -/
def unarmed : State := { running with armedSet := Vector.replicate 8 [] }

/-- `unarmed` with `n` entries in B's queue. -/
def crowded (n : Nat) : State :=
  unarmed.withPort .b { unarmed.port .b with queue := List.replicate n (replyEntry 0x01 0x00 []) }

/-- `running` at NOW 3, IL0's run having begun at tick 0. -/
def lateEdge : State :=
  (running.withNow 3).withFilter 0 { running.filter 0 with runStart := some 0 }

/-- `setup` with an edge of IL0 to take. -/
def edgeWaits : State := setup.withFilter 0 (running.filter 0)

/-- `running` with IL7 not used. -/
def noInput7 : State := running.withInput 7 { used := false, filter := 0 }

/-! #### The laws, checked on one state -/

/-- The calendar law by its cases. -/
theorem calendarLaw_of {s : State}
    (h : (s.dueList.Nodup ∧ (∀ i, i ∈ s.dueList ↔ ((s.step i).any fun st => !st.isArmed) = true))
      ∧ (∀ l, (s.armedList l).Nodup)
      ∧ (∀ l i, i ∈ s.armedList l ↔ ((s.step i).any fun st => st.isArmed && st.arm.any fun a => a.line == l) = true)
      ∧ ∀ i, (s.step i).all (fun st => !st.isArmed || st.arm.isSome) = true) : CalendarLaw s := by
  obtain ⟨⟨h1, h2⟩, h3, h4, h5⟩ := h
  have pend : ∀ st : StepRecord, (!st.isArmed) = true ↔ ∃ d, st.state = .pending d := fun st => by
    unfold StepRecord.isArmed; cases st.state <;> simp
  have arm : ∀ st : StepRecord, st.isArmed = true ↔ st.state = .armed := fun st => by
    unfold StepRecord.isArmed; cases st.state <;> simp
  refine ⟨h1, fun i => ?_, h3, fun l i => ?_, fun i st hs ha => ?_⟩
  · rw [h2]
    cases s.step i with
    | none => simp
    | some st => simpa using pend st
  · rw [h4]
    cases s.step i with
    | none => simp
    | some st =>
      unfold StepRecord.arm
      cases hk : st.kind with
      | timed => simp [hk]
      | armed a => simpa [hk] using fun _ => arm st
  · have := h5 i
    rw [hs] at this
    simp only [Option.all_some, (arm st).mpr ha, Bool.not_true, Bool.false_or] at this
    unfold StepRecord.arm at this
    cases hk : st.kind with
    | timed => simp [hk] at this
    | armed a => exact ⟨a, rfl⟩

/-- The law of the pair records by its cases. -/
theorem pairConfigLaw_of {s : State}
    (h : (∀ k, (s.pair k).valid = true → (s.pair k).a ≠ (s.pair k).b)
      ∧ (∀ k, (s.pair k).valid = true → (s.output (s.pair k).a).used = true ∧ (s.output (s.pair k).b).used = true)
      ∧ (∀ k, (s.pair k).valid = true → ¬((s.output (s.pair k).a).safe = true ∧ (s.output (s.pair k).b).safe = true))
      ∧ ∀ j k, (s.pair j).valid = true → (s.pair k).valid = true →
          j = k ∨ ((s.pair j).holds (s.pair k).a = false ∧ (s.pair j).holds (s.pair k).b = false)) : PairConfigLaw s := by
  obtain ⟨h1, h2, h3, h4⟩ := h
  have mem : ∀ (c : PairConfig) l, c.holds l = true → l = c.a ∨ l = c.b := fun c l hl => by
    simp only [PairConfig.holds, Bool.or_eq_true, beq_iff_eq] at hl
    exact hl.imp Eq.symm Eq.symm
  refine ⟨h1, fun k l hv hl => ?_, h3, fun j k l hj hk hjl hkl => ?_⟩
  · rcases mem _ l hl with rfl | rfl
    · exact (h2 k hv).1
    · exact (h2 k hv).2
  · rcases h4 j k hj hk with e | ⟨ha, hb⟩
    · exact e
    · rcases mem _ l hkl with rfl | rfl
      · rw [ha] at hjl; cases hjl
      · rw [hb] at hjl; cases hjl

/-- The law of the pair runtimes by its cases. -/
theorem pairRuntimeLaw_of {s : State}
    (h : ∀ k, ((s.pair k).valid = false → s.pairRuntime k = PairRuntime.empty)
      ∧ ((s.pairRuntime k).fall.all fun f => (s.pair k).holds f.line) = true
      ∧ ((s.pairRuntime k).guard.all fun g => (s.pair k).holds g.line) = true
      ∧ ((s.pairRuntime k).deferred.all fun d => (s.pair k).holds d.line && s.level d.line == .zero) = true) :
    PairRuntimeLaw s := by
  refine ⟨fun k => (h k).1, fun k f hf => ?_, fun k g hg => ?_, fun k d hd => ?_⟩
  · simpa [hf] using (h k).2.1
  · simpa [hg] using (h k).2.2.1
  · simpa [hd] using (h k).2.2.2

/-- Descriptors that pass the checks, as a test. -/
theorem accepts_eq {s : State} {p : Port} {raws : List RawDescriptor} {ds : List Descriptor}
    (h : (match checkDescriptors s p 0 raws with
      | .ok xs => decide (xs = ds)
      | .error _ => false) = true) : checkDescriptors s p 0 raws = .ok ds := by
  cases hc : checkDescriptors s p 0 raws with
  | error e => rw [hc] at h; cases h
  | ok xs => rw [hc] at h; rw [of_decide_eq_true h]

/-- A test that every step of a state passes. -/
theorem forall_step {s : State} (f : StepRecord → Bool) (h : ∀ i, (s.step i).all f = true) :
    ∀ i st, s.step i = some st → f st = true := by
  intro i st hs
  simpa [hs] using h i


/-! #### Transactions and frames -/

theorem witness_TransactionBeginFixesTheFrame :
    State.reset.inReset = false ∧ (State.reset.port .a).selected = false :=
  by decide +kernel

theorem witness_ClockCyclesShiftBytes :
    (begun .a).inReset = false ∧ ((begun .a).port .a).transfer = some freshTransfer ∧ freshTransfer.bitCount = 0 ∧ freshTransfer.sent ≤ freshTransfer.outgoing.length :=
  by decide +kernel

theorem witness_ClockCyclesShiftBytes_partial :
    ((run (.spiClockCycle .a true) (begun .a)).port .a).transfer = some { freshTransfer with partialBits := 1, bitCount := 1 } ∧ 1 < 7 :=
  by decide +kernel

theorem witness_ClockCyclesShiftBytes_idle :
    (State.reset.port .a).transfer = none ∧ State.reset.attention .a = false ∧ (queued 1).attention .a = true :=
  by decide +kernel

theorem witness_BurstStandsForClockCycles :
    ∃ t, (Instr.status .a ([0x01, 0x00] ++ [0x00, 0x67])).rise = some (.a, .request .status, [0x01, 0x00] ++ [0x00, 0x67])
      ∧ (Instr.status .a [0x00, 0x67]).rise = some (.a, .request .status, [0x00, 0x67])
      ∧ (begun .a).inReset = false ∧ ((begun .a).port .a).transfer = some freshTransfer
      ∧ (FrameRow.request .status).admits (readInbound (freshTransfer.bytes ([0x01, 0x00] ++ [0x00, 0x67])).inbound) = true
      ∧ FrameRow.request .status ≠ .anyFrame
      ∧ execAll (([0x01, 0x00] : List Byte).flatMap bitsOf |>.map (.spiClockCycle .a)) (begun .a) = .next t :=
  ⟨_, rfl, rfl, rfl, by decide +kernel, by decide +kernel, by decide +kernel, rfl⟩

theorem witness_FetchedHeadsLeaveTheQueue_nop :
    (fetching 6 [] [0x00]).inReset = false ∧ ((fetching 6 [] [0x00]).port .a).transfer = some (fetched 6 [0x00]) ∧ readInbound ((fetched 6 [0x00]).bytes []).inbound = .pureFetch ∧ ((fetching 6 [] [0x00]).inputsOf .a).rises = 0 ∧ ((fetching 6 [] [0x00]).inputsOf .a).falls = 0 ∧ (fetched 6 [0x00]).isHead = true ∧ ((fetched 6 [0x00]).bytes []).sent = (fetched 6 [0x00]).outgoing.length :=
  by decide +kernel

theorem witness_FetchedHeadsLeaveTheQueue_nop_short :
    ((fetched 5 [0x00]).bytes []).sent ≠ (fetched 5 [0x00]).outgoing.length ∧ readInbound ((fetched 5 [0x00]).bytes []).inbound = .pureFetch :=
  by decide +kernel

theorem witness_FetchedHeadsLeaveTheQueue_nop_full :
    ((folded 16).port .a).transfer = some (fetched 6 [0x00]) ∧ readInbound ((fetched 6 [0x00]).bytes []).inbound = .pureFetch ∧ ((folded 16).inputsOf .a).rises ≠ 0 ∧ 14 < ((folded 16).port .a).queue.tail.length :=
  by decide +kernel

theorem witness_FetchedHeadsLeaveTheQueue_summary :
    (folded 15).inReset = false ∧ ((folded 15).port .a).transfer = some (fetched 6 [0x00]) ∧ (fetched 6 [0x00]).isHead = true ∧ ((fetched 6 [0x00]).bytes []).sent = (fetched 6 [0x00]).outgoing.length ∧ ((folded 15).inputsOf .a).rises ≠ 0 ∧ ((folded 15).port .a).queue.tail.length = 14 :=
  by decide +kernel

theorem witness_BadAndUnknownFramesAreAnswered_bad :
    Ends (shifting setup .a [0x01, 0x05]) .a [] (.bad 0x01 0x05) setup ∧ (setup.port .a).queue.length ≤ 15 :=
  ⟨ends_shifting (by decide +kernel) (by decide +kernel), by decide +kernel⟩

theorem witness_BadAndUnknownFramesAreAnswered_unknown :
    Ends (shifting setup .a (requestFrame 0x7F 0x05 [])) .a [] (.frame 0x7F 0x05 [] (crc8 [0x7F, 0x05, 0x00])) setup
      ∧ (setup.port .a).queue.length ≤ 15 ∧ requestOf 0x7F = none
      ∧ setup.repeatOf .a 0x7F 0x05 (crc8 [0x7F, 0x05, 0x00]) = none :=
  ⟨ends_shifting (by decide +kernel) (by decide +kernel), by decide +kernel⟩

theorem witness_FrameChecksAreTheFiveCases :
    (0x01 : Byte) ≠ 0 ∧ 48 < (49 : Byte).toNat ∧ (48 : Byte).toNat ≤ 48
      ∧ (List.replicate 48 (0 : Byte)).length < (48 : Byte).toNat + 1
      ∧ (List.replicate 48 (0 : Byte)).length = (48 : Byte).toNat := by decide +kernel

theorem witness_RequestFramesRoundTrip : (0xFF : Byte) ≠ 0 ∧ (List.replicate 48 (0 : Byte)).length ≤ 48 := by
  decide +kernel

theorem witness_FullQueuesDiscardAndRepeatsAreAnswered_full :
    (Instr.status .a []).rise = some (.a, .request .status, []) ∧ FrameRow.request .status ≠ .anyFrame
      ∧ (FrameRow.request .status).admits (readInbound (requestFrame 0x01 0x05 [])) = true
      ∧ readInbound (requestFrame 0x01 0x05 []) ≠ .pureFetch
      ∧ Ends (shifting (queued 16) .a (requestFrame 0x01 0x05 [])) .a [] (readInbound (requestFrame 0x01 0x05 [])) (queued 16)
      ∧ 16 ≤ ((queued 16).port .a).queue.length :=
  ⟨by decide +kernel, by decide +kernel, by decide +kernel, by decide +kernel,
    ends_shifting (by decide +kernel) rfl, by decide +kernel⟩

theorem witness_FullQueuesDiscardAndRepeatsAreAnswered_repeat :
    (Instr.status .a []).rise = some (.a, .request .status, []) ∧ FrameRow.request .status ≠ .anyFrame
      ∧ (FrameRow.request .status).admits (.frame 0x01 0x00 [] 0x67) = true
      ∧ Ends (shifting cachedStatus .a [0x01, 0x00, 0x00, 0x67]) .a [] (.frame 0x01 0x00 [] 0x67) cachedStatus
      ∧ (cachedStatus.port .a).queue.length ≤ 15
      ∧ (cachedStatus.port .a).cache = some { tag := 0x00, kind := 0x01, crc := 0x67, reply := replyEntry 0x01 0x00 [0x00] } :=
  ⟨by decide +kernel, by decide +kernel, by decide +kernel,
    ends_shifting (by decide +kernel) (by decide +kernel), by decide +kernel, by decide +kernel⟩

/-! #### The session and phase tests -/

theorem witness_SessionTestRefuses_closed :
    Asked setup .c .claim [] ∧ (Instr.claim .c []).rise = some (.c, .request .claim, []) ∧ FrameRow.admits (.request .claim) (.frame (Request.code .claim) 0x11 [] (crcOf .claim [])) = true ∧ (setup.session .c).state = .closed :=
  ⟨asked (by decide +kernel) (by decide +kernel), by decide +kernel⟩

theorem witness_SessionTestRefuses_lapsed_open :
    Asked lapsedC .c .openSession [] ∧ (Instr.openSession .c []).rise = some (.c, .request .openSession, []) ∧ FrameRow.admits (.request .openSession) (.frame (Request.code .openSession) 0x11 [] (crcOf .openSession [])) = true ∧ (lapsedC.session .c).state = .lapsed :=
  ⟨asked (by decide +kernel) (by decide +kernel), by decide +kernel⟩

theorem witness_SessionTestRefuses_lapsed :
    Asked lapsedC .c .renew [] ∧ (Instr.renew .c []).rise = some (.c, .request .renew, []) ∧ FrameRow.admits (.request .renew) (.frame (Request.code .renew) 0x11 [] (crcOf .renew [])) = true ∧ (lapsedC.session .c).state = .lapsed :=
  ⟨asked (by decide +kernel) (by decide +kernel), by decide +kernel⟩

theorem witness_SessionTestRefuses_opened_open :
    Asked setup .a .openSession [] ∧ (Instr.openSession .a []).rise = some (.a, .request .openSession, []) ∧ FrameRow.admits (.request .openSession) (.frame (Request.code .openSession) 0x11 [] (crcOf .openSession [])) = true ∧ (setup.session .a).state = .opened 100 100 :=
  ⟨asked (by decide +kernel) (by decide +kernel), by decide +kernel⟩

theorem witness_PhaseTestsRefuse_fault :
    Asked faulted .a .owners [] ∧ (Instr.owners .a []).rise = some (.a, .request .owners, []) ∧ FrameRow.admits (.request .owners) (.frame (Request.code .owners) 0x11 [] (crcOf .owners [])) = true ∧ (faulted.session .a).state = .opened 100 100 ∧ faulted.phase = .fault :=
  ⟨asked (by decide +kernel) (by decide +kernel), by decide +kernel⟩

theorem witness_PhaseTestsRefuse_fault_open :
    Asked faulted .c .openSession [] ∧ (Instr.openSession .c []).rise = some (.c, .request .openSession, []) ∧ FrameRow.admits (.request .openSession) (.frame (Request.code .openSession) 0x11 [] (crcOf .openSession [])) = true ∧ (faulted.session .c).state = .closed ∧ faulted.phase = .fault :=
  ⟨asked (by decide +kernel) (by decide +kernel), by decide +kernel⟩

theorem witness_PhaseTestsRefuse_run :
    Asked running .a .setTime [] ∧ (Instr.setTime .a []).rise = some (.a, .request .setTime, []) ∧ FrameRow.admits (.request .setTime) (.frame (Request.code .setTime) 0x11 [] (crcOf .setTime [])) = true ∧ (running.session .a).state = .opened 100 100 ∧ running.phase = .run :=
  ⟨asked (by decide +kernel) (by decide +kernel), by decide +kernel⟩

theorem witness_PhaseTestsRefuse_run_write :
    Asked running .a .configWrite [4, 0] ∧ (Instr.configWriteQuota .a []).rise = some (.a, .configWrite 4, []) ∧ FrameRow.admits (.configWrite 4) (.frame (Request.code .configWrite) 0x11 [4, 0] (crcOf .configWrite [4, 0])) = true ∧ (running.session .a).state = .opened 100 100 ∧ running.phase = .run :=
  ⟨asked (by decide +kernel) (by decide +kernel), by decide +kernel⟩

theorem witness_PhaseTestsRefuse_setup :
    Asked setup .a .claim [] ∧ (Instr.claim .a []).rise = some (.a, .request .claim, []) ∧ FrameRow.admits (.request .claim) (.frame (Request.code .claim) 0x11 [] (crcOf .claim [])) = true ∧ (setup.session .a).state = .opened 100 100 ∧ setup.phase = .setup :=
  ⟨asked (by decide +kernel) (by decide +kernel), by decide +kernel⟩

theorem witness_PhaseTestsRefuse_setup_place :
    Asked setup .a .place [] ∧ (Instr.place .a []).rise = some (.a, .request .place, []) ∧ FrameRow.admits (.request .place) (.frame (Request.code .place) 0x11 [] (crcOf .place [])) = true ∧ (setup.session .a).state = .opened 100 100 ∧ setup.phase = .setup :=
  ⟨asked (by decide +kernel) (by decide +kernel), by decide +kernel⟩

/-! #### Sessions -/

theorem witness_StatusReportsAndClearsFlags :
    Asked running .a .status [] ∧ ([] : List Byte) = [] :=
  ⟨asked (by decide +kernel) (by decide +kernel), by decide +kernel⟩

theorem witness_StatusReportsAndClearsFlags_closed :
    Asked setup .c .status [] ∧ (setup.session .c).state = .closed :=
  ⟨asked (by decide +kernel) (by decide +kernel), by decide +kernel⟩

theorem witness_StatusReportsAndClearsFlags_refused :
    Asked running .a .status [0] ∧ ([0] : List Byte) ≠ [] :=
  ⟨asked (by decide +kernel) (by decide +kernel), by decide +kernel⟩

theorem witness_OpenAndRenewSetTheLease_open :
    Asked setup .c .openSession [0, 0, 16, 1] ∧ (setup.session .c).state = .closed ∧ setup.phase ≠ .fault ∧ 16 ≤ nat3 0 0 16 ∧ (1 : Byte).toNat ≤ 1 :=
  ⟨asked (by decide +kernel) (by decide +kernel), by decide +kernel⟩

theorem witness_OpenAndRenewSetTheLease_open_longest :
    Asked setup .c .openSession [255, 255, 255, 0] ∧ (setup.session .c).state = .closed ∧ setup.phase ≠ .fault ∧ 16 ≤ nat3 255 255 255 :=
  ⟨asked (by decide +kernel) (by decide +kernel), by decide +kernel⟩

theorem witness_OpenAndRenewSetTheLease_open_short_lease :
    Asked setup .c .openSession [0, 0, 15, 1] ∧ (setup.session .c).state = .closed ∧ setup.phase ≠ .fault ∧ nat3 0 0 15 < 16 :=
  ⟨asked (by decide +kernel) (by decide +kernel), by decide +kernel⟩

theorem witness_OpenAndRenewSetTheLease_open_flag :
    Asked setup .c .openSession [0, 0, 16, 2] ∧ (setup.session .c).state = .closed ∧ setup.phase ≠ .fault ∧ 1 < (2 : Byte).toNat :=
  ⟨asked (by decide +kernel) (by decide +kernel), by decide +kernel⟩

theorem witness_OpenAndRenewSetTheLease_open_length :
    Asked setup .c .openSession [0, 0, 16] ∧ (setup.session .c).state = .closed ∧ setup.phase ≠ .fault ∧ ([0, 0, 16] : List Byte).length ≠ 4 :=
  ⟨asked (by decide +kernel) (by decide +kernel), by decide +kernel⟩

theorem witness_OpenAndRenewSetTheLease_renew :
    Asked running .a .renew [] ∧ (running.session .a).state = .opened 100 100 ∧ running.phase ≠ .fault :=
  ⟨asked (by decide +kernel) (by decide +kernel), by decide +kernel⟩

theorem witness_OpenAndRenewSetTheLease_renew_refused :
    Asked running .a .renew [0] ∧ (running.session .a).state = .opened 100 100 ∧ running.phase ≠ .fault :=
  ⟨asked (by decide +kernel) (by decide +kernel), by decide +kernel⟩

theorem witness_CloseTakesEverythingBack :
    Asked running .a .closeSession [] ∧ (running.session .a).state = .opened 100 100 :=
  ⟨asked (by decide +kernel) (by decide +kernel), by decide +kernel⟩

theorem witness_CloseTakesEverythingBack_lapsed :
    Asked lapsedC .c .closeSession [] ∧ (lapsedC.session .c).state = .lapsed :=
  ⟨asked (by decide +kernel) (by decide +kernel), by decide +kernel⟩

theorem witness_CloseTakesEverythingBack_refused :
    Asked running .a .closeSession [0] ∧ (running.session .a).state = .opened 100 100 :=
  ⟨asked (by decide +kernel) (by decide +kernel), by decide +kernel⟩

theorem witness_CloseTakesEverythingBack_lapsed_refused :
    Asked lapsedC .c .closeSession [0] ∧ (lapsedC.session .c).state = .lapsed :=
  ⟨asked (by decide +kernel) (by decide +kernel), by decide +kernel⟩

/-- Paired lines too: line 0 of pair 0 stands at 1 when A lapses. -/
theorem witness_TakenBack_pairs :
    PairConfigLaw (later (high running 0) 100) ∧ PairRuntimeLaw (later (high running 0) 100)
      ∧ PairLaw (later (high running 0) 100) ∧ (later (high running 0) 100).owner 0 = some .a :=
  ⟨pairConfigLaw_of (by decide +kernel), pairRuntimeLaw_of (by decide +kernel), by unfold PairLaw; decide +kernel, by decide +kernel⟩

theorem witness_LapseTakesEverythingBack :
    (later running 100).inReset = false ∧ (later running 100).clock.present = true ∧ ((later running 100).session .a).state = .opened 100 (later running 100).now :=
  by decide +kernel

/-! #### The timebase -/

theorem witness_TickArrivalsAdvanceNow_int :
    setup.inReset = false ∧ setup.clock.tickDue = false ∧ setup.clock.source = .int ∧ setup.clock.present = true ∧ setup.quiet = true :=
  by decide +kernel

theorem witness_TickArrivalsAdvanceNow_busy :
    running.inReset = false ∧ running.clock.tickDue = false ∧ running.clock.source = .int ∧ running.clock.present = true ∧ running.quiet = false :=
  by decide +kernel

theorem witness_TickArrivalsAdvanceNow_tclk :
    (tclk setup 63 true).inReset = false ∧ (tclk setup 63 true).clock.tickDue = false ∧ (tclk setup 63 true).clock.source = .tclk ∧ (tclk setup 63 true).quiet = true ∧ (tclk setup 63 true).clock.gap < (tclk setup 63 true).clock.lossWindow :=
  by decide +kernel

theorem witness_TickArrivalsAdvanceNow_due :
    ticking.inReset = false ∧ ticking.clock.tickDue = true ∧ ticking.clock.source = .int ∧ ticking.clock.present = true :=
  by decide +kernel

theorem witness_TickArrivalsAdvanceNow_loss :
    (tclk setup 64 true).inReset = false ∧ (tclk setup 64 true).lossDue = true ∧ (tclk setup 64 true).clock.tickDue = false
      ∧ ∃ u v, execAll tickRows (tclk setup 64 true) = .next u ∧ u.quiet = true ∧ exec .clockLost u = .next v :=
  ⟨by decide +kernel, by decide +kernel, by decide +kernel, _, _, rfl, by decide +kernel, rfl⟩

theorem witness_TickArrivalsAdvanceNow_returning :
    (tclk setup 64 false).clock.source = .tclk ∧ (tclk setup 64 false).quiet = true ∧ (tclk setup 64 false).clock.present = false :=
  by decide +kernel

theorem witness_OscillatorPeriodCounts_due :
    ticking.inReset = false ∧ ticking.clock.tickDue = true ∧ ticking.clock.source = .int ∧ ticking.clock.present = true ∧ ticking.clock.prescaler = 0 ∧ ticking.clock.microseconds ≤ 15 :=
  by decide +kernel

theorem witness_OscillatorPeriodCounts_busy :
    running.inReset = false ∧ running.clock.tickDue = false ∧ running.quiet = false ∧ running.clock.source = .int ∧ running.clock.prescaler + 1 < running.clock.divider :=
  by decide +kernel

theorem witness_OscillatorPeriodCounts_loss :
    (tclk running 64 true).inReset = false ∧ (tclk running 64 true).clock.tickDue = false
      ∧ (tclk running 64 true).lossDue = true ∧ (tclk running 64 true).quiet = false
      ∧ ∃ u v, execAll tickRows (tclk running 64 true) = .next u ∧ u.quiet = true ∧ exec .clockLost u = .next v :=
  ⟨by decide +kernel, by decide +kernel, by decide +kernel, by decide +kernel, _, _, rfl, by decide +kernel, rfl⟩

theorem witness_OscillatorPeriodCounts_last :
    (counted 14 15).inReset = false ∧ (counted 14 15).clock.tickDue = false ∧ (counted 14 15).quiet = true ∧ (counted 14 15).lossDue = false ∧ (counted 14 15).clock.source = .int ∧ (counted 14 15).clock.prescaler + 1 < (counted 14 15).clock.divider :=
  by decide +kernel

theorem witness_OscillatorPeriodCounts_wrap :
    (counted 15 14).quiet = true ∧ (counted 15 14).lossDue = false ∧ (counted 15 14).clock.divider ≤ (counted 15 14).clock.prescaler + 1 :=
  by decide +kernel

theorem witness_OscillatorPeriodCounts_tclk :
    (tclk setup 63 true).quiet = true ∧ (tclk setup 63 true).lossDue = false ∧ (tclk setup 63 true).clock.source = .tclk :=
  by decide +kernel

theorem witness_OscillatorPeriodCounts_tick :
    (counted 15 15).inReset = false ∧ (counted 15 15).clock.tickDue = false ∧ (counted 15 15).quiet = true ∧ (counted 15 15).clock.source = .int ∧ (counted 15 15).clock.present = true ∧ (counted 15 15).clock.prescaler < (counted 15 15).clock.divider ∧ (counted 15 15).clock.microseconds ≤ 15 :=
  by decide +kernel

theorem witness_ClockLossEntersFaultInRun_run :
    (tclk running 64 true).inReset = false ∧ (tclk running 64 true).clock.source = .tclk ∧ (tclk running 64 true).clock.present = true ∧ (tclk running 64 true).phase = .run ∧ (tclk running 64 true).clock.lossWindow ≤ (tclk running 64 true).clock.gap :=
  by decide +kernel

theorem witness_ClockLossEntersFaultInRun_setup :
    (tclk setup 63 true).clock.source = .tclk ∧ (tclk setup 63 true).clock.present = true ∧ (tclk setup 63 true).phase ≠ .run ∧ (tclk setup 63 true).clock.gap < (tclk setup 63 true).clock.lossWindow :=
  by decide +kernel

theorem witness_ClockLossEntersFaultInRun_none :
    setup.clock.source = .int ∧ (tclk setup 64 false).clock.present = false :=
  by decide +kernel

theorem witness_ClockLossEntersFaultInRun_busy :
    (tclk (held 0) 64 true).inReset = false ∧ (tclk (held 0) 64 true).phase = .run ∧ guardEndsNow (tclk (held 0) 64 true) 0 = true :=
  by decide +kernel

/-- A paired line at 1 falls at the loss. -/
theorem witness_ClockLossEntersFaultInRun_pair :
    (∀ k, guardEndsNow (tclk (high running 0) 64 true) k = false ∧ fallRecordEndsNow (tclk (high running 0) 64 true) k = false)
      ∧ (∀ p, leaseEndsNow (tclk (high running 0) 64 true) p = false)
      ∧ PairConfigLaw (tclk (high running 0) 64 true) ∧ PairLaw (tclk (high running 0) 64 true)
      ∧ (tclk (high running 0) 64 true).level 0 = .one :=
  ⟨by decide +kernel, fun p => by cases p <;> decide +kernel, pairConfigLaw_of (by decide +kernel), by unfold PairLaw; decide +kernel, by decide +kernel⟩

theorem witness_TimeAndRecordsAreRead_time :
    Asked setup .c .readTime [] ∧ (setup.session .c).state = .closed :=
  ⟨asked (by decide +kernel) (by decide +kernel), by decide +kernel⟩

theorem witness_TimeAndRecordsAreRead_time_refused :
    Asked setup .a .readTime [0] ∧ ([0] : List Byte) ≠ [] :=
  ⟨asked (by decide +kernel) (by decide +kernel), by decide +kernel⟩

theorem witness_TimeAndRecordsAreRead_timebase :
    Asked setup .a .configRead [0, 0] ∧ ([0, 0] : List Byte).length = 2 :=
  ⟨asked (by decide +kernel) (by decide +kernel), by decide +kernel⟩

theorem witness_TimeAndRecordsAreRead_output :
    Asked setup .a .configRead [1, 23] ∧ ([1, 23] : List Byte).length = 2 :=
  ⟨asked (by decide +kernel) (by decide +kernel), by decide +kernel⟩

theorem witness_TimeAndRecordsAreRead_input :
    Asked setup .a .configRead [2, 7] ∧ ([2, 7] : List Byte).length = 2 :=
  ⟨asked (by decide +kernel) (by decide +kernel), by decide +kernel⟩

theorem witness_TimeAndRecordsAreRead_pair :
    Asked setup .a .configRead [3, 11] ∧ ([3, 11] : List Byte).length = 2 :=
  ⟨asked (by decide +kernel) (by decide +kernel), by decide +kernel⟩

theorem witness_TimeAndRecordsAreRead_quota :
    Asked setup .a .configRead [4, 0] ∧ ([4, 0] : List Byte).length = 2 :=
  ⟨asked (by decide +kernel) (by decide +kernel), by decide +kernel⟩

theorem witness_TimeAndRecordsAreRead_arbiter :
    Asked setup .a .configRead [5, 0] ∧ ([5, 0] : List Byte).length = 2 :=
  ⟨asked (by decide +kernel) (by decide +kernel), by decide +kernel⟩

theorem witness_TimeAndRecordsAreRead_no_output_24 :
    Asked setup .a .configRead [1, 24] ∧ readRecordName [1, 24] = none :=
  ⟨asked (by decide +kernel) (by decide +kernel), by decide +kernel⟩

theorem witness_TimeAndRecordsAreRead_no_input_8 :
    Asked setup .a .configRead [2, 8] ∧ readRecordName [2, 8] = none :=
  ⟨asked (by decide +kernel) (by decide +kernel), by decide +kernel⟩

theorem witness_TimeAndRecordsAreRead_no_pair_12 :
    Asked setup .a .configRead [3, 12] ∧ readRecordName [3, 12] = none :=
  ⟨asked (by decide +kernel) (by decide +kernel), by decide +kernel⟩

theorem witness_TimeAndRecordsAreRead_no_quota_1 :
    Asked setup .a .configRead [4, 1] ∧ readRecordName [4, 1] = none :=
  ⟨asked (by decide +kernel) (by decide +kernel), by decide +kernel⟩

theorem witness_TimeAndRecordsAreRead_no_kind_6 :
    Asked setup .a .configRead [6, 0] ∧ readRecordName [6, 0] = none :=
  ⟨asked (by decide +kernel) (by decide +kernel), by decide +kernel⟩

theorem witness_TimeAndRecordsAreRead_no_length :
    Asked setup .a .configRead [0] ∧ readRecordName [0] = none :=
  ⟨asked (by decide +kernel) (by decide +kernel), by decide +kernel⟩

theorem witness_SetTimeMovesStoredTimes :
    Asked setup .a .setTime (tickBytes 0xFFFFFFFF) ∧ (setup.session .a).state = .opened 100 100 ∧ setup.phase = .setup ∧ 16 ≤ 100 ∧ 100 < 16777216 ∧ setup.quiet = true :=
  ⟨asked (by decide +kernel) (by decide +kernel), by decide +kernel⟩

theorem witness_SetTimeMovesStoredTimes_busy :
    Asked (fallen 0 65536) .a .setTime (tickBytes 7) ∧ ((fallen 0 65536).session .a).state = .opened 100 100 ∧ (fallen 0 65536).phase = .setup ∧ (fallen 0 65536).quiet = false :=
  ⟨asked (by decide +kernel) (by decide +kernel), by decide +kernel⟩

theorem witness_SetTimeMovesStoredTimes_refused :
    Asked setup .a .setTime [0, 0, 0] ∧ (setup.session .a).state = .opened 100 100 ∧ setup.phase = .setup ∧ ([0, 0, 0] : List Byte).length ≠ 4 :=
  ⟨asked (by decide +kernel) (by decide +kernel), by decide +kernel⟩

/-! #### Phases -/

theorem witness_StartAndClearFaultChangePhase_start :
    Asked setup .a .start [] ∧ (setup.session .a).state = .opened 100 100 ∧ setup.phase = .setup ∧ setup.clock.present = true :=
  ⟨asked (by decide +kernel) (by decide +kernel), by decide +kernel⟩

theorem witness_StartAndClearFaultChangePhase_start_refused_body :
    Asked setup .a .start [0] ∧ (setup.session .a).state = .opened 100 100 ∧ setup.phase ≠ .fault :=
  ⟨asked (by decide +kernel) (by decide +kernel), by decide +kernel⟩

theorem witness_StartAndClearFaultChangePhase_start_refused_run :
    Asked running .a .start [] ∧ (running.session .a).state = .opened 100 100 ∧ running.phase = .run :=
  ⟨asked (by decide +kernel) (by decide +kernel), by decide +kernel⟩

theorem witness_StartAndClearFaultChangePhase_start_refused_clock :
    Asked (tclk setup 64 false) .a .start [] ∧ ((tclk setup 64 false).session .a).state = .opened 100 100 ∧ (tclk setup 64 false).phase = .setup ∧ (tclk setup 64 false).clock.present = false :=
  ⟨asked (by decide +kernel) (by decide +kernel), by decide +kernel⟩

theorem witness_StartAndClearFaultChangePhase_clear :
    Asked faulted .a .clearFault [] ∧ (faulted.session .a).state = .opened 100 100 ∧ faulted.phase = .fault ∧ faulted.clock.present = true :=
  ⟨asked (by decide +kernel) (by decide +kernel), by decide +kernel⟩

theorem witness_StartAndClearFaultChangePhase_clear_refused_body :
    Asked faulted .a .clearFault [0] ∧ (faulted.session .a).state = .opened 100 100 :=
  ⟨asked (by decide +kernel) (by decide +kernel), by decide +kernel⟩

theorem witness_StartAndClearFaultChangePhase_clear_refused_clock :
    Asked (tclk faulted 64 false) .a .clearFault [] ∧ ((tclk faulted 64 false).session .a).state = .opened 100 100 ∧ (tclk faulted 64 false).clock.present = false :=
  ⟨asked (by decide +kernel) (by decide +kernel), by decide +kernel⟩

theorem witness_StartAndClearFaultChangePhase_clear_refused_phase :
    Asked setup .a .clearFault [] ∧ (setup.session .a).state = .opened 100 100 ∧ setup.clock.present = true ∧ setup.phase ≠ .fault :=
  ⟨asked (by decide +kernel) (by decide +kernel), by decide +kernel⟩

theorem witness_StopEndsRun :
    Asked alone .a .stop [] ∧ (alone.session .a).state = .opened 100 100 ∧ alone.phase = .run
      ∧ ∀ l q, alone.owner l = some q → q = .a :=
  ⟨asked (by decide +kernel) (by decide +kernel), by decide +kernel, by decide +kernel, fun l q h =>
    (by decide +kernel : ∀ l, alone.owner l = none ∨ alone.owner l = some .a) l |>.elim
      (fun e => by rw [e] at h; cases h) (fun e => by rw [e] at h; cases h; rfl)⟩

theorem witness_StopEndsRun_busy :
    Asked running .a .stop [] ∧ (running.session .a).state = .opened 100 100 ∧ running.phase = .run
      ∧ ∃ l q, running.owner l = some q ∧ q ≠ .a :=
  ⟨asked (by decide +kernel) (by decide +kernel), by decide +kernel, by decide +kernel, 9, .b, by decide +kernel, by decide +kernel⟩

/-- A paired line at 1 falls at the STOP. -/
theorem witness_StopEndsRun_pair :
    PairConfigLaw (high alone 0) ∧ PairLaw (high alone 0) ∧ (high alone 0).level 0 = .one
      ∧ (high alone 0).pairOf 0 = some 0 :=
  ⟨pairConfigLaw_of (by decide +kernel), by unfold PairLaw; decide +kernel, by decide +kernel⟩

theorem witness_StopEndsRun_refused_body :
    Asked running .a .stop [0] ∧ (running.session .a).state = .opened 100 100 ∧ running.phase ≠ .fault :=
  ⟨asked (by decide +kernel) (by decide +kernel), by decide +kernel⟩

theorem witness_StopEndsRun_refused_setup :
    Asked setup .a .stop [] ∧ (setup.session .a).state = .opened 100 100 ∧ setup.phase = .setup :=
  ⟨asked (by decide +kernel) (by decide +kernel), by decide +kernel⟩

/-! #### Configuration -/

theorem witness_TimebaseQuotaAndArbiterWrites_timebase_largest :
    Asked setup .a .configWrite (Record.timebase .tclk 256 255).bytes ∧ (setup.session .a).state = .opened 100 100 ∧ setup.phase = .setup ∧ 256 ≤ 256 ∧ 255 ≤ 255 :=
  ⟨asked (by decide +kernel) (by decide +kernel), by decide +kernel⟩

theorem witness_TimebaseQuotaAndArbiterWrites_timebase_smallest :
    Asked setup .a .configWrite (Record.timebase .int 1 1).bytes ∧ (setup.session .a).state = .opened 100 100 ∧ setup.phase = .setup ∧ 1 ≤ 1 :=
  ⟨asked (by decide +kernel) (by decide +kernel), by decide +kernel⟩

theorem witness_TimebaseQuotaAndArbiterWrites_timebase_due :
    Asked ticking .a .configWrite (Record.timebase .int 1 1).bytes ∧ (ticking.session .a).state = .opened 100 100 ∧ ticking.phase = .setup ∧ ticking.clock.tickDue = true :=
  ⟨asked (by decide +kernel) (by decide +kernel), by decide +kernel⟩

theorem witness_TimebaseQuotaAndArbiterWrites_timebase_due_larger :
    Asked ticking .a .configWrite (Record.timebase .int 2 1).bytes ∧ (ticking.session .a).state = .opened 100 100 ∧ ticking.phase = .setup ∧ ticking.clock.tickDue = true ∧ 2 ≠ 1 :=
  ⟨asked (by decide +kernel) (by decide +kernel), by decide +kernel⟩

theorem witness_TimebaseQuotaAndArbiterWrites_timebase_loss :
    Asked (tclk setup 64 true) .a .configWrite (Record.timebase .tclk 1 1).bytes ∧ ((tclk setup 64 true).session .a).state = .opened 100 100 ∧ (tclk setup 64 true).phase = .setup ∧ (tclk setup 64 true).lossDue = true ∧ (tclk setup 64 true).clock.microseconds = 0 :=
  ⟨asked (by decide +kernel) (by decide +kernel), by decide +kernel⟩

theorem witness_TimebaseQuotaAndArbiterWrites_quota :
    Asked setup .a .configWrite (Record.quota 0 0 64).bytes ∧ (setup.session .a).state = .opened 100 100 ∧ setup.phase = .setup ∧ 0 + 0 + 64 ≤ 64 :=
  ⟨asked (by decide +kernel) (by decide +kernel), by decide +kernel⟩

theorem witness_TimebaseQuotaAndArbiterWrites_arbiter :
    Asked setup .a .configWrite (Record.arbiter .fixed .c .a .b).bytes ∧ (setup.session .a).state = .opened 100 100 ∧ setup.phase = .setup ∧ Port.c ≠ Port.a ∧ Port.c ≠ Port.b ∧ Port.a ≠ Port.b :=
  ⟨asked (by decide +kernel) (by decide +kernel), by decide +kernel⟩

theorem witness_OutputLineWriteDrivesTheLine_unpaired :
    Asked setup .a .configWrite (Record.outputLine 23 true true).bytes ∧ (setup.session .a).state = .opened 100 100 ∧ setup.phase = .setup ∧ setup.pairOf 23 = none :=
  ⟨asked (by decide +kernel) (by decide +kernel), by decide +kernel⟩

theorem witness_OutputLineWriteDrivesTheLine_paired_rise :
    Asked setup .a .configWrite (Record.outputLine 0 true true).bytes ∧ (setup.session .a).state = .opened 100 100 ∧ setup.phase = .setup ∧ setup.pairOf 0 = some 0 ∧ (setup.pairRuntime 0).deferred = none ∧ (setup.output ((setup.pair 0).partner 0)).safe = false ∧ setup.level ((setup.pair 0).partner 0) ≠ .one :=
  ⟨asked (by decide +kernel) (by decide +kernel), by decide +kernel⟩

theorem witness_OutputLineWriteDrivesTheLine_paired_fall :
    Asked (high setup 0) .a .configWrite (Record.outputLine 0 true false).bytes ∧ ((high setup 0).session .a).state = .opened 100 100 ∧ (high setup 0).phase = .setup ∧ (high setup 0).pairOf 0 = some 0 ∧ ((high setup 0).pairRuntime 0).deferred = none ∧ (high setup 0).level 0 = .one :=
  ⟨asked (by decide +kernel) (by decide +kernel), by decide +kernel⟩

theorem witness_InputLineWriteResetsTheFilter_used :
    Asked setup .a .configWrite (Record.inputLine 7 true 255).bytes ∧ (setup.session .a).state = .opened 100 100 ∧ setup.phase = .setup ∧ 255 ≤ 255 :=
  ⟨asked (by decide +kernel) (by decide +kernel), by decide +kernel⟩

theorem witness_InputLineWriteResetsTheFilter_unused :
    Asked setup .a .configWrite (Record.inputLine 0 false 0).bytes ∧ (setup.session .a).state = .opened 100 100 ∧ setup.phase = .setup ∧ 0 ≤ 255 :=
  ⟨asked (by decide +kernel) (by decide +kernel), by decide +kernel⟩

theorem witness_InputLineWriteResetsTheFilter_edge_due :
    Asked edgeWaits .a .configWrite (Record.inputLine 0 true 0).bytes ∧ (edgeWaits.session .a).state = .opened 100 100 ∧ edgeWaits.phase = .setup ∧ (edgeWaits.filter 0).edgeDue = true ∧ (edgeWaits.filter 0).lastSample = some true :=
  ⟨asked (by decide +kernel) (by decide +kernel), by decide +kernel⟩

theorem witness_PairWriteSettlesTheRuntime :
    Asked (fallen 0 4) .a .configWrite (Record.pair 0 ⟨true, 1, 0, 5, 65535⟩).bytes
      ∧ ((fallen 0 4).session .a).state = .opened 100 100 ∧ (fallen 0 4).phase = .setup
      ∧ ((fallen 0 4).pairRuntime 0).fall = some ⟨0, 0⟩ ∧ lateness 0 (fallen 0 4).now < 5
      ∧ ((1 : OutLine) ≠ 0 ∧ ((fallen 0 4).output 1).used = true ∧ ((fallen 0 4).output 0).used = true
        ∧ (∀ j, j ≠ 0 → ((fallen 0 4).pair j).valid = true →
            ((fallen 0 4).pair j).holds 1 = false ∧ ((fallen 0 4).pair j).holds 0 = false)
        ∧ (((fallen 0 4).output 1).safe = false ∨ ((fallen 0 4).output 0).safe = false)
        ∧ ((fallen 0 4).level 1 ≠ .one ∨ (fallen 0 4).level 0 ≠ .one)) :=
  ⟨asked (by decide +kernel) (by decide +kernel), by decide +kernel⟩

theorem witness_PairWriteSettlesTheRuntime_guard_over :
    Asked (fallen 0 5) .a .configWrite (Record.pair 0 ⟨true, 1, 0, 5, 0⟩).bytes ∧ ((fallen 0 5).pairRuntime 0).fall = some ⟨0, 0⟩ ∧ lateness 0 (fallen 0 5).now = 5 ∧ (fallen 0 5).phase = .setup :=
  ⟨asked (by decide +kernel) (by decide +kernel), by decide +kernel⟩

theorem witness_PairWriteSettlesTheRuntime_other_line :
    Asked (fallen 0 4) .a .configWrite (Record.pair 0 ⟨true, 1, 2, 5, 0⟩).bytes ∧ ((fallen 0 4).pairRuntime 0).fall = some ⟨0, 0⟩ ∧ (fallen 0 4).phase = .setup ∧ (0 : OutLine) ≠ 1 ∧ (0 : OutLine) ≠ 2 :=
  ⟨asked (by decide +kernel) (by decide +kernel), by decide +kernel⟩

theorem witness_PairWriteSettlesTheRuntime_invalid :
    Asked (fallen 0 4) .a .configWrite (Record.pair 0 ⟨false, 20, 20, 65535, 0⟩).bytes ∧ ((fallen 0 4).pairRuntime 0).fall = some ⟨0, 0⟩ ∧ (fallen 0 4).phase = .setup :=
  ⟨asked (by decide +kernel) (by decide +kernel), by decide +kernel⟩

theorem witness_PairWriteSettlesTheRuntime_no_fall :
    Asked setup .a .configWrite (Record.pair 11 ⟨true, 14, 15, 0, 0⟩).bytes ∧ (setup.session .a).state = .opened 100 100 ∧ setup.phase = .setup ∧ (setup.pairRuntime 11).fall = none :=
  ⟨asked (by decide +kernel) (by decide +kernel), by decide +kernel⟩

theorem witness_InconsistentWritesAreRefused_self :
    Asked setup .a .configWrite (Record.pair 1 ⟨true, 4, 4, 0, 0⟩).bytes ∧ (setup.session .a).state = .opened 100 100 ∧ setup.phase = .setup ∧ (4 : OutLine) = 4 :=
  ⟨asked (by decide +kernel) (by decide +kernel), by decide +kernel⟩

theorem witness_InconsistentWritesAreRefused_unused :
    Asked setup .a .configWrite (Record.pair 1 ⟨true, 20, 21, 0, 0⟩).bytes ∧ (setup.session .a).state = .opened 100 100 ∧ setup.phase = .setup ∧ (setup.output 20).used = false ∧ (setup.output 21).used = false :=
  ⟨asked (by decide +kernel) (by decide +kernel), by decide +kernel⟩

theorem witness_InconsistentWritesAreRefused_overlap :
    Asked setup .a .configWrite (Record.pair 1 ⟨true, 1, 2, 0, 0⟩).bytes ∧ (setup.session .a).state = .opened 100 100 ∧ setup.phase = .setup ∧ (setup.output 1).used = true ∧ (setup.output 2).used = true ∧ (setup.pair 0).valid = true ∧ (setup.pair 0).holds 1 = true :=
  ⟨asked (by decide +kernel) (by decide +kernel), by decide +kernel⟩

theorem witness_InconsistentWritesAreRefused_both_at_one :
    Asked (high (high setup 4) 5) .a .configWrite (Record.pair 1 ⟨true, 4, 5, 0, 0⟩).bytes ∧ (high (high setup 4) 5).level 4 = .one ∧ (high (high setup 4) 5).level 5 = .one ∧ (∀ j, j ≠ 1 → ((high (high setup 4) 5).pair j).valid = true → ((high (high setup 4) 5).pair j).holds 4 = false ∧ ((high (high setup 4) 5).pair j).holds 5 = false) :=
  ⟨asked (by decide +kernel) (by decide +kernel), by decide +kernel⟩

theorem witness_InconsistentWritesAreRefused_paired_line :
    Asked setup .a .configWrite (Record.outputLine 1 false false).bytes ∧ (setup.session .a).state = .opened 100 100 ∧ setup.phase = .setup ∧ setup.pairOf 1 = some 0 :=
  ⟨asked (by decide +kernel) (by decide +kernel), by decide +kernel⟩

theorem witness_InconsistentWritesAreRefused_partner_at_one :
    Asked (high setup 0) .a .configWrite (Record.outputLine 1 true true).bytes ∧ (high setup 0).pairOf 1 = some 0 ∧ (high setup 0).level (((high setup 0).pair 0).partner 1) = .one :=
  ⟨asked (by decide +kernel) (by decide +kernel), by decide +kernel⟩

theorem witness_InconsistentWritesAreRefused_quota :
    Asked setup .a .configWrite (Record.quota 64 1 0).bytes ∧ (setup.session .a).state = .opened 100 100 ∧ setup.phase = .setup ∧ 64 < 64 + 1 + 0 :=
  ⟨asked (by decide +kernel) (by decide +kernel), by decide +kernel⟩

/-- Bodies that are no record, one at each bound of section 12.6 and R154. -/
theorem witness_InconsistentWritesAreRefused_no_record :
    ∀ b ∈ ([[3], [6, 0], [4, 0, 1], [4, 1, 1, 1, 1], [1, 24, 1, 0], [2, 8, 1, 0], [3, 12, 0, 0, 0, 0, 0, 0, 0],
            [0, 0, 2, 0, 1, 1], [0, 0, 0, 0, 0, 1], [0, 0, 0, 1, 1, 1], [0, 0, 0, 0, 1, 0], [1, 0, 2, 0], [1, 0, 1, 2],
            [2, 0, 2, 0], [3, 0, 2, 0, 1, 0, 0, 0, 0], [3, 0, 1, 24, 1, 0, 0, 0, 0], [3, 0, 0, 0, 24, 0, 0, 0, 0],
            [4, 0, 65, 0, 0], [5, 0, 2, 0, 1, 2], [5, 0, 0, 0, 3, 1], [5, 0, 0, 0, 0, 1]] : List (List Byte)),
      Asked setup .a .configWrite b ∧ (setup.session .a).state = .opened 100 100 ∧ setup.phase = .setup
        ∧ FrameRow.admits (.configWrite (b.headD 0).toNat) (.frame (Request.code .configWrite) 0x11 b (crcOf .configWrite b))
            = true := fun b hb =>
  ⟨asked (by decide +kernel) ((by decide +kernel : ∀ b ∈ ([[3], [6, 0], [4, 0, 1], [4, 1, 1, 1, 1], [1, 24, 1, 0], [2, 8, 1, 0],
            [3, 12, 0, 0, 0, 0, 0, 0, 0], [0, 0, 2, 0, 1, 1], [0, 0, 0, 0, 0, 1], [0, 0, 0, 1, 1, 1], [0, 0, 0, 0, 1, 0],
            [1, 0, 2, 0], [1, 0, 1, 2], [2, 0, 2, 0], [3, 0, 2, 0, 1, 0, 0, 0, 0], [3, 0, 1, 24, 1, 0, 0, 0, 0],
            [3, 0, 0, 0, 24, 0, 0, 0, 0], [4, 0, 65, 0, 0], [5, 0, 2, 0, 1, 2], [5, 0, 0, 0, 3, 1],
            [5, 0, 0, 0, 0, 1]] : List (List Byte)),
          readInbound (requestFrame (Request.code .configWrite) 0x11 b)
            = .frame (Request.code .configWrite) 0x11 b (crcOf .configWrite b)) b hb),
    by decide +kernel, by decide +kernel, by revert b; decide +kernel⟩

/-! #### Ownership -/

theorem witness_ClaimTakesLinesOrWaits_free :
    Asked running .a .claim (claimBytes 0x10 false none) ∧ (running.session .a).state = .opened 100 100 ∧ running.phase = .run ∧ running.unusedIn 0x10 = 0 ∧ running.owner 4 = none :=
  ⟨asked (by decide +kernel) (by decide +kernel), by decide +kernel⟩

theorem witness_ClaimTakesLinesOrWaits_own :
    Asked running .a .claim (claimBytes 0xF true (some 16777215)) ∧ (running.session .a).state = .opened 100 100 ∧ running.phase = .run ∧ (∀ l, inMask (0xF : LineMask) l = true → running.owner l = none ∨ running.owner l = some .a) :=
  ⟨asked (by decide +kernel) (by decide +kernel), by decide +kernel⟩

theorem witness_ClaimTakesLinesOrWaits_empty :
    Asked running .a .claim (claimBytes 0 false none) ∧ (running.session .a).state = .opened 100 100 ∧ running.phase = .run ∧ (0 : LineMask) = 0 :=
  ⟨asked (by decide +kernel) (by decide +kernel), by decide +kernel⟩

theorem witness_ClaimTakesLinesOrWaits_unused :
    Asked running .a .claim (claimBytes 0x10000 false none) ∧ (running.session .a).state = .opened 100 100 ∧ running.phase = .run ∧ running.unusedIn 0x10000 ≠ 0 :=
  ⟨asked (by decide +kernel) (by decide +kernel), by decide +kernel⟩

theorem witness_ClaimTakesLinesOrWaits_limit_alone :
    Asked running .a .claim (claimBytes 0x10 false (some 0)) ∧ (running.session .a).state = .opened 100 100 ∧ running.phase = .run ∧ running.unusedIn 0x10 = 0 :=
  ⟨asked (by decide +kernel) (by decide +kernel), by decide +kernel⟩

theorem witness_ClaimTakesLinesOrWaits_held :
    Asked running .a .claim (claimBytes 0x200 false none) ∧ (running.session .a).state = .opened 100 100 ∧ running.phase = .run ∧ running.owner 9 = some .b ∧ running.unusedIn 0x200 = 0 :=
  ⟨asked (by decide +kernel) (by decide +kernel), by decide +kernel⟩

theorem witness_ClaimTakesLinesOrWaits_waiting :
    Asked running .b .claim (claimBytes 0x1 true none) ∧ (running.session .b).state = .opened 50 50 ∧ (running.claim .b).isSome = true ∧ running.owner 0 = some .a :=
  ⟨asked (by decide +kernel) (by decide +kernel), by decide +kernel⟩

theorem witness_ClaimTakesLinesOrWaits_queued :
    Asked running .a .claim (claimBytes 0x200 true none) ∧ (running.session .a).state = .opened 100 100 ∧ running.phase = .run ∧ running.claim .a = none ∧ running.owner 9 = some .b :=
  ⟨asked (by decide +kernel) (by decide +kernel), by decide +kernel⟩

theorem witness_ClaimTakesLinesOrWaits_queued_zero :
    Asked running .a .claim (claimBytes 0x200 true (some 0)) ∧ (running.session .a).state = .opened 100 100 ∧ running.phase = .run ∧ running.claim .a = none ∧ running.owner 9 = some .b :=
  ⟨asked (by decide +kernel) (by decide +kernel), by decide +kernel⟩

theorem witness_ClaimTakesLinesOrWaits_queued_limit :
    Asked running .a .claim (claimBytes 0x200 true (some 16777215)) ∧ (running.session .a).state = .opened 100 100 ∧ running.phase = .run ∧ running.claim .a = none ∧ 16777215 < 16777216 :=
  ⟨asked (by decide +kernel) (by decide +kernel), by decide +kernel⟩

theorem witness_ClaimTakesLinesOrWaits_length :
    Asked running .a .claim [0, 0, 16, 0, 0] ∧ (running.session .a).state = .opened 100 100 ∧ running.phase = .run ∧ ([0, 0, 16, 0, 0] : List Byte).length ≠ 4 ∧ ([0, 0, 16, 0, 0] : List Byte).length ≠ 7 :=
  ⟨asked (by decide +kernel) (by decide +kernel), by decide +kernel⟩

theorem witness_ClaimTakesLinesOrWaits_marker :
    Asked running .a .claim [0, 0, 16, 2] ∧ (running.session .a).state = .opened 100 100 ∧ running.phase = .run ∧ [0, 0, 16, 2] = maskBytes 0x10 ++ (2 : Byte) :: [] ∧ ([] : List Byte).isEmpty = (2 : Byte).getLsbD 1 :=
  ⟨asked (by decide +kernel) (by decide +kernel), by decide +kernel⟩

theorem witness_ClaimTakesLinesOrWaits_flags :
    Asked running .a .claim [0, 0, 16, 4] ∧ (running.session .a).state = .opened 100 100 ∧ running.phase = .run ∧ [0, 0, 16, 4] = maskBytes 0x10 ++ (4 : Byte) :: [] ∧ ([] : List Byte).length = (if (4 : Byte).getLsbD 1 then 3 else 0) ∧ 4 ≤ (4 : Byte).toNat ∧ (0x10 : LineMask) &&& ~~~running.usedMask = 0 :=
  ⟨asked (by decide +kernel) (by decide +kernel), by decide +kernel⟩

theorem witness_ReleaseFreesLines :
    Asked running .a .release (maskBytes 0x4) ∧ (running.session .a).state = .opened 100 100 ∧ running.phase = .run ∧ (0x4 : LineMask) ≠ 0 ∧ (∀ l, inMask (0x4 : LineMask) l = true → running.owner l = some .a) ∧ running.pairOf 2 = none ∧ running.ownsStep .a 0 = true :=
  ⟨asked (by decide +kernel) (by decide +kernel), by decide +kernel⟩

theorem witness_ReleaseFreesLines_empty :
    Asked running .a .release (maskBytes 0) ∧ (running.session .a).state = .opened 100 100 ∧ running.phase = .run ∧ (0 : LineMask) = 0 :=
  ⟨asked (by decide +kernel) (by decide +kernel), by decide +kernel⟩

theorem witness_ReleaseFreesLines_length :
    Asked running .a .release [0, 4] ∧ (running.session .a).state = .opened 100 100 ∧ running.phase = .run ∧ ([0, 4] : List Byte).length ≠ 3 :=
  ⟨asked (by decide +kernel) (by decide +kernel), by decide +kernel⟩

/-- Pair 0 with line 0 at 1, pair 1 with line 3, of safe level 1, at 0. -/
theorem witness_ReleaseFreesLines_pairs :
    PairConfigLaw paired ∧ PairRuntimeLaw paired ∧ PairLaw paired
      ∧ (inMask (0x9 : LineMask) 0 = true ∧ (paired.output 0).safe = false ∧ paired.level 0 = .one)
      ∧ inMask (0x9 : LineMask) 3 = true ∧ (paired.output 3).safe = true ∧ paired.level 3 = .zero :=
  ⟨pairConfigLaw_of (by decide +kernel), pairRuntimeLaw_of (by decide +kernel), by unfold PairLaw; decide +kernel, by decide +kernel⟩

theorem witness_ReleaseFreesLines_not_owner :
    Asked running .a .release (maskBytes 0x204) ∧ (running.session .a).state = .opened 100 100 ∧ running.phase = .run ∧ (0x204 : LineMask) &&& ~~~(running.ownedMask .a) ≠ 0 :=
  ⟨asked (by decide +kernel) (by decide +kernel), by decide +kernel⟩

theorem witness_ArbiterPassGrantsWholeClaims :
    waiting.arbiter.first ≠ waiting.arbiter.second ∧ waiting.arbiter.first ≠ waiting.arbiter.third ∧ waiting.arbiter.second ≠ waiting.arbiter.third ∧ waiting.arbiter.pointer = .a ∧ waiting.claim .a = some ⟨0x11, none, 0⟩ ∧ (∀ l, inMask (0x11 : LineMask) l = true → waiting.owner l = none ∨ waiting.owner l = some .a) :=
  by decide +kernel

theorem witness_ArbiterPassGrantsWholeClaims_ownerless :
    (ownerless.pairRuntime 0).deferred = some ⟨4, none, 0, none⟩ ∧ ownerless.owner 4 = none ∧ (arbiterPass (Work.of ownerless)).st.owner 4 ≠ none :=
  by decide +kernel

theorem witness_WaitingClaimsLeaveTheQueue_withdraw :
    Asked running .b .claimWithdraw [] ∧ (running.session .b).state = .opened 50 50 ∧ running.phase = .run ∧ running.claim .b = some ⟨0x4, some 0, 0⟩ :=
  ⟨asked (by decide +kernel) (by decide +kernel), by decide +kernel⟩

theorem witness_WaitingClaimsLeaveTheQueue_withdraw_none :
    Asked running .a .claimWithdraw [] ∧ (running.session .a).state = .opened 100 100 ∧ running.phase = .run ∧ running.claim .a = none :=
  ⟨asked (by decide +kernel) (by decide +kernel), by decide +kernel⟩

theorem witness_WaitingClaimsLeaveTheQueue_withdraw_refused :
    Asked running .a .claimWithdraw [0] ∧ (running.session .a).state = .opened 100 100 ∧ running.phase = .run ∧ ([0] : List Byte) ≠ [] :=
  ⟨asked (by decide +kernel) (by decide +kernel), by decide +kernel⟩

theorem witness_WaitingClaimsLeaveTheQueue_deadline :
    running.inReset = false ∧ running.clock.present = true ∧ running.claim .b = some ⟨0x4, some running.now, 0⟩ :=
  by decide +kernel

theorem witness_WaitingClaimsLeaveTheQueue_deadline_later :
    (later running 1).claim .b = some ⟨0x4, some 0, 0⟩ ∧ some (0 : Tick) ≠ some (later running 1).now :=
  by decide +kernel

theorem witness_OwnersReportsTheTable :
    Asked running .a .owners [] ∧ (running.session .a).state = .opened 100 100 ∧ running.phase ≠ .fault :=
  ⟨asked (by decide +kernel) (by decide +kernel), by decide +kernel⟩

theorem witness_OwnersReportsTheTable_refused :
    Asked running .a .owners [0] ∧ (running.session .a).state = .opened 100 100 ∧ running.phase ≠ .fault :=
  ⟨asked (by decide +kernel) (by decide +kernel), by decide +kernel⟩

/-! #### Outputs and the interlock -/

theorem witness_OutputsAndPairsAreRead_outputs :
    Asked running .a .readOutputs [] ∧ (running.session .a).state = .opened 100 100 ∧ running.phase ≠ .fault :=
  ⟨asked (by decide +kernel) (by decide +kernel), by decide +kernel⟩

theorem witness_OutputsAndPairsAreRead_outputs_refused :
    Asked running .a .readOutputs [0] ∧ (running.session .a).state = .opened 100 100 ∧ running.phase ≠ .fault :=
  ⟨asked (by decide +kernel) (by decide +kernel), by decide +kernel⟩

theorem witness_OutputsAndPairsAreRead_all :
    Asked running .a .pairStatus [0xFF] ∧ (running.session .a).state = .opened 100 100 ∧ running.phase ≠ .fault :=
  ⟨asked (by decide +kernel) (by decide +kernel), by decide +kernel⟩

theorem witness_OutputsAndPairsAreRead_valid :
    Asked running .a .pairStatus [0] ∧ (running.session .a).state = .opened 100 100 ∧ running.phase ≠ .fault ∧ (running.pair 0).valid = true :=
  ⟨asked (by decide +kernel) (by decide +kernel), by decide +kernel⟩

theorem witness_OutputsAndPairsAreRead_not_valid :
    Asked running .a .pairStatus [11] ∧ (running.session .a).state = .opened 100 100 ∧ running.phase ≠ .fault ∧ (running.pair 11).valid = false :=
  ⟨asked (by decide +kernel) (by decide +kernel), by decide +kernel⟩

theorem witness_OutputsAndPairsAreRead_no_pair :
    Asked running .a .pairStatus [12] ∧ (running.session .a).state = .opened 100 100 ∧ running.phase ≠ .fault ∧ 12 ≤ (12 : Byte).toNat :=
  ⟨asked (by decide +kernel) (by decide +kernel), by decide +kernel⟩

theorem witness_OutputsAndPairsAreRead_length :
    Asked running .a .pairStatus [] ∧ (running.session .a).state = .opened 100 100 ∧ running.phase ≠ .fault ∧ ([] : List Byte).length ≠ 1 :=
  ⟨asked (by decide +kernel) (by decide +kernel), by decide +kernel⟩

theorem witness_InterlockJudgesRisesAndFalls_kept :
    running.level 3 ≠ .zero :=
  by decide +kernel

theorem witness_InterlockJudgesRisesAndFalls_unpaired :
    running.level 2 = .zero ∧ running.pairOf 2 = none :=
  by decide +kernel

theorem witness_InterlockJudgesRisesAndFalls_granted :
    running.level 1 = .zero ∧ running.pairOf 1 = some 0 ∧ (running.pairRuntime 0).defers 1 = false ∧ (running.pairRuntime 0).defers 0 = false ∧ running.level ((running.pair 0).partner 1) = .zero ∧ (running.pairRuntime 0).guards 1 = false :=
  by decide +kernel

theorem witness_InterlockJudgesRisesAndFalls_deferred :
    (high running 0).level 1 = .zero ∧ (high running 0).pairOf 1 = some 0 ∧ ((high running 0).pairRuntime 0).defers 1 = false ∧ ((high running 0).pairRuntime 0).defers 0 = false ∧ (high running 0).level (((high running 0).pair 0).partner 1) ≠ .zero :=
  by decide +kernel

theorem witness_InterlockJudgesRisesAndFalls_absorbed :
    (held 0).level 1 = .zero ∧ (held 0).pairOf 1 = some 0 ∧ ((held 0).pairRuntime 0).defers 1 = true :=
  by decide +kernel

theorem witness_InterlockJudgesRisesAndFalls_dropped :
    (held 0).level 0 = .zero ∧ (held 0).pairOf 0 = some 0 ∧ ((held 0).pairRuntime 0).defers 0 = false ∧ ((held 0).pairRuntime 0).defers ((running.pair 0).partner 0) = true :=
  by decide +kernel

theorem witness_InterlockJudgesRisesAndFalls_fall :
    running.pairOf 0 = some 0 :=
  by decide +kernel

theorem witness_InterlockJudgesRisesAndFalls_overrides :
    (held 0).pairOf 1 = some 0 ∧ (held 0).level 1 = .zero ∧ ((held 0).pairRuntime 0).deferred = some heldRise ∧ heldRise.line = 1 :=
  by decide +kernel

/-- Pair 0's guard ends and its rise on line 1 has its hold deadline: granted when line 0 is at 0. -/
theorem witness_InterlockTickWork :
    (held 0).inReset = false ∧ (held 0).clock.present = true ∧ PairConfigLaw (held 0) ∧ PairRuntimeLaw (held 0)
      ∧ ((held 0).pairRuntime 0).guard = some ⟨(held 0).now, 1⟩ ∧ ((held 0).pairRuntime 0).defers 1 = true
      ∧ (held 0).level (((held 0).pair 0).partner 1) = .zero ∧ heldRise.holdDeadline = some (held 0).now :=
  ⟨rfl, rfl, pairConfigLaw_of (by decide +kernel), pairRuntimeLaw_of (by decide +kernel), by decide +kernel⟩

/-- The same with line 0 at 1: the rise is dropped. -/
theorem witness_InterlockTickWork_dropped :
    (high (held 0) 0).inReset = false ∧ PairConfigLaw (high (held 0) 0) ∧ PairRuntimeLaw (high (held 0) 0)
      ∧ (high (held 0) 0).level (((high (held 0) 0).pair 0).partner 1) ≠ .zero
      ∧ ((high (held 0) 0).pairRuntime 0).deferred = some heldRise ∧ heldRise.owner = some .a
      ∧ ∀ i e, i ≠ 0 → ((high (held 0) 0).pairRuntime i).deferred = some e → e.holdDeadline ≠ some (high (held 0) 0).now :=
  ⟨rfl, pairConfigLaw_of (by decide +kernel), pairRuntimeLaw_of (by decide +kernel), by decide +kernel, by decide +kernel,
    rfl, fun i e hi h => by
      have := (by decide +kernel : ∀ i, i ≠ 0 → ((high (held 0) 0).pairRuntime i).deferred = none) i hi
      rw [this] at h; cases h⟩

/-- A fall record that ends at NOW, 65,536 ticks after the fall. -/
theorem witness_InterlockTickWork_record :
    ((fallen 0 65536).pairRuntime 0).fall.any (fun f => f.tick + 65536#32 == (fallen 0 65536).now) = true := by
  decide +kernel

/-! #### Firings -/

theorem witness_BankFiringMergesDueSteps :
    running.inReset = false ∧ running.clock.present = true ∧ CalendarLaw running ∧ running.step 0 = some (timedStep 0)
      ∧ (timedStep 0).bank = 0 ∧ (timedStep 0).state = .pending running.now ∧ running.pairOf (lineAt 0 2) = none
      ∧ running.level (lineAt 0 2) ≠ .z :=
  ⟨rfl, rfl, calendarLaw_of (by decide +kernel), by decide +kernel⟩

/-- A step that repeats onto the due of another. -/
theorem witness_BankFiringMergesDueSteps_repeat :
    CalendarLaw repeating ∧ DueOrderLaw repeating ∧ 0 ∈ repeating.dueSlots 0 ∧ 3 ∈ repeating.dueList
      ∧ 3 ∉ repeating.dueSlots 0 ∧ 0 ∈ (run (.bankFiring 0) repeating).dueList :=
  ⟨calendarLaw_of (by decide +kernel), by unfold DueOrderLaw; decide +kernel, by decide +kernel⟩

/-- A CLEAR of line 0 at 1. -/
theorem witness_BankFiringActsThroughTheInterlock_fall :
    (driving 0 1 (high running 0)).inReset = false ∧ (driving 0 1 (high running 0)).clock.present = true ∧ CalendarLaw (driving 0 1 (high running 0)) ∧ PairConfigLaw (driving 0 1 (high running 0))
      ∧ PairRuntimeLaw (driving 0 1 (high running 0)) ∧ (driving 0 1 (high running 0)).mergedAction ((driving 0 1 (high running 0)).dueSlots 0) 0 = some false ∧ (driving 0 1 (high running 0)).level 0 = .one ∧ (driving 0 1 (high running 0)).pairOf (lineAt 0 0) = some 0 :=
  ⟨rfl, rfl, calendarLaw_of (by decide +kernel), pairConfigLaw_of (by decide +kernel), pairRuntimeLaw_of (by decide +kernel), by decide +kernel⟩

/-- A CLEAR of line 1 at 0 with a deferred rise. -/
theorem witness_BankFiringActsThroughTheInterlock_override :
    (driving 0 2 (held 5)).inReset = false ∧ (driving 0 2 (held 5)).clock.present = true ∧ CalendarLaw (driving 0 2 (held 5)) ∧ PairConfigLaw (driving 0 2 (held 5))
      ∧ PairRuntimeLaw (driving 0 2 (held 5)) ∧ (driving 0 2 (held 5)).mergedAction ((driving 0 2 (held 5)).dueSlots 0) 1 = some false ∧ (driving 0 2 (held 5)).level 1 ≠ .one ∧ ((driving 0 2 (held 5)).pairRuntime 0).defers 1 = true :=
  ⟨rfl, rfl, calendarLaw_of (by decide +kernel), pairConfigLaw_of (by decide +kernel), pairRuntimeLaw_of (by decide +kernel), by decide +kernel⟩

/-- A SET of line 0 at 0. -/
theorem witness_BankFiringActsThroughTheInterlock_granted :
    (driving 1 0 running).inReset = false ∧ (driving 1 0 running).clock.present = true ∧ CalendarLaw (driving 1 0 running) ∧ PairConfigLaw (driving 1 0 running)
      ∧ PairRuntimeLaw (driving 1 0 running) ∧ (driving 1 0 running).mergedAction ((driving 1 0 running).dueSlots 0) 0 = some true ∧ (driving 1 0 running).level 0 = .zero ∧ (driving 1 0 running).level (((driving 1 0 running).pair 0).partner 0) = .zero ∧ ((driving 1 0 running).pairRuntime 0).guards 0 = false :=
  ⟨rfl, rfl, calendarLaw_of (by decide +kernel), pairConfigLaw_of (by decide +kernel), pairRuntimeLaw_of (by decide +kernel), by decide +kernel⟩

/-- A SET of line 1 with line 0 at 1. -/
theorem witness_BankFiringActsThroughTheInterlock_deferred :
    (driving 2 0 (high running 0)).inReset = false ∧ (driving 2 0 (high running 0)).clock.present = true ∧ CalendarLaw (driving 2 0 (high running 0)) ∧ PairConfigLaw (driving 2 0 (high running 0))
      ∧ PairRuntimeLaw (driving 2 0 (high running 0)) ∧ (driving 2 0 (high running 0)).mergedAction ((driving 2 0 (high running 0)).dueSlots 0) 1 = some true ∧ (driving 2 0 (high running 0)).level 1 = .zero ∧ (driving 2 0 (high running 0)).level (((driving 2 0 (high running 0)).pair 0).partner 1) = .one :=
  ⟨rfl, rfl, calendarLaw_of (by decide +kernel), pairConfigLaw_of (by decide +kernel), pairRuntimeLaw_of (by decide +kernel), by decide +kernel⟩

/-- A SET of line 1, whose rise is deferred already. -/
theorem witness_BankFiringActsThroughTheInterlock_absorbed :
    (driving 2 0 (held 5)).inReset = false ∧ (driving 2 0 (held 5)).clock.present = true ∧ CalendarLaw (driving 2 0 (held 5)) ∧ PairConfigLaw (driving 2 0 (held 5))
      ∧ PairRuntimeLaw (driving 2 0 (held 5)) ∧ (driving 2 0 (held 5)).mergedAction ((driving 2 0 (held 5)).dueSlots 0) 1 = some true ∧ (driving 2 0 (held 5)).level 1 = .zero ∧ ((driving 2 0 (held 5)).pairRuntime 0).defers 1 = true :=
  ⟨rfl, rfl, calendarLaw_of (by decide +kernel), pairConfigLaw_of (by decide +kernel), pairRuntimeLaw_of (by decide +kernel), by decide +kernel⟩

/-- A SET of line 0, whose partner has a deferred rise. -/
theorem witness_BankFiringActsThroughTheInterlock_contended :
    (driving 1 0 (held 5)).inReset = false ∧ (driving 1 0 (held 5)).clock.present = true ∧ CalendarLaw (driving 1 0 (held 5)) ∧ PairConfigLaw (driving 1 0 (held 5))
      ∧ PairRuntimeLaw (driving 1 0 (held 5)) ∧ (driving 1 0 (held 5)).mergedAction ((driving 1 0 (held 5)).dueSlots 0) 0 = some true ∧ (driving 1 0 (held 5)).level 0 = .zero ∧ ((driving 1 0 (held 5)).pairRuntime 0).defers (((driving 1 0 (held 5)).pair 0).partner 0) = true :=
  ⟨rfl, rfl, calendarLaw_of (by decide +kernel), pairConfigLaw_of (by decide +kernel), pairRuntimeLaw_of (by decide +kernel), by decide +kernel⟩

/-- A SET of line 0 at 1. -/
theorem witness_BankFiringActsThroughTheInterlock_kept :
    (driving 1 0 (high running 0)).inReset = false ∧ (driving 1 0 (high running 0)).clock.present = true ∧ CalendarLaw (driving 1 0 (high running 0)) ∧ PairConfigLaw (driving 1 0 (high running 0))
      ∧ PairRuntimeLaw (driving 1 0 (high running 0)) ∧ (driving 1 0 (high running 0)).mergedAction ((driving 1 0 (high running 0)).dueSlots 0) 0 = some true ∧ (driving 1 0 (high running 0)).level 0 ≠ .zero :=
  ⟨rfl, rfl, calendarLaw_of (by decide +kernel), pairConfigLaw_of (by decide +kernel), pairRuntimeLaw_of (by decide +kernel), by decide +kernel⟩

/-- A CLEAR of line 0 at 1 and a SET of line 1. -/
theorem witness_BankFiringActsThroughTheInterlock_swap :
    (driving 2 1 (high running 0)).inReset = false ∧ (driving 2 1 (high running 0)).clock.present = true ∧ CalendarLaw (driving 2 1 (high running 0)) ∧ PairConfigLaw (driving 2 1 (high running 0))
      ∧ PairRuntimeLaw (driving 2 1 (high running 0)) ∧ (driving 2 1 (high running 0)).mergedAction ((driving 2 1 (high running 0)).dueSlots 0) 0 = some false ∧ (driving 2 1 (high running 0)).mergedAction ((driving 2 1 (high running 0)).dueSlots 0) 1 = some true ∧ (driving 2 1 (high running 0)).level 0 = .one ∧ (driving 2 1 (high running 0)).level 1 = .zero :=
  ⟨rfl, rfl, calendarLaw_of (by decide +kernel), pairConfigLaw_of (by decide +kernel), pairRuntimeLaw_of (by decide +kernel), by decide +kernel⟩

/-- The step's SET of line 1 is deferred, so that its notice has a mask that is not 0. -/
theorem witness_FiringNoticesReachTheOwner :
    (driving 2 0 (high running 0)).inReset = false ∧ (driving 2 0 (high running 0)).clock.present = true
      ∧ CalendarLaw (driving 2 0 (high running 0)) ∧ (driving 2 0 (high running 0)).dueSlots 0 = [0] :=
  ⟨rfl, rfl, calendarLaw_of (by decide +kernel), by decide +kernel⟩

/-! #### The calendar -/

/-- One TIMED descriptor for bank 0 that sets line 2, due 9. -/
def rawFuture : RawDescriptor := ⟨0x08, 4, 0, 0, some 9, none, none, none⟩

/-- The ARMED descriptor for bank 0 that sets line 2 on rises of IL7 after 3 ticks, window end 268435456. -/
def rawArmed : RawDescriptor := ⟨0x46, 4, 0, 0, none, some (0x17, 3), some 268435456, none⟩

/-- A TIMED descriptor with a repeat part, and an ARMED one with a window end and a repeat part. -/
def fullTimed : Descriptor := ⟨2, 1, 2, ⟨true, false, true, false⟩, .timed 9, some (.count 255, 16777215)⟩
def fullArmed : Descriptor := ⟨0, 128, 0, ⟨false, true, false, true⟩, .armed 7 .either 65535 (some 5), some (.unbounded, 1)⟩

theorem fullTimed_fits : fullTimed.Fits fun _ => true where
  masks := by decide
  timed _ _ := rfl
  armed _ _ _ _ h := by cases h
  repeats _ _ h := by
    cases h
    exact ⟨⟨by decide, fun n h => by cases h; decide⟩, by decide⟩

theorem fullArmed_fits : fullArmed.Fits fun _ => true where
  masks := by decide
  timed _ h := by cases h
  armed _ _ _ _ h := by
    cases h
    exact ⟨rfl, by decide⟩
  repeats _ _ h := by
    cases h
    exact ⟨⟨by decide, fun n h => by cases h⟩, by decide⟩

theorem fullTimed_raw_fits : fullTimed.raw.Fits where
  due := rfl
  trigger := rfl
  window := rfl
  rep := rfl
  delay _ _ h := by cases h
  repeats _ _ h := by
    cases h
    exact ⟨by decide, fun n h => by cases h; decide⟩

theorem fullArmed_raw_fits : fullArmed.raw.Fits where
  due := rfl
  trigger := rfl
  window := rfl
  rep := rfl
  delay _ _ h := by
    cases h
    decide
  repeats _ _ h := by
    cases h
    exact ⟨by decide, fun n h => by cases h⟩

theorem witness_PlaceBodiesAreRead :
    fullTimed.Fits (fun _ => true) ∧ fullArmed.Fits (fun _ => true)
      ∧ (∀ d, d ∈ [fullTimed.raw, fullArmed.raw] → d.Fits) := by
  refine ⟨fullTimed_fits, fullArmed_fits, fun d hd => ?_⟩
  simp only [List.mem_cons, List.not_mem_nil, or_false] at hd
  rcases hd with rfl | rfl
  · exact fullTimed_raw_fits
  · exact fullArmed_raw_fits

/-- Section 12.3: kind, bank and markers in the first byte, and one more of each that R21 refuses. -/
theorem test_place_descriptor_bytes :
    fullTimed.raw.bytes = [0x29, 1, 2, 5, 0, 0, 0, 9, 255, 255, 255, 255]
      ∧ fullArmed.raw.bytes = [0x47, 128, 0, 10, 0x37, 255, 255, 0, 0, 0, 5, 0, 0, 0, 1]
      ∧ readDescriptor { fullTimed.raw with head := 0x39 } (fun _ => true) = none
      ∧ readDescriptor { fullTimed.raw with clearMask := 3 } (fun _ => true) = none
      ∧ readDescriptor { fullTimed.raw with flags := 8 } (fun _ => true) = none
      ∧ readDescriptor { fullArmed.raw with trigger := some (0x38, 0) } (fun _ => true) = none
      ∧ readDescriptor { fullArmed.raw with rep := some (.unbounded, 0) } (fun _ => true) = none := by decide +kernel

theorem witness_PlacePutsStepsIn :
    Asked running .a .place (2 :: [0x08, 4, 0, 0, 0, 0, 0, 9, 0x46, 4, 0, 0, 0x17, 0, 3, 0x10, 0, 0, 0])
      ∧ (running.session .a).state = .opened 100 100 ∧ running.phase = .run
      ∧ readPlace (2 :: [0x08, 4, 0, 0, 0, 0, 0, 9, 0x46, 4, 0, 0, 0x17, 0, 3, 0x10, 0, 0, 0]) = some [rawFuture, rawArmed]
      ∧ checkDescriptors running .a 0 [rawFuture, rawArmed]
          = .ok [⟨0, 4, 0, ⟨false, false, false, false⟩, .timed 9, none⟩,
                 ⟨0, 4, 0, ⟨false, false, false, false⟩, .armed 7 .rise 3 (some 268435456), none⟩]
      ∧ timeClass 9 running.now = .future ∧ CalendarLaw running ∧ DueOrderLaw running :=
  ⟨asked (by decide +kernel) (by decide +kernel), by decide +kernel, by decide +kernel, by decide +kernel,
    accepts_eq (by decide +kernel), by decide +kernel, calendarLaw_of (by decide +kernel),
    by unfold DueOrderLaw; decide +kernel⟩

theorem witness_PlaceChecksInOrder_body :
    Asked running .a .place [4] ∧ (running.session .a).state = .opened 100 100 ∧ running.phase = .run
      ∧ readPlace [4] = none :=
  ⟨asked (by decide +kernel) (by decide +kernel), by decide +kernel⟩

theorem witness_PlaceChecksInOrder_range :
    Asked running .a .place [1, 0x08, 0, 0, 0, 0, 0, 0, 9] ∧ (running.session .a).state = .opened 100 100 ∧ running.phase = .run
      ∧ readPlace [1, 0x08, 0, 0, 0, 0, 0, 0, 9] = some ([] ++ ⟨0x08, 0, 0, 0, some 9, none, none, none⟩ :: []) ∧ checkDescriptors running .a 0 [] = .ok []
      ∧ readDescriptor ⟨0x08, 0, 0, 0, some 9, none, none, none⟩ (fun l => (running.input l).used) = none ∧ running.phase ≠ .fault :=
  ⟨asked (by decide +kernel) (by decide +kernel), by decide +kernel, by decide +kernel, by decide +kernel, rfl, by decide +kernel, by decide +kernel⟩

theorem witness_PlaceChecksInOrder_owner :
    Asked running .a .place [1, 0x08, 0x10, 0, 0, 0, 0, 0, 9] ∧ (running.session .a).state = .opened 100 100 ∧ running.phase = .run
      ∧ readPlace [1, 0x08, 0x10, 0, 0, 0, 0, 0, 9] = some ([] ++ ⟨0x08, 0x10, 0, 0, some 9, none, none, none⟩ :: []) ∧ checkDescriptors running .a 0 [] = .ok []
      ∧ readDescriptor ⟨0x08, 0x10, 0, 0, some 9, none, none, none⟩ (fun l => (running.input l).used) = some ⟨0, 0x10, 0, ⟨false, false, false, false⟩, .timed 9, none⟩ ∧ running.owner (lineAt 0 4) ≠ some .a :=
  ⟨asked (by decide +kernel) (by decide +kernel), by decide +kernel, by decide +kernel, by decide +kernel, rfl, by decide +kernel, by decide +kernel⟩

theorem witness_PlaceChecksInOrder_quota :
    Asked (quotaFour) .a .place [1, 0x08, 4, 0, 0, 0, 0, 0, 9] ∧ ((quotaFour).session .a).state = .opened 100 100 ∧ (quotaFour).phase = .run
      ∧ readPlace [1, 0x08, 4, 0, 0, 0, 0, 0, 9] = some ([] ++ ⟨0x08, 4, 0, 0, some 9, none, none, none⟩ :: []) ∧ checkDescriptors (quotaFour) .a 0 [] = .ok []
      ∧ readDescriptor ⟨0x08, 4, 0, 0, some 9, none, none, none⟩ (fun l => ((quotaFour).input l).used) = some ⟨0, 4, 0, ⟨false, false, false, false⟩, .timed 9, none⟩ ∧ ¬quotaFour.stepCount .a + 0 + 1 ≤ quotaFour.quota .a :=
  ⟨asked (by decide +kernel) (by decide +kernel), by decide +kernel, by decide +kernel, by decide +kernel, rfl, by decide +kernel, by decide +kernel⟩

theorem witness_PlaceChecksInOrder_late :
    Asked running .a .place [1, 0x08, 4, 0, 0, 0, 0, 0, 0] ∧ (running.session .a).state = .opened 100 100 ∧ running.phase = .run
      ∧ readPlace [1, 0x08, 4, 0, 0, 0, 0, 0, 0] = some ([] ++ ⟨0x08, 4, 0, 0, some 0, none, none, none⟩ :: []) ∧ checkDescriptors running .a 0 [] = .ok []
      ∧ readDescriptor ⟨0x08, 4, 0, 0, some 0, none, none, none⟩ (fun l => (running.input l).used) = some ⟨0, 4, 0, ⟨false, false, false, false⟩, .timed 0, none⟩ ∧ lead 0 running.now = 0 :=
  ⟨asked (by decide +kernel) (by decide +kernel), by decide +kernel, by decide +kernel, by decide +kernel, rfl, by decide +kernel, by decide +kernel⟩

theorem witness_PlaceChecksInOrder_latest :
    Asked running .a .place [1, 0x08, 4, 0, 0, 0xF0, 0, 0, 0] ∧ (running.session .a).state = .opened 100 100 ∧ running.phase = .run
      ∧ readPlace [1, 0x08, 4, 0, 0, 0xF0, 0, 0, 0] = some ([] ++ ⟨0x08, 4, 0, 0, some 0xF0000000, none, none, none⟩ :: []) ∧ checkDescriptors running .a 0 [] = .ok []
      ∧ readDescriptor ⟨0x08, 4, 0, 0, some 0xF0000000, none, none, none⟩ (fun l => (running.input l).used) = some ⟨0, 4, 0, ⟨false, false, false, false⟩, .timed 0xF0000000, none⟩ ∧ lateness 0xF0000000 running.now = 268435456 :=
  ⟨asked (by decide +kernel) (by decide +kernel), by decide +kernel, by decide +kernel, by decide +kernel, rfl, by decide +kernel, by decide +kernel⟩

theorem witness_PlaceChecksInOrder_far :
    Asked running .a .place [1, 0x08, 4, 0, 0, 0x10, 0, 0, 1] ∧ (running.session .a).state = .opened 100 100 ∧ running.phase = .run
      ∧ readPlace [1, 0x08, 4, 0, 0, 0x10, 0, 0, 1] = some ([] ++ ⟨0x08, 4, 0, 0, some 0x10000001, none, none, none⟩ :: []) ∧ checkDescriptors running .a 0 [] = .ok []
      ∧ readDescriptor ⟨0x08, 4, 0, 0, some 0x10000001, none, none, none⟩ (fun l => (running.input l).used) = some ⟨0, 4, 0, ⟨false, false, false, false⟩, .timed 0x10000001, none⟩ ∧ 268435456 < lead 0x10000001 running.now ∧ 268435456 < lateness 0x10000001 running.now :=
  ⟨asked (by decide +kernel) (by decide +kernel), by decide +kernel, by decide +kernel, by decide +kernel, rfl, by decide +kernel, by decide +kernel⟩

theorem witness_PlaceChecksInOrder_window :
    Asked running .a .place [1, 0x46, 4, 0, 0, 0x17, 0, 3, 0, 0, 0, 0] ∧ (running.session .a).state = .opened 100 100 ∧ running.phase = .run
      ∧ readPlace [1, 0x46, 4, 0, 0, 0x17, 0, 3, 0, 0, 0, 0] = some ([] ++ ⟨0x46, 4, 0, 0, none, some (0x17, 3), some 0, none⟩ :: []) ∧ checkDescriptors running .a 0 [] = .ok []
      ∧ readDescriptor ⟨0x46, 4, 0, 0, none, some (0x17, 3), some 0, none⟩ (fun l => (running.input l).used) = some ⟨0, 4, 0, ⟨false, false, false, false⟩, .armed 7 .rise 3 (some 0), none⟩ ∧ lead 0 running.now = 0 :=
  ⟨asked (by decide +kernel) (by decide +kernel), by decide +kernel, by decide +kernel, by decide +kernel, rfl, by decide +kernel, by decide +kernel⟩

/-- A late step that repeats, on a line of pair 0, before an ARMED one. -/
theorem witness_LatePlacementFiresOnce_mixed :
    Asked running .a .place (2 :: [0x09, 1, 0, 1, 0, 0, 0, 0, 0, 0, 0, 9, 0x46, 4, 0, 0, 0x17, 0, 3, 0x10, 0, 0, 0])
      ∧ (running.session .a).state = .opened 100 100 ∧ running.phase = .run
      ∧ readPlace (2 :: [0x09, 1, 0, 1, 0, 0, 0, 0, 0, 0, 0, 9, 0x46, 4, 0, 0, 0x17, 0, 3, 0x10, 0, 0, 0])
          = some [⟨0x09, 1, 0, 1, some 0, none, none, some (.unbounded, 9)⟩, rawArmed]
      ∧ checkDescriptors running .a 0 [⟨0x09, 1, 0, 1, some 0, none, none, some (.unbounded, 9)⟩, rawArmed]
          = .ok [⟨0, 1, 0, ⟨true, false, false, false⟩, .timed 0, some (.unbounded, 9)⟩,
                 ⟨0, 4, 0, ⟨false, false, false, false⟩, .armed 7 .rise 3 (some 268435456), none⟩]
      ∧ CalendarLaw running ∧ DueOrderLaw running ∧ running.pairOf 0 = some 0 :=
  ⟨asked (by decide +kernel) (by decide +kernel), by decide +kernel, by decide +kernel, by decide +kernel,
    accepts_eq (by decide +kernel), calendarLaw_of (by decide +kernel), by unfold DueOrderLaw; decide +kernel,
    by decide +kernel⟩

theorem witness_LatePlacementFiresOnce :
    Asked running .a .place [1, 0x08, 4, 0, 1, 0, 0, 0, 0] ∧ (running.session .a).state = .opened 100 100
      ∧ running.phase = .run ∧ readPlace [1, 0x08, 4, 0, 1, 0, 0, 0, 0] = some [⟨0x08, 4, 0, 1, some 0, none, none, none⟩]
      ∧ checkDescriptors running .a 0 [⟨0x08, 4, 0, 1, some 0, none, none, none⟩]
          = .ok [⟨0, 4, 0, ⟨true, false, false, false⟩, .timed 0, none⟩]
      ∧ timeClass 0 running.now = .late ∧ running.pairOf (lineAt 0 2) = none :=
  ⟨asked (by decide +kernel) (by decide +kernel), by decide +kernel, by decide +kernel, by decide +kernel,
    accepts_eq (by decide +kernel), by decide +kernel, by decide +kernel⟩

theorem witness_CancelFreesSteps :
    Asked running .a .cancel (cancelBytes [0x0000, 0x0003]) ∧ (running.session .a).state = .opened 100 100 ∧ running.phase = .run ∧ running.named 0x0000 = some 0 ∧ running.named 0x0003 = some 3 ∧ running.ownsStep .a 0 = true ∧ running.ownsStep .a 3 = true :=
  ⟨asked (by decide +kernel) (by decide +kernel), by decide +kernel⟩

theorem witness_CancelFreesSteps_no_slot :
    Asked running .a .cancel (cancelBytes [0x0040]) ∧ (running.session .a).state = .opened 100 100 ∧ running.phase = .run ∧ 64 ≤ ((0x0040 : Handle).extractLsb' 0 8).toNat :=
  ⟨asked (by decide +kernel) (by decide +kernel), by decide +kernel⟩

theorem witness_CancelFreesSteps_empty :
    Asked running .a .cancel [] ∧ (running.session .a).state = .opened 100 100 ∧ running.phase = .run :=
  ⟨asked (by decide +kernel) (by decide +kernel), by decide +kernel⟩

theorem witness_CancelFreesSteps_count_0 :
    Asked running .a .cancel [0] ∧ (running.session .a).state = .opened 100 100 ∧ running.phase = .run ∧ ([0] : List Byte) = (0 : Byte) :: [] :=
  ⟨asked (by decide +kernel) (by decide +kernel), by decide +kernel⟩

theorem witness_CancelFreesSteps_length :
    Asked running .a .cancel [1, 0] ∧ (running.session .a).state = .opened 100 100 ∧ running.phase = .run ∧ ([0] : List Byte).length ≠ 2 * (1 : Byte).toNat :=
  ⟨asked (by decide +kernel) (by decide +kernel), by decide +kernel⟩

theorem witness_CancelFreesSteps_count_9 :
    Asked running .a .cancel (9 :: List.replicate 18 0) ∧ (running.session .a).state = .opened 100 100 ∧ running.phase = .run ∧ 8 < (9 : Byte).toNat :=
  ⟨asked (by decide +kernel) (by decide +kernel), by decide +kernel⟩

theorem witness_CancelFreesSteps_all_length :
    Asked running .a .cancelAll [] ∧ (running.session .a).state = .opened 100 100 ∧ running.phase = .run ∧ ([] : List Byte).length ≠ 1 :=
  ⟨asked (by decide +kernel) (by decide +kernel), by decide +kernel⟩

theorem witness_CancelFreesSteps_repeated :
    Asked running .a .cancel (cancelBytes [0x0000, 0x0000]) ∧ (running.session .a).state = .opened 100 100 ∧ running.phase = .run ∧ running.named 0x0000 = some 0 ∧ running.ownsStep .a 0 = true :=
  ⟨asked (by decide +kernel) (by decide +kernel), by decide +kernel⟩

theorem witness_CancelFreesSteps_stale :
    Asked running .a .cancel (cancelBytes [0x0100]) ∧ (running.session .a).state = .opened 100 100 ∧ running.phase = .run ∧ running.named 0x0100 = none ∧ ((0x0100 : Handle).extractLsb' 0 8).toNat < 64 :=
  ⟨asked (by decide +kernel) (by decide +kernel), by decide +kernel⟩

theorem witness_CancelFreesSteps_not_owner :
    Asked running .b .cancel (cancelBytes [0x0000]) ∧ (running.session .b).state = .opened 50 50 ∧ running.named 0x0000 = some 0 ∧ running.ownsStep .b 0 = false :=
  ⟨asked (by decide +kernel) (by decide +kernel), by decide +kernel⟩

theorem witness_CancelFreesSteps_all :
    Asked running .a .cancelAll [0xFF] ∧ (running.session .a).state = .opened 100 100 ∧ running.phase = .run ∧ running.ownsStep .a 0 = true :=
  ⟨asked (by decide +kernel) (by decide +kernel), by decide +kernel⟩

theorem witness_CancelFreesSteps_bank_2 :
    Asked running .a .cancelAll [2] ∧ (running.session .a).state = .opened 100 100 ∧ running.phase = .run :=
  ⟨asked (by decide +kernel) (by decide +kernel), by decide +kernel⟩

theorem witness_CancelFreesSteps_no_bank :
    Asked running .a .cancelAll [3] ∧ (running.session .a).state = .opened 100 100 ∧ running.phase = .run ∧ 3 ≤ (3 : Byte).toNat :=
  ⟨asked (by decide +kernel) (by decide +kernel), by decide +kernel⟩

theorem witness_AmendMovesOrFiresTheStep :
    Asked running .a .amend (amendBytes 0x0000 5 (some (.count 255, 16777215))) ∧ (running.session .a).state = .opened 100 100 ∧ running.phase = .run ∧ running.named 0x0000 = some 0 ∧ running.step 0 = some (timedStep 0) ∧ timeClass 5 running.now = .future :=
  ⟨asked (by decide +kernel) (by decide +kernel), by decide +kernel⟩

theorem witness_AmendMovesOrFiresTheStep_late :
    Asked running .a .amend (amendBytes 0x0000 0xF0000000 none) ∧ (running.session .a).state = .opened 100 100 ∧ running.phase = .run ∧ running.named 0x0000 = some 0 ∧ timeClass 0xF0000000 running.now = .late ∧ (timedStep 0).flags.lateOk = true :=
  ⟨asked (by decide +kernel) (by decide +kernel), by decide +kernel⟩

/-- A late AMEND of a step that re-arms, its laws too. -/
theorem witness_AmendMovesOrFiresTheStep_rearm :
    Asked rearmingLate .a .amend (amendBytes 0x0003 0 none) ∧ (rearmingLate.session .a).state = .opened 100 100
      ∧ rearmingLate.phase = .run ∧ rearmingLate.named 0x0003 = some 3
      ∧ (rearmingLate.step 3).map StepRecord.owner = some .a ∧ timeClass 0 rearmingLate.now = .late
      ∧ ((rearmingLate.step 3).map fun st => st.flags.lateOk) = some true
      ∧ CalendarLaw rearmingLate ∧ DueOrderLaw rearmingLate :=
  ⟨asked (by decide +kernel) (by decide +kernel), by decide +kernel, by decide +kernel, by decide +kernel, by decide +kernel, by decide +kernel, by decide +kernel, calendarLaw_of (by decide +kernel), by unfold DueOrderLaw; decide +kernel⟩

/-- A late AMEND of a step that clears both lines of a pair with guard 0. -/
theorem witness_AmendMovesOrFiresTheStep_paired :
    Asked clearingBoth .a .amend (amendBytes 0x0000 0xF0000000 none)
      ∧ (clearingBoth.session .a).state = .opened 100 100 ∧ clearingBoth.phase = .run
      ∧ clearingBoth.named 0x0000 = some 0
      ∧ clearingBoth.step 0 = some { timedStep 0 with setMask := 0, clearMask := 12 }
      ∧ timeClass 0xF0000000 clearingBoth.now = .late ∧ (timedStep 0).flags.lateOk = true
      ∧ clearingBoth.pairOf 2 = some 1 ∧ (clearingBoth.pairRuntime 1).defers 3 = true
      ∧ CalendarLaw clearingBoth ∧ DueOrderLaw clearingBoth :=
  ⟨asked (by decide +kernel) (by decide +kernel), by decide +kernel, by decide +kernel, by decide +kernel, by decide +kernel, by decide +kernel, by decide +kernel, by decide +kernel, by decide +kernel, calendarLaw_of (by decide +kernel), by unfold DueOrderLaw; decide +kernel⟩

theorem witness_AmendMovesOrFiresTheStep_late_refused :
    Asked running .a .amend (amendBytes 0x0003 0 none) ∧ (running.session .a).state = .opened 100 100 ∧ running.phase = .run ∧ running.named 0x0003 = some 3 ∧ timeClass 0 running.now = .late ∧ (armedStep (.pending 9) (some ⟨0, false⟩)).flags.lateOk = false :=
  ⟨asked (by decide +kernel) (by decide +kernel), by decide +kernel⟩

theorem witness_AmendMovesOrFiresTheStep_far :
    Asked running .a .amend (amendBytes 0x0000 0x10000001 none) ∧ (running.session .a).state = .opened 100 100 ∧ running.phase = .run ∧ running.named 0x0000 = some 0 ∧ timeClass 0x10000001 running.now = .far :=
  ⟨asked (by decide +kernel) (by decide +kernel), by decide +kernel⟩

theorem witness_AmendMovesOrFiresTheStep_length :
    Asked running .a .amend [0, 0, 0, 0, 0, 9] ∧ (running.session .a).state = .opened 100 100 ∧ running.phase = .run ∧ ([0, 0, 0, 0, 0, 9] : List Byte).length ≠ 7 ∧ ([0, 0, 0, 0, 0, 9] : List Byte).length ≠ 11 :=
  ⟨asked (by decide +kernel) (by decide +kernel), by decide +kernel⟩

theorem witness_AmendMovesOrFiresTheStep_marker :
    Asked running .a .amend [0, 0, 0, 0, 0, 9, 1] ∧ (running.session .a).state = .opened 100 100 ∧ running.phase = .run ∧ ([] : List Byte).isEmpty = (1 : Byte).getLsbD 0 :=
  ⟨asked (by decide +kernel) (by decide +kernel), by decide +kernel⟩

theorem witness_AmendMovesOrFiresTheStep_flags :
    Asked running .a .amend [0, 0, 0, 0, 0, 9, 2] ∧ (running.session .a).state = .opened 100 100 ∧ running.phase = .run ∧ 2 ≤ (2 : Byte).toNat :=
  ⟨asked (by decide +kernel) (by decide +kernel), by decide +kernel⟩

theorem witness_AmendMovesOrFiresTheStep_no_slot :
    Asked running .a .amend [0, 64, 0, 0, 0, 9, 0] ∧ (running.session .a).state = .opened 100 100 ∧ running.phase = .run ∧ 64 ≤ ((0x0040 : Handle).extractLsb' 0 8).toNat :=
  ⟨asked (by decide +kernel) (by decide +kernel), by decide +kernel⟩

theorem witness_AmendMovesOrFiresTheStep_period_0 :
    Asked running .a .amend [0, 0, 0, 0, 0, 9, 1, 0, 0, 0, 0] ∧ (running.session .a).state = .opened 100 100 ∧ running.phase = .run ∧ ([0, 0, 0, 0] : List Byte) = [0, 0, 0, 0] :=
  ⟨asked (by decide +kernel) (by decide +kernel), by decide +kernel⟩

theorem witness_AmendMovesOrFiresTheStep_stale :
    Asked running .a .amend (amendBytes 0x0100 5 none) ∧ (running.session .a).state = .opened 100 100 ∧ running.phase = .run ∧ ((0x0100 : Handle).extractLsb' 0 8).toNat < 64 ∧ running.named 0x0100 = none :=
  ⟨asked (by decide +kernel) (by decide +kernel), by decide +kernel⟩

theorem witness_AmendMovesOrFiresTheStep_not_owner :
    Asked running .b .amend (amendBytes 0x0000 5 none) ∧ (running.session .b).state = .opened 50 50 ∧ running.named 0x0000 = some 0 ∧ running.step 0 = some (timedStep 0) ∧ (timedStep 0).owner ≠ .b :=
  ⟨asked (by decide +kernel) (by decide +kernel), by decide +kernel⟩

theorem witness_AmendMovesOrFiresTheStep_armed :
    Asked running .a .amend (amendBytes 0x0001 5 none) ∧ (running.session .a).state = .opened 100 100 ∧ running.phase = .run ∧ running.named 0x0001 = some 1 ∧ running.step 1 = some (armedStep .armed none) ∧ (armedStep .armed none).owner = .a :=
  ⟨asked (by decide +kernel) (by decide +kernel), by decide +kernel⟩

theorem witness_CalendarIsRead_list :
    Asked running .a .list [63, 3] ∧ (running.session .a).state = .opened 100 100 ∧ running.phase ≠ .fault :=
  ⟨asked (by decide +kernel) (by decide +kernel), by decide +kernel⟩

theorem witness_CalendarIsRead_list_port :
    Asked running .a .list [0, 0] ∧ (running.session .a).state = .opened 100 100 ∧ running.phase ≠ .fault :=
  ⟨asked (by decide +kernel) (by decide +kernel), by decide +kernel⟩

theorem witness_CalendarIsRead_list_start_64 :
    Asked running .a .list [64, 3] ∧ (running.session .a).state = .opened 100 100 ∧ running.phase ≠ .fault ∧ 64 ≤ (64 : Byte).toNat :=
  ⟨asked (by decide +kernel) (by decide +kernel), by decide +kernel⟩

theorem witness_CalendarIsRead_list_filter_4 :
    Asked running .a .list [0, 4] ∧ (running.session .a).state = .opened 100 100 ∧ running.phase ≠ .fault ∧ 3 < (4 : Byte).toNat :=
  ⟨asked (by decide +kernel) (by decide +kernel), by decide +kernel⟩

theorem witness_CalendarIsRead_list_length :
    Asked running .a .list [0] ∧ (running.session .a).state = .opened 100 100 ∧ running.phase ≠ .fault ∧ ([0] : List Byte).length ≠ 2 :=
  ⟨asked (by decide +kernel) (by decide +kernel), by decide +kernel⟩

theorem witness_CalendarIsRead_query_length :
    Asked running .a .queryStep [0] ∧ (running.session .a).state = .opened 100 100 ∧ running.phase ≠ .fault ∧ ([0] : List Byte).length ≠ 2 :=
  ⟨asked (by decide +kernel) (by decide +kernel), by decide +kernel⟩

theorem witness_CalendarIsRead_query :
    Asked running .a .queryStep (handleBytes 0x0001) ∧ (running.session .a).state = .opened 100 100 ∧ running.phase ≠ .fault ∧ running.named 0x0001 = some 1 ∧ running.step 1 = some (armedStep .armed none) :=
  ⟨asked (by decide +kernel) (by decide +kernel), by decide +kernel⟩

theorem witness_CalendarIsRead_query_no_slot :
    Asked running .a .queryStep (handleBytes 0x0040) ∧ (running.session .a).state = .opened 100 100 ∧ running.phase ≠ .fault ∧ 64 ≤ ((0x0040 : Handle).extractLsb' 0 8).toNat :=
  ⟨asked (by decide +kernel) (by decide +kernel), by decide +kernel⟩

theorem witness_CalendarIsRead_query_stale :
    Asked running .a .queryStep (handleBytes 0x003F) ∧ (running.session .a).state = .opened 100 100 ∧ running.phase ≠ .fault ∧ running.named 0x003F = none ∧ ((0x003F : Handle).extractLsb' 0 8).toNat < 64 :=
  ⟨asked (by decide +kernel) (by decide +kernel), by decide +kernel⟩

/-! #### Armed steps and input lines -/

theorem witness_WindowEndsFreeOrMark :
    running.inReset = false ∧ running.clock.present = true ∧ CalendarLaw running
      ∧ running.step 2 = some (armedStep .armed (some ⟨0, false⟩))
      ∧ running.step 3 = some (armedStep (.pending 9) (some ⟨0, false⟩)) ∧ running.now = 0 :=
  ⟨rfl, rfl, calendarLaw_of (by decide +kernel), by decide +kernel⟩

theorem witness_EdgesTriggerArmedSteps :
    running.inReset = false ∧ CalendarLaw running ∧ (running.filter 0).edgeDue = true
      ∧ (running.filter 0).accepted = some (!true) ∧ DueOrderLaw running
      ∧ (running.triggered 0 true 1).map Prod.fst = some (armedStep .armed none)
      ∧ running.triggered 0 true 2 = none ∧ lateness ((running.filter 0).runStart.getD running.now) running.now < 3 :=
  ⟨rfl, calendarLaw_of (by decide +kernel), by decide +kernel, by decide +kernel, by unfold DueOrderLaw; decide +kernel, by decide +kernel⟩

/-- With the stamp 3 ticks back the delay of 3 is over at the edge. -/
theorem witness_EdgesTriggerArmedSteps_at_once :
    lateEdge.inReset = false ∧ CalendarLaw lateEdge ∧ (lateEdge.filter 0).edgeDue = true
      ∧ (lateEdge.filter 0).accepted = some (!true) ∧ lateEdge.edgeHits 0 true = [1, 2] ∧ 3 ≤ lateness ((lateEdge.filter 0).runStart.getD lateEdge.now) lateEdge.now :=
  ⟨rfl, calendarLaw_of (by decide +kernel), by decide +kernel⟩

theorem witness_EdgesAreReportedOrFolded :
    unarmed.inReset = false ∧ (unarmed.filter 0).edgeDue = true ∧ (unarmed.filter 0).accepted = some (!true) ∧ (unarmed.armedList 0).Nodup ∧ unarmed.isOpen .b = true ∧ unarmed.subscription .b 0 = .both ∧ (unarmed.port .b).queue.length ≤ 14 :=
  by decide +kernel

theorem witness_EdgesAreReportedOrFolded_folded :
    ((crowded 15).armedList 0).Nodup ∧ (crowded 15).subscription .b 0 = .both ∧ ¬((crowded 15).port .b).queue.length ≤ 14 ∧ ((crowded 15).filter 0).edgeDue = true :=
  by decide +kernel

theorem witness_EdgesAreReportedOrFolded_armed :
    (lateEdge.armedList 0).Nodup ∧ (lateEdge.filter 0).edgeDue = true ∧ (lateEdge.filter 0).accepted = some (!true) ∧ (lateEdge.edgeFirings 0 true 0).map Firing.slot = [1, 2] ∧ lateEdge.isOpen .b = true ∧ lateEdge.subscription .b 0 = .both :=
  by decide +kernel

theorem witness_EdgesAreReportedOrFolded_none :
    (running.filter 1).edgeDue = false :=
  by decide +kernel

theorem witness_InputRequestsAreServed_subscribe :
    Asked running .a .subscribe [0xFF, BitVec.ofNat 8 (Subscription.code .both)] ∧ (running.session .a).state = .opened 100 100 ∧ running.phase ≠ .fault ∧ (∀ l, inMask (0xFF : InputMask) l = true → (running.input l).used = true) :=
  ⟨asked (by decide +kernel) (by decide +kernel), by decide +kernel⟩

theorem witness_InputRequestsAreServed_subscribe_empty :
    Asked running .a .subscribe [0, BitVec.ofNat 8 (Subscription.code .none)] ∧ (running.session .a).state = .opened 100 100 ∧ running.phase ≠ .fault :=
  ⟨asked (by decide +kernel) (by decide +kernel), by decide +kernel⟩

theorem witness_InputRequestsAreServed_subscribe_kind_4 :
    Asked running .a .subscribe [1, 4] ∧ (running.session .a).state = .opened 100 100 ∧ running.phase ≠ .fault ∧ 3 < (4 : Byte).toNat :=
  ⟨asked (by decide +kernel) (by decide +kernel), by decide +kernel⟩

theorem witness_InputRequestsAreServed_subscribe_length :
    Asked running .a .subscribe [1] ∧ (running.session .a).state = .opened 100 100 ∧ running.phase ≠ .fault ∧ ([1] : List Byte).length ≠ 2 :=
  ⟨asked (by decide +kernel) (by decide +kernel), by decide +kernel⟩

theorem witness_InputRequestsAreServed_subscribe_unused :
    Asked noInput7 .a .subscribe [0x80, BitVec.ofNat 8 (Subscription.code .fall)] ∧ (noInput7.session .a).state = .opened 100 100 ∧ noInput7.phase ≠ .fault ∧ (noInput7.input 7).used = false :=
  ⟨asked (by decide +kernel) (by decide +kernel), by decide +kernel⟩

theorem witness_InputRequestsAreServed_clear :
    Asked running .a .clearPending [0xFF] ∧ (running.session .a).state = .opened 100 100 ∧ running.phase ≠ .fault :=
  ⟨asked (by decide +kernel) (by decide +kernel), by decide +kernel⟩

theorem witness_InputRequestsAreServed_clear_refused :
    Asked running .a .clearPending [] ∧ (running.session .a).state = .opened 100 100 ∧ running.phase ≠ .fault ∧ ([] : List Byte).length ≠ 1 :=
  ⟨asked (by decide +kernel) (by decide +kernel), by decide +kernel⟩

theorem witness_InputRequestsAreServed_read :
    Asked running .a .readInputs [] ∧ (running.session .a).state = .opened 100 100 ∧ running.phase ≠ .fault :=
  ⟨asked (by decide +kernel) (by decide +kernel), by decide +kernel⟩

theorem witness_InputRequestsAreServed_read_refused :
    Asked running .a .readInputs [0] ∧ (running.session .a).state = .opened 100 100 ∧ running.phase ≠ .fault :=
  ⟨asked (by decide +kernel) (by decide +kernel), by decide +kernel⟩

/-! #### Reset -/

theorem witness_ResetRestoresEveryBlock_held :
    (run .reset running).inReset = true ∧ (Instr.status .a []).rise = some (.a, .request .status, [])
      ∧ (Instr.intTick 0).rise = none ∧ Instr.intTick 0 ≠ .reset ∧ Instr.intTick 0 ≠ .resetEnd
      ∧ ∀ p, Instr.intTick 0 ≠ .transactionBegin p :=
  ⟨by decide +kernel, rfl, rfl, by decide, by decide, fun _ => by simp⟩

/-- Chip select is low when reset ends. -/
theorem witness_ResetRestoresEveryBlock_low :
    ((run .resetEnd (run .reset (begun .a))).port .a).selected = true
      ∧ ((run .resetEnd (run .reset (begun .a))).port .a).transfer = none := by decide +kernel

/-! #### The laws of the device -/

/-- `held 5`, a guard running and a rise deferred, with a command in the queue. -/
def busy : State := { held 5 with pending := [.bankFiring 0] }

theorem step_busy : ∃ t, step busy = .next t := ⟨_, rfl⟩

theorem busy_queueLaw : QueueLaw busy := by intro p; cases p <;> decide +kernel

theorem busy_calendarLaw : CalendarLaw busy := calendarLaw_of (by decide +kernel)

theorem busy_sessionLaw : SessionLaw busy := by
  intro p h
  cases p with
  | a => exact absurd h (by decide +kernel)
  | b => exact absurd h (by decide +kernel)
  | c => decide +kernel

theorem busy_latchLaw : LatchLaw busy := by intro p; cases p <;> decide +kernel

theorem busy_idleLaw : IdleLaw busy ∧ SafeLevelLaw busy := ⟨fun h => absurd rfl h, fun h => absurd rfl h⟩

theorem busy_stepLineLaw : StepLineLaw busy := fun i st hs =>
  of_decide_eq_true (forall_step (s := busy)
    (fun st => decide (st.setMask ||| st.clearMask ≠ 0 ∧ st.setMask &&& st.clearMask = 0
      ∧ ∀ j : Position, inMask (st.setMask ||| st.clearMask) j = true → busy.owner (lineAt st.bank j) = some st.owner))
    (by decide +kernel) i st hs)

theorem busy_ownerLaw : OwnerLaw busy := by
  refine ⟨by decide +kernel, fun p c l hc hl => ?_⟩
  have h : ∀ l, inMask (0x4 : LineMask) l = true → (busy.output l).used = true := by decide +kernel
  cases p with
  | a => cases hc
  | b => cases hc; exact h l hl
  | c => cases hc

theorem busy_quotaLaw : QuotaLaw busy := by
  refine ⟨fun p => ?_, by decide +kernel⟩
  cases p <;> decide +kernel

theorem busy_levelLaw : LevelLaw busy := by unfold LevelLaw; decide +kernel

theorem busy_pairConfigLaw : PairConfigLaw busy := pairConfigLaw_of (by decide +kernel)

theorem busy_pairRuntimeLaw : PairRuntimeLaw busy := pairRuntimeLaw_of (by decide +kernel)

theorem busy_waitLaw : WaitLaw busy := fun k d h => by
  have := (by decide +kernel : ∀ k, (busy.pairRuntime k).deferred.all fun d =>
    busy.level ((busy.pair k).partner d.line) == .one || (busy.pairRuntime k).guards d.line) k
  simpa [h] using this

theorem busy_pairLaw : PairLaw busy := by unfold PairLaw; decide +kernel

theorem busy_horizonLaw : HorizonLaw busy := by
  refine ⟨fun i st d hs hd => ?_, fun i st r hs hr => ?_, fun i st a hs ha => ?_⟩
  · have h := forall_step (s := busy) (fun st => st.due.all fun d => decide (lead d busy.now ≤ 268435456))
      (by decide +kernel) i st hs
    simpa [StepRecord.due, hd] using h
  · have h := forall_step (s := busy) (fun st => st.rep.isNone) (by decide +kernel) i st hs
    simp [hr] at h
  · have h := forall_step (s := busy) (fun st => st.arm.all fun a => decide (a.delay ≤ 65535))
      (by decide +kernel) i st hs
    simpa [StepRecord.arm, ha] using h

theorem busy_dueOrderLaw : DueOrderLaw busy := by unfold DueOrderLaw; decide +kernel

theorem busy_rankLaw : RankLaw busy := by unfold RankLaw; decide +kernel

theorem busy_clockLaw : ClockLaw busy := by constructor <;> decide +kernel

theorem busy_guardLaw : GuardLaw busy := by
  have one : ∀ k f, (busy.pairRuntime k).fall = some f → k = 0 ∧ f = ⟨0, 0⟩ := fun k f h => by
    have := (by decide +kernel : ∀ k, (busy.pairRuntime k).fall.all fun f => decide (k = 0 ∧ f = ⟨0, 0⟩)) k
    simpa [h] using this
  have two : ∀ k g, (busy.pairRuntime k).guard = some g → k = 0 ∧ g = ⟨5, 1⟩ := fun k g h => by
    have := (by decide +kernel : ∀ k, (busy.pairRuntime k).guard.all fun g => decide (k = 0 ∧ g = ⟨5, 1⟩)) k
    simpa [h] using this
  refine ⟨fun k f _ hf _ => ?_, fun k g hg => ?_, by decide +kernel, fun k f hf => ?_⟩
  · obtain ⟨rfl, rfl⟩ := one k f hf
    decide +kernel
  · obtain ⟨rfl, rfl⟩ := two k g hg
    exact ⟨⟨0, 0⟩, by decide +kernel⟩
  · obtain ⟨rfl, rfl⟩ := one k f hf
    decide +kernel

theorem busy_frozenLaw : FrozenLaw busy := fun h => by cases h

theorem witness_EveryStepKeepsTheGuardLaw :
    ∃ t, IdleLaw busy ∧ LevelLaw busy ∧ PairConfigLaw busy ∧ PairRuntimeLaw busy ∧ WaitLaw busy ∧ PairLaw busy
      ∧ StepLineLaw busy ∧ OwnerLaw busy ∧ ClockLaw busy ∧ GuardLaw busy ∧ FrozenLaw busy ∧ step busy = .next t :=
  step_busy.imp fun _ h => ⟨busy_idleLaw.1, busy_levelLaw, busy_pairConfigLaw, busy_pairRuntimeLaw, busy_waitLaw,
    busy_pairLaw, busy_stepLineLaw, busy_ownerLaw, busy_clockLaw, busy_guardLaw, busy_frozenLaw, h⟩

theorem witness_EveryStepKeepsTheQueueLaw : ∃ t, QueueLaw busy ∧ step busy = .next t :=
  step_busy.imp fun _ h => ⟨busy_queueLaw, h⟩

theorem witness_EveryStepKeepsTheCalendarLaw : ∃ t, CalendarLaw busy ∧ step busy = .next t :=
  step_busy.imp fun _ h => ⟨busy_calendarLaw, h⟩

theorem witness_EveryStepKeepsTheSessionLaw : ∃ t, SessionLaw busy ∧ LatchLaw busy ∧ step busy = .next t :=
  step_busy.imp fun _ h => ⟨busy_sessionLaw, busy_latchLaw, h⟩

theorem witness_EveryStepKeepsTheOwnershipLaws :
    ∃ t, IdleLaw busy ∧ SafeLevelLaw busy ∧ StepLineLaw busy ∧ OwnerLaw busy ∧ QuotaLaw busy ∧ RankLaw busy
      ∧ step busy = .next t :=
  step_busy.imp fun _ h =>
    ⟨busy_idleLaw.1, busy_idleLaw.2, busy_stepLineLaw, busy_ownerLaw, busy_quotaLaw, busy_rankLaw, h⟩

/-- The law of the phases outside RUN, where it says something. -/
theorem witness_IdleLaw_setup : IdleLaw setup ∧ SafeLevelLaw setup ∧ setup.phase ≠ .run := by
  refine ⟨fun _ => ⟨by decide +kernel, by decide +kernel, fun p => by cases p <;> rfl, by decide +kernel⟩,
    fun _ => by decide +kernel, by decide +kernel⟩

theorem witness_EveryStepKeepsThePairLaw :
    ∃ t, IdleLaw busy ∧ LevelLaw busy ∧ PairConfigLaw busy ∧ PairRuntimeLaw busy ∧ WaitLaw busy ∧ PairLaw busy
      ∧ StepLineLaw busy ∧ OwnerLaw busy ∧ step busy = .next t :=
  step_busy.imp fun _ h => ⟨busy_idleLaw.1, busy_levelLaw, busy_pairConfigLaw, busy_pairRuntimeLaw, busy_waitLaw,
    busy_pairLaw, busy_stepLineLaw, busy_ownerLaw, h⟩

theorem witness_EveryStepKeepsTheHorizonLaw :
    ∃ t, IdleLaw busy ∧ StepLineLaw busy ∧ CalendarLaw busy ∧ ClockLaw busy ∧ HorizonLaw busy ∧ DueOrderLaw busy
      ∧ step busy = .next t :=
  step_busy.imp fun _ h =>
    ⟨busy_idleLaw.1, busy_stepLineLaw, busy_calendarLaw, busy_clockLaw, busy_horizonLaw, busy_dueOrderLaw, h⟩

theorem witness_EveryStepKeepsTheClockLaw : ∃ t, ClockLaw busy ∧ step busy = .next t :=
  step_busy.imp fun _ h => ⟨busy_clockLaw, h⟩

/-- The law of frozen time, where it says something. -/
theorem witness_FrozenLaw_lost : FrozenLaw (tclk (fallen 0 4) 64 false) ∧ (tclk (fallen 0 4) 64 false).clock.present = false := by
  refine ⟨fun _ k => ⟨fun g h => ?_, fun f h => ?_⟩, rfl⟩
  · have := (by decide +kernel : ∀ k, ((tclk (fallen 0 4) 64 false).pairRuntime k).guard = none) k
    rw [this] at h; cases h
  · have := (by decide +kernel : ∀ k, ((tclk (fallen 0 4) 64 false).pairRuntime k).fall.all fun f =>
      decide (after f.tick 65536 ≠ (tclk (fallen 0 4) 64 false).now)) k
    rw [h] at this
    simp only [Option.all_some, decide_eq_true_eq] at this
    exact this

/-! ### Single commands: expected values by hand from the rules named -/

/-- The state after a request, its frame already received. -/
def ask (r : Request) (p : Port) (body : List Byte) (c : Instr) (s : State) : State := run c (asking s p r body)

/-- The reply bodies in a port's queue. -/
def replies (p : Port) (s : State) : List (List Byte) :=
  ((s.port p).queue.filter fun e => e.kind == .reply).map Entry.body

/-- an idle frame under status byte 0 (section 12.1) -/
theorem test_transaction_begin_idle_frame :
    ((begun .b).port .b).transfer.map (·.outgoing.take 5) = some [0, 0, 0, 0, 0] := by decide +kernel

/-- most significant bit first (R167) -/
theorem test_clock_cycles_make_a_byte :
    (((List.map (fun b => Instr.spiClockCycle .a b) [true, false, true, false, false, true, false, true]).foldl (fun s c => run c s) (begun .a)).port .a).transfer.map (·.inbound) = some [0xA5] := by decide +kernel

/-- The bits of 0xA5 leave most significant first (R167). -/
theorem test_data_out_levels :
    (List.range 8).map (fun i => ((((List.replicate i false).foldl (fun s b => run (.spiClockCycle .a b) s)
        (setup.withPort .a { setup.port .a with transfer := some { freshTransfer with outgoing := [0xA5] } })).dataOut .a)))
      = [true, false, true, false, false, true, false, true].map some := by decide +kernel

/-- R178: SETUP, CLOSED, quota 21, everything else 0 -/
theorem test_status_after_reset :
    (replies .a (run (.status .a [0x01, 0x00, 0x00, 0x67]) (begun .a))) = [[0, 0, 0, 0] ++ List.replicate 7 0 ++ [21] ++ List.replicate 17 0] := by decide +kernel

/-- R111 -/
theorem test_open_sets_the_deadline :
    ((ask .openSession .c [0, 0, 16, 1] (.openSession .c []) setup).session .c) = opened 16 16 true := by decide +kernel

/-- R112 -/
theorem test_renew_moves_the_deadline :
    ((ask .renew .a [] (.renew .a []) (later running 7)).session .a) = opened 100 107 false := by decide +kernel

/-- R117 -/
theorem test_close_frees_the_lines :
    ((ask .closeSession .a [] (.closeSession .a []) running).owner 0) = none := by decide +kernel

/-- R117: the pass grants B line 2 -/
theorem test_close_grants_the_waiting_claim :
    ((ask .closeSession .a [] (.closeSession .a []) running).owner 2) = some .b := by decide +kernel

/-- PEER_LAPSED, then CLAIM_GRANTED (R115) -/
theorem test_lapse_notices :
    ((run (.lapse .a) (later running 100)).port .b).queue.map Entry.code = [0x0A, 0x05] := by decide +kernel

/-- R92 -/
theorem test_claim_grants_a_free_line :
    ((ask .claim .a (claimBytes 0x10 false none) (.claim .a []) running).owner 4) = some .a := by decide +kernel

/-- R93: E_HELD names line 9 -/
theorem test_claim_held :
    (replies .a (ask .claim .a (claimBytes 0x210 false none) (.claim .a []) running)) = [[0x0C, 0, 2, 0]] := by decide +kernel

/-- Pair 0's line 0 falls and starts its guard; line 3 rises to its safe level (R51, R73, R83). -/
theorem test_release_drives_pairs :
    ((ask .release .a (maskBytes 0x9) (.release .a []) paired).level 0,
      (ask .release .a (maskBytes 0x9) (.release .a []) paired).pairRuntime 0,
      (ask .release .a (maskBytes 0x9) (.release .a []) paired).level 3)
      = (.zero, { fall := some ⟨0, 0⟩, guard := some ⟨5, 1⟩, deferred := none }, .one) := by decide +kernel

/-- the pointer goes past A, and A is told (R102, R107) -/
theorem test_arbiter_pass :
    ((arbiterPass (Work.of ownerless)).st.arbiter.pointer, ((arbiterPass (Work.of ownerless)).st.pairRuntime 0).deferred,
      (arbiterPass (Work.of ownerless)).out.map Prod.fst) = (.b, none, [.a]) := by decide +kernel

/-- R12 -/
theorem test_release_frees_the_step :
    ((ask .release .a (maskBytes 4) (.release .a []) running).slot 0) = ⟨1, none⟩ := by decide +kernel

/-- R105 -/
theorem test_withdraw_removes_the_claim :
    ((ask .claimWithdraw .b [] (.claimWithdraw .b []) running).claim .b) = none := by decide +kernel

/-- R103 -/
theorem test_wait_deadline_notice :
    ((run (.waitDeadline .b) running).port .b).queue.map Entry.code = [0x06] := by decide +kernel

/-- R1, R9 -/
theorem test_place_behind_equal_due :
    (ask .place .a (1 :: [0x08, 4, 0, 0, 0, 0, 0, 9]) (.place .a []) running).dueList = [0, 3, 4] := by decide +kernel

/-- the late step's next due is 9, behind slot 3's; line 0 has risen; the step of slot 5 stands armed on IL7 (R9, R26, R27, R57) -/
theorem test_late_place_among_others :
    let t := ask .place .a (2 :: [0x09, 1, 0, 1, 0, 0, 0, 0, 0, 0, 0, 9, 0x46, 4, 0, 0, 0x17, 0, 3, 0x10, 0, 0, 0]) (.place .a []) running
    (t.dueList, t.level 0, t.armedList 7, t.armedThisTick) = ([0, 3, 4], .one, [5], [5]) := by decide +kernel

/-- the repeated step enters behind slot 3's equal due (R9), and a re-armed one goes to the end of its line's list (R62) -/
theorem test_repeat_and_rearm_queue_behind :
    (run (.bankFiring 0) repeating).dueList = [3, 0]
      ∧ (run (.bankFiring 0) rearming).armedList 0 = [1, 2, 3] ∧ (run (.bankFiring 0) rearming).armedThisTick = [3] := by
  decide +kernel

/-- R48: STEP_FIRED with line 1 deferred -/
theorem test_step_fired_deferred_mask :
    ((run (.bankFiring 0) (driving 2 0 (high running 0))).port .a).queue.head?.bind (·.body.getLast?) = some 2 := by
  decide +kernel

/-- R73, R75: line 0 falls, and line 1 waits for the guard -/
theorem test_bank_firing_swaps_a_pair :
    (run (.bankFiring 0) (driving 2 1 (high running 0))).pairRuntime 0
      = { fall := some ⟨0, 0⟩, guard := some ⟨5, 1⟩, deferred := some ⟨1, some .a, 0, some 3⟩ } := by decide +kernel

/-- R28 -/
theorem test_place_reports_the_handle :
    (replies .a (ask .place .a (1 :: [0x08, 4, 0, 0, 0, 0, 0, 9]) (.place .a []) running)) = [[0, 0, 4, 0, 0, 0, 0, 0, 0, 0, 0, 0]] := by decide +kernel

/-- R30 -/
theorem test_cancel_frees :
    (ask .cancel .a (cancelBytes [3]) (.cancel .a []) running).dueList = [0] := by decide +kernel

/-- R31 -/
theorem test_cancel_all_counts :
    (replies .a (ask .cancelAll .a [0] (.cancelAll .a []) running)) = [[0, 4]] := by decide +kernel

/-- R9, R33 -/
theorem test_amend_moves_behind :
    (ask .amend .a (amendBytes 0 9 none) (.amend .a []) running).dueList = [3, 0] := by decide +kernel

/-- R16: one entry, slot 3, kind ARMED, state PENDING -/
theorem test_list_total :
    (replies .a (ask .list .a [3, 0] (.list .a []) running)) = [[0, 4, 64, 0, 3, 2]] := by decide +kernel

/-- R17: one step ahead -/
theorem test_query_rank :
    ((replies .a (ask .queryStep .a [0, 3] (.queryStep .a []) running)).map (·.getLast?)) = [some 1] := by decide +kernel

/-- R63 -/
theorem test_window_end_frees :
    ((run .windowEnd running).slot 2, ((run .windowEnd running).port .a).queue.map Entry.code) = (⟨1, none⟩, [0x03]) := by decide +kernel

/-- R64 -/
theorem test_reached_marker :
    ((run .reachedMarker running).step 3).bind StepRecord.window = some ⟨0, true⟩ := by decide +kernel

/-- the step's due is the stamp 0 plus 3 (R59), and B is sent EDGE (R132); at NOW 3 both steps fire at once and re-arm (R60) -/
theorem test_edge_triggers_and_reports :
    (((run (.edgeEvent 0) running).step 1).bind StepRecord.due,
      ((run (.edgeEvent 0) running).port .b).queue.map Entry.code) = (some 3, [0x07])
      ∧ ((run (.edgeEvent 0) lateEdge).level 2, (run (.edgeEvent 0) lateEdge).armedList 0,
        ((run (.edgeEvent 0) lateEdge).port .a).queue.map Entry.code) = (.one, [1, 2], [0x01, 0x01]) := by decide +kernel

/-- R132 -/
theorem test_edge_folds_when_crowded :
    ((run (.edgeEvent 0) (crowded 15)).inputsOf .b).rises = 1 := by decide +kernel

/-- R74 -/
theorem test_guard_end_grants :
    (run (.guardEnd 0) (held 0)).level 1 = .one := by decide +kernel

/-- R79, R87: TIMEOUT, pair 0 -/
theorem test_hold_deadline_drops :
    ((run (.holdDeadline 0) (high (held 0) 0)).port .a).queue.map (·.body) = [[1, 2, 0, 0, 0, 0, 0, 0, 0, 0, 0, 0xFF]] := by decide +kernel

/-- R74 -/
theorem test_fall_record_ends :
    ((run (.fallRecordEnd 0) (fallen 0 65536)).pairRuntime 0).fall = none := by decide +kernel

/-- R74 -/
theorem test_fall_record_stays :
    ((run (.fallRecordEnd 0) (fallen 0 65535)).pairRuntime 0).fall = some ⟨0, 0⟩ := by decide +kernel

/-- R149 -/
theorem test_set_time :
    (ask .setTime .a [0, 0, 1, 0] (.setTime .a []) setup).now = 256 := by decide +kernel

/-- R165: RUN, START, tick, port A -/
theorem test_start_tells_b :
    ((ask .start .a [] (.start .a []) setup).port .b).queue.map Entry.body = [[1, 0, 0, 0, 0, 0, 0]] := by decide +kernel

/-- R161 -/
theorem test_stop_returns_to_setup :
    (ask .stop .a [] (.stop .a []) alone).phase = .setup := by decide +kernel

/-- R164 -/
theorem test_clear_fault :
    (ask .clearFault .a [] (.clearFault .a []) faulted).phase = .setup := by decide +kernel

/-- R146 -/
theorem test_clock_lost_enters_fault :
    (run .clockLost (tclk running 0 true)).phase = .fault := by decide +kernel

/-- the guard that ends at NOW grants line 1 before the loss (R74, log entry 12), and the entry into FAULT lowers it -/
theorem test_clock_lost_after_guard_end :
    (run .clockLost (tclk (held 0) 0 true)).pairRuntime 0
      = { fall := some ⟨1, 0⟩, guard := some ⟨5, 0⟩, deferred := none } := by decide +kernel

/-- with the flag clear no lease is reached (R114) -/
theorem test_no_lapse_without_clock :
    run (.lapse .a) (tclk (later setup 100) 64 false) = tclk (later setup 100) 64 false := by decide +kernel

/-- R145 -/
theorem test_clock_lost_in_setup :
    ((run .clockLost (tclk setup 0 true)).phase, (run .clockLost (tclk setup 0 true)).clock.present) = (.setup, false) := by decide +kernel

/-- R141: sixteen periods are one µs -/
theorem test_int_tick :
    ((run (.intTick 1) setup).now, (run (.intTick 1) setup).clock.microseconds) = (1, 0) := by decide +kernel

/-- R126 -/
theorem test_int_tick_samples :
    ((run (.intTick 1) setup).filter 0).accepted = some true := by decide +kernel

/-- R147 -/
theorem test_tclk_rise :
    ((run (.tclkRise 0) (tclk setup 5 false)).now, (run (.tclkRise 0) (tclk setup 5 false)).clock.present) = (1, true) := by decide +kernel

/-- R141 -/
theorem test_oscillator_period :
    (run (.oscillatorPeriod 0) setup).clock.prescaler = 1 := by decide +kernel

/-- the write first, then the sample: with filter 0 the edge is due anew, and not lost (R126, log entry 4) -/
theorem test_write_input_keeps_the_edge :
    ((ask .configWrite .a (Record.inputLine 0 true 0).bytes (.configWriteInputLine .a []) edgeWaits).filter 0).edgeDue = true
      ∧ ((ask .configWrite .a (Record.inputLine 0 true 1).bytes (.configWriteInputLine .a []) edgeWaits).filter 0).runCount = 1 := by
  decide +kernel

/-- with divider 1 the period that brought the tick brings one after the write, and with divider 2 it counts (R141, log entry 3) -/
theorem test_write_timebase_keeps_the_period :
    (ask .configWrite .a (Record.timebase .int 1 1).bytes (.configWriteTimebase .a []) (run (.oscillatorPeriod 0) (counted 15 0))).clock.tickDue = true
      ∧ (ask .configWrite .a (Record.timebase .int 2 1).bytes (.configWriteTimebase .a []) (run (.oscillatorPeriod 0) (counted 15 0))).clock.prescaler = 1 := by
  decide +kernel

/-- with window 1 the loss is due again after the write (R145, log entries 3 and 12) -/
theorem test_write_timebase_keeps_the_loss :
    (ask .configWrite .a (Record.timebase .tclk 16 1).bytes (.configWriteTimebase .a []) (tclk setup 64 true)).lossDue = true := by
  decide +kernel

/-- R157 -/
theorem test_write_pair :
    ((ask .configWrite .a (Record.pair 1 ⟨true, 4, 5, 9, 0⟩).bytes (.configWritePair .a []) setup).pair 1) = ⟨true, 4, 5, 9, 0⟩ := by decide +kernel

/-- R156 -/
theorem test_write_output_drives :
    ((ask .configWrite .a (Record.outputLine 20 true true).bytes (.configWriteOutputLine .a []) setup).level 20) = .one := by decide +kernel

/-- R55: lines 0 to 15 driven, line 3 at 1 -/
theorem test_read_outputs :
    (replies .a (ask .readOutputs .a [] (.readOutputs .a []) running)) = [[0, 0, 0, 0, 0, 0, 0xFF, 0xFF, 0, 0, 8, 0, 0, 0]] := by decide +kernel

/-- R130 -/
theorem test_subscribe :
    ((ask .subscribe .a [1, 1] (.subscribe .a []) running).subscription .a 0) = .rise := by decide +kernel

/-- R166 -/
theorem test_reset_drives_nothing :
    ((run .reset running).pinLevel 3, (run .resetEnd (run .reset running)).phase) = (.z, .setup) := by decide +kernel

/-- the queue of commands (log entry 14) -/
theorem test_step_takes_the_front_command :
    (match step busy with | .next t => t.pending | _ => [.reset]) = [] := by decide +kernel

/-- the register shifted bit by bit (R182): one shift of 0x80 combines in 0x2F, one of 0x40 does not -/
theorem test_crc_shift : crcByte 0 0x01 = 0x2F ∧ crcByte 0 0x02 = 0x5E ∧ crc8 [0x01, 0x00, 0x00, 0x67] = 0 := by decide +kernel

/-- the head is gone (R168) -/
theorem test_nop_removes_the_head : ((run (.nop .a []) (fetching 6 [] [0x00])).port .a).queue = [] := by decide +kernel

/-- 14 entries stay, a summary joins them and the latch is clear (R134) -/
theorem test_edge_summary :
    (((run (.edgeSummary .a []) (folded 15)).port .a).queue.map Entry.code = List.replicate 14 0x01 ++ [0x08])
      ∧ ((run (.edgeSummary .a []) (folded 15)).inputsOf .a).rises = 0 := by decide +kernel

/-- E_FRAME (R169) and E_KIND (R170) -/
theorem test_e_frame_and_e_kind :
    (replies .a (run (.eFrame .a []) (shifting setup .a [0x01, 0x05])),
      replies .a (run (.eKind .a []) (shifting setup .a (requestFrame 0x7F 0x05 [])))) = ([[0x01]], [[0x02]]) := by
  decide +kernel

end Sys2Proof.Tests
end

/-! ## What one step can do

A command is a chain of acts. Each act is the event of one block with the guard under which the command reaches it, so that a law
of the whole device is kept by every step when every act keeps it. -/

section
namespace Sys2Proof.Machine

/-! ### The acts -/

/-- The two records have one owner, one bank and the same masks. -/
structure StepRecord.SameLines (st' st : StepRecord) : Prop where
  owner : st'.owner = st.owner
  bank : st'.bank = st.bank
  setMask : st'.setMask = st.setMask
  clearMask : st'.clearMask = st.clearMask

theorem StepRecord.SameLines.refl (st : StepRecord) : st.SameLines st := ⟨rfl, rfl, rfl, rfl⟩

/-- `t` differs from `s` only in host ports, sessions, inputs and time: not in the records, owners and levels of the output
lines, the pairs, the claims, the arbiter, the quotas, the phase, the slots and their collections. -/
def OutsideOnly (s t : State) : Prop :=
  t = { s with
        pending := t.pending, inReset := t.inReset, pins := t.pins, now := t.now, clock := t.clock, ports := t.ports
        sessions := t.sessions, inputs := t.inputs, armedThisTick := t.armedThisTick, filters := t.filters
        portInputs := t.portInputs }

theorem OutsideOnly.refl (s : State) : OutsideOnly s s := rfl

theorem OutsideOnly.trans {s t u : State} (h : OutsideOnly s t) (h' : OutsideOnly t u) : OutsideOnly s u := by
  unfold OutsideOnly at *
  rw [h', h]

theorem OutsideOnly.foldl {α : Type} {f : State → α → State} (hf : ∀ s a, OutsideOnly s (f s a)) (l : List α)
    (s : State) : OutsideOnly s (l.foldl f s) := by
  induction l generalizing s with
  | nil => exact OutsideOnly.refl s
  | cons a l ih => exact (hf s a).trans (ih _)

/-- One act of one block, with what the command that reaches it has checked. -/
inductive Act : State → State → Prop
  | outside {s t : State} (h : OutsideOnly s t) : Act s t
  | reset (s : State) : Act s (enterReset s)
  | setTime (v : Tick) (s : State) : Act s (setTime v s)
  /-- Steps of the calendar fire: the due ones of a bank, or one that an AMEND moves to a late due. -/
  | fire {fs : List Firing} {s : State}
      (h : ∀ f ∈ fs, ∃ st, s.step f.slot = some st ∧ f.record.SameLines st) : Act s (fireSteps fs s).st
  | edge (e : Edge) (s : State) : Act s (serveEdge e s).st
  | place {p : Port} {raws : List RawDescriptor} {ds : List Descriptor} {s : State} (hrun : s.phase = .run)
      (h : checkDescriptors s p 0 raws = .ok ds) : Act s (placeWork p ds s).st
  /-- An AMEND gives a step a future due. -/
  | move {i : SlotIndex} {st st' : StepRecord} {d : Tick} {s : State} (h : s.step i = some st) (same : st'.SameLines st)
      (hd : st'.state = .pending d) : Act s (enterDue i (putStep i st' (leave i s)))
  | free (i : SlotIndex) (s : State) : Act s (freeSlot i s)
  | mark (s : State) (i : SlotIndex) : Act s (markReached s i)
  | guardEnd (s : State) (k : PairIndex) : Act s (endGuard s k)
  | fallRecordEnd (s : State) (k : PairIndex) : Act s (endFallRecord s k)
  | holdEnd (w : Work) (k : PairIndex) : Act w.st (holdEnd w k).st
  | claimed (p : Port) {m : LineMask} {s : State} (hrun : s.phase = .run) (hused : s.unusedIn m = 0) :
      Act s (grantLines p m s)
  | queued (p : Port) {c : Claim} {s : State} (hrun : s.phase = .run) (hused : s.unusedIn c.mask = 0) :
      Act s (s.withClaim p (some c))
  | withdrawn (p : Port) (s : State) : Act s (s.withClaim p none)
  | turn (w : Work) (p : Port) : Act w.st (arbiterTurn w p).st
  | released {p : Port} {m : LineMask} {s : State} (h : m &&& ~~~(s.ownedMask p) = 0) : Act s (freeReleased p m s)
  | freed (p : Port) (s : State) : Act s (freeAll p s)
  | started (s : State) : Act s (s.withPhase .run)
  | stopped {p : Port} {s : State} (h : s.ownedByOthers p = 0) : Act s (stopWork p s).st
  | faultCleared {s : State} (h : s.phase = .fault) : Act s (s.withPhase .setup)
  | faulted (s : State) : Act s (enterFault s).st
  | written {body : List Byte} {r : Record} {s : State} (hsetup : s.phase = .setup) (hr : readRecord body = some r)
      (hc : recordConflict s r = none) : Act s (writeRecord r s)

/-- A chain of acts. -/
abbrev Acts : State → State → Prop := Relation.ReflTransGen Act

theorem Act.acts {s t : State} (h : Act s t) : Acts s t := .single h

theorem OutsideOnly.acts {s t : State} (h : OutsideOnly s t) : Acts s t := .single (.outside h)

theorem Acts.foldl {α : Type} {f : State → α → State} (hf : ∀ s a, Acts s (f s a)) (l : List α) (s : State) :
    Acts s (l.foldl f s) := by
  induction l generalizing s with
  | nil => exact .refl
  | cons a l ih => exact (hf s a).trans (ih _)

theorem Acts.foldl_work {α : Type} {f : Work → α → Work} (hf : ∀ w a, Acts w.st (f w a).st) (l : List α) (w : Work) :
    Acts w.st (l.foldl f w).st := by
  induction l generalizing w with
  | nil => exact .refl
  | cons a l ih => exact (hf w a).trans (ih _)

/-- What every act keeps, a chain of acts keeps. -/
theorem Acts.keeps {P : State → Prop} (hP : ∀ s t, Act s t → P s → P t) {s t : State} (h : Acts s t) (hs : P s) :
    P t := by
  induction h with
  | refl => exact hs
  | tail _ act ih => exact hP _ _ act ih

/-! ### Notices and host ports -/

theorem outsideOnly_deliver (s : State) (es : List Emit) : OutsideOnly s (s.deliver es) := by
  unfold OutsideOnly
  rw [State.deliver_frame]

/-- The notices of an event come after its acts. -/
theorem acts_done {s : State} {w : Work} (h : Acts s w.st) : Acts s w.done :=
  h.trans (outsideOnly_deliver w.st w.out).acts

theorem outsideOnly_withPort (s : State) (p : Port) (h : HostPort) : OutsideOnly s (s.withPort p h) := rfl
theorem outsideOnly_withSession (s : State) (p : Port) (x : Session) : OutsideOnly s (s.withSession p x) := rfl
theorem outsideOnly_withInputsOf (s : State) (p : Port) (x : PortInputs) : OutsideOnly s (s.withInputsOf p x) := rfl
theorem outsideOnly_withInput (s : State) (l : InLine) (c : InputConfig) : OutsideOnly s (s.withInput l c) := rfl
theorem outsideOnly_withFilter (s : State) (l : InLine) (f : Filter) : OutsideOnly s (s.withFilter l f) := rfl
theorem outsideOnly_withClock (s : State) (c : Clock) : OutsideOnly s (s.withClock c) := rfl
theorem outsideOnly_withPins (s : State) (m : InputMask) : OutsideOnly s (s.withPins m) := rfl
theorem outsideOnly_tickArrival (s : State) : OutsideOnly s (tickArrival s) := rfl

theorem outsideOnly_renew (s : State) (p : Port) : OutsideOnly s (s.renew p) := by
  rw [State.renew_eq]; rfl

theorem outsideOnly_fetchEnd (s : State) (p : Port) (x : Transfer) : OutsideOnly s (s.fetchEnd p x) := by
  unfold OutsideOnly
  rw [State.fetchEnd_frame]

theorem outsideOnly_pushEntry (s : State) (p : Port) (e : Entry) : OutsideOnly s (s.pushEntry p e) := rfl

theorem acts_answered {s : State} {a : Answer} (h : Acts s a.st) (p : Port) (kind tag crc : Byte) :
    Acts s (State.answered p kind tag crc a) := by
  rw [State.answered_eq]
  exact h.trans (OutsideOnly.trans (t := { a.st with ports := a.st.repliedPorts p kind tag crc a.body }) rfl
    (outsideOnly_deliver _ _)).acts

/-- A block whose service is a chain of acts. -/
def Serve.Acting (serve : Serve) : Prop := ∀ p r body before s, Acts s (serve p r body before s).st

theorem acts_answerOf {serve : Serve} (hserve : serve.Acting) (p : Port) (kind : Byte) (body : List Byte) (s : State) :
    Acts s (answerOf serve p kind body s).st := by
  have hrenew : Acts s (s.renew p) := (outsideOnly_renew s p).acts
  unfold answerOf
  split
  · exact hrenew
  · split
    · exact hrenew
    · split
      · exact hrenew
      · exact hrenew.trans (hserve _ _ _ _ _)

theorem acts_take {serve : Serve} (hserve : serve.Acting) (s : State) (p : Port) (inbound : Inbound) :
    Acts s (s.take p inbound serve) := by
  unfold State.take
  split
  · exact .refl
  · split
    · exact (outsideOnly_withPort _ _ _).acts
    · exact (outsideOnly_pushEntry _ _ _).acts
  · split
    · exact (outsideOnly_withPort _ _ _).acts
    · split
      · exact ((outsideOnly_renew _ _).trans (outsideOnly_pushEntry _ _ _)).acts
      · exact acts_answered (acts_answerOf hserve _ _ _ _) _ _ _ _

theorem acts_chipSelectRise {serve : Serve} (hserve : serve.Acting) (row : Inbound → Transfer → State → Bool) (p : Port)
    (mosi : List Byte) (s : State) : Acts s (chipSelectRise row serve p mosi s) := by
  unfold chipSelectRise
  split
  · exact (outsideOnly_withPort _ _ _).acts
  · split
    · exact (outsideOnly_withPort _ _ _).acts
    · dsimp only
      split
      · exact (outsideOnly_fetchEnd _ _ _).acts.trans (acts_take hserve _ _ _)
      · exact .refl

/-! ### Interlock and calendar work -/

theorem acts_guardEndWork (k : PairIndex) (s : State) : Acts s (guardEndWork k s) :=
  Acts.foldl (fun s k => (Act.guardEnd s k).acts) _ s

theorem acts_fallRecordEndWork (k : PairIndex) (s : State) : Acts s (fallRecordEndWork k s) :=
  Acts.foldl (fun s k => (Act.fallRecordEnd s k).acts) _ s

theorem acts_holdDeadlineWork (k : PairIndex) (s : State) : Acts s (holdDeadlineWork k s) :=
  acts_done (Acts.foldl_work (fun w k => (Act.holdEnd w k).acts) _ (Work.of s))

theorem acts_freeSlots (is : List SlotIndex) (s : State) : Acts s (freeSlots is s) :=
  Acts.foldl (fun s i => (Act.free i s).acts) is s

/-- A due step fires as it stands in its slot. -/
theorem step_of_mem_dueFirings {s : State} {k : Bank} {f : Firing} (h : f ∈ s.dueFirings k) :
    s.step f.slot = some f.record := by
  obtain ⟨i, _, hf⟩ := List.mem_filterMap.mp h
  unfold dueFiring at hf
  split at hf
  · cases hf
  · next st hst =>
    split at hf
    · cases hf; exact hst
    · cases hf

theorem acts_bankFiringWork (k : Bank) (s : State) : Acts s (bankFiringWork k s) :=
  acts_done (Act.fire fun _ hf => ⟨_, step_of_mem_dueFirings hf, .refl _⟩).acts

theorem acts_closeWindow (w : Work) (i : SlotIndex) : Acts w.st (closeWindow w i).st := by
  unfold closeWindow
  split
  · exact .refl
  · exact (Act.free i w.st).acts

theorem acts_windowEndWork (s : State) : Acts s (windowEndWork s) :=
  acts_done (Acts.foldl_work acts_closeWindow _ (Work.of s))

theorem acts_reachedMarkerWork (s : State) : Acts s (reachedMarkerWork s) :=
  Acts.foldl (fun s i => (Act.mark s i).acts) _ s

/-! ### Claims and sessions -/

/-- A pass over the waiting claims is a chain of turns. -/
theorem acts_arbiterPass {s : State} {w : Work} (h : Acts s w.st) : Acts s (arbiterPass w).st :=
  h.trans (Acts.foldl_work (fun w p => (Act.turn w p).acts) _ w)

theorem acts_waitDeadlineWork (p : Port) (s : State) : Acts s (waitDeadlineWork p s) := by
  unfold waitDeadlineWork
  split
  · exact .refl
  · split
    · exact acts_done (Act.withdrawn p s).acts
    · exact .refl

theorem acts_takeBack (p : Port) (s : State) : Acts s (takeBack p s) :=
  ((Act.withdrawn p s).acts.trans (Act.freed p _).acts).trans
    ((outsideOnly_withInputsOf _ _ _).trans (outsideOnly_withPort _ _ _)).acts

theorem acts_lapseWork (p : Port) (s : State) : Acts s (lapseWork p s) := by
  unfold lapseWork
  split
  · exact acts_done (acts_arbiterPass ((outsideOnly_withSession _ _ _).acts.trans (acts_takeBack p _)))
  · exact .refl

theorem acts_closeWork (p : Port) (s : State) : Acts s (closeWork p s).st :=
  acts_arbiterPass ((outsideOnly_withSession _ _ _).acts.trans (acts_takeBack p _))

/-! ### Edges -/

theorem outsideOnly_offerEdge (e : Edge) (s : State) (p : Port) : OutsideOnly s (offerEdge e s p) := by
  unfold offerEdge
  split
  · split <;> rfl
  · rfl

theorem acts_edgeEventWork (l : InLine) (s : State) : Acts s (edgeEventWork l s) := by
  unfold edgeEventWork
  split
  · exact .refl
  · next e _ =>
    exact (acts_done ((outsideOnly_withFilter _ _ _).acts.trans (Act.edge e _).acts)).trans
      (OutsideOnly.foldl (outsideOnly_offerEdge e) _ _).acts

/-! ### Time -/

theorem acts_atTick {f : State → State} (hf : ∀ s, Acts s (f s)) (s : State) : Acts s (s.atTick f) := by
  unfold State.atTick
  split
  · exact hf s
  · exact .refl

theorem acts_deadlineWork (s : State) : Acts s (deadlineWork s) := by
  have hfired : Acts s (reachedMarkerWork (windowEndWork (everyBank.foldl (fun t k => bankFiringWork k t) s))) :=
    ((Acts.foldl (fun t k => acts_bankFiringWork k t) _ s).trans (acts_windowEndWork _)).trans (acts_reachedMarkerWork _)
  have hinterlocked := ((hfired.trans (acts_guardEndWork 11 _)).trans (acts_holdDeadlineWork 11 _)).trans
    (acts_fallRecordEndWork 11 _)
  exact (hinterlocked.trans (Acts.foldl (fun t p => acts_lapseWork p t) _ _)).trans
    (Acts.foldl (fun t p => acts_waitDeadlineWork p t) _ _)

theorem acts_settle (s : State) : Acts s (settle s) := by
  unfold settle
  split
  · exact .refl
  · unfold settleWork
    refine Relation.ReflTransGen.trans ?_ (Acts.foldl (fun t l => acts_edgeEventWork l t) _ _)
    split
    · exact acts_deadlineWork s
    · exact .refl

theorem acts_declareLoss (s : State) : Acts s (declareLoss s) := by
  unfold declareLoss
  dsimp only
  split
  · exact acts_done ((outsideOnly_withClock _ _).acts.trans (Act.faulted _).acts)
  · exact (outsideOnly_withClock _ _).acts

theorem acts_clockLostWork (s : State) : Acts s (clockLostWork s) := by
  unfold clockLostWork
  split
  · have hbefore : Acts s (workBeforeLoss s) :=
      ((acts_guardEndWork 11 s).trans (acts_fallRecordEndWork 11 _)).trans
        (Acts.foldl (fun t p => acts_lapseWork p t) _ _)
    exact (hbefore.trans (outsideOnly_withClock _ _).acts).trans (acts_declareLoss _)
  · exact .refl

theorem outsideOnly_takeDueTick (s : State) : OutsideOnly s (takeDueTick s) := by
  unfold takeDueTick
  split
  · exact (outsideOnly_withClock _ _).trans (outsideOnly_tickArrival _)
  · rfl

/-- The state in which a moment is settled: its work, and the tick that it still owes with the work of that tick. -/
theorem acts_settleMoment (s : State) : Acts s (settleMoment s) := by
  unfold settleMoment
  extract_lets t u
  have ht : Acts s t := acts_settle s
  have hu : Acts s u := by
    unfold u
    split
    · exact (ht.trans (outsideOnly_takeDueTick t).acts).trans (acts_settle _)
    · exact ht
  split
  · exact hu.trans (acts_declareLoss u)
  · exact hu

theorem acts_oscillatorPeriodWork (pins : InputMask) (s : State) : Acts s (oscillatorPeriodWork pins s) :=
  (acts_settleMoment s).trans ((outsideOnly_withClock _ _).trans (outsideOnly_withPins _ _)).acts

/-- A tick arrives with a new clock and new input levels. -/
theorem outsideOnly_clockTick (s : State) (c : Clock) (pins : InputMask) :
    OutsideOnly s (tickArrival ((s.withClock c).withPins pins)) :=
  ((outsideOnly_withClock _ _).trans (outsideOnly_withPins _ _)).trans (outsideOnly_tickArrival _)

theorem acts_intTickWork (pins : InputMask) (s : State) : Acts s (intTickWork pins s) := by
  unfold intTickWork
  split
  · exact (acts_settle s).trans (outsideOnly_clockTick _ _ _).acts
  · exact .refl

theorem acts_tclkRiseWork (pins : InputMask) (s : State) : Acts s (tclkRiseWork pins s) := by
  unfold tclkRiseWork
  split
  · exact (acts_settleMoment s).trans (outsideOnly_clockTick _ _ _).acts
  · exact .refl

/-! ### Requests -/

theorem acting_serveReadOutputs : Serve.Acting serveReadOutputs := fun p r body before s => by
  unfold serveReadOutputs; split <;> exact .refl

theorem acting_servePairStatus : Serve.Acting servePairStatus := fun p r body before s => by
  unfold servePairStatus; split <;> exact .refl

theorem acting_serveList : Serve.Acting serveList := fun p r body before s => by
  unfold serveList; split <;> exact .refl

theorem acting_serveQueryStep : Serve.Acting serveQueryStep := fun p r body before s => by
  unfold serveQueryStep
  split
  · exact .refl
  · split
    · exact .refl
    · split <;> exact .refl

theorem acting_serveOwners : Serve.Acting serveOwners := fun p r body before s => by
  unfold serveOwners; split <;> exact .refl

theorem acting_serveRenew : Serve.Acting serveRenew := fun p r body before s => by
  unfold serveRenew; split <;> exact .refl

theorem acting_serveReadTime : Serve.Acting serveReadTime := fun p r body before s => by
  unfold serveReadTime; split <;> exact .refl

theorem acting_serveReadInputs : Serve.Acting serveReadInputs := fun p r body before s => by
  unfold serveReadInputs; split <;> exact .refl

theorem acting_serveConfigRead : Serve.Acting serveConfigRead := fun p r body before s => by
  unfold serveConfigRead; split <;> exact .refl

theorem acting_serveNone : Serve.Acting serveNone := fun _ _ _ _ _ => .refl

theorem acting_serveStatus : Serve.Acting serveStatus := fun p r body before s => by
  unfold serveStatus
  split
  · exact .refl
  · exact (outsideOnly_withPort _ _ _).acts

theorem acting_serveOpen : Serve.Acting serveOpen := fun p r body before s => by
  unfold serveOpen
  split
  · exact .refl
  · exact ((outsideOnly_withSession _ _ _).trans (outsideOnly_withPort _ _ _)).acts

theorem acting_serveClose : Serve.Acting serveClose := fun p r body before s => by
  unfold serveClose
  split
  · exact .refl
  · split
    · exact acts_closeWork p s
    · exact (outsideOnly_withSession _ _ _).acts

theorem acting_serveSubscribe : Serve.Acting serveSubscribe := fun p r body before s => by
  unfold serveSubscribe
  split
  · exact .refl
  · split
    · exact .refl
    · exact (outsideOnly_withInputsOf _ _ _).acts

theorem acting_serveClearPending : Serve.Acting serveClearPending := fun p r body before s => by
  unfold serveClearPending
  split
  · exact .refl
  · exact (outsideOnly_withInputsOf _ _ _).acts

theorem acting_serveClaim : Serve.Acting serveClaim := fun p r body before s => by
  unfold serveClaim
  split
  · exact .refl
  next hrun =>
  have hrun : s.phase = .run := not_ne_iff.mp hrun
  split
  · exact .refl
  next b _ =>
  split
  · exact .refl
  split
  · exact .refl
  next hused =>
  have hused : s.unusedIn b.mask = 0 := not_ne_iff.mp hused
  split
  · exact .refl
  split
  · exact .refl
  split
  · exact (Act.claimed p hrun hused).acts
  split
  · unfold queueClaim
    split
    · exact .refl
    · exact (Act.queued p hrun hused).acts
  · exact .refl

theorem acting_serveClaimWithdraw : Serve.Acting serveClaimWithdraw := fun p r body before s => by
  unfold serveClaimWithdraw
  split
  · exact .refl
  split
  · exact .refl
  split
  · exact .refl
  · exact (Act.withdrawn p s).acts

theorem acting_serveRelease : Serve.Acting serveRelease := fun p r body before s => by
  unfold serveRelease
  split
  · exact .refl
  split
  · exact .refl
  split
  · exact .refl
  split
  · exact .refl
  next hown => exact acts_arbiterPass (Act.released (not_ne_iff.mp hown)).acts

theorem acting_servePlace : Serve.Acting servePlace := fun p r body before s => by
  unfold servePlace
  split
  · exact .refl
  next hrun =>
  split
  · exact .refl
  split
  · exact .refl
  next hds => exact (Act.place (not_ne_iff.mp hrun) hds).acts

theorem acting_serveCancel : Serve.Acting serveCancel := fun p r body before s => by
  unfold serveCancel
  split
  · exact .refl
  split
  · exact .refl
  split
  · exact .refl
  · exact acts_freeSlots _ s

theorem acting_serveCancelAll : Serve.Acting serveCancelAll := fun p r body before s => by
  unfold serveCancelAll
  split
  · exact .refl
  split
  · exact .refl
  · exact acts_freeSlots _ s

/-- A handle names a step that stands in its slot. -/
theorem step_of_namedStep {s : State} {h : Handle} {i : SlotIndex} {st : StepRecord} (hn : s.namedStep h = some (i, st)) :
    s.step i = some st := by
  unfold State.namedStep at hn
  split at hn
  · cases hn
  · obtain ⟨st', hst, heq⟩ := Option.map_eq_some_iff.mp hn
    cases heq
    exact hst

/-- AMEND leaves a step its lines. -/
theorem sameLines_amended (st : StepRecord) (b : AmendBody) : (amended st b).SameLines st := by
  unfold amended
  split <;> exact ⟨rfl, rfl, rfl, rfl⟩

theorem amended_state (st : StepRecord) (b : AmendBody) : (amended st b).state = .pending b.due := by
  unfold amended
  split <;> rfl

theorem acts_amendWork {i : SlotIndex} {st : StepRecord} {s : State} (h : s.step i = some st) (b : AmendBody) :
    Acts s (amendWork i st b s).st := by
  unfold amendWork
  dsimp only
  split
  · exact (Act.move h (sameLines_amended st b) (amended_state st b)).acts
  · refine (Act.fire fun f hf => ?_).acts
    rw [List.mem_singleton.mp hf]
    exact ⟨st, h, sameLines_amended st b⟩

theorem acting_serveAmend : Serve.Acting serveAmend := fun p r body before s => by
  unfold serveAmend
  split
  · exact .refl
  split
  · exact .refl
  next b _ =>
  split
  · exact .refl
  next hnamed =>
  have hst := step_of_namedStep hnamed
  split
  · exact .refl
  split
  · exact .refl
  split
  · exact .refl
  · split
    · exact acts_amendWork hst b
    · exact .refl
  · exact acts_amendWork hst b

theorem acting_serveConfigWrite : Serve.Acting serveConfigWrite := fun p r body before s => by
  unfold serveConfigWrite
  split
  · exact .refl
  next hsetup =>
  split
  · exact .refl
  next hr =>
  split
  · exact .refl
  next hc => exact (Act.written (not_ne_iff.mp hsetup) hr hc).acts

theorem acting_serveSetTime : Serve.Acting serveSetTime := fun p r body before s => by
  unfold serveSetTime
  split
  · exact .refl
  split
  · exact .refl
  · exact (acts_settle s).trans (Act.setTime _ _).acts

theorem acting_serveStart : Serve.Acting serveStart := fun p r body before s => by
  unfold serveStart
  split
  · exact .refl
  split
  · exact .refl
  split
  · exact .refl
  · exact (Act.started s).acts

theorem acting_serveStop : Serve.Acting serveStop := fun p r body before s => by
  unfold serveStop
  split
  · exact .refl
  split
  · exact .refl
  split
  · exact .refl
  next hothers => exact (Act.stopped (not_ne_iff.mp hothers)).acts

theorem acting_serveClearFault : Serve.Acting serveClearFault := fun p r body before s => by
  unfold serveClearFault
  split
  · exact .refl
  split
  · exact .refl
  split
  · exact .refl
  next hfault => exact (Act.faultCleared (not_ne_iff.mp hfault)).acts

theorem acting_serveAny : Serve.Acting serveAny := fun p r body before s => by
  cases r with
  | status => exact acting_serveStatus p .status body before s
  | openSession => exact acting_serveOpen p .openSession body before s
  | closeSession => exact acting_serveClose p .closeSession body before s
  | renew => exact acting_serveRenew p .renew body before s
  | readTime => exact acting_serveReadTime p .readTime body before s
  | configWrite => exact acting_serveConfigWrite p .configWrite body before s
  | configRead => exact acting_serveConfigRead p .configRead body before s
  | setTime => exact acting_serveSetTime p .setTime body before s
  | start => exact acting_serveStart p .start body before s
  | stop => exact acting_serveStop p .stop body before s
  | clearFault => exact acting_serveClearFault p .clearFault body before s
  | claim => exact acting_serveClaim p .claim body before s
  | claimWithdraw => exact acting_serveClaimWithdraw p .claimWithdraw body before s
  | release => exact acting_serveRelease p .release body before s
  | owners => exact acting_serveOwners p .owners body before s
  | readOutputs => exact acting_serveReadOutputs p .readOutputs body before s
  | pairStatus => exact acting_servePairStatus p .pairStatus body before s
  | place => exact acting_servePlace p .place body before s
  | cancel => exact acting_serveCancel p .cancel body before s
  | cancelAll => exact acting_serveCancelAll p .cancelAll body before s
  | amend => exact acting_serveAmend p .amend body before s
  | list => exact acting_serveList p .list body before s
  | queryStep => exact acting_serveQueryStep p .queryStep body before s
  | subscribe => exact acting_serveSubscribe p .subscribe body before s
  | clearPending => exact acting_serveClearPending p .clearPending body before s
  | readInputs => exact acting_serveReadInputs p .readInputs body before s

/-! ### Commands -/

theorem outsideOnly_beginTransaction (p : Port) (s : State) : OutsideOnly s (beginTransaction p s) := by
  unfold beginTransaction
  split
  · rfl
  · exact outsideOnly_withPort _ _ _

theorem outsideOnly_clockCycle (p : Port) (bit : Bool) (s : State) : OutsideOnly s (clockCycle p bit s) := by
  unfold clockCycle
  split
  · rfl
  · exact outsideOnly_withPort _ _ _

/-- Outside reset a command does its work, and while reset is held nothing. -/
theorem acts_unlessReset {f : State → State} (hf : ∀ s, Acts s (f s)) (s : State) :
    Acts s (if s.inReset then s else f s) := by
  split
  · exact .refl
  · exact hf s

/-- A command is a chain of acts, and always answers a next state. -/
theorem exec_acts (c : Instr) (s : State) : ∃ t, exec c s = .next t ∧ Acts s t := by
  cases c with
  | transactionBegin p => exact ⟨_, rfl, (outsideOnly_beginTransaction p s).acts⟩
  | nop p mosi => exact ⟨_, rfl, acts_chipSelectRise acting_serveNone _ p mosi s⟩
  | edgeSummary p mosi => exact ⟨_, rfl, acts_chipSelectRise acting_serveAny _ p mosi s⟩
  | eFrame p mosi => exact ⟨_, rfl, acts_chipSelectRise acting_serveNone _ p mosi s⟩
  | eKind p mosi => exact ⟨_, rfl, acts_chipSelectRise acting_serveNone _ p mosi s⟩
  | status p mosi => exact ⟨_, rfl, acts_chipSelectRise acting_serveStatus _ p mosi s⟩
  | openSession p mosi => exact ⟨_, rfl, acts_chipSelectRise acting_serveOpen _ p mosi s⟩
  | closeSession p mosi => exact ⟨_, rfl, acts_chipSelectRise acting_serveClose _ p mosi s⟩
  | renew p mosi => exact ⟨_, rfl, acts_chipSelectRise acting_serveRenew _ p mosi s⟩
  | readTime p mosi => exact ⟨_, rfl, acts_chipSelectRise acting_serveReadTime _ p mosi s⟩
  | setTime p mosi => exact ⟨_, rfl, acts_chipSelectRise acting_serveSetTime _ p mosi s⟩
  | configWriteTimebase p mosi => exact ⟨_, rfl, acts_chipSelectRise acting_serveConfigWrite _ p mosi s⟩
  | configWriteOutputLine p mosi => exact ⟨_, rfl, acts_chipSelectRise acting_serveConfigWrite _ p mosi s⟩
  | configWriteInputLine p mosi => exact ⟨_, rfl, acts_chipSelectRise acting_serveConfigWrite _ p mosi s⟩
  | configWritePair p mosi => exact ⟨_, rfl, acts_chipSelectRise acting_serveConfigWrite _ p mosi s⟩
  | configWriteQuota p mosi => exact ⟨_, rfl, acts_chipSelectRise acting_serveConfigWrite _ p mosi s⟩
  | configWriteArbiter p mosi => exact ⟨_, rfl, acts_chipSelectRise acting_serveConfigWrite _ p mosi s⟩
  | configRead p mosi => exact ⟨_, rfl, acts_chipSelectRise acting_serveConfigRead _ p mosi s⟩
  | start p mosi => exact ⟨_, rfl, acts_chipSelectRise acting_serveStart _ p mosi s⟩
  | stop p mosi => exact ⟨_, rfl, acts_chipSelectRise acting_serveStop _ p mosi s⟩
  | clearFault p mosi => exact ⟨_, rfl, acts_chipSelectRise acting_serveClearFault _ p mosi s⟩
  | claim p mosi => exact ⟨_, rfl, acts_chipSelectRise acting_serveClaim _ p mosi s⟩
  | claimWithdraw p mosi => exact ⟨_, rfl, acts_chipSelectRise acting_serveClaimWithdraw _ p mosi s⟩
  | release p mosi => exact ⟨_, rfl, acts_chipSelectRise acting_serveRelease _ p mosi s⟩
  | owners p mosi => exact ⟨_, rfl, acts_chipSelectRise acting_serveOwners _ p mosi s⟩
  | readOutputs p mosi => exact ⟨_, rfl, acts_chipSelectRise acting_serveReadOutputs _ p mosi s⟩
  | pairStatus p mosi => exact ⟨_, rfl, acts_chipSelectRise acting_servePairStatus _ p mosi s⟩
  | place p mosi => exact ⟨_, rfl, acts_chipSelectRise acting_servePlace _ p mosi s⟩
  | cancel p mosi => exact ⟨_, rfl, acts_chipSelectRise acting_serveCancel _ p mosi s⟩
  | cancelAll p mosi => exact ⟨_, rfl, acts_chipSelectRise acting_serveCancelAll _ p mosi s⟩
  | amend p mosi => exact ⟨_, rfl, acts_chipSelectRise acting_serveAmend _ p mosi s⟩
  | list p mosi => exact ⟨_, rfl, acts_chipSelectRise acting_serveList _ p mosi s⟩
  | queryStep p mosi => exact ⟨_, rfl, acts_chipSelectRise acting_serveQueryStep _ p mosi s⟩
  | subscribe p mosi => exact ⟨_, rfl, acts_chipSelectRise acting_serveSubscribe _ p mosi s⟩
  | clearPending p mosi => exact ⟨_, rfl, acts_chipSelectRise acting_serveClearPending _ p mosi s⟩
  | readInputs p mosi => exact ⟨_, rfl, acts_chipSelectRise acting_serveReadInputs _ p mosi s⟩
  | reset => exact ⟨_, rfl, (Act.reset s).acts⟩
  | intTick pins => exact ⟨_, rfl, acts_unlessReset (acts_intTickWork pins) s⟩
  | tclkRise pins => exact ⟨_, rfl, acts_unlessReset (acts_tclkRiseWork pins) s⟩
  | clockLost => exact ⟨_, rfl, acts_unlessReset acts_clockLostWork s⟩
  | bankFiring k => exact ⟨_, rfl, acts_atTick (acts_bankFiringWork k) s⟩
  | windowEnd => exact ⟨_, rfl, acts_atTick acts_windowEndWork s⟩
  | reachedMarker => exact ⟨_, rfl, acts_atTick acts_reachedMarkerWork s⟩
  | edgeEvent l => exact ⟨_, rfl, acts_unlessReset (acts_edgeEventWork l) s⟩
  | guardEnd k => exact ⟨_, rfl, acts_atTick (acts_guardEndWork k) s⟩
  | fallRecordEnd k => exact ⟨_, rfl, acts_atTick (acts_fallRecordEndWork k) s⟩
  | holdDeadline k => exact ⟨_, rfl, acts_atTick (acts_holdDeadlineWork k) s⟩
  | waitDeadline p => exact ⟨_, rfl, acts_atTick (acts_waitDeadlineWork p) s⟩
  | lapse p => exact ⟨_, rfl, acts_atTick (acts_lapseWork p) s⟩
  | spiClockCycle p bit => exact ⟨_, rfl, acts_unlessReset (fun s => (outsideOnly_clockCycle p bit s).acts) s⟩
  | oscillatorPeriod pins => exact ⟨_, rfl, acts_unlessReset (acts_oscillatorPeriodWork pins) s⟩
  | resetEnd => exact ⟨_, rfl, OutsideOnly.acts rfl⟩

/-- A step is a chain of acts: the front command leaves the queue, and its acts follow. -/
theorem step_acts {s t : State} (h : step s = .next t) : Acts s t := by
  unfold step at h
  split at h
  · cases h; exact .refl
  · next c rest _ =>
    obtain ⟨u, hu, acts⟩ := exec_acts c { s with pending := rest }
    cases hu.symm.trans h
    have hqueue : OutsideOnly s { s with pending := rest } := rfl
    exact hqueue.acts.trans acts

/-- A law that every act keeps is kept by every step. -/
theorem step_keeps {P : State → Prop} (hP : ∀ s t, Act s t → P s → P t) {s t : State} (hs : P s)
    (h : step s = .next t) : P t :=
  (step_acts h).keeps hP hs

end Sys2Proof.Machine
end

/-! ## The calendar law

The law is kept by the calendar's operations in a more general form: some slots may stand outside the collections for a
while, as a step does between leaving one collection and entering another, and a placed step before it enters its first. -/

section
namespace Sys2Proof.Machine

/-! ### The law with some slots outside the collections -/

/-- The step in slot `i` waits PENDING. -/
def State.pendingAt (s : State) (i : SlotIndex) : Prop := ∃ st d, s.step i = some st ∧ st.state = .pending d

/-- The step in slot `i` waits ARMED on line `l`. -/
def State.armedAt (s : State) (l : InLine) (i : SlotIndex) : Prop :=
  ∃ st a, s.step i = some st ∧ st.state = .armed ∧ st.kind = .armed a ∧ a.line = l

/-- The calendar law of the slots that are not in `out`; those in `out` are in no collection, whatever they hold. -/
structure CalendarLawBut (out : Set SlotIndex) (s : State) : Prop where
  due_once : s.dueList.Nodup
  due_mem : ∀ i, i ∈ s.dueList ↔ i ∉ out ∧ s.pendingAt i
  armed_once : ∀ l, (s.armedList l).Nodup
  armed_mem : ∀ l i, i ∈ s.armedList l ↔ i ∉ out ∧ s.armedAt l i
  armed_kind : ∀ i st, i ∉ out → s.step i = some st → st.state = .armed → ∃ a, st.kind = .armed a

/-- With no slot outside, this is the calendar law. -/
theorem calendarLawBut_empty {s : State} : CalendarLawBut ∅ s ↔ CalendarLaw s :=
  ⟨fun h => ⟨h.due_once, fun i => (h.due_mem i).trans (and_iff_right (Set.notMem_empty i)), h.armed_once,
      fun l i => (h.armed_mem l i).trans (and_iff_right (Set.notMem_empty i)),
      fun i st => h.armed_kind i st (Set.notMem_empty i)⟩,
    fun h => ⟨h.due_once, fun i => (h.due_mem i).trans (and_iff_right (Set.notMem_empty i)).symm, h.armed_once,
      fun l i => (h.armed_mem l i).trans (and_iff_right (Set.notMem_empty i)).symm,
      fun i st _ => h.armed_kind i st⟩⟩

/-- The law reads the slots and the collections alone. -/
theorem CalendarLawBut.congr {out : Set SlotIndex} {s t : State} (h : CalendarLawBut out s) (hslots : t.slots = s.slots)
    (hdue : t.dueList = s.dueList) (harmed : t.armedSet = s.armedSet) : CalendarLawBut out t := by
  have hstep : t.step = s.step := by funext i; simp [State.step, State.slot, hslots]
  have hlist : t.armedList = s.armedList := by funext l; simp [State.armedList, harmed]
  constructor
  · rw [hdue]; exact h.due_once
  · intro i; rw [hdue, h.due_mem, State.pendingAt, State.pendingAt, hstep]
  · intro l; rw [hlist]; exact h.armed_once l
  · intro l i; rw [hlist, h.armed_mem, State.armedAt, State.armedAt, hstep]
  · intro i st; rw [hstep]; exact h.armed_kind i st

theorem CalendarLaw.congr {s t : State} (h : CalendarLaw s) (hslots : t.slots = s.slots) (hdue : t.dueList = s.dueList)
    (harmed : t.armedSet = s.armedSet) : CalendarLaw t :=
  calendarLawBut_empty.mp ((calendarLawBut_empty.mpr h).congr hslots hdue harmed)

/-! ### The calendar's operations -/

section
variable {out : Set SlotIndex} {s : State} {i : SlotIndex}

@[simp] theorem step_leave (i j : SlotIndex) (s : State) : (leave i s).step j = s.step j := rfl

@[simp] theorem step_putStep (i j : SlotIndex) (st : StepRecord) (s : State) :
    (putStep i st s).step j = if j = i then some st else s.step j := by simp [putStep]

theorem step_putStep_self (i : SlotIndex) (st : StepRecord) (s : State) : (putStep i st s).step i = some st := by simp

@[simp] theorem step_freeSlot (i j : SlotIndex) (s : State) :
    (freeSlot i s).step j = if j = i then none else s.step j := by
  simp only [State.step, slot_freeSlot]
  split <;> rfl

/-- A step leaves its collection. -/
theorem CalendarLawBut.leave (h : CalendarLawBut out s) (i : SlotIndex) : CalendarLawBut (insert i out) (leave i s) where
  due_once := h.due_once.filter _
  due_mem j := by
    have := h.due_mem j
    simp only [dueList_leave, List.mem_filter, State.pendingAt, step_leave, Set.mem_insert_iff] at *
    simp only [this, decide_eq_true_eq]; tauto
  armed_once l := by rw [armedList_leave]; exact (h.armed_once l).filter _
  armed_mem l j := by
    have := h.armed_mem l j
    simp only [armedList_leave, List.mem_filter, State.armedAt, step_leave, Set.mem_insert_iff] at *
    simp only [this, decide_eq_true_eq]; tauto
  armed_kind j st hj := h.armed_kind j st (fun hout => hj (Set.mem_insert_of_mem _ hout))

/-- A record is put in a slot that stands outside. -/
theorem CalendarLawBut.putStep (h : CalendarLawBut out s) (hi : i ∈ out) (st : StepRecord) :
    CalendarLawBut out (putStep i st s) := by
  have hne : ∀ j, j ∉ out → j ≠ i := fun j hj => by rintro rfl; exact hj hi
  refine ⟨h.due_once, fun j => ?_, h.armed_once, fun l j => ?_, fun j x hj => ?_⟩
  · rw [dueList_putStep, h.due_mem]
    refine and_congr_right fun hj => ?_
    simp [State.pendingAt, hne j hj]
  · rw [armedList_putStep, h.armed_mem]
    refine and_congr_right fun hj => ?_
    simp [State.armedAt, hne j hj]
  · rw [step_putStep, if_neg (hne j hj)]
    exact h.armed_kind j x hj

@[simp] theorem step_enterDue (i j : SlotIndex) (s : State) : (enterDue i s).step j = s.step j := rfl

@[simp] theorem step_enterArmed (i j : SlotIndex) (l : InLine) (s : State) : (enterArmed i l s).step j = s.step j := rfl

/-- A step waits in one state at a time. -/
theorem State.pendingAt_iff {st : StepRecord} (hst : s.step i = some st) : s.pendingAt i ↔ ∃ d, st.state = .pending d := by
  simp [State.pendingAt, hst]

theorem State.armedAt_iff {st : StepRecord} (hst : s.step i = some st) (l : InLine) :
    s.armedAt l i ↔ st.state = .armed ∧ ∃ a, st.kind = .armed a ∧ a.line = l := by
  simp [State.armedAt, hst]

/-- A PENDING step from outside enters the due list. -/
theorem CalendarLawBut.enterDue (h : CalendarLawBut out s) (hi : i ∈ out) {st : StepRecord} {d : Tick}
    (hst : s.step i = some st) (hd : st.state = .pending d) : CalendarLawBut (out \ {i}) (enterDue i s) where
  due_once := by
    rw [dueList_enterDue, (insertDue_perm _ _ _).nodup_iff, List.nodup_cons]
    exact ⟨fun hmem => ((h.due_mem i).mp hmem).1 hi, h.due_once⟩
  due_mem j := by
    change _ ↔ _ ∧ s.pendingAt j
    rw [dueList_enterDue, mem_insertDue, h.due_mem]
    by_cases hj : j = i
    · subst hj; simp [State.pendingAt_iff hst, hd]
    · simp [hj]
  armed_once := h.armed_once
  armed_mem l j := by
    change _ ↔ _ ∧ s.armedAt l j
    rw [armedList_enterDue, h.armed_mem]
    by_cases hj : j = i
    · subst hj; simp [State.armedAt_iff hst, hd]
    · simp [hj]
  armed_kind j x hj hx harmed := by
    by_cases hji : j = i
    · subst hji
      rw [step_enterDue, hst] at hx; cases hx
      rw [hd] at harmed; cases harmed
    · exact h.armed_kind j x (fun hout => hj ⟨hout, hji⟩) hx harmed

/-- An ARMED step from outside goes to the end of its line's list. -/
theorem CalendarLawBut.enterArmed (h : CalendarLawBut out s) (hi : i ∈ out) {st : StepRecord} {a : ArmPart}
    (hst : s.step i = some st) (harmed : st.state = .armed) (hkind : st.kind = .armed a) :
    CalendarLawBut (out \ {i}) (enterArmed i a.line s) where
  due_once := h.due_once
  due_mem j := by
    change _ ↔ _ ∧ s.pendingAt j
    rw [dueList_enterArmed, h.due_mem]
    by_cases hj : j = i
    · subst hj; simp [State.pendingAt_iff hst, harmed]
    · simp [hj]
  armed_once l := by
    rw [armedList_enterArmed]
    split
    · refine (List.nodup_append_comm.trans List.nodup_cons).mpr ⟨fun hmem => ?_, h.armed_once _⟩
      exact ((h.armed_mem _ i).mp hmem).1 hi
    · exact h.armed_once l
  armed_mem l j := by
    have hmem : j ∈ (Machine.enterArmed i a.line s).armedList l ↔ j ∈ s.armedList l ∨ (j = i ∧ a.line = l) := by
      rw [armedList_enterArmed]
      by_cases hl : l = a.line
      · subst hl; simp
      · simp [hl, Ne.symm hl]
    change _ ↔ _ ∧ s.armedAt l j
    rw [hmem, h.armed_mem]
    by_cases hj : j = i
    · subst hj; simp [State.armedAt_iff hst, harmed, hkind, hi]
    · simp [hj]
  armed_kind j x hj hx hxarmed := by
    by_cases hji : j = i
    · subst hji
      rw [step_enterArmed, hst] at hx; cases hx
      exact ⟨a, hkind⟩
    · exact h.armed_kind j x (fun hout => hj ⟨hout, hji⟩) hx hxarmed

/-- An empty slot is in no collection, so it may stand outside or not. -/
theorem CalendarLawBut.of_free {out' : Set SlotIndex} (h : CalendarLawBut out s) (hfree : s.step i = none)
    (hout : ∀ j, j ≠ i → (j ∈ out' ↔ j ∈ out)) : CalendarLawBut out' s where
  due_once := h.due_once
  due_mem j := by
    rw [h.due_mem]
    by_cases hj : j = i
    · subst hj; simp [State.pendingAt, hfree]
    · rw [hout j hj]
  armed_once := h.armed_once
  armed_mem l j := by
    rw [h.armed_mem]
    by_cases hj : j = i
    · subst hj; simp [State.armedAt, hfree]
    · rw [hout j hj]
  armed_kind j st hj hst := by
    refine h.armed_kind j st (fun hmem => hj ((hout j ?_).mpr hmem)) hst
    rintro rfl
    rw [hfree] at hst; cases hst

/-- A freed slot is in no collection. -/
theorem CalendarLawBut.freeSlot (h : CalendarLawBut out s) (i : SlotIndex) :
    CalendarLawBut (out \ {i}) (freeSlot i s) := by
  have hleft : CalendarLawBut (insert i out) (Machine.freeSlot i s) := by
    have hleave := h.leave i
    have hne : ∀ j, j ∉ insert i out → j ≠ i := fun j hj => by rintro rfl; exact hj (Set.mem_insert _ _)
    refine ⟨hleave.due_once, fun j => ?_, hleave.armed_once, fun l j => ?_, fun j x hj => ?_⟩
    · refine (hleave.due_mem j).trans (and_congr_right fun hj => ?_)
      simp [State.pendingAt, hne j hj]
    · refine (hleave.armed_mem l j).trans (and_congr_right fun hj => ?_)
      simp [State.armedAt, hne j hj]
    · rw [step_freeSlot, if_neg (hne j hj)]
      exact hleave.armed_kind j x hj
  exact hleft.of_free (i := i) (by simp) fun j hj => by simp [hj]

/-- A step that fires leaves its collection and stands where its aftermath puts it (R44 to R47). -/
theorem CalendarLawBut.settleSlot (h : CalendarLawBut out s) (i : SlotIndex) (st : StepRecord) (x : Settled) :
    CalendarLawBut (out \ {i}) (settleSlot i st x s) := by
  have hput : ∀ st', CalendarLawBut (insert i out) (Machine.putStep i st' (Machine.leave i s)) :=
    (h.leave i).putStep (Set.mem_insert i out)
  have hout : insert i out \ {i} = out \ {i} := by simp
  unfold Machine.settleSlot
  split
  · exact hout ▸ (hput _).enterDue (Set.mem_insert i out) (step_putStep_self ..) rfl
  · split
    · exact h.freeSlot i
    · next a _ =>
      exact hout ▸ (hput _).enterArmed (a := { a with armTick := s.now }) (Set.mem_insert i out)
        (step_putStep_self ..) rfl rfl
  · exact h.freeSlot i
end

/-! ### The calendar's operations on a whole calendar -/

section
variable {s t : State}

theorem CalendarLaw.freeSlot (h : CalendarLaw s) (i : SlotIndex) : CalendarLaw (freeSlot i s) := by
  have := (calendarLawBut_empty.mpr h).freeSlot i
  rwa [Set.empty_sdiff, calendarLawBut_empty] at this

theorem CalendarLaw.freeSlots (h : CalendarLaw s) (is : List SlotIndex) : CalendarLaw (freeSlots is s) := by
  induction is generalizing s with
  | nil => exact h
  | cons i is ih => exact ih (h.freeSlot i)

theorem CalendarLaw.settleSlot (h : CalendarLaw s) (i : SlotIndex) (st : StepRecord) (x : Settled) :
    CalendarLaw (settleSlot i st x s) := by
  have := (calendarLawBut_empty.mpr h).settleSlot i st x
  rwa [Set.empty_sdiff, calendarLawBut_empty] at this

/-- A step leaves its collection and enters the due list with a new due. -/
theorem CalendarLaw.moved (h : CalendarLaw s) (i : SlotIndex) {st : StepRecord} {d : Tick} (hd : st.state = .pending d) :
    CalendarLaw (enterDue i (putStep i st (leave i s))) := by
  have := (((calendarLawBut_empty.mpr h).leave i).putStep (Set.mem_insert i ∅) st).enterDue (Set.mem_insert i ∅)
    (step_putStep_self ..) hd
  rwa [Set.insert_sdiff_self_of_notMem (Set.notMem_empty i), calendarLawBut_empty] at this

/-- A record changes where its step waits neither in another state nor on another line. -/
theorem CalendarLaw.putStep (h : CalendarLaw s) {i : SlotIndex} {st st' : StepRecord} (hst : s.step i = some st)
    (hstate : st'.state = st.state)
    (hkind : st'.kind = st.kind ∨ (∃ d, st.state = .pending d)) : CalendarLaw (putStep i st' s) where
  due_once := h.due_once
  due_mem j := by
    rw [dueList_putStep, h.due_mem]
    by_cases hj : j = i
    · subst hj; simp [hst, hstate]
    · simp [hj]
  armed_once := h.armed_once
  armed_mem l j := by
    rw [armedList_putStep, h.armed_mem]
    by_cases hj : j = i
    · subst hj
      rcases hkind with hkind | ⟨d, hd⟩
      · simp [hst, hstate, hkind]
      · simp [hst, hstate, hd]
    · simp [hj]
  armed_kind j x hx harmed := by
    rw [step_putStep] at hx
    by_cases hj : j = i
    · subst hj
      rw [if_pos rfl] at hx; cases hx
      rw [hstate] at harmed
      rcases hkind with hkind | ⟨d, hd⟩
      · rw [hkind]; exact h.armed_kind j st hst harmed
      · rw [hd] at harmed; cases harmed
    · rw [if_neg hj] at hx
      exact h.armed_kind j x hx harmed

theorem CalendarLaw.of_outputsOnly (h : CalendarLaw s) (ho : OutputsOnly s t) : CalendarLaw t := by
  unfold OutputsOnly at ho
  exact h.congr (by rw [ho]) (by rw [ho]) (by rw [ho])

theorem CalendarLaw.of_ownersOnly (h : CalendarLaw s) (ho : OwnersOnly s t) : CalendarLaw t := by
  unfold OwnersOnly at ho
  exact h.congr (by rw [ho]) (by rw [ho]) (by rw [ho])

theorem CalendarLaw.of_outsideOnly (h : CalendarLaw s) (ho : OutsideOnly s t) : CalendarLaw t := by
  unfold OutsideOnly at ho
  exact h.congr (by rw [ho]) (by rw [ho]) (by rw [ho])
end

/-! ### Firings, edges and placements -/

theorem CalendarLaw.settleAll {s : State} (h : CalendarLaw s) (fs : List Firing) : CalendarLaw (settleAll fs s) := by
  unfold Machine.settleAll
  induction fs generalizing s with
  | nil => exact h
  | cons f fs ih => exact ih (h.settleSlot _ _ _)

/-- Bank firings touch no collection. -/
theorem outputsOnly_fireBanks (fs : List Firing) (w : Work) : OutputsOnly w.st (everyBank.foldl (fireBank fs) w).st :=
  OutputsOnly.foldl_work (fun w k => outputsOnly_fireBank fs w k) everyBank w

theorem CalendarLaw.fireSteps {s : State} (h : CalendarLaw s) (fs : List Firing) : CalendarLaw (fireSteps fs s).st :=
  (h.settleAll fs).of_outputsOnly (outputsOnly_fireBanks fs (Work.of (Machine.settleAll fs s)))

/-- The record of a triggered step waits for its due. -/
theorem triggerOf_state {s : State} {e : Edge} {i : SlotIndex} {t : Triggered} (h : triggerOf s e i = some t) :
    t.record.state = .pending t.due := by
  obtain ⟨x, _, rfl⟩ := Option.map_eq_some_iff.mp h
  rfl

theorem CalendarLaw.enterTriggered {s : State} (h : CalendarLaw s) {t : Triggered}
    (ht : t.record.state = .pending t.due) : CalendarLaw (enterTriggered s t) := by
  unfold Machine.enterTriggered
  split
  · exact h.moved t.slot ht
  · exact h.settleSlot _ _ _

theorem CalendarLaw.serveEdge {s : State} (h : CalendarLaw s) (e : Edge) : CalendarLaw (serveEdge e s).st := by
  have hts : ∀ t ∈ (s.armedList e.line).filterMap (triggerOf s e), t.record.state = .pending t.due := fun t ht => by
    obtain ⟨i, _, hi⟩ := List.mem_filterMap.mp ht
    exact triggerOf_state hi
  unfold Machine.serveEdge
  refine CalendarLaw.of_outputsOnly ?_ (outputsOnly_fireBanks _ _)
  change CalendarLaw (List.foldl Machine.enterTriggered s _)
  generalize (s.armedList e.line).filterMap (triggerOf s e) = ts at hts
  induction ts generalizing s with
  | nil => exact h
  | cons t ts ih =>
    exact ih (h.enterTriggered (hts t List.mem_cons_self)) fun u hu => hts u (List.mem_cons_of_mem _ hu)

/-- The slots of placed steps. -/
def placedSlots (xs : List (SlotIndex × StepRecord)) : Set SlotIndex := {i | i ∈ xs.map Prod.fst}

theorem placedSlots_cons_diff {i : SlotIndex} {st : StepRecord} {xs : List (SlotIndex × StepRecord)}
    (h : i ∉ xs.map Prod.fst) : placedSlots ((i, st) :: xs) \ {i} = placedSlots xs := by
  have : placedSlots ((i, st) :: xs) = insert i (placedSlots xs) := by ext j; simp [placedSlots]
  rw [this]
  exact Set.insert_sdiff_self_of_notMem (s := placedSlots xs) h

/-- The steps of a placement, as they stand in their slots before they enter the collections: each in a slot of its own that was
free, with the record of one of the descriptors. -/
structure Taken (p : Port) (ds : List Descriptor) (s : State) (xs : List (SlotIndex × StepRecord)) (t : State) : Prop where
  frame : t = { s with slots := t.slots }
  once : (xs.map Prod.fst).Nodup
  count : xs.length ≤ ds.length
  fresh : ∀ x ∈ xs, s.step x.1 = none
  holds : ∀ x ∈ xs, t.step x.1 = some x.2
  others : ∀ i, i ∉ xs.map Prod.fst → t.step i = s.step i
  records : ∀ x ∈ xs, ∃ d ∈ ds, x.2 = recordOf d p s.now

theorem mem_freeSlots {s : State} {i : SlotIndex} : i ∈ s.freeSlots ↔ s.step i = none := by
  simp [State.freeSlots]

/-- Without a descriptor or without a free slot, nothing is placed. -/
theorem Taken.nil (p : Port) (ds : List Descriptor) (s : State) : Taken p ds s [] s :=
  ⟨rfl, List.nodup_nil, Nat.zero_le _, by simp, by simp, by simp, by simp⟩

/-- One more descriptor takes a slot that is free. -/
theorem Taken.cons {p : Port} {d : Descriptor} {ds : List Descriptor} {s t : State} {xs : List (SlotIndex × StepRecord)}
    {i : SlotIndex} (hi : s.step i = none) (h : Taken p ds (putStep i (recordOf d p s.now) s) xs t) :
    Taken p (d :: ds) s ((i, recordOf d p s.now) :: xs) t := by
  have hne : ∀ x ∈ xs, x.1 ≠ i := fun x hx heq => by
    have := h.fresh x hx
    rw [heq, step_putStep_self] at this; cases this
  have hnot : i ∉ xs.map Prod.fst := fun hmem => by
    obtain ⟨x, hx, hxi⟩ := List.mem_map.mp hmem
    exact hne x hx hxi
  refine ⟨h.frame, List.nodup_cons.mpr ⟨hnot, h.once⟩, Nat.succ_le_succ h.count, ?_, ?_, fun j hj => ?_, ?_⟩
  · refine List.forall_mem_cons.mpr ⟨hi, fun x hx => ?_⟩
    have := h.fresh x hx
    rwa [step_putStep, if_neg (hne x hx)] at this
  · refine List.forall_mem_cons.mpr ⟨?_, h.holds⟩
    rw [h.others i hnot, step_putStep_self]
  · obtain ⟨hji, hj⟩ := not_or.mp (List.mem_cons.not.mp hj)
    rw [h.others j hj, step_putStep, if_neg hji]
  · refine List.forall_mem_cons.mpr ⟨⟨d, List.mem_cons_self, rfl⟩, fun x hx => ?_⟩
    obtain ⟨d', hd', hx⟩ := h.records x hx
    exact ⟨d', List.mem_cons_of_mem _ hd', hx⟩

theorem taken_takeSlots (p : Port) (ds : List Descriptor) (s : State) :
    Taken p ds s (takeSlots p ds s).1 (takeSlots p ds s).2 := by
  induction ds generalizing s with
  | nil => exact Taken.nil p [] s
  | cons d ds ih =>
    unfold takeSlots
    split
    · exact Taken.nil p _ s
    next i rest hfree => exact Taken.cons (mem_freeSlots.mp (hfree ▸ List.mem_cons_self)) (ih _)

/-- The placed steps stand in no collection yet. -/
theorem Taken.calendarLawBut {p : Port} {ds : List Descriptor} {s t : State} {xs : List (SlotIndex × StepRecord)}
    (h : Taken p ds s xs t) (law : CalendarLaw s) : CalendarLawBut (placedSlots xs) t := by
  have hdue : t.dueList = s.dueList := by rw [h.frame]
  have harmed : t.armedList = s.armedList := by rw [h.frame]; rfl
  have hfresh : ∀ i ∈ placedSlots xs, s.step i = none := fun i hi => by
    obtain ⟨x, hx, rfl⟩ := List.mem_map.mp hi
    exact h.fresh x hx
  refine ⟨hdue ▸ law.due_once, fun i => ?_, harmed ▸ law.armed_once, fun l i => ?_, fun i st hi => ?_⟩
  · rw [hdue, law.due_mem]
    by_cases hi : i ∈ placedSlots xs
    · simp [hi, hfresh i hi]
    · simp [hi, State.pendingAt, h.others i hi]
  · rw [harmed, law.armed_mem]
    by_cases hi : i ∈ placedSlots xs
    · simp [hi, hfresh i hi]
    · simp [hi, State.armedAt, h.others i hi]
  · rw [h.others i hi]
    exact law.armed_kind i st

/-- A placed step waits PENDING, or it is of kind ARMED and waits ARMED (R4, R26). -/
theorem recordOf_waits (d : Descriptor) (p : Port) (now : Tick) :
    (∃ due, (recordOf d p now).state = .pending due)
      ∨ (recordOf d p now).state = .armed ∧ ∃ a, (recordOf d p now).kind = .armed a := by
  unfold recordOf
  cases d.timing with
  | timed due => exact .inl ⟨due, rfl⟩
  | armed line edge delay window => exact .inr ⟨rfl, _, rfl⟩

/-- A placed step enters its collection. -/
theorem CalendarLawBut.enterPlaced {out : Set SlotIndex} {s : State} {x : SlotIndex × StepRecord}
    (h : CalendarLawBut out s) (hi : x.1 ∈ out) (hx : s.step x.1 = some x.2)
    (hwaits : (∃ due, x.2.state = .pending due) ∨ x.2.state = .armed ∧ ∃ a, x.2.kind = .armed a) :
    CalendarLawBut (out \ {x.1}) (enterPlaced s x) := by
  unfold Machine.enterPlaced
  split
  · exact h.settleSlot _ _ _
  · rcases hwaits with ⟨due, hdue⟩ | ⟨harmed, a, hkind⟩
    · simpa only [hdue] using h.enterDue hi hx hdue
    · simpa only [harmed, hkind] using h.enterArmed hi hx harmed hkind

/-- Entering its collection, a placed step leaves the slots of the others alone. -/
theorem step_enterPlaced_ne {s : State} {x : SlotIndex × StepRecord} {j : SlotIndex} (h : j ≠ x.1) :
    (enterPlaced s x).step j = s.step j := by
  unfold Machine.enterPlaced
  split
  · simp only [State.step, slot_settleSlot_ne h]
  · split <;> rfl

theorem CalendarLawBut.enterAllPlaced {s : State} {xs : List (SlotIndex × StepRecord)}
    (h : CalendarLawBut (placedSlots xs) s) (once : (xs.map Prod.fst).Nodup) (holds : ∀ x ∈ xs, s.step x.1 = some x.2)
    (hwaits : ∀ x ∈ xs, (∃ due, x.2.state = .pending due) ∨ x.2.state = .armed ∧ ∃ a, x.2.kind = .armed a) :
    CalendarLaw (xs.foldl Machine.enterPlaced s) := by
  induction xs generalizing s with
  | nil =>
    refine calendarLawBut_empty.mp ?_
    simpa [placedSlots] using h
  | cons x xs ih =>
    obtain ⟨hnot, once⟩ := List.nodup_cons.mp once
    obtain ⟨hx, holds⟩ := List.forall_mem_cons.mp holds
    obtain ⟨hw, hwaits⟩ := List.forall_mem_cons.mp hwaits
    have hmem : x.1 ∈ placedSlots (x :: xs) := List.mem_cons_self
    refine ih ?_ once (fun y hy => ?_) hwaits
    · exact placedSlots_cons_diff hnot ▸ h.enterPlaced hmem hx hw
    · rw [step_enterPlaced_ne (fun heq => hnot (heq ▸ List.mem_map_of_mem hy))]
      exact holds y hy

theorem CalendarLaw.placeWork {s : State} (h : CalendarLaw s) (p : Port) (ds : List Descriptor) :
    CalendarLaw (placeWork p ds s).st := by
  have htaken := taken_takeSlots p ds s
  unfold Machine.placeWork
  refine CalendarLaw.of_outputsOnly ?_ (outputsOnly_fireBanks _ _)
  refine (htaken.calendarLawBut h).enterAllPlaced htaken.once htaken.holds fun x hx => ?_
  obtain ⟨d, _, hd⟩ := htaken.records x hx
  rw [hd]
  exact recordOf_waits d p s.now

/-! ### Every act keeps the calendar law -/

theorem CalendarLaw.trim {s : State} (h : CalendarLaw s) (p : Port) (m : LineMask) : CalendarLaw (trim p m s) := by
  unfold Machine.trim
  generalize everySlot = is
  induction is generalizing s with
  | nil => exact h
  | cons i is ih =>
    refine ih ?_
    unfold trimSlot
    split
    · exact h
    next st hst =>
    split
    · split
      · exact h.freeSlot i
      · exact h.putStep hst rfl (.inl rfl)
    · exact h

theorem CalendarLaw.markReached {s : State} (h : CalendarLaw s) (i : SlotIndex) : CalendarLaw (markReached s i) := by
  unfold Machine.markReached
  split
  · exact h
  next st' hmark =>
  unfold markedNow at hmark
  split at hmark
  · cases hmark
  next st hst =>
  split at hmark
  · next d a hstate hkind =>
    split at hmark
    · split at hmark
      · cases hmark
        exact h.putStep hst rfl (.inr ⟨d, hstate⟩)
      · cases hmark
    · cases hmark
  · cases hmark

theorem outputsOnly_surrender (m : LineMask) (s : State) : OutputsOnly s (surrender m s) :=
  (outputsOnly_withdrawRises _ _).trans (outputsOnly_safeDrive _ _)

theorem CalendarLaw.setOwners {s : State} (h : CalendarLaw s) (m : LineMask) (o : Option Port) :
    CalendarLaw (setOwners m o s) :=
  h.of_ownersOnly (ownersOnly_withOwners s _)

theorem CalendarLaw.clearOwners {s : State} (h : CalendarLaw s) : CalendarLaw (clearOwners s) :=
  h.of_ownersOnly (ownersOnly_withOwners s _)

theorem CalendarLaw.discardRises {s : State} (h : CalendarLaw s) : CalendarLaw (discardRises s) :=
  h.of_outputsOnly (outputsOnly_withdrawRises _ s)

theorem CalendarLaw.directDrive {s : State} (h : CalendarLaw s) : CalendarLaw (directDrive s) :=
  h.of_outputsOnly (outputsOnly_directDrive s)

theorem CalendarLaw.withPhase {s : State} (h : CalendarLaw s) (f : Phase) : CalendarLaw (s.withPhase f) :=
  h.congr (State.withPhase_slots s f) (State.withPhase_dueList s f) (State.withPhase_armedSet s f)

theorem ownersOnly_dropClaims (s : State) : OwnersOnly s (dropClaims s) := rfl

theorem ownersOnly_expireClaim (w : Work) (p : Port) : OwnersOnly w.st (expireClaim w p).st := by
  unfold expireClaim
  split
  · rfl
  · exact ownersOnly_withClaim _ _ _

theorem OwnersOnly.foldl_work {α : Type} {f : Work → α → Work} (hf : ∀ w a, OwnersOnly w.st (f w a).st) (l : List α)
    (w : Work) : OwnersOnly w.st (l.foldl f w).st := by
  induction l generalizing w with
  | nil => exact OwnersOnly.refl _
  | cons a l ih => exact (hf w a).trans (ih _)

theorem CalendarLaw.stopWork {s : State} (h : CalendarLaw s) (p : Port) : CalendarLaw (stopWork p s).st := by
  have hclaims : OwnersOnly (Machine.discardRises (purge p s))
      (everyPort.foldl expireClaim (Work.of (Machine.discardRises (purge p s)))).st :=
    OwnersOnly.foldl_work ownersOnly_expireClaim everyPort _
  have hpurged : CalendarLaw (Machine.discardRises (purge p s)) := (h.freeSlots _).discardRises
  exact (hpurged.of_ownersOnly hclaims).clearOwners.directDrive.withPhase .setup

theorem CalendarLaw.enterFault {s : State} (h : CalendarLaw s) : CalendarLaw (enterFault s).st := by
  have hpurged : CalendarLaw (Machine.discardRises (purgeAll s)) := (h.freeSlots _).discardRises
  exact (hpurged.of_ownersOnly (ownersOnly_dropClaims _)).clearOwners.directDrive.withPhase .fault

theorem step_enterReset (s : State) (i : SlotIndex) : (enterReset s).step i = none := by
  have : (enterReset s).slot i = { generation := 0, step := none } := tget_replicate _ i
  rw [State.step, this]

/-- The calendar is empty after reset. -/
theorem calendarLaw_enterReset (s : State) : CalendarLaw (enterReset s) := by
  have hlist : ∀ l, (enterReset s).armedList l = [] := fun l => tget_replicate [] l
  have hdue : (enterReset s).dueList = [] := rfl
  refine ⟨hdue ▸ List.nodup_nil, fun i => ?_, fun l => ?_, fun l i => ?_, fun i st hst => ?_⟩
  · simp [hdue, step_enterReset]
  · simp [hlist]
  · simp [hlist, step_enterReset]
  · rw [step_enterReset] at hst; cases hst

/-- A write of INPUT_LINE touches inputs, filters, subscriptions and latches alone. -/
theorem outsideOnly_writeInputLine (n : InLine) (used : Bool) (filter : Nat) (s : State) :
    OutsideOnly s (writeInputLine n used filter s) := by
  unfold writeInputLine
  extract_lets s'
  have hs' : OutsideOnly s s' := (outsideOnly_withInput _ _ _).trans (outsideOnly_withFilter _ _ _)
  split
  · exact hs'
  · exact hs'.trans (OutsideOnly.foldl (fun t p => outsideOnly_withInputsOf t p _) _ _)

theorem CalendarLaw.writeRecord {s : State} (h : CalendarLaw s) (r : Record) : CalendarLaw (writeRecord r s) := by
  cases r with
  | timebase source divider window => exact h.of_outsideOnly (outsideOnly_withClock s _)
  | outputLine n used safe =>
    have hdriven := h.of_outputsOnly (outputsOnly_driveLine n (configuredLevel { used := used, safe := safe }) s)
    exact hdriven.congr (State.withOutput_slots _ _ _) (State.withOutput_dueList _ _ _) (State.withOutput_armedSet _ _ _)
  | inputLine n used filter => exact h.of_outsideOnly (outsideOnly_writeInputLine n used filter s)
  | pair i c =>
    have hpair : CalendarLaw (s.withPair i c) :=
      h.congr (State.withPair_slots s i c) (State.withPair_dueList s i c) (State.withPair_armedSet s i c)
    exact hpair.of_outputsOnly rfl
  | quota a b c =>
    exact h.congr (State.withQuotas_slots s _) (State.withQuotas_dueList s _) (State.withQuotas_armedSet s _)
  | arbiter mode p q r => exact h.of_ownersOnly (ownersOnly_withArbiter s _)

theorem CalendarLaw.setTime {s : State} (h : CalendarLaw s) (v : Tick) : CalendarLaw (setTime v s) := by
  refine h.congr ?_ ?_ ?_ <;> unfold Machine.setTime <;> rfl

theorem Act.keeps_calendarLaw {s t : State} (act : Act s t) (h : CalendarLaw s) : CalendarLaw t := by
  cases act with
  | outside ho => exact h.of_outsideOnly ho
  | reset => exact calendarLaw_enterReset s
  | setTime v => exact h.setTime v
  | fire => exact h.fireSteps _
  | edge e => exact h.serveEdge e
  | place => exact h.placeWork _ _
  | move _ _ hd => exact h.moved _ hd
  | free i => exact h.freeSlot i
  | mark _ i => exact h.markReached i
  | guardEnd _ k => exact h.of_outputsOnly (outputsOnly_endGuard s k)
  | fallRecordEnd _ k => exact h.of_outputsOnly (outputsOnly_endFallRecord s k)
  | holdEnd w k => exact h.of_outputsOnly (outputsOnly_holdEnd w k)
  | claimed p => exact h.of_ownersOnly (ownersOnly_grantLines p _ s)
  | queued p => exact h.of_ownersOnly (ownersOnly_withClaim s p _)
  | withdrawn p => exact h.of_ownersOnly (ownersOnly_withClaim s p none)
  | turn w p => exact h.of_ownersOnly (ownersOnly_arbiterTurn w p)
  | released => exact ((h.setOwners _ none).trim _ _).of_outputsOnly (outputsOnly_surrender _ _)
  | freed p => exact ((h.setOwners _ none).freeSlots _).of_outputsOnly (outputsOnly_surrender _ _)
  | started => exact h.withPhase .run
  | stopped => exact h.stopWork _
  | faultCleared => exact h.withPhase .setup
  | faulted => exact h.enterFault
  | written => exact h.writeRecord _

/-- Settles O53: every act keeps the law, since a step that leaves a collection is freed or enters the one its record names. -/
theorem everyStepKeepsTheCalendarLaw : Obligations.EveryStepKeepsTheCalendarLaw :=
  fun _ _ h hstep => step_keeps (fun _ _ act => act.keeps_calendarLaw) h hstep

end Sys2Proof.Machine
end

/-! ## The ownership laws

Outside RUN the device rests: nothing is owned, scheduled, waiting or deferred, and the used lines stand at their safe
levels. There an act finds nothing to work on. In RUN the laws are about owners, steps, claims and quotas, and an act may take lines of a step
only with the step's claim to them. -/

section
namespace Sys2Proof.Machine

/-! ### The laws together, outside RUN and in it -/

/-- The laws of ownership and what they need of one another. -/
structure Ownership (s : State) : Prop where
  idle : IdleLaw s
  safe : SafeLevelLaw s
  lines : StepLineLaw s
  owners : OwnerLaw s
  quota : QuotaLaw s
  rank : RankLaw s

/-- No pair has a deferred rise. -/
def NoDeferred (s : State) : Prop := ∀ k, (s.pairRuntime k).deferred = none

/-- Nothing is owned, scheduled, waiting or deferred, and every used line stands at its safe level. -/
structure Resting (s : State) : Prop where
  owner : ∀ l, s.owner l = none
  step : ∀ i, s.step i = none
  claim : ∀ p, s.claim p = none
  deferred : NoDeferred s
  level : ∀ l, (s.output l).used = true → s.level l = if (s.output l).safe then .one else .zero

section
variable {s t : State}

theorem Ownership.resting (h : Ownership s) (hrun : s.phase ≠ .run) : Resting s := by
  obtain ⟨howner, hstep, hclaim, hdeferred⟩ := h.idle hrun
  exact ⟨howner, hstep, hclaim, hdeferred, h.safe hrun⟩

/-- A port without a step is within its quota. -/
theorem stepCount_of_no_step (h : ∀ i, s.step i = none) (p : Port) : s.stepCount p = 0 := by
  rw [State.stepCount, List.countP_eq_zero]
  intro i _
  simp [State.ownsStep, h i]

/-- At rest, the laws ask only that the quotas and the rank are in order. -/
theorem Resting.ownership (h : Resting s) (hsum : s.quota .a + s.quota .b + s.quota .c ≤ 64) (hrank : RankLaw s) :
    Ownership s where
  idle _ := ⟨h.owner, h.step, h.claim, h.deferred⟩
  safe _ := h.level
  lines i st hst := by rw [h.step i] at hst; cases hst
  owners := ⟨fun l hl => absurd (h.owner l) hl, fun p c l hc => by rw [h.claim p] at hc; cases hc⟩
  quota := ⟨fun p => by rw [stepCount_of_no_step h.step]; exact Nat.zero_le _, hsum⟩
  rank := hrank

/-- In RUN, the laws ask nothing of levels and deferred rises. -/
theorem Ownership.of_running (hrun : s.phase = .run) (lines : StepLineLaw s) (owners : OwnerLaw s) (quota : QuotaLaw s)
    (rank : RankLaw s) : Ownership s :=
  ⟨fun h => absurd hrun h, fun h => absurd hrun h, lines, owners, quota, rank⟩

theorem Ownership.of_outsideOnly (h : Ownership s) (ho : OutsideOnly s t) : Ownership t := by
  unfold OutsideOnly at ho
  rw [ho]
  exact ⟨h.idle, h.safe, h.lines, h.owners, h.quota, h.rank⟩

/-! ### Steps that keep their lines -/

/-- Every step of `t` stands in its slot in `s` already, with the same owner, bank and masks. -/
def StepsFrom (s t : State) : Prop := ∀ i st', t.step i = some st' → ∃ st, s.step i = some st ∧ st'.SameLines st

theorem StepsFrom.of_eq (h : ∀ i, t.step i = s.step i) : StepsFrom s t := fun i st' hst' =>
  ⟨st', h i ▸ hst', .refl st'⟩

theorem StepsFrom.refl (s : State) : StepsFrom s s := .of_eq fun _ => rfl

/-- Steps named no lines before that they do not name now, so their owners still own them. -/
theorem StepLineLaw.of_stepsFrom (h : StepLineLaw s) (hs : StepsFrom s t) (howner : t.owner = s.owner) : StepLineLaw t := by
  intro i st' hst'
  obtain ⟨st, hst, same⟩ := hs i st' hst'
  rw [same.setMask, same.clearMask, same.bank, same.owner, howner]
  exact h i st hst

/-- A port owns no step that it did not own before. -/
theorem stepCount_le (h : ∀ p i, t.ownsStep p i = true → s.ownsStep p i = true) (p : Port) :
    t.stepCount p ≤ s.stepCount p :=
  List.countP_mono_left fun i _ => h p i

theorem StepsFrom.ownsStep (hs : StepsFrom s t) {p : Port} {i : SlotIndex} (h : t.ownsStep p i = true) :
    s.ownsStep p i = true := by
  unfold State.ownsStep at *
  split at h
  · next st' hst' =>
    obtain ⟨st, hst, same⟩ := hs i st' hst'
    rw [hst]
    change (st.owner == p) = true
    rwa [← same.owner]
  · cases h

theorem QuotaLaw.of_le (h : QuotaLaw s) (hcount : ∀ p, t.stepCount p ≤ s.stepCount p) (hquota : t.quota = s.quota) :
    QuotaLaw t := by
  obtain ⟨hle, hsum⟩ := h
  refine ⟨fun p => ?_, hquota ▸ hsum⟩
  rw [hquota]
  exact (hcount p).trans (hle p)

/-- `t` differs from `s` in the calendar, the levels and the pair runtimes alone. -/
def WorkOnly (s t : State) : Prop :=
  t = { s with
        slots := t.slots, dueList := t.dueList, armedSet := t.armedSet, armedThisTick := t.armedThisTick
        latch := t.latch, runtime := t.runtime }

theorem WorkOnly.of_calendarOnly (h : CalendarOnly s t) : WorkOnly s t := by
  unfold WorkOnly CalendarOnly at *
  rw [h]

theorem WorkOnly.of_outputsOnly (h : OutputsOnly s t) : WorkOnly s t := by
  unfold WorkOnly OutputsOnly at *
  rw [h]

theorem WorkOnly.trans {u : State} (h : WorkOnly s t) (h' : WorkOnly t u) : WorkOnly s u := by
  unfold WorkOnly at *
  rw [h', h]

theorem WorkOnly.of_slotsOnly (h : t = { s with slots := t.slots }) : WorkOnly s t := by
  unfold WorkOnly
  rw [h]

/-- What the laws read of a state besides its steps, levels and pair runtimes. -/
structure SameRights (s t : State) : Prop where
  phase : t.phase = s.phase
  owner : t.owner = s.owner
  output : t.output = s.output
  claim : t.claim = s.claim
  quota : t.quota = s.quota
  arbiter : t.arbiter = s.arbiter

theorem WorkOnly.sameRights (h : WorkOnly s t) : SameRights s t := by
  unfold WorkOnly at h
  rw [h]
  exact ⟨rfl, rfl, rfl, rfl, rfl, rfl⟩

theorem RankLaw.congr (h : RankLaw s) (harbiter : t.arbiter = s.arbiter) : RankLaw t := by
  unfold RankLaw at *
  rwa [harbiter]

theorem OwnerLaw.congr (h : OwnerLaw s) (howner : t.owner = s.owner) (houtput : t.output = s.output)
    (hclaim : t.claim = s.claim) : OwnerLaw t := by
  unfold OwnerLaw at *
  rwa [howner, houtput, hclaim]

theorem OutputsOnly.step (h : OutputsOnly s t) (i : SlotIndex) : t.step i = s.step i := by
  unfold OutputsOnly at h
  rw [h]; rfl

theorem OwnersOnly.step (h : OwnersOnly s t) (i : SlotIndex) : t.step i = s.step i := by
  unfold OwnersOnly at h
  rw [h]; rfl

/-- Work that gives no step other lines keeps the laws, when outside RUN it moves no level and defers no rise. -/
theorem Ownership.of_work (h : Ownership s) (frame : WorkOnly s t) (steps : StepsFrom s t)
    (rest : s.phase ≠ .run → t.latch = s.latch ∧ NoDeferred t) : Ownership t := by
  obtain ⟨hphase, howner, houtput, hclaim, hquota, harbiter⟩ := frame.sameRights
  have hrank : RankLaw t := h.rank.congr harbiter
  by_cases hrun : s.phase = .run
  · exact .of_running (hphase.trans hrun) (h.lines.of_stepsFrom steps howner)
      (h.owners.congr howner houtput hclaim) (h.quota.of_le (stepCount_le fun p i => steps.ownsStep) hquota) hrank
  · have hs := h.resting hrun
    obtain ⟨hlatch, hdeferred⟩ := rest hrun
    have hlevel : t.level = s.level := by funext l; simp [State.level, hlatch]
    refine Resting.ownership ⟨howner ▸ hs.owner, fun i => ?_, hclaim ▸ hs.claim, hdeferred, ?_⟩
      (hquota ▸ h.quota.2) hrank
    · cases hst : t.step i with
      | none => rfl
      | some st' =>
        obtain ⟨st, hst, _⟩ := steps i st' hst
        rw [hs.step i] at hst; cases hst
    · rw [houtput, hlevel]; exact hs.level

theorem Ownership.of_calendarOnly (h : Ownership s) (frame : CalendarOnly s t) (steps : StepsFrom s t) : Ownership t :=
  h.of_work (.of_calendarOnly frame) steps fun hrun => by
    unfold CalendarOnly at frame
    exact ⟨by rw [frame], by rw [frame]; exact (h.resting hrun).deferred⟩

theorem Ownership.of_outputsOnly (h : Ownership s) (frame : OutputsOnly s t)
    (rest : NoDeferred s → t.latch = s.latch ∧ NoDeferred t) : Ownership t :=
  h.of_work (.of_outputsOnly frame)
    (.of_eq frame.step)
    fun hrun => rest (h.resting hrun).deferred

end

/-! ### Calendar acts -/

section
variable {s₀ s : State}

/-- A slot takes a record with the lines of the step that stood there. -/
theorem StepsFrom.of_slot {t : State} {i : SlotIndex} {st : StepRecord} (h : StepsFrom s₀ s) (hst : s₀.step i = some st)
    (hother : ∀ j, j ≠ i → t.step j = s.step j) (hi : ∀ st', t.step i = some st' → st'.SameLines st) :
    StepsFrom s₀ t := by
  intro j st' hst'
  by_cases hj : j = i
  · subst hj; exact ⟨st, hst, hi st' hst'⟩
  · exact h j st' (hother j hj ▸ hst')

theorem stepsFrom_freeSlot (i : SlotIndex) (s : State) : StepsFrom s (freeSlot i s) := by
  intro j st' hst'
  rw [step_freeSlot] at hst'
  split at hst'
  · cases hst'
  · exact ⟨st', hst', .refl st'⟩

/-- A firing leaves a step with the lines of its record, or frees it. -/
theorem sameLines_settleSlot {i : SlotIndex} {st st' : StepRecord} {x : Settled}
    (h : (settleSlot i st x s).step i = some st') : st'.SameLines st := by
  unfold settleSlot at h
  split at h
  · rw [step_enterDue, step_putStep_self] at h
    cases h; exact ⟨rfl, rfl, rfl, rfl⟩
  · split at h
    · simp at h
    · rw [step_enterArmed, step_putStep_self] at h
      cases h; exact ⟨rfl, rfl, rfl, rfl⟩
  · simp at h

theorem StepRecord.SameLines.trans {a b c : StepRecord} (h : a.SameLines b) (h' : b.SameLines c) : a.SameLines c :=
  ⟨h.owner.trans h'.owner, h.bank.trans h'.bank, h.setMask.trans h'.setMask, h.clearMask.trans h'.clearMask⟩

theorem StepsFrom.settleSlot {i : SlotIndex} {st r : StepRecord} (h : StepsFrom s₀ s) (hst : s₀.step i = some st)
    (same : r.SameLines st) (x : Settled) : StepsFrom s₀ (settleSlot i r x s) :=
  h.of_slot hst (fun j hj => by simp only [State.step, slot_settleSlot_ne hj])
    fun _ hst' => (sameLines_settleSlot hst').trans same

/-- A step moves to the due list with a record of the same lines. -/
theorem StepsFrom.moved {i : SlotIndex} {st r : StepRecord} (h : StepsFrom s₀ s) (hst : s₀.step i = some st)
    (same : r.SameLines st) : StepsFrom s₀ (enterDue i (putStep i r (leave i s))) :=
  h.of_slot hst (fun j hj => by simp [hj]) fun st' hst' => by
    rw [step_enterDue, step_putStep_self] at hst'
    cases hst'; exact same

theorem StepsFrom.settleAll {fs : List Firing} (h : StepsFrom s₀ s)
    (hfs : ∀ f ∈ fs, ∃ st, s₀.step f.slot = some st ∧ f.record.SameLines st) : StepsFrom s₀ (settleAll fs s) := by
  unfold Machine.settleAll
  induction fs generalizing s with
  | nil => exact h
  | cons f fs ih =>
    obtain ⟨⟨st, hst, same⟩, hfs⟩ := List.forall_mem_cons.mp hfs
    exact ih (h.settleSlot hst same _) hfs

end

/-- A step's reached marker leaves its lines. -/
theorem stepsFrom_markReached (s : State) (i : SlotIndex) : StepsFrom s (markReached s i) := by
  unfold markReached
  split
  · exact .refl s
  next st' hmark =>
  unfold markedNow at hmark
  split at hmark
  · cases hmark
  next st hst =>
  have same : st'.SameLines st := by
    split at hmark
    · split at hmark
      · split at hmark
        · cases hmark; exact ⟨rfl, rfl, rfl, rfl⟩
        · cases hmark
      · cases hmark
    · cases hmark
  refine (StepsFrom.refl s).of_slot hst (fun j hj => by simp [hj]) fun x hx => ?_
  rw [step_putStep_self] at hx
  cases hx; exact same

theorem calendarOnly_markReached (s : State) (i : SlotIndex) : CalendarOnly s (markReached s i) := by
  unfold markReached
  split
  · exact .refl s
  · exact calendarOnly_putStep _ _ _

/-! ### Firings and edges -/

/-- A bank firing of no step does nothing. -/
theorem fireBank_nil (w : Work) (k : Bank) : (fireBank [] w k).st = w.st := by
  have hset : ∀ m : Merge, everyPosition.foldl (applySet k []) m = m := fun m =>
    List.foldl_fixed' (fun _ => rfl) everyPosition
  have hclear : everyPosition.filter (clears []) = [] := List.filter_eq_nil_iff.mpr fun _ _ => Bool.false_ne_true
  simp only [fireBank, applyBank, List.filter_nil, hset, hclear, List.foldl_nil]

theorem fireBanks_nil (w : Work) : (everyBank.foldl (fireBank []) w).st = w.st := by
  simp only [everyBank, List.foldl_cons, List.foldl_nil, fireBank_nil]

/-- Bank firings touch no slot. -/
theorem step_fireBanks (fs : List Firing) (w : Work) (i : SlotIndex) :
    (everyBank.foldl (fireBank fs) w).st.step i = w.st.step i :=
  (outputsOnly_fireBanks fs w).step i

theorem Ownership.fireSteps {s : State} (h : Ownership s) {fs : List Firing}
    (hfs : ∀ f ∈ fs, ∃ st, s.step f.slot = some st ∧ f.record.SameLines st) : Ownership (fireSteps fs s).st := by
  have steps := (StepsFrom.refl s).settleAll hfs
  refine h.of_work (fireSteps_frame fs s) (fun i st' hst' => steps i st' ?_) fun hrun => ?_
  · rwa [Machine.fireSteps, step_fireBanks] at hst'
  · have hs := h.resting hrun
    have hnil : fs = [] := List.eq_nil_iff_forall_not_mem.mpr fun f hf => by
      obtain ⟨st, hst, _⟩ := hfs f hf
      rw [hs.step] at hst; cases hst
    have heq : (Machine.fireSteps [] s).st = s := fireBanks_nil (Work.of s)
    rw [hnil, heq]
    exact ⟨rfl, hs.deferred⟩

/-- A triggered step stands in its slot, and keeps its lines. -/
theorem sameLines_triggerOf {s : State} {e : Edge} {i : SlotIndex} {t : Triggered} (h : triggerOf s e i = some t) :
    ∃ st, s.step t.slot = some st ∧ t.record.SameLines st := by
  obtain ⟨⟨st, a⟩, hmatch, rfl⟩ := Option.map_eq_some_iff.mp h
  unfold matched at hmatch
  split at hmatch
  · cases hmatch
  next st' hst =>
  split at hmatch
  · split at hmatch
    · cases hmatch; exact ⟨_, hst, rfl, rfl, rfl, rfl⟩
    · cases hmatch
  · cases hmatch

theorem calendarOnly_enterTriggered (s : State) (t : Triggered) : CalendarOnly s (enterTriggered s t) := by
  unfold enterTriggered
  split
  · exact ((calendarOnly_leave _ _).trans (calendarOnly_putStep _ _ _)).trans (calendarOnly_enterDue _ _)
  · exact calendarOnly_settleSlot _ _ _ _

theorem StepsFrom.enterAllTriggered {s₀ s : State} {ts : List Triggered} (h : StepsFrom s₀ s)
    (hts : ∀ t ∈ ts, ∃ st, s₀.step t.slot = some st ∧ t.record.SameLines st) :
    StepsFrom s₀ (ts.foldl enterTriggered s) := by
  induction ts generalizing s with
  | nil => exact h
  | cons t ts ih =>
    obtain ⟨⟨st, hst, same⟩, hts⟩ := List.forall_mem_cons.mp hts
    refine ih ?_ hts
    unfold enterTriggered
    split
    · exact h.moved hst same
    · exact h.settleSlot hst same _

theorem Ownership.serveEdge {s : State} (h : Ownership s) (e : Edge) : Ownership (serveEdge e s).st := by
  have hts : ∀ t ∈ (s.armedList e.line).filterMap (triggerOf s e),
      ∃ st, s.step t.slot = some st ∧ t.record.SameLines st := fun t ht => by
    obtain ⟨i, _, hi⟩ := List.mem_filterMap.mp ht
    exact sameLines_triggerOf hi
  unfold Machine.serveEdge
  generalize (s.armedList e.line).filterMap (triggerOf s e) = ts at hts
  have steps := (StepsFrom.refl s).enterAllTriggered hts
  refine h.of_work (.trans (.of_calendarOnly (.foldl calendarOnly_enterTriggered ts s))
    (.of_outputsOnly (outputsOnly_fireBanks _ _))) (fun i st' hst' => steps i st' ?_) fun hrun => ?_
  · rwa [step_fireBanks] at hst'
  · have hs := h.resting hrun
    have hnil : ts = [] := List.eq_nil_iff_forall_not_mem.mpr fun t ht => by
      obtain ⟨st, hst, _⟩ := hts t ht
      rw [hs.step] at hst; cases hst
    subst hnil
    have heq : (everyBank.foldl (fireBank []) (Work.of s)).st = s := fireBanks_nil (Work.of s)
    simp only [List.filter_nil, List.map_nil, List.foldl_nil, heq]
    exact ⟨trivial, hs.deferred⟩

/-! ### Placements -/

/-- What the checks of one descriptor say of it (R21 to R23). -/
theorem checkDescriptor_ok {s : State} {p : Port} {i : Nat} {raw : RawDescriptor} {d : Descriptor}
    (h : checkDescriptor s p i raw = .ok d) :
    readDescriptor raw (fun l => (s.input l).used) = some d ∧ ownsMasks s p d = true ∧ quotaAllows s p i = true := by
  unfold checkDescriptor at h
  split at h
  · cases h
  next d' hread =>
  split at h
  · cases h
  next hown =>
  split at h
  · cases h
  next hquota =>
  split at h
  · cases h
  · cases h
    exact ⟨hread, by simpa using hown, by simpa using hquota⟩

/-- The masks of a descriptor that is read name a line, and no line twice (R21). -/
theorem masks_of_readDescriptor {raw : RawDescriptor} {used : InLine → Bool} {d : Descriptor}
    (h : readDescriptor raw used = some d) : d.setMask ||| d.clearMask ≠ 0 ∧ d.setMask &&& d.clearMask = 0 := by
  unfold readDescriptor at h
  split at h
  · split at h
    · cases h
    next hmasks =>
    rw [ite_eq_iff] at h
    obtain ⟨_, h⟩ | ⟨_, h⟩ := h
    · cases h
    rw [ite_eq_iff] at h
    obtain ⟨_, h⟩ | ⟨_, h⟩ := h
    · cases h
    cases h
    exact ⟨fun h0 => hmasks (.inr h0), not_ne_iff.mp fun h0 => hmasks (.inl h0)⟩
  · cases h

/-- R22: every line of the masks is the sender's. -/
theorem owner_of_ownsMasks {s : State} {p : Port} {d : Descriptor} (h : ownsMasks s p d = true) {j : Position}
    (hj : inMask (d.setMask ||| d.clearMask) j = true) : s.owner (lineAt d.bank j) = some p := by
  have hzero := mask_eq_zero.mp (beq_iff_eq.mp h) j
  simpa [hj] using hzero

/-- Every accepted descriptor has passed the checks, and the last one the quota's with all before it (R23, R25). -/
theorem checkDescriptors_ok {s : State} {p : Port} {i : Nat} {raws : List RawDescriptor} {ds : List Descriptor}
    (h : checkDescriptors s p i raws = .ok ds) :
    (∀ d ∈ ds, (d.setMask ||| d.clearMask ≠ 0 ∧ d.setMask &&& d.clearMask = 0) ∧ ownsMasks s p d = true)
      ∧ (ds ≠ [] → s.stepCount p + i + ds.length ≤ s.quota p) := by
  induction raws generalizing i ds with
  | nil => cases h; simp
  | cons raw raws ih =>
    unfold checkDescriptors at h
    split at h
    · cases h
    next d hd =>
    split at h
    · cases h
    next ds' hds =>
    cases h
    obtain ⟨hread, hown, hquota⟩ := checkDescriptor_ok hd
    obtain ⟨hmasks, hcount⟩ := ih hds
    refine ⟨List.forall_mem_cons.mpr ⟨⟨masks_of_readDescriptor hread, hown⟩, hmasks⟩, fun _ => ?_⟩
    have hone : s.stepCount p + i + 1 ≤ s.quota p := by simp [quotaAllows] at hquota; exact hquota.1
    by_cases hnil : ds' = []
    · subst hnil; exact hone
    · have := hcount hnil
      simp only [List.length_cons]; omega

/-- The step count is the number of the port's slots. -/
theorem length_slotsOf (s : State) (p : Port) : (s.slotsOf p).length = s.stepCount p :=
  List.countP_eq_length_filter.symm

/-- Of the slots of a placement, the port owns the ones it owned and the ones it has taken. -/
theorem Taken.stepCount_le {p : Port} {ds : List Descriptor} {s t : State} {xs : List (SlotIndex × StepRecord)}
    (h : Taken p ds s xs t) (q : Port) : t.stepCount q ≤ s.stepCount q + if q = p then ds.length else 0 := by
  have howned : ∀ i, t.ownsStep q i = true → s.ownsStep q i = true ∨ (q = p ∧ i ∈ xs.map Prod.fst) := by
    intro i hi
    by_cases hmem : i ∈ xs.map Prod.fst
    · obtain ⟨x, hx, rfl⟩ := List.mem_map.mp hmem
      obtain ⟨d, _, hd⟩ := h.records x hx
      rw [State.ownsStep, h.holds x hx, hd] at hi
      exact .inr ⟨(beq_iff_eq.mp hi).symm, hmem⟩
    · rw [State.ownsStep, h.others i hmem] at hi
      exact .inl hi
  by_cases hq : q = p
  · have hsub : t.slotsOf q ⊆ s.slotsOf q ++ xs.map Prod.fst := fun i hi => by
      obtain ⟨hevery, hi⟩ := List.mem_filter.mp hi
      rcases howned i hi with hs | ⟨_, hx⟩
      · exact List.mem_append_left _ (List.mem_filter.mpr ⟨hevery, hs⟩)
      · exact List.mem_append_right _ hx
    have hle : (t.slotsOf q).length ≤ _ := (List.subperm_of_subset (everySlot_nodup.filter _) hsub).length_le
    rw [List.length_append, List.length_map, length_slotsOf, length_slotsOf] at hle
    rw [if_pos hq]
    exact hle.trans (Nat.add_le_add_left h.count _)
  · rw [if_neg hq]
    exact List.countP_mono_left fun i _ hi => (howned i hi).resolve_right fun hx => hq hx.1

/-- The steps of a placement that has passed the checks stand under the laws. -/
theorem Ownership.taken {p : Port} {raws : List RawDescriptor} {ds : List Descriptor} {s t : State}
    {xs : List (SlotIndex × StepRecord)} (h : Ownership s) (hrun : s.phase = .run)
    (hds : checkDescriptors s p 0 raws = .ok ds) (ht : Taken p ds s xs t) : Ownership t := by
  obtain ⟨hmasks, hcount⟩ := checkDescriptors_ok hds
  obtain ⟨hquota, hsum⟩ := h.quota
  obtain ⟨hphase, howner, houtput, hclaim, hquotas, harbiter⟩ := (WorkOnly.of_slotsOnly ht.frame).sameRights
  refine .of_running (hphase.trans hrun) (fun i st hst => ?_) (h.owners.congr howner houtput hclaim)
    ⟨fun q => ?_, hquotas ▸ hsum⟩ (h.rank.congr harbiter)
  · rw [howner]
    by_cases hi : i ∈ xs.map Prod.fst
    · obtain ⟨x, hx, rfl⟩ := List.mem_map.mp hi
      obtain ⟨d, hd, hrec⟩ := ht.records x hx
      rw [ht.holds x hx, hrec] at hst; cases hst
      obtain ⟨hlines, hown⟩ := hmasks d hd
      exact ⟨hlines.1, hlines.2, fun j hj => owner_of_ownsMasks hown hj⟩
    · exact h.lines i st (ht.others i hi ▸ hst)
  · have hle := ht.stepCount_le q
    rw [hquotas]
    by_cases hq : q = p
    · subst hq
      rw [if_pos rfl] at hle
      by_cases hnil : ds = []
      · subst hnil; exact hle.trans (hquota q)
      · have := hcount hnil; omega
    · rw [if_neg hq] at hle
      exact hle.trans (hquota q)

theorem calendarOnly_enterPlaced (s : State) (x : SlotIndex × StepRecord) : CalendarOnly s (enterPlaced s x) := by
  unfold enterPlaced
  split
  · exact calendarOnly_settleSlot _ _ _ _
  · split
    · exact calendarOnly_enterArmed _ _ _
    · exact calendarOnly_enterDue _ _

theorem StepsFrom.enterAllPlaced {s₀ s : State} {xs : List (SlotIndex × StepRecord)} (h : StepsFrom s₀ s)
    (holds : ∀ x ∈ xs, s₀.step x.1 = some x.2) : StepsFrom s₀ (xs.foldl enterPlaced s) := by
  induction xs generalizing s with
  | nil => exact h
  | cons x xs ih =>
    obtain ⟨hx, holds⟩ := List.forall_mem_cons.mp holds
    refine ih ?_ holds
    unfold enterPlaced
    split
    · exact h.settleSlot hx (.refl x.2) _
    · split <;> exact h

theorem Ownership.placeWork {p : Port} {raws : List RawDescriptor} {ds : List Descriptor} {s : State} (h : Ownership s)
    (hrun : s.phase = .run) (hds : checkDescriptors s p 0 raws = .ok ds) : Ownership (placeWork p ds s).st := by
  have ht := taken_takeSlots p ds s
  have hu := h.taken hrun hds ht
  have hphase : (takeSlots p ds s).2.phase = .run := by rw [ht.frame]; exact hrun
  have steps := (StepsFrom.refl (takeSlots p ds s).2).enterAllPlaced ht.holds
  unfold Machine.placeWork
  refine hu.of_work (.trans (.of_calendarOnly (.foldl calendarOnly_enterPlaced _ _))
    (.of_outputsOnly (outputsOnly_fireBanks _ _))) (fun i st' hst' => steps i st' ?_) fun hrest => absurd hphase hrest
  rwa [step_fireBanks] at hst'

/-! ### The interlock at rest -/

/-- Without deferred rises, a fall moves its own line alone. -/
theorem fallLine_of_noDeferred {s : State} (h : NoDeferred s) (l : OutLine) :
    (fallLine l s).latch = (s.withLevel l .zero).latch ∧ NoDeferred (fallLine l s) := by
  unfold fallLine
  dsimp only
  split
  · exact ⟨rfl, h⟩
  · next k _ =>
    have hk : ∀ g : Option Guard, ∀ f : Option FallRecord, ∀ x : OutLine,
        ({ (s.withLevel l .zero).pairRuntime k with fall := f, guard := g } : PairRuntime).defers x = false := by
      intro g f x
      simp [PairRuntime.defers, h k]
    unfold recordFall
    dsimp only
    rw [if_neg (by rw [hk]; simp)]
    refine ⟨rfl, fun j => ?_⟩
    rw [State.pairRuntime_withRuntime]
    split
    · exact h k
    · exact h j

/-- Without deferred rises, a direct drive moves its own line alone. -/
theorem driveLine_of_noDeferred {s : State} (h : NoDeferred s) (l : OutLine) (v : Level) :
    (∀ j, (driveLine l v s).level j = if j = l then v else s.level j) ∧ NoDeferred (driveLine l v s) := by
  unfold driveLine
  split
  · next hv =>
    obtain ⟨hlatch, hd⟩ := fallLine_of_noDeferred h l
    refine ⟨fun j => ?_, hd⟩
    rw [State.level, hlatch, hv.1]
    exact State.level_withLevel s l j .zero
  · exact ⟨fun j => State.level_withLevel s l j v, h⟩

theorem output_driveSafe (s : State) (l j : OutLine) : (driveSafe s l).output j = s.output j := by
  unfold driveSafe
  split
  · have h := outputsOnly_driveLine l (configuredLevel (s.output l)) s
    unfold OutputsOnly at h
    rw [h]; rfl
  · rfl

theorem driveSafe_of_noDeferred {s : State} (h : NoDeferred s) (l : OutLine) :
    (∀ j, (driveSafe s l).level j
      = if j = l ∧ (s.output j).used = true then configuredLevel (s.output j) else s.level j)
      ∧ NoDeferred (driveSafe s l) := by
  unfold driveSafe
  split
  · next hused =>
    obtain ⟨hlevel, hd⟩ := driveLine_of_noDeferred h l (configuredLevel (s.output l))
    refine ⟨fun j => ?_, hd⟩
    rw [hlevel]
    by_cases hj : j = l
    · subst hj; simp [hused]
    · simp [hj]
  · next hunused =>
    refine ⟨fun j => (if_neg ?_).symm, h⟩
    rintro ⟨rfl, hused⟩
    exact hunused hused

/-- Without deferred rises, a direct drive of some lines gives the used ones among them their safe levels. -/
theorem driveSafes_of_noDeferred {s : State} (h : NoDeferred s) (ls : List OutLine) :
    (∀ j, (ls.foldl driveSafe s).level j
      = if j ∈ ls ∧ (s.output j).used = true then configuredLevel (s.output j) else s.level j)
      ∧ NoDeferred (ls.foldl driveSafe s) := by
  induction ls generalizing s with
  | nil => exact ⟨fun j => by simp, h⟩
  | cons l ls ih =>
    obtain ⟨hone, hd⟩ := driveSafe_of_noDeferred h l
    obtain ⟨hlevel, hd⟩ := ih hd
    refine ⟨fun j => ?_, hd⟩
    rw [List.foldl_cons, hlevel, hone, output_driveSafe]
    by_cases hused : (s.output j).used = true
    · by_cases hmem : j ∈ ls <;> simp [hused, hmem]
    · simp [hused]

/-- After a direct drive every used line stands at its safe level (R52). -/
theorem directDrive_of_noDeferred {s : State} (h : NoDeferred s) :
    (∀ j, (s.output j).used = true → (directDrive s).level j = if (s.output j).safe then .one else .zero)
      ∧ NoDeferred (directDrive s) := by
  obtain ⟨hlevel, hd⟩ := driveSafes_of_noDeferred h everyOutLine
  refine ⟨fun j hused => ?_, hd⟩
  rw [directDrive, hlevel, if_pos ⟨mem_everyOutLine j, hused⟩, configuredLevel, if_pos hused]

/-- Without deferred rises, a guard ends and nothing else happens. -/
theorem endGuard_of_noDeferred {s : State} (h : NoDeferred s) (k : PairIndex) :
    (endGuard s k).latch = s.latch ∧ NoDeferred (endGuard s k) := by
  unfold endGuard
  split
  · exact ⟨rfl, h⟩
  · split
    · dsimp only
      rw [if_neg (by simp [PairRuntime.defers, h k])]
      refine ⟨rfl, fun j => ?_⟩
      rw [State.pairRuntime_withRuntime]
      split
      · exact h k
      · exact h j
    · exact ⟨rfl, h⟩

theorem endFallRecord_of_noDeferred {s : State} (h : NoDeferred s) (k : PairIndex) :
    (endFallRecord s k).latch = s.latch ∧ NoDeferred (endFallRecord s k) := by
  unfold endFallRecord
  split
  · refine ⟨rfl, fun j => ?_⟩
    rw [State.pairRuntime_withRuntime]
    split
    · exact h k
    · exact h j
  · exact ⟨rfl, h⟩

theorem holdEnd_of_noDeferred {w : Work} (h : NoDeferred w.st) (k : PairIndex) :
    (holdEnd w k).st.latch = w.st.latch ∧ NoDeferred (holdEnd w k).st := by
  have : holdEndsNow w.st k = false := by simp [holdEndsNow, h k]
  rw [holdEnd, if_neg (by simp [this])]
  exact ⟨rfl, h⟩

/-- A surrender of no line does nothing. -/
theorem surrender_zero (s : State) : surrender 0 s = s := by
  have hdrop : ∀ r : PairRuntime, dropDeferred (fun d => inMask (0 : LineMask) d.line) r = r := fun r => by
    rw [dropDeferred_eq]
    cases r with
    | mk fall guard deferred => cases deferred <;> simp [Option.filter]
  have hdrawn : withdrawOn 0 s = s := by
    have htable : (table fun k => s.pairRuntime k) = s.runtime := table_tget s.runtime
    unfold withdrawOn withdrawRises
    simp only [hdrop, htable]
    rfl
  have hfall : ∀ t l, safeFall 0 t l = t := fun t l => if_neg (by simp)
  have hrise : ∀ t l, safeRise 0 t l = t := fun t l => if_neg (by simp)
  have hbank : ∀ k, safeDriveBank 0 s k = s := fun k => by
    unfold safeDriveBank
    dsimp only
    rw [List.foldl_fixed' (hfall s), List.foldl_fixed' (hrise s)]
  rw [surrender, hdrawn, safeDrive, List.foldl_fixed' hbank]

/-! ### Lines that lose their owner -/

/-- What a trim leaves of a step (R12). -/
def trimmedStep (p : Port) (m : LineMask) (st : StepRecord) : Option StepRecord :=
  if st.owner = p ∧ trimmedLines m st ≠ 0 then
    if (trimStep m st).setMask = 0 ∧ (trimStep m st).clearMask = 0 then none else some (trimStep m st)
  else some st

theorem step_trimSlot (p : Port) (m : LineMask) (s : State) (i : SlotIndex) :
    (trimSlot p m s i).step i = (s.step i).bind (trimmedStep p m) := by
  unfold trimSlot trimmedStep
  split
  · next h => rw [h]; rfl
  next st hst =>
  rw [hst, Option.bind_some]
  split
  · split
    · simp
    · simp
  · exact hst

theorem step_trimSlots {p : Port} {m : LineMask} {is : List SlotIndex} (hn : is.Nodup) (s : State) (j : SlotIndex) :
    (is.foldl (trimSlot p m) s).step j = if j ∈ is then (s.step j).bind (trimmedStep p m) else s.step j := by
  induction is generalizing s with
  | nil => simp
  | cons i is ih =>
    obtain ⟨hi, hn⟩ := List.nodup_cons.mp hn
    rw [List.foldl_cons, ih hn]
    by_cases hj : j = i
    · subst hj; simp [hi, step_trimSlot]
    · have : (trimSlot p m s i).step j = s.step j := by simp only [State.step, slot_trimSlot_ne hj]
      simp [hj, this]

/-- A trim trims every step. -/
theorem step_trim (p : Port) (m : LineMask) (s : State) (j : SlotIndex) :
    (trim p m s).step j = (s.step j).bind (trimmedStep p m) := by
  rw [trim, step_trimSlots everySlot_nodup, if_pos (mem_everySlot j)]

/-- A trimmed step is what it was without the lines of the mask: it names a line, no line twice, and of its owner's steps none of
the lines that are taken. -/
structure TrimmedFrom (p : Port) (m : LineMask) (st st' : StepRecord) : Prop where
  owner : st'.owner = st.owner
  bank : st'.bank = st.bank
  names : st'.setMask ||| st'.clearMask ≠ 0
  apart : st'.setMask &&& st'.clearMask = 0
  sub : ∀ j, inMask (st'.setMask ||| st'.clearMask) j = true → inMask (st.setMask ||| st.clearMask) j = true
  gone : st.owner = p → ∀ j, inMask (st'.setMask ||| st'.clearMask) j = true → inMask m (lineAt st.bank j) = false

theorem trimmedFrom_trimmedStep {p : Port} {m : LineMask} {st st' : StepRecord} (h : trimmedStep p m st = some st')
    (hnames : st.setMask ||| st.clearMask ≠ 0) (hapart : st.setMask &&& st.clearMask = 0) : TrimmedFrom p m st st' := by
  unfold trimmedStep at h
  split at h
  · split at h
    · cases h
    next hleft =>
    cases h
    refine ⟨rfl, rfl, fun h0 => hleft ?_, ?_, fun j hj => ?_, fun _ j hj => ?_⟩
    · have hor := mask_eq_zero.mp h0
      simp only [inMask_or, Bool.or_eq_false_iff] at hor
      exact ⟨mask_eq_zero.mpr fun i => (hor i).1, mask_eq_zero.mpr fun i => (hor i).2⟩
    · refine mask_eq_zero.mpr fun i => ?_
      have hi := mask_eq_zero.mp hapart i
      simp only [trimStep, inMask_and, inMask_not, inMask_bankPart, Bool.and_eq_false_iff] at hi ⊢
      rcases hi with hi | hi
      · exact .inl (.inl hi)
      · exact .inr (.inl hi)
    · simp only [trimStep, inMask_or, inMask_and, Bool.or_eq_true, Bool.and_eq_true] at hj ⊢
      exact hj.imp And.left And.left
    · simp only [trimStep, inMask_or, inMask_and, inMask_not, inMask_bankPart, Bool.or_eq_true, Bool.and_eq_true,
        Bool.not_eq_true'] at hj
      exact hj.elim And.right And.right
  · next hkept =>
    cases h
    refine ⟨rfl, rfl, hnames, hapart, fun _ hj => hj, fun hp j hj => ?_⟩
    have hzero : trimmedLines m st = 0 := by
      by_contra hne
      exact hkept ⟨hp, hne⟩
    have hj' := mask_eq_zero.mp hzero j
    rw [trimmedLines, inMask_and, hj, inMask_bankPart, Bool.true_and] at hj'
    exact hj'

section
variable (m : LineMask) (o : Option Port) (s : State)

@[simp] theorem phase_setOwners : (setOwners m o s).phase = s.phase := State.withOwners_phase s _
@[simp] theorem output_setOwners : (setOwners m o s).output = s.output := funext (State.withOwners_output s _)
@[simp] theorem claim_setOwners : (setOwners m o s).claim = s.claim := funext (State.withOwners_claim s _)
@[simp] theorem quota_setOwners : (setOwners m o s).quota = s.quota := funext (State.withOwners_quota s _)
@[simp] theorem arbiter_setOwners : (setOwners m o s).arbiter = s.arbiter := State.withOwners_arbiter s _
@[simp] theorem step_setOwners : (setOwners m o s).step = s.step := funext (State.withOwners_step s _)

end

/-- Port `p` loses the lines of `m`, which it owns, and every step that stays gives them up: the laws hold in RUN. -/
theorem Ownership.of_lost {s t : State} {p : Port} {m : LineMask} (h : Ownership s) (hrun : s.phase = .run)
    (hm : ∀ l, inMask m l = true → s.owner l = some p) (frame : WorkOnly (setOwners m none s) t)
    (hstep : ∀ i st', t.step i = some st' → ∃ st, s.step i = some st ∧ TrimmedFrom p m st st') : Ownership t := by
  obtain ⟨hphase, howners, houtput, hclaim, hquota, harbiter⟩ := frame.sameRights
  rw [phase_setOwners] at hphase
  rw [output_setOwners] at houtput
  rw [claim_setOwners] at hclaim
  rw [quota_setOwners] at hquota
  rw [arbiter_setOwners] at harbiter
  have howner : ∀ l, t.owner l = if inMask m l then none else s.owner l := fun l => by rw [howners, owner_setOwners]
  refine .of_running (hphase.trans hrun) (fun i st' hst' => ?_) ⟨fun l hl => ?_, fun q c l hc => ?_⟩
    (h.quota.of_le (stepCount_le ?_) hquota) (h.rank.congr harbiter)
  · obtain ⟨st, hst, trimmed⟩ := hstep i st' hst'
    refine ⟨trimmed.names, trimmed.apart, fun j hj => ?_⟩
    obtain ⟨_, _, hlines⟩ := h.lines i st hst
    have hown := hlines j (trimmed.sub j hj)
    have hkept : inMask m (lineAt st.bank j) = false := by
      by_contra hin
      have hp := hm _ (by simpa using hin)
      rw [hown] at hp
      rw [trimmed.gone (Option.some.inj hp) j hj] at hin
      exact hin rfl
    rw [howner, trimmed.bank, trimmed.owner, hkept]
    exact hown
  · rw [howner] at hl
    rw [houtput]
    split at hl
    · exact absurd rfl hl
    · exact h.owners.1 l hl
  · rw [hclaim] at hc
    rw [houtput]
    exact h.owners.2 q c l hc
  · intro q i hi
    unfold State.ownsStep at *
    split at hi
    · next st' hst' =>
      obtain ⟨st, hst, trimmed⟩ := hstep i st' hst'
      rw [hst]
      change (st.owner == q) = true
      rwa [← trimmed.owner]
    · cases hi

theorem setOwners_zero (o : Option Port) (s : State) : setOwners 0 o s = s := by
  have hsame : (fun l => if inMask (0 : LineMask) l = true then o else s.owner l) = fun l => tget s.owners l := by
    funext l; simp [State.owner]
  unfold setOwners
  rw [hsame, table_tget]
  rfl

/-- At rest there is no line to release: nothing happens. -/
theorem freeReleased_of_resting {s : State} (h : Resting s) {p : Port} {m : LineMask}
    (hm : ∀ l, inMask m l = true → s.owner l = some p) : freeReleased p m s = s := by
  have hzero : m = 0 := mask_eq_zero.mpr fun l => by
    by_contra hl
    have := hm l (by simpa using hl)
    rw [h.owner l] at this; cases this
  subst hzero
  have htrim : trim p 0 s = s := List.foldl_fixed' (fun i => by simp [trimSlot, h.step i]) everySlot
  rw [freeReleased, setOwners_zero, htrim, surrender_zero]

theorem freeAll_of_resting {s : State} (h : Resting s) (p : Port) : freeAll p s = s := by
  have hzero : s.ownedMask p = 0 := mask_eq_zero.mpr fun l => by simp [h.owner l]
  have hslots : s.slotsOf p = [] := List.filter_eq_nil_iff.mpr fun i _ => by simp [State.ownsStep, h.step i]
  rw [freeAll, hzero, setOwners_zero, purge, hslots, freeSlots, List.foldl_nil, surrender_zero]

/-! ### RELEASE and the end of a session -/

theorem owner_of_mask_owned {s : State} {p : Port} {m : LineMask} (h : m &&& ~~~(s.ownedMask p) = 0) (l : OutLine)
    (hl : inMask m l = true) : s.owner l = some p := by
  have hzero := mask_eq_zero.mp h l
  simpa [hl] using hzero

theorem Ownership.freeReleased {s : State} {p : Port} {m : LineMask} (h : Ownership s)
    (hm : m &&& ~~~(s.ownedMask p) = 0) : Ownership (freeReleased p m s) := by
  have howned := owner_of_mask_owned hm
  by_cases hrun : s.phase = .run
  · have hdriven : OutputsOnly (trim p m (setOwners m none s)) (Machine.freeReleased p m s) := outputsOnly_surrender _ _
    refine h.of_lost hrun howned (.trans (.of_calendarOnly (calendarOnly_trim p m _)) (.of_outputsOnly hdriven))
      fun i st' hst' => ?_
    rw [hdriven.step, step_trim, step_setOwners] at hst'
    obtain ⟨st, hst, htrimmed⟩ := Option.bind_eq_some_iff.mp hst'
    obtain ⟨hnames, hapart, _⟩ := h.lines i st hst
    exact ⟨st, hst, trimmedFrom_trimmedStep htrimmed hnames hapart⟩
  · rw [freeReleased_of_resting (h.resting hrun) howned]
    exact h

/-- A purge leaves the other ports' steps (R13). -/
theorem step_purge {p : Port} {s : State} {j : SlotIndex} {st : StepRecord} (h : (purge p s).step j = some st) :
    s.step j = some st ∧ st.owner ≠ p := by
  rw [State.step, slot_purge] at h
  split at h
  · cases h
  next hother =>
  refine ⟨h, fun howner => hother ?_⟩
  rw [State.ownsStep, show s.step j = some st from h]
  exact beq_iff_eq.mpr howner

theorem Ownership.freeAll {s : State} (h : Ownership s) (p : Port) : Ownership (freeAll p s) := by
  by_cases hrun : s.phase = .run
  · have hdriven : OutputsOnly (purge p (setOwners (s.ownedMask p) none s)) (Machine.freeAll p s) :=
      outputsOnly_surrender _ _
    refine h.of_lost (p := p) hrun (fun l hl => by simpa using hl)
      (.trans (.of_calendarOnly (calendarOnly_freeSlots _ _)) (.of_outputsOnly hdriven)) fun i st hst => ?_
    rw [hdriven.step] at hst
    obtain ⟨hst, hother⟩ := step_purge hst
    rw [step_setOwners] at hst
    obtain ⟨hnames, hapart, _⟩ := h.lines i st hst
    exact ⟨st, hst, rfl, rfl, hnames, hapart, fun _ hj => hj, fun howner => absurd howner hother⟩
  · rw [freeAll_of_resting (h.resting hrun) p]
    exact h

/-! ### Grants and claims -/

/-- In RUN, lines may find an owner and claims come and go, as long as no line loses its owner and all of them are used. -/
theorem Ownership.of_ownersOnly {s t : State} (h : Ownership s) (hrun : s.phase = .run) (frame : OwnersOnly s t)
    (kept : ∀ l p, s.owner l = some p → t.owner l = some p) (owned : ∀ l, t.owner l ≠ none → (s.output l).used = true)
    (waiting : ∀ p c l, t.claim p = some c → inMask c.mask l = true → (s.output l).used = true) (rank : RankLaw t) :
    Ownership t := by
  have hstep := frame.step
  unfold OwnersOnly at frame
  have hphase : t.phase = s.phase := by rw [frame]
  have houtput : t.output = s.output := by rw [frame]; rfl
  have hquota : t.quota = s.quota := by rw [frame]; rfl
  refine .of_running (hphase.trans hrun) (fun i st hst => ?_) ⟨houtput ▸ owned, houtput ▸ waiting⟩
    (h.quota.of_le (stepCount_le fun p i => (StepsFrom.of_eq hstep).ownsStep) hquota) rank
  obtain ⟨hnames, hapart, hown⟩ := h.lines i st (hstep i ▸ hst)
  exact ⟨hnames, hapart, fun j hj => kept _ _ (hown j hj)⟩

theorem used_of_unusedIn {s : State} {m : LineMask} (h : s.unusedIn m = 0) {l : OutLine} (hl : inMask m l = true) :
    (s.output l).used = true := by
  have hzero := mask_eq_zero.mp h l
  simpa [State.unusedIn, hl] using hzero

/-- A grant of used lines keeps every owner and adds owners of used lines alone. -/
theorem OwnerLaw.owned_grantLines {s : State} (h : OwnerLaw s) {p : Port} {m : LineMask}
    (hm : ∀ l, inMask m l = true → (s.output l).used = true) (l : OutLine) (hl : (grantLines p m s).owner l ≠ none) :
    (s.output l).used = true := by
  rw [owner_grantLines] at hl
  split at hl
  · next hfree => exact hm l hfree.1
  · exact h.1 l hl

theorem owner_grantLines_kept {s : State} {p q : Port} {m : LineMask} {l : OutLine} (h : s.owner l = some q) :
    (grantLines p m s).owner l = some q := by
  rw [owner_grantLines, if_neg (by simp [h]), h]

/-- A grant leaves claims and arbiter to the turn that makes it. -/
theorem claim_grantLines (p : Port) (m : LineMask) (s : State) : (grantLines p m s).claim = s.claim := by
  unfold grantLines withdrawOwnerless withdrawRises
  funext q
  rw [State.withRuntimes_claim, claim_setOwners]

theorem arbiter_grantLines (p : Port) (m : LineMask) (s : State) : (grantLines p m s).arbiter = s.arbiter := by
  unfold grantLines withdrawOwnerless withdrawRises
  rw [State.withRuntimes_arbiter, arbiter_setOwners]

theorem Ownership.grantLines {s : State} (h : Ownership s) (hrun : s.phase = .run) (p : Port) {m : LineMask}
    (hm : ∀ l, inMask m l = true → (s.output l).used = true) : Ownership (grantLines p m s) := by
  have hwaiting : ∀ q c l, (Machine.grantLines p m s).claim q = some c → inMask c.mask l = true →
      (s.output l).used = true := by
    rw [claim_grantLines]
    exact h.owners.2
  exact h.of_ownersOnly hrun (ownersOnly_grantLines p m s) (fun _ _ => owner_grantLines_kept)
    (h.owners.owned_grantLines hm) hwaiting (h.rank.congr (arbiter_grantLines p m s))

/-- A claim is withdrawn, granted or expires: it waits no longer. -/
theorem Ownership.withoutClaim {s : State} (h : Ownership s) (p : Port) : Ownership (s.withClaim p none) := by
  have hwaits : ∀ q c, (s.withClaim p none).claim q = some c → s.claim q = some c := fun q c hc => by
    rw [State.claim_withClaim] at hc
    split at hc
    · cases hc
    · exact hc
  by_cases hrun : s.phase = .run
  · exact h.of_ownersOnly hrun (ownersOnly_withClaim s p none) (fun _ _ => id) h.owners.1
      (fun q c l hc => h.owners.2 q c l (hwaits q c hc)) h.rank
  · have hs := h.resting hrun
    refine Resting.ownership ⟨hs.owner, hs.step, fun q => ?_, hs.deferred, hs.level⟩ h.quota.2 h.rank
    rw [State.claim_withClaim, hs.claim q, ite_self]

theorem Ownership.withClaim {s : State} (h : Ownership s) (hrun : s.phase = .run) (p : Port) {c : Claim}
    (hc : ∀ l, inMask c.mask l = true → (s.output l).used = true) : Ownership (s.withClaim p (some c)) := by
  refine h.of_ownersOnly hrun (ownersOnly_withClaim s p (some c)) (fun _ _ => id) h.owners.1 (fun q c' l hc' => ?_) h.rank
  rw [State.claim_withClaim] at hc'
  split at hc'
  · cases hc'; exact hc l
  · exact h.owners.2 q c' l hc'

/-- A grant moves the pointer and not the rank (R102). -/
theorem rank_granted (a : Arbiter) (p : Port) :
    (a.granted p).first = a.first ∧ (a.granted p).second = a.second ∧ (a.granted p).third = a.third := by
  unfold Arbiter.granted
  split <;> exact ⟨rfl, rfl, rfl⟩

theorem Ownership.granted {s : State} (h : Ownership s) (p : Port) : Ownership (s.withArbiter (s.arbiter.granted p)) := by
  obtain ⟨hfirst, hsecond, hthird⟩ := rank_granted s.arbiter p
  refine ⟨h.idle, h.safe, h.lines, h.owners, h.quota, ?_⟩
  unfold RankLaw
  rw [State.withArbiter_arbiter, hfirst, hsecond, hthird]
  exact h.rank

theorem Ownership.arbiterTurn {w : Work} (h : Ownership w.st) (p : Port) : Ownership (arbiterTurn w p).st := by
  unfold Machine.arbiterTurn
  split
  · exact h
  next c hc =>
  split
  · by_cases hrun : w.st.phase = .run
    · have hgranted := h.grantLines hrun p (fun l => h.owners.2 p c l hc)
      have harbiter : ((Machine.grantLines p c.mask w.st).withClaim p none).arbiter = w.st.arbiter := by
        rw [State.withClaim_arbiter, arbiter_grantLines]
      rw [Work.emit_st]
      exact harbiter ▸ (hgranted.withoutClaim p).granted p
    · rw [(h.resting hrun).claim p] at hc; cases hc
  · exact h

/-! ### Phases -/

theorem expireClaim_st (w : Work) (p : Port) : (expireClaim w p).st = w.st.withClaim p none := by
  unfold expireClaim
  split
  · next hnone =>
    have hset : w.st.claims.set p none = w.st.claims := by
      rw [← hnone, State.claim, PerPort.set_get]
    rw [State.withClaim, hset]
  · rfl

/-- STOP's removal of every waiting claim leaves what the entry into FAULT leaves. -/
theorem expireClaims_st (w : Work) : (everyPort.foldl expireClaim w).st = dropClaims w.st := by
  simp only [everyPort, List.foldl_cons, List.foldl_nil, expireClaim_st]
  rfl

/-- What STOP and the entry into FAULT do once the steps are gone, before they drive the lines: no claim waits, no line is owned
and no rise is deferred. -/
def dispossess (s : State) : State := clearOwners (dropClaims (discardRises s))

theorem owner_dispossess (s : State) (l : OutLine) : (dispossess s).owner l = none := by
  rw [dispossess, clearOwners, State.owner_withOwners, tget_table]

theorem step_dispossess (s : State) (i : SlotIndex) : (dispossess s).step i = s.step i := by
  rw [dispossess, clearOwners, State.withOwners_step, (ownersOnly_dropClaims _).step,
    discardRises, (outputsOnly_withdrawRises _ s).step]

theorem claim_dispossess (s : State) (p : Port) : (dispossess s).claim p = none := by
  rw [dispossess, clearOwners, State.withOwners_claim]
  exact PerPort.get_all none p

theorem noDeferred_dispossess (s : State) : NoDeferred (dispossess s) := fun k => by
  rw [dispossess, clearOwners, State.withOwners_pairRuntime]
  exact deferred_discardRises s k

theorem quota_dispossess (s : State) : (dispossess s).quota = s.quota := funext fun p => by
  rw [dispossess, clearOwners, State.withOwners_quota, dropClaims, discardRises, withdrawRises]
  rfl

theorem arbiter_dispossess (s : State) : (dispossess s).arbiter = s.arbiter := by
  rw [dispossess, clearOwners, State.withOwners_arbiter, dropClaims, discardRises, withdrawRises]
  rfl

/-- With no step left, what STOP and the entry into FAULT do puts the device at rest (R153). -/
theorem resting_directDrive {s : State} (hstep : ∀ i, s.step i = none) (f : Phase) :
    Resting ((directDrive (dispossess s)).withPhase f) := by
  have frame := outputsOnly_directDrive (dispossess s)
  obtain ⟨hlevel, hdeferred⟩ := directDrive_of_noDeferred (noDeferred_dispossess s)
  obtain ⟨_, howner, houtput, hclaim, _, _⟩ := (WorkOnly.of_outputsOnly frame).sameRights
  refine ⟨fun l => ?_, fun i => ?_, fun p => ?_, fun k => ?_, fun l => ?_⟩
  · rw [State.withPhase_owner, howner, owner_dispossess]
  · rw [State.withPhase_step, frame.step, step_dispossess, hstep]
  · rw [State.withPhase_claim, hclaim, claim_dispossess]
  · rw [State.withPhase_pairRuntime, hdeferred]
  · rw [State.withPhase_output, State.withPhase_level, houtput]
    exact hlevel l

theorem Ownership.dispossessed {s t : State} (h : Ownership s) (frame : CalendarOnly s t) (hstep : ∀ i, t.step i = none)
    (f : Phase) : Ownership ((directDrive (dispossess t)).withPhase f) := by
  have driven := (WorkOnly.of_outputsOnly (outputsOnly_directDrive (dispossess t))).sameRights
  have purged := (WorkOnly.of_calendarOnly frame).sameRights
  have hquota : (directDrive (dispossess t)).quota = s.quota :=
    driven.quota.trans ((quota_dispossess t).trans purged.quota)
  have harbiter : (directDrive (dispossess t)).arbiter = s.arbiter :=
    driven.arbiter.trans ((arbiter_dispossess t).trans purged.arbiter)
  refine (resting_directDrive hstep f).ownership ?_ (h.rank.congr ?_)
  · simp only [State.withPhase_quota, hquota]
    exact h.quota.2
  · rw [State.withPhase_arbiter, harbiter]

/-- Where no other port owns a line, no other port has a step (R15). -/
theorem StepLineLaw.step_purge {s : State} (h : StepLineLaw s) {p : Port} (hothers : s.ownedByOthers p = 0)
    (i : SlotIndex) : (purge p s).step i = none := by
  cases hpurged : (purge p s).step i with
  | none => rfl
  | some st =>
    obtain ⟨hst, hother⟩ := Machine.step_purge hpurged
    obtain ⟨hnames, _, hown⟩ := h i st hst
    obtain ⟨j, hj⟩ := mask_ne_zero.mp hnames
    have hzero := mask_eq_zero.mp hothers (lineAt st.bank j)
    simp [State.ownedByOthers, hown j hj, hother] at hzero

theorem step_purgeAll (s : State) (i : SlotIndex) : (purgeAll s).step i = none := by
  rw [State.step, slot_purgeAll]
  split
  · rfl
  next hfree => exact Option.not_isSome_iff_eq_none.mp hfree

theorem Ownership.stopWork {s : State} (h : Ownership s) {p : Port} (hothers : s.ownedByOthers p = 0) :
    Ownership (stopWork p s).st := by
  unfold Machine.stopWork Work.tellPhase Work.emitOpen
  dsimp only
  rw [expireClaims_st]
  exact h.dispossessed (calendarOnly_freeSlots _ s) (h.lines.step_purge hothers) .setup

theorem Ownership.enterFault {s : State} (h : Ownership s) : Ownership (enterFault s).st :=
  h.dispossessed (calendarOnly_freeSlots _ s) (step_purgeAll s) .fault

theorem Ownership.started {s : State} (h : Ownership s) : Ownership (s.withPhase .run) :=
  .of_running rfl h.lines h.owners h.quota h.rank

theorem Ownership.faultCleared {s : State} (h : Ownership s) (hfault : s.phase = .fault) :
    Ownership (s.withPhase .setup) := by
  have hs := h.resting (by rw [hfault]; exact Phase.noConfusion)
  exact Resting.ownership ⟨hs.owner, hs.step, hs.claim, hs.deferred, hs.level⟩ h.quota.2 h.rank

/-- The laws hold after reset. -/
theorem ownership_enterReset (s : State) : Ownership (enterReset s) := by
  have hunused : ∀ l, ((enterReset s).output l).used = false := fun l => by
    have : (enterReset s).output l = { used := false, safe := false } := tget_replicate _ l
    rw [this]
  refine Resting.ownership ⟨fun l => tget_replicate none l, step_enterReset s, fun p => PerPort.get_all none p,
    fun k => ?_, fun l hused => ?_⟩ ?_ ?_
  · have : (enterReset s).pairRuntime k = PairRuntime.empty := tget_replicate _ k
    rw [this]; rfl
  · rw [hunused l] at hused; cases hused
  · exact Nat.le_refl 64
  · exact ⟨Port.noConfusion, Port.noConfusion, Port.noConfusion⟩

/-! ### Configuration writes -/

/-- An ARBITER record ranks each port once. -/
def Record.Ranked (r : Record) : Prop := ∀ mode p q x, r = .arbiter mode p q x → p ≠ q ∧ p ≠ x ∧ q ≠ x

theorem ranked_readTimebase {src d1 d0 w : Byte} {r : Record} (h : readTimebase src d1 d0 w = some r) : r.Ranked := by
  unfold readTimebase at h
  split at h
  · cases h
  · split at h
    · cases h
    · cases h; exact fun _ _ _ _ h => Record.noConfusion h

theorem ranked_readOutputLine {inst used safe : Byte} {r : Record} (h : readOutputLine inst used safe = some r) :
    r.Ranked := by
  unfold readOutputLine at h
  split at h
  · cases h; exact fun _ _ _ _ h => Record.noConfusion h
  · cases h

theorem ranked_readInputLine {inst used filter : Byte} {r : Record} (h : readInputLine inst used filter = some r) :
    r.Ranked := by
  unfold readInputLine at h
  split at h
  · cases h; exact fun _ _ _ _ h => Record.noConfusion h
  · cases h

theorem ranked_readPair {inst valid a b g1 g0 h1 h0 : Byte} {r : Record}
    (h : readPair inst valid a b g1 g0 h1 h0 = some r) : r.Ranked := by
  unfold readPair at h
  split at h
  · cases h; exact fun _ _ _ _ h => Record.noConfusion h
  · cases h

theorem ranked_readQuota {a b c : Byte} {r : Record} (h : readQuota a b c = some r) : r.Ranked := by
  unfold readQuota at h
  split at h
  · cases h; exact fun _ _ _ _ h => Record.noConfusion h
  · cases h

theorem ranked_readArbiter {mode r1 r2 r3 : Byte} {r : Record} (h : readArbiter mode r1 r2 r3 = some r) : r.Ranked := by
  unfold readArbiter at h
  split at h
  · split at h
    · next hapart =>
      cases h
      rintro _ _ _ _ ⟨⟩
      exact hapart
    · cases h
  · cases h

theorem ranked_readRecord {body : List Byte} {r : Record} (h : readRecord body = some r) : r.Ranked := by
  unfold readRecord at h
  split at h
  · split at h
    · split at h
      · exact ranked_readTimebase h
      · cases h
    · exact ranked_readOutputLine h
    · exact ranked_readInputLine h
    · exact ranked_readPair h
    · split at h
      · exact ranked_readQuota h
      · cases h
    · split at h
      · exact ranked_readArbiter h
      · cases h
    · cases h
  · cases h

/-- At rest a line takes the level of its new record. -/
theorem Resting.writeOutputLine {s : State} (h : Resting s) (n : OutLine) (used safe : Bool) :
    Resting (writeOutputLine n used safe s) := by
  have frame := outputsOnly_driveLine n (configuredLevel { used := used, safe := safe }) s
  obtain ⟨hlevel, hdeferred⟩ := driveLine_of_noDeferred h.deferred n (configuredLevel { used := used, safe := safe })
  obtain ⟨_, hown, hout, hcl, _, _⟩ := (WorkOnly.of_outputsOnly frame).sameRights
  unfold OutputsOnly at frame
  unfold Machine.writeOutputLine
  refine ⟨fun l => ?_, fun i => ?_, fun p => ?_, hdeferred, fun l hused => ?_⟩
  · rw [State.withOutput_owner, hown]; exact h.owner l
  · rw [State.withOutput_step, frame]; exact h.step i
  · rw [State.withOutput_claim, hcl]; exact h.claim p
  · rw [State.output_withOutput] at hused ⊢
    rw [State.withOutput_level, hlevel]
    by_cases hl : l = n
    · rw [if_pos hl] at hused ⊢
      rw [if_pos hl]
      simp only at hused
      simp [configuredLevel, hused]
    · rw [if_neg hl, hout] at hused ⊢
      rw [if_neg hl]
      exact h.level l hused

theorem Ownership.writeRecord {s : State} (h : Ownership s) {body : List Byte} {r : Record} (hsetup : s.phase = .setup)
    (hr : readRecord body = some r) (hc : recordConflict s r = none) : Ownership (writeRecord r s) := by
  have hs := h.resting (by rw [hsetup]; exact Phase.noConfusion)
  cases r with
  | timebase source divider window => exact h.of_outsideOnly (outsideOnly_withClock s _)
  | outputLine n used safe =>
    obtain ⟨_, _, _, _, hquota, harbiter⟩ :=
      (WorkOnly.of_outputsOnly (outputsOnly_driveLine n (configuredLevel { used := used, safe := safe }) s)).sameRights
    refine (hs.writeOutputLine n used safe).ownership ?_ (h.rank.congr harbiter)
    have hsum := h.quota.2
    rwa [← hquota] at hsum
  | inputLine n used filter => exact h.of_outsideOnly (outsideOnly_writeInputLine n used filter s)
  | pair i c =>
    refine Resting.ownership ⟨hs.owner, hs.step, hs.claim, fun k => ?_, hs.level⟩ h.quota.2 h.rank
    have hkept : ∀ r : PairRuntime, r.deferred = none → (settledRuntime c s.now r).deferred = none := fun r hr => by
      unfold settledRuntime
      split
      · exact hr
      · split <;> exact hr
    simp only [Machine.writeRecord, writePair, State.pairRuntime_withRuntime, State.withPair_pairRuntime]
    split
    · exact hkept _ (hs.deferred i)
    · exact hs.deferred k
  | quota a b c =>
    refine Resting.ownership ⟨hs.owner, hs.step, hs.claim, hs.deferred, hs.level⟩ ?_ h.rank
    change a + b + c ≤ 64
    by_contra hsum
    simp [recordConflict, Nat.lt_of_not_le hsum] at hc
  | arbiter mode p q x =>
    exact Resting.ownership ⟨hs.owner, hs.step, hs.claim, hs.deferred, hs.level⟩ h.quota.2
      (ranked_readRecord hr mode p q x rfl)

/-! ### Every act keeps the ownership laws -/

theorem Ownership.setTime {s : State} (h : Ownership s) (v : Tick) : Ownership (setTime v s) := by
  have hshifted : Ownership (s.withRuntimes (table fun k => (s.pairRuntime k).shift (v - s.now))) :=
    h.of_outputsOnly rfl fun hd => ⟨rfl, fun k => by
      rw [State.pairRuntime_withRuntimes, tget_table]
      exact hd k⟩
  exact hshifted.of_outsideOnly rfl

theorem Act.keeps_ownership {s t : State} (act : Act s t) (h : Ownership s) : Ownership t := by
  cases act with
  | outside ho => exact h.of_outsideOnly ho
  | reset => exact ownership_enterReset s
  | setTime v => exact h.setTime v
  | fire hfs => exact h.fireSteps hfs
  | edge e => exact h.serveEdge e
  | place hrun hds => exact h.placeWork hrun hds
  | move hst same =>
    exact h.of_calendarOnly
      (((calendarOnly_leave _ _).trans (calendarOnly_putStep _ _ _)).trans (calendarOnly_enterDue _ _))
      ((StepsFrom.refl s).moved hst same)
  | free i => exact h.of_calendarOnly (calendarOnly_freeSlot i s) (stepsFrom_freeSlot i s)
  | mark _ i => exact h.of_calendarOnly (calendarOnly_markReached s i) (stepsFrom_markReached s i)
  | guardEnd _ k => exact h.of_outputsOnly (outputsOnly_endGuard s k) fun hd => endGuard_of_noDeferred hd k
  | fallRecordEnd _ k => exact h.of_outputsOnly (outputsOnly_endFallRecord s k) fun hd => endFallRecord_of_noDeferred hd k
  | holdEnd w k => exact h.of_outputsOnly (outputsOnly_holdEnd w k) fun hd => holdEnd_of_noDeferred hd k
  | claimed p hrun hused => exact h.grantLines hrun p fun l hl => used_of_unusedIn hused hl
  | queued p hrun hused => exact h.withClaim hrun p fun l hl => used_of_unusedIn hused hl
  | withdrawn p => exact h.withoutClaim p
  | turn w p => exact h.arbiterTurn p
  | released hm => exact h.freeReleased hm
  | freed p => exact h.freeAll p
  | started => exact h.started
  | stopped hothers => exact h.stopWork hothers
  | faultCleared hfault => exact h.faultCleared hfault
  | faulted => exact h.enterFault
  | written hsetup hr hc => exact h.writeRecord hsetup hr hc

/-- Settles O55: every act keeps the six laws together, each with the help of the others. -/
theorem everyStepKeepsTheOwnershipLaws : Obligations.EveryStepKeepsTheOwnershipLaws := by
  intro s t hidle hsafe hlines howners hquota hrank hstep
  have h : Ownership t :=
    step_keeps (fun _ _ act => act.keeps_ownership) ⟨hidle, hsafe, hlines, howners, hquota, hrank⟩ hstep
  exact ⟨h.idle, h.safe, h.lines, h.owners, h.quota, h.rank⟩

end Sys2Proof.Machine
end

/-! ## What stands outside RUN, and whose lines a step names

The pair law, the guard law and the horizon law need of the ownership laws only that outside RUN nothing is owned, scheduled,
waiting or deferred, and that a step names lines of its owner. These two are kept together whatever the levels, the quotas and
the arbiter's rank are. -/

section
namespace Sys2Proof.Machine

/-- The law of the phases outside RUN and the law of the steps' lines. -/
structure Grounds (s : State) : Prop where
  idle : IdleLaw s
  lines : StepLineLaw s

section
variable {s t : State}

/-- In RUN only the steps' lines are asked for. -/
theorem Grounds.of_running (hrun : s.phase = .run) (lines : StepLineLaw s) : Grounds s :=
  ⟨fun h => absurd hrun h, lines⟩

/-- Where nothing is owned, scheduled, waiting or deferred, no step names a line. -/
theorem Grounds.of_resting (h : Resting s) : Grounds s :=
  ⟨fun _ => ⟨h.owner, h.step, h.claim, h.deferred⟩, fun i _ hst => nomatch (h.step i).symm.trans hst⟩

theorem Grounds.owner_eq_none (h : Grounds s) (hrun : s.phase ≠ .run) (l : OutLine) : s.owner l = none :=
  have ⟨howner, _⟩ := h.idle hrun
  howner l

theorem Grounds.step_eq_none (h : Grounds s) (hrun : s.phase ≠ .run) (i : SlotIndex) : s.step i = none :=
  have ⟨_, hstep, _⟩ := h.idle hrun
  hstep i

theorem Grounds.claim_eq_none (h : Grounds s) (hrun : s.phase ≠ .run) (p : Port) : s.claim p = none :=
  have ⟨_, _, hclaim, _⟩ := h.idle hrun
  hclaim p

theorem Grounds.noDeferred (h : Grounds s) (hrun : s.phase ≠ .run) : NoDeferred s :=
  have ⟨_, _, _, hdeferred⟩ := h.idle hrun
  hdeferred

theorem Grounds.of_outsideOnly (h : Grounds s) (ho : OutsideOnly s t) : Grounds t := by
  unfold OutsideOnly at ho
  rw [ho]
  exact ⟨h.idle, h.lines⟩

/-- Work that gives no step other lines keeps the laws, when it defers no rise outside RUN. -/
theorem Grounds.of_work (h : Grounds s) (frame : WorkOnly s t) (steps : StepsFrom s t)
    (rest : s.phase ≠ .run → NoDeferred t) : Grounds t := by
  obtain ⟨hphase, howner, _, hclaim, _, _⟩ := frame.sameRights
  refine ⟨fun hrun => ?_, h.lines.of_stepsFrom steps howner⟩
  rw [hphase] at hrun
  obtain ⟨hfree, hempty, hunclaimed, _⟩ := h.idle hrun
  have hstep : ∀ i, t.step i = none := fun i => Option.eq_none_iff_forall_ne_some.mpr fun st' hst' => by
    obtain ⟨st, hst, _⟩ := steps i st' hst'
    exact nomatch (hempty i).symm.trans hst
  exact ⟨howner ▸ hfree, hstep, hclaim ▸ hunclaimed, rest hrun⟩

theorem Grounds.of_calendarOnly (h : Grounds s) (frame : CalendarOnly s t) (steps : StepsFrom s t) : Grounds t :=
  h.of_work (.of_calendarOnly frame) steps fun hrun => by
    unfold CalendarOnly at frame
    rw [frame]
    exact h.noDeferred hrun

theorem Grounds.of_outputsOnly (h : Grounds s) (frame : OutputsOnly s t) (rest : NoDeferred s → NoDeferred t) :
    Grounds t :=
  h.of_work (.of_outputsOnly frame) (.of_eq frame.step) fun hrun => rest (h.noDeferred hrun)

/-! ### Firings, edges and placements -/

theorem Grounds.fireSteps (h : Grounds s) {fs : List Firing}
    (hfs : ∀ f ∈ fs, ∃ st, s.step f.slot = some st ∧ f.record.SameLines st) : Grounds (fireSteps fs s).st := by
  have steps := (StepsFrom.refl s).settleAll hfs
  refine h.of_work (fireSteps_frame fs s) (fun i st' hst' => steps i st' ?_) fun hrun => ?_
  · rwa [Machine.fireSteps, step_fireBanks] at hst'
  · have hnil : fs = [] := List.eq_nil_iff_forall_not_mem.mpr fun f hf => by
      obtain ⟨st, hst, _⟩ := hfs f hf
      exact nomatch (h.step_eq_none hrun _).symm.trans hst
    have heq : (Machine.fireSteps [] s).st = s := fireBanks_nil (Work.of s)
    rw [hnil, heq]
    exact h.noDeferred hrun

theorem Grounds.serveEdge (h : Grounds s) (e : Edge) : Grounds (serveEdge e s).st := by
  have hts : ∀ t ∈ (s.armedList e.line).filterMap (triggerOf s e),
      ∃ st, s.step t.slot = some st ∧ t.record.SameLines st := fun t ht => by
    obtain ⟨i, _, hi⟩ := List.mem_filterMap.mp ht
    exact sameLines_triggerOf hi
  unfold Machine.serveEdge
  generalize (s.armedList e.line).filterMap (triggerOf s e) = ts at hts
  have steps := (StepsFrom.refl s).enterAllTriggered hts
  refine h.of_work (.trans (.of_calendarOnly (.foldl calendarOnly_enterTriggered ts s))
    (.of_outputsOnly (outputsOnly_fireBanks _ _))) (fun i st' hst' => steps i st' ?_) fun hrun => ?_
  · rwa [step_fireBanks] at hst'
  · have hnil : ts = [] := List.eq_nil_iff_forall_not_mem.mpr fun t ht => by
      obtain ⟨st, hst, _⟩ := hts t ht
      exact nomatch (h.step_eq_none hrun _).symm.trans hst
    have heq : (everyBank.foldl (fireBank []) (Work.of s)).st = s := fireBanks_nil (Work.of s)
    rw [hnil]
    exact heq.symm ▸ h.noDeferred hrun

/-- The steps of a placement that has passed the checks name lines of their owner (R21, R22). -/
theorem StepLineLaw.taken {p : Port} {raws : List RawDescriptor} {ds : List Descriptor}
    {xs : List (SlotIndex × StepRecord)} (h : StepLineLaw s) (hds : checkDescriptors s p 0 raws = .ok ds)
    (ht : Taken p ds s xs t) : StepLineLaw t := fun i st hst => by
  rw [(WorkOnly.of_slotsOnly ht.frame).sameRights.owner]
  by_cases hi : i ∈ xs.map Prod.fst
  · obtain ⟨x, hx, rfl⟩ := List.mem_map.mp hi
    obtain ⟨d, hd, hrec⟩ := ht.records x hx
    rw [ht.holds x hx, hrec] at hst; cases hst
    obtain ⟨⟨hnames, hapart⟩, hown⟩ := (checkDescriptors_ok hds).1 d hd
    exact ⟨hnames, hapart, fun j hj => owner_of_ownsMasks hown hj⟩
  · exact h i st (ht.others i hi ▸ hst)

theorem Grounds.placeWork {p : Port} {raws : List RawDescriptor} {ds : List Descriptor} (h : Grounds s)
    (hrun : s.phase = .run) (hds : checkDescriptors s p 0 raws = .ok ds) : Grounds (placeWork p ds s).st := by
  have ht := taken_takeSlots p ds s
  have hphase : (takeSlots p ds s).2.phase = .run := (WorkOnly.of_slotsOnly ht.frame).sameRights.phase.trans hrun
  have hu : Grounds (takeSlots p ds s).2 := .of_running hphase (h.lines.taken hds ht)
  have steps := (StepsFrom.refl (takeSlots p ds s).2).enterAllPlaced ht.holds
  unfold Machine.placeWork
  refine hu.of_work (.trans (.of_calendarOnly (.foldl calendarOnly_enterPlaced _ _))
    (.of_outputsOnly (outputsOnly_fireBanks _ _))) (fun i st' hst' => steps i st' ?_) fun hrest => absurd hphase hrest
  rwa [step_fireBanks] at hst'

/-! ### Lines that change hands -/

/-- Port `p` loses the lines of `m`, and every step that stays gives them up: the others own what they name. -/
theorem StepLineLaw.of_lost {p : Port} {m : LineMask} (h : StepLineLaw s)
    (hm : ∀ l, inMask m l = true → s.owner l = some p) (howner : t.owner = (setOwners m none s).owner)
    (hstep : ∀ i st', t.step i = some st' → ∃ st, s.step i = some st ∧ TrimmedFrom p m st st') : StepLineLaw t := by
  intro i st' hst'
  obtain ⟨st, hst, trimmed⟩ := hstep i st' hst'
  refine ⟨trimmed.names, trimmed.apart, fun j hj => ?_⟩
  obtain ⟨_, _, hlines⟩ := h i st hst
  have hown := hlines j (trimmed.sub j hj)
  have hkept : inMask m (lineAt st.bank j) = false := Bool.eq_false_of_not_eq_true fun hin => by
    have hp := Option.some.inj (hown.symm.trans (hm _ hin))
    exact nomatch hin.symm.trans (trimmed.gone hp j hj)
  rw [howner, owner_setOwners, trimmed.bank, trimmed.owner, hkept]
  exact hown

/-- The freeing procedure takes nothing outside RUN, where no line is owned. -/
theorem Grounds.lost {p : Port} {m : LineMask} (h : Grounds s) (hm : ∀ l, inMask m l = true → s.owner l = some p)
    (frame : WorkOnly (setOwners m none s) t) (hsame : m = 0 → s.phase ≠ .run → t = s)
    (hstep : ∀ i st', t.step i = some st' → ∃ st, s.step i = some st ∧ TrimmedFrom p m st st') : Grounds t := by
  by_cases hrun : s.phase = .run
  · obtain ⟨hphase, howner, _⟩ := frame.sameRights
    exact .of_running (hphase.trans ((phase_setOwners m none s).trans hrun)) (h.lines.of_lost hm howner hstep)
  · have hzero : m = 0 := mask_eq_zero.mpr fun l => Bool.eq_false_of_not_eq_true fun hl =>
      nomatch (h.owner_eq_none hrun l).symm.trans (hm l hl)
    exact hsame hzero hrun ▸ h

theorem Grounds.freeReleased {p : Port} {m : LineMask} (h : Grounds s) (hm : m &&& ~~~(s.ownedMask p) = 0) :
    Grounds (freeReleased p m s) := by
  have hdriven : OutputsOnly (trim p m (setOwners m none s)) (Machine.freeReleased p m s) := outputsOnly_surrender _ _
  refine h.lost (owner_of_mask_owned hm) (.trans (.of_calendarOnly (calendarOnly_trim p m _)) (.of_outputsOnly hdriven))
    (fun hzero hrun => ?_) fun i st' hst' => ?_
  · have htrim : trim p 0 s = s := List.foldl_fixed' (fun i => by simp [trimSlot, h.step_eq_none hrun i]) everySlot
    rw [hzero, Machine.freeReleased, setOwners_zero, htrim, surrender_zero]
  · rw [hdriven.step, step_trim, step_setOwners] at hst'
    obtain ⟨st, hst, htrimmed⟩ := Option.bind_eq_some_iff.mp hst'
    obtain ⟨hnames, hapart, _⟩ := h.lines i st hst
    exact ⟨st, hst, trimmedFrom_trimmedStep htrimmed hnames hapart⟩

theorem Grounds.freeAll (h : Grounds s) (p : Port) : Grounds (freeAll p s) := by
  have hdriven : OutputsOnly (purge p (setOwners (s.ownedMask p) none s)) (Machine.freeAll p s) :=
    outputsOnly_surrender _ _
  refine h.lost (fun l hl => by simpa using hl)
    (.trans (.of_calendarOnly (calendarOnly_freeSlots _ _)) (.of_outputsOnly hdriven)) (fun hzero hrun => ?_)
    fun i st hst => ?_
  · have hslots : s.slotsOf p = [] :=
      List.filter_eq_nil_iff.mpr fun i _ => by simp [State.ownsStep, h.step_eq_none hrun i]
    rw [Machine.freeAll, hzero, setOwners_zero, purge, hslots, freeSlots, List.foldl_nil, surrender_zero]
  · rw [hdriven.step] at hst
    obtain ⟨hst, hother⟩ := step_purge hst
    rw [step_setOwners] at hst
    obtain ⟨hnames, hapart, _⟩ := h.lines i st hst
    exact ⟨st, hst, rfl, rfl, hnames, hapart, fun _ hj => hj, fun howner => absurd howner hother⟩

/-- In RUN claims come and go and lines find an owner, as long as no line loses its own. -/
theorem Grounds.of_ownersOnly (h : Grounds s) (hrun : s.phase = .run) (frame : OwnersOnly s t)
    (kept : ∀ l p, s.owner l = some p → t.owner l = some p) : Grounds t := by
  have hphase : t.phase = s.phase := by unfold OwnersOnly at frame; rw [frame]
  refine .of_running (hphase.trans hrun) fun i st hst => ?_
  obtain ⟨hnames, hapart, hown⟩ := h.lines i st (frame.step i ▸ hst)
  exact ⟨hnames, hapart, fun j hj => kept _ _ (hown j hj)⟩

theorem Grounds.withoutClaim (h : Grounds s) (p : Port) : Grounds (s.withClaim p none) := by
  refine ⟨fun hrun => ?_, h.lines⟩
  obtain ⟨hfree, hempty, hunclaimed, hdeferred⟩ := h.idle hrun
  refine ⟨hfree, hempty, fun q => ?_, hdeferred⟩
  rw [State.claim_withClaim, hunclaimed q, ite_self]

theorem Grounds.arbiterTurn {w : Work} (h : Grounds w.st) (p : Port) : Grounds (arbiterTurn w p).st := by
  by_cases hrun : w.st.phase = .run
  · refine h.of_ownersOnly hrun (ownersOnly_arbiterTurn w p) fun l q hl => ?_
    unfold Machine.arbiterTurn
    split
    · exact hl
    · split
      · rw [Work.emit_st, State.withArbiter_owner, State.withClaim_owner]
        exact owner_grantLines_kept hl
      · exact hl
  · unfold Machine.arbiterTurn
    simp only [h.claim_eq_none hrun p]
    exact h

/-! ### Phases and configuration -/

theorem Grounds.stopWork {p : Port} (h : Grounds s) (hothers : s.ownedByOthers p = 0) : Grounds (stopWork p s).st := by
  unfold Machine.stopWork Work.tellPhase Work.emitOpen
  dsimp only
  rw [expireClaims_st]
  exact .of_resting (resting_directDrive (h.lines.step_purge hothers) .setup)

theorem Grounds.faultCleared (h : Grounds s) (hfault : s.phase = .fault) : Grounds (s.withPhase .setup) :=
  ⟨fun _ => h.idle (by rw [hfault]; exact Phase.noConfusion), h.lines⟩

/-- A PAIR write defers no rise and withdraws none. -/
theorem settledRuntime_deferred (c : PairConfig) (now : Tick) (r : PairRuntime) :
    (settledRuntime c now r).deferred = r.deferred := by
  unfold settledRuntime
  split
  · rfl
  · split <;> rfl

theorem Grounds.writeRecord (h : Grounds s) (hsetup : s.phase = .setup) (r : Record) : Grounds (writeRecord r s) := by
  have hrun : s.phase ≠ .run := by rw [hsetup]; exact Phase.noConfusion
  cases r with
  | timebase source divider window => exact h.of_outsideOnly (outsideOnly_withClock s _)
  | outputLine n used safe =>
    have hdriven : Grounds (driveLine n (configuredLevel { used := used, safe := safe }) s) :=
      h.of_outputsOnly (outputsOnly_driveLine n _ s) fun hd => (driveLine_of_noDeferred hd n _).2
    exact ⟨hdriven.idle, hdriven.lines⟩
  | inputLine n used filter => exact h.of_outsideOnly (outsideOnly_writeInputLine n used filter s)
  | pair i c =>
    obtain ⟨hfree, hempty, hunclaimed, hdeferred⟩ := h.idle hrun
    refine ⟨fun _ => ⟨hfree, hempty, hunclaimed, fun k => ?_⟩, h.lines⟩
    simp only [Machine.writeRecord, writePair, State.pairRuntime_withRuntime, State.withPair_pairRuntime]
    split
    · rw [settledRuntime_deferred]; exact hdeferred i
    · exact hdeferred k
  | quota a b c => exact ⟨h.idle, h.lines⟩
  | arbiter mode p q x => exact ⟨h.idle, h.lines⟩

theorem Grounds.setTime (h : Grounds s) (v : Tick) : Grounds (setTime v s) := by
  have hshifted : Grounds (s.withRuntimes (table fun k => (s.pairRuntime k).shift (v - s.now))) :=
    h.of_outputsOnly rfl fun hd k => by
      rw [State.pairRuntime_withRuntimes, tget_table]
      exact hd k
  exact hshifted.of_outsideOnly rfl

theorem Act.keeps_grounds (act : Act s t) (h : Grounds s) : Grounds t := by
  cases act with
  | outside ho => exact h.of_outsideOnly ho
  | reset => exact ⟨(ownership_enterReset s).idle, (ownership_enterReset s).lines⟩
  | setTime v => exact h.setTime v
  | fire hfs => exact h.fireSteps hfs
  | edge e => exact h.serveEdge e
  | place hrun hds => exact h.placeWork hrun hds
  | move hst same =>
    exact h.of_calendarOnly
      (((calendarOnly_leave _ _).trans (calendarOnly_putStep _ _ _)).trans (calendarOnly_enterDue _ _))
      ((StepsFrom.refl s).moved hst same)
  | free i => exact h.of_calendarOnly (calendarOnly_freeSlot i s) (stepsFrom_freeSlot i s)
  | mark _ i => exact h.of_calendarOnly (calendarOnly_markReached s i) (stepsFrom_markReached s i)
  | guardEnd _ k => exact h.of_outputsOnly (outputsOnly_endGuard s k) fun hd => (endGuard_of_noDeferred hd k).2
  | fallRecordEnd _ k =>
    exact h.of_outputsOnly (outputsOnly_endFallRecord s k) fun hd => (endFallRecord_of_noDeferred hd k).2
  | holdEnd w k => exact h.of_outputsOnly (outputsOnly_holdEnd w k) fun hd => (holdEnd_of_noDeferred hd k).2
  | claimed p hrun => exact h.of_ownersOnly hrun (ownersOnly_grantLines p _ s) fun _ _ => owner_grantLines_kept
  | queued p hrun => exact h.of_ownersOnly hrun (ownersOnly_withClaim s p _) fun _ _ => id
  | withdrawn p => exact h.withoutClaim p
  | turn w p => exact h.arbiterTurn p
  | released hm => exact h.freeReleased hm
  | freed p => exact h.freeAll p
  | started => exact .of_running rfl h.lines
  | stopped hothers => exact h.stopWork hothers
  | faultCleared hfault => exact h.faultCleared hfault
  | faulted => exact .of_resting (resting_directDrive (step_purgeAll s) .fault)
  | written hsetup => exact h.writeRecord hsetup _

end

end Sys2Proof.Machine
end

/-! ## The pair law

The work of the interlock is work on one pair at a time: it moves levels of the pair's lines and writes the pair's runtime. As
valid pairs have no line in common, it keeps the laws when it leaves that one pair sound. Two acts are not of this kind: a
configuration write and the direct drive at the end of RUN, and at both no rise is deferred. -/

section
namespace Sys2Proof.Machine

/-! ### Two lines of a pair -/

@[simp] theorem PairConfig.holds_a (c : PairConfig) : c.holds c.a = true := by simp [PairConfig.holds]

@[simp] theorem PairConfig.holds_b (c : PairConfig) : c.holds c.b = true := by simp [PairConfig.holds]

@[simp] theorem PairConfig.partner_a (c : PairConfig) : c.partner c.a = c.b := if_pos rfl

theorem PairConfig.partner_b {c : PairConfig} (hab : c.a ≠ c.b) : c.partner c.b = c.a := if_neg hab

/-- A line of an entry is its first or its second. -/
theorem PairConfig.holds_iff (c : PairConfig) (l : OutLine) : c.holds l = true ↔ l = c.a ∨ l = c.b := by
  simp [PairConfig.holds, eq_comm (a := l)]

/-- An entry holds a line, its partner, and no third. -/
theorem PairConfig.eq_or_eq_partner {c : PairConfig} {l j : OutLine} (hl : c.holds l = true) (hj : c.holds j = true) :
    j = l ∨ j = c.partner l := by
  rw [PairConfig.holds_iff] at hl hj
  unfold PairConfig.partner
  split
  · next ha => exact hj.imp_left (·.trans ha)
  · next ha => exact hj.symm.imp_left (·.trans (hl.resolve_left (Ne.symm ha)).symm)

/-- A line of two different lines is not its own partner. -/
theorem PairConfig.partner_ne {c : PairConfig} (hab : c.a ≠ c.b) (l : OutLine) : c.partner l ≠ l := by
  unfold PairConfig.partner
  split
  · next ha => exact ha ▸ hab.symm
  · assumption

/-! ### The laws together, pair by pair -/

/-- The laws of levels and pairs, which need one another. -/
structure Pairing (s : State) : Prop where
  level : LevelLaw s
  config : PairConfigLaw s
  runtime : PairRuntimeLaw s
  wait : WaitLaw s
  apart : PairLaw s

/-- What the laws ask of one valid pair: its record is `c`, its runtime `r`, and the lines stand at `level`. -/
structure PairSound (level : OutLine → Level) (c : PairConfig) (r : PairRuntime) : Prop where
  apart : ∀ l, c.holds l = true → level l = .one → level (c.partner l) ≠ .one
  fall : ∀ f, r.fall = some f → c.holds f.line = true
  guard : ∀ g, r.guard = some g → c.holds g.line = true
  deferred : ∀ d, r.deferred = some d → c.holds d.line = true ∧ level d.line = .zero
  wait : ∀ d, r.deferred = some d → level (c.partner d.line) = .one ∨ r.guards d.line = true

section
variable {s t : State} {k : PairIndex}

theorem Pairing.sound (h : Pairing s) (hv : (s.pair k).valid = true) :
    PairSound s.level (s.pair k) (s.pairRuntime k) where
  apart l hl hone hpartner := by
    rcases (PairConfig.holds_iff _ _).mp hl with rfl | rfl
    · rw [PairConfig.partner_a] at hpartner
      exact h.apart k hv ⟨hone, hpartner⟩
    · rw [PairConfig.partner_b (h.config.lines k hv)] at hpartner
      exact h.apart k hv ⟨hpartner, hone⟩
  fall := h.runtime.fall k
  guard := h.runtime.guard k
  deferred := h.runtime.deferred k
  wait := h.wait k

theorem Pairing.of_sound (level : LevelLaw s) (config : PairConfigLaw s)
    (absent : ∀ k, (s.pair k).valid = false → s.pairRuntime k = PairRuntime.empty)
    (sound : ∀ k, (s.pair k).valid = true → PairSound s.level (s.pair k) (s.pairRuntime k)) : Pairing s := by
  have held : ∀ k, s.pairRuntime k ≠ PairRuntime.empty → PairSound s.level (s.pair k) (s.pairRuntime k) := fun k hk =>
    sound k (Bool.of_not_eq_false fun hv => hk (absent k hv))
  have runtime : PairRuntimeLaw s :=
    ⟨absent, fun k f hf => (held k fun he => by rw [he] at hf; cases hf).fall f hf,
      fun k g hg => (held k fun he => by rw [he] at hg; cases hg).guard g hg,
      fun k d hd => (held k fun he => by rw [he] at hd; cases hd).deferred d hd⟩
  refine ⟨level, config, runtime, fun k d hd => ?_, fun k hv ⟨ha, hb⟩ => ?_⟩
  · exact (held k fun he => by rw [he] at hd; cases hd).wait d hd
  · have hne := (sound k hv).apart _ (PairConfig.holds_a _) ha
    rw [PairConfig.partner_a] at hne
    exact hne hb

/-- The runtime of an entry says something only where the entry is valid. -/
theorem Pairing.valid (h : Pairing s) (hk : s.pairRuntime k ≠ PairRuntime.empty) : (s.pair k).valid = true :=
  Bool.of_not_eq_false fun hv => hk (h.runtime.absent k hv)

/-- A line of a valid pair is at 0 or 1. -/
theorem Pairing.driven (h : Pairing s) (hv : (s.pair k).valid = true) {l : OutLine} (hl : (s.pair k).holds l = true) :
    s.level l ≠ .z := fun hz => by
  have hused := h.config.used k l hv hl
  rw [(h.level l).mp hz] at hused
  cases hused

/-- A line of a valid pair that is not at 0 is at 1. -/
theorem Pairing.one_of_ne_zero (h : Pairing s) (hv : (s.pair k).valid = true) {l : OutLine}
    (hl : (s.pair k).holds l = true) (hne : s.level l ≠ .zero) : s.level l = .one := by
  have := h.driven hv hl
  cases hs : s.level l <;> simp_all

theorem PairConfigLaw.congr (h : PairConfigLaw s) (hpair : t.pair = s.pair) (houtput : t.output = s.output) :
    PairConfigLaw t where
  lines := hpair ▸ h.lines
  used := hpair ▸ houtput ▸ h.used
  safe := hpair ▸ houtput ▸ h.safe
  apart := hpair ▸ h.apart

/-- The laws read the output records, the pair records, the levels and the pair runtimes alone. -/
theorem Pairing.congr (h : Pairing s) (houtputs : t.outputs = s.outputs) (hpairs : t.pairs = s.pairs)
    (hlatch : t.latch = s.latch) (hruntime : t.runtime = s.runtime) : Pairing t := by
  have houtput : t.output = s.output := by funext l; simp [State.output, houtputs]
  have hpair : t.pair = s.pair := by funext k; simp [State.pair, hpairs]
  have hlevel : t.level = s.level := by funext l; simp [State.level, hlatch]
  have hrt : t.pairRuntime = s.pairRuntime := by funext k; simp [State.pairRuntime, hruntime]
  refine .of_sound (fun l => ?_) (h.config.congr hpair houtput) ?_ ?_
  · rw [hlevel, houtput]; exact h.level l
  · rw [hpair, hrt]; exact h.runtime.absent
  · rw [hpair, hlevel, hrt]; exact fun k => h.sound

theorem Pairing.of_outsideOnly (h : Pairing s) (ho : OutsideOnly s t) : Pairing t := by
  unfold OutsideOnly at ho
  exact h.congr (by rw [ho]) (by rw [ho]) (by rw [ho]) (by rw [ho])

theorem Pairing.of_calendarOnly (h : Pairing s) (ho : CalendarOnly s t) : Pairing t := by
  unfold CalendarOnly at ho
  exact h.congr (by rw [ho]) (by rw [ho]) (by rw [ho]) (by rw [ho])

/-! ### Work of the interlock -/

theorem OutputsOnly.pair (h : OutputsOnly s t) (k : PairIndex) : t.pair k = s.pair k := by
  unfold OutputsOnly at h
  rw [h]; rfl

theorem OutputsOnly.output (h : OutputsOnly s t) (l : OutLine) : t.output l = s.output l := by
  unfold OutputsOnly at h
  rw [h]; rfl

/-- Work on levels and pair runtimes keeps the laws when it drives and frees no line, and leaves every valid pair sound and the
runtime of every other entry absent. -/
theorem Pairing.of_outputsOnly (h : Pairing s) (frame : OutputsOnly s t) (driven : ∀ l, t.level l = .z ↔ s.level l = .z)
    (absent : ∀ k, (s.pair k).valid = false → t.pairRuntime k = PairRuntime.empty)
    (sound : ∀ k, (s.pair k).valid = true → PairSound t.level (s.pair k) (t.pairRuntime k)) : Pairing t := by
  have houtput : t.output = s.output := funext frame.output
  have hpair : t.pair = s.pair := funext frame.pair
  refine .of_sound (fun l => ?_) (h.config.congr hpair houtput) ?_ ?_
  · rw [driven, houtput]; exact h.level l
  · rw [hpair]; exact absent
  · rw [hpair]; exact sound

/-- `t` differs from `s` in pair `k` alone: in its runtime, and in the levels of its lines, which stay driven. -/
structure OnPair (k : PairIndex) (s t : State) : Prop where
  frame : OutputsOnly s t
  runtime : ∀ j, j ≠ k → t.pairRuntime j = s.pairRuntime j
  level : ∀ l, (s.pair k).holds l = false → t.level l = s.level l
  driven : ∀ l, t.level l = .z ↔ s.level l = .z

/-- A pair is sound by its own lines. -/
theorem PairSound.congr {level level' : OutLine → Level} {c : PairConfig} {r : PairRuntime} (h : PairSound level c r)
    (hl : ∀ l, c.holds l = true → level' l = level l) : PairSound level' c r where
  apart l hold := by
    rw [hl l hold, hl _ (c.holds_partner l)]
    exact h.apart l hold
  fall := h.fall
  guard := h.guard
  deferred d hd := by
    obtain ⟨hold, hzero⟩ := h.deferred d hd
    exact ⟨hold, (hl _ hold).trans hzero⟩
  wait d hd := by
    rw [hl _ (c.holds_partner _)]
    exact h.wait d hd

/-- Valid pairs have no line in common, so work on one that leaves it sound leaves them all sound. -/
theorem Pairing.of_onPair (h : Pairing s) (hv : (s.pair k).valid = true) (only : OnPair k s t)
    (sound : PairSound t.level (s.pair k) (t.pairRuntime k)) : Pairing t := by
  refine h.of_outputsOnly only.frame only.driven (fun j hj => ?_) fun j hj => ?_
  · rw [only.runtime j (by rintro rfl; rw [hv] at hj; cases hj)]
    exact h.runtime.absent j hj
  · by_cases hjk : j = k
    · exact hjk ▸ sound
    · rw [only.runtime j hjk]
      refine (h.sound hj).congr fun l hl => only.level l (Bool.eq_false_of_not_eq_true fun hk => hjk ?_)
      exact h.config.apart j k l hj hv hl hk

/-- A move between 0 and 1 drives and frees no line. -/
theorem level_withLevel_eq_z {l : OutLine} {v : Level} (hs : s.level l ≠ .z) (hv : v ≠ .z) (j : OutLine) :
    (s.withLevel l v).level j = .z ↔ s.level j = .z := by
  rw [State.level_withLevel]
  split
  · next heq => subst heq; simp [hs, hv]
  · rfl

/-- A line in no valid pair moves between 0 and 1. -/
theorem Pairing.withLevel_of_unpaired (h : Pairing s) {l : OutLine} {v : Level} (hl : s.pairOf l = none)
    (hs : s.level l ≠ .z) (hv : v ≠ .z) : Pairing (s.withLevel l v) := by
  refine h.of_outputsOnly rfl (level_withLevel_eq_z hs hv) h.runtime.absent fun j hj => (h.sound hj).congr fun m hm => ?_
  rw [State.level_withLevel, if_neg]
  rintro rfl
  rw [State.pairOf_none.mp hl j hj] at hm
  cases hm

theorem onPair_withRuntime (k : PairIndex) (r : PairRuntime) (s : State) : OnPair k s (s.withRuntime k r) :=
  ⟨rfl, fun j hj => by rw [State.pairRuntime_withRuntime, if_neg hj], fun _ _ => rfl, fun _ => Iff.rfl⟩

theorem onPair_withLevel {l : OutLine} {v : Level} (hl : (s.pair k).holds l = true) (hs : s.level l ≠ .z)
    (hv : v ≠ .z) : OnPair k s (s.withLevel l v) := by
  refine ⟨rfl, fun _ _ => rfl, fun j hj => ?_, level_withLevel_eq_z hs hv⟩
  rw [State.level_withLevel, if_neg]
  rintro rfl
  rw [hl] at hj
  cases hj

theorem OnPair.trans {u : State} (h : OnPair k s t) (h' : OnPair k t u) : OnPair k s u :=
  ⟨h.frame.trans h'.frame, fun j hj => (h'.runtime j hj).trans (h.runtime j hj),
    fun l hl => (h'.level l (by rwa [h.frame.pair])).trans (h.level l hl), fun l => (h'.driven l).trans (h.driven l)⟩

end

/-! ### What becomes of one pair -/

section
variable {level level' : OutLine → Level} {c : PairConfig} {r r' : PairRuntime} {l : OutLine}

/-- A runtime may lose its fall record and its deferred rise. -/
theorem PairSound.less (h : PairSound level c r) (hfall : ∀ f, r'.fall = some f → r.fall = some f)
    (hguard : r'.guard = r.guard) (hdeferred : ∀ d, r'.deferred = some d → r.deferred = some d) :
    PairSound level c r' where
  apart := h.apart
  fall f hf := h.fall f (hfall f hf)
  guard g hg := h.guard g (hguard ▸ hg)
  deferred d hd := h.deferred d (hdeferred d hd)
  wait d hd := by
    unfold PairRuntime.guards
    rw [hguard]
    exact h.wait d (hdeferred d hd)

/-- Without a deferred rise, a pair is sound when its lines are not both at 1 and its runtime is of its lines. -/
theorem PairSound.of_noDeferred (apart : ∀ l, c.holds l = true → level l = .one → level (c.partner l) ≠ .one)
    (fall : ∀ f, r.fall = some f → c.holds f.line = true) (guard : ∀ g, r.guard = some g → c.holds g.line = true)
    (hnone : r.deferred = none) : PairSound level c r :=
  ⟨apart, fall, guard, fun _ hd => (nomatch hnone.symm.trans hd), fun _ hd => (nomatch hnone.symm.trans hd)⟩

theorem guardAfterFall_line {z : OutLine} {t : Tick} {g : Guard} (h : guardAfterFall c z t = some g) :
    g.line = c.partner z := by
  unfold guardAfterFall at h
  split at h
  · cases h
  · cases h; rfl

/-- With one of its lines at 0 a pair has not both at 1. -/
theorem apart_of_zero (hl : c.holds l = true) (hlow : level l = .zero) (j : OutLine) (hj : c.holds j = true)
    (hone : level j = .one) : level (c.partner j) ≠ .one := by
  rcases PairConfig.eq_or_eq_partner hl hj with rfl | rfl
  · rw [hlow] at hone; cases hone
  · rw [c.partner_partner l hl, hlow]
    exact Level.noConfusion

/-- A rise is deferred on a line when the record holds one there. -/
theorem PairRuntime.defers_iff : r.defers l = true ↔ ∃ d, r.deferred = some d ∧ d.line = l := by
  unfold PairRuntime.defers
  cases r.deferred <;> simp

/-- A pair's runtime after the fall of line `l` at `t` (R73). -/
def PairRuntime.fallen (r : PairRuntime) (c : PairConfig) (l : OutLine) (t : Tick) : PairRuntime :=
  { r with fall := some ⟨l, t⟩, guard := guardAfterFall c l t }

/-- The interlock writes the runtime after the fall, and grants the partner's deferred rise when no guard follows (R73). -/
theorem recordFall_eq (k : PairIndex) (z : OutLine) (s : State) :
    recordFall k z s =
      if (s.pair k).guard = 0 ∧ (s.pairRuntime k).defers ((s.pair k).partner z) = true then
        grantRise k ((s.pair k).partner z) (s.withRuntime k ((s.pairRuntime k).fallen (s.pair k) z s.now))
      else s.withRuntime k ((s.pairRuntime k).fallen (s.pair k) z s.now) := rfl

/-- A pair after the fall of one of its lines that grants no rise (R73): a rise that waits, waits for the guard. -/
theorem PairSound.fallen (h : PairSound level c r) (hl : c.holds l = true) (hone : level l = .one)
    (hlow : level' l = .zero) (hkept : level' (c.partner l) = level (c.partner l)) (t : Tick)
    (hnot : ¬(c.guard = 0 ∧ r.defers (c.partner l) = true)) :
    PairSound level' c (r.fallen c l t) := by
  have hline : ∀ d, r.deferred = some d → d.line = c.partner l := fun d hd => by
    obtain ⟨hold, hzero⟩ := h.deferred d hd
    refine (PairConfig.eq_or_eq_partner hl hold).resolve_left fun heq => ?_
    rw [heq, hone] at hzero
    cases hzero
  refine ⟨apart_of_zero hl hlow, fun f hf => ?_, fun g hg => ?_, fun d hd => ?_, fun d hd => .inr ?_⟩
  · cases hf; exact hl
  · rw [guardAfterFall_line hg]; exact c.holds_partner l
  · obtain ⟨hold, hzero⟩ := h.deferred d hd
    refine ⟨hold, ?_⟩
    rw [hline d hd] at hzero ⊢
    rw [hkept, hzero]
  · have hguard : c.guard ≠ 0 := fun h0 => hnot ⟨h0, PairRuntime.defers_iff.mpr ⟨d, hd, hline d hd⟩⟩
    simp [PairRuntime.guards, PairRuntime.fallen, guardAfterFall, hguard, hline d hd]

/-- A pair with one line at 0 and no deferred rise left. -/
theorem PairSound.low (hl : c.holds l = true) (hlow : level l = .zero)
    (fall : ∀ f, r.fall = some f → c.holds f.line = true) (guard : ∀ g, r.guard = some g → c.holds g.line = true)
    (hnone : r.deferred = none) : PairSound level c r :=
  .of_noDeferred (apart_of_zero hl hlow) fall guard hnone

/-- With no rise deferred on either line, none is deferred in the pair. -/
theorem PairSound.deferred_eq_none (h : PairSound level c r) (hl : c.holds l = true) (hself : ¬r.defers l = true)
    (hother : ¬r.defers (c.partner l) = true) : r.deferred = none := by
  refine Option.eq_none_iff_forall_ne_some.mpr fun d hd => ?_
  rcases PairConfig.eq_or_eq_partner hl (h.deferred d hd).1 with heq | heq
  · exact hself (PairRuntime.defers_iff.mpr ⟨d, hd, heq⟩)
  · exact hother (PairRuntime.defers_iff.mpr ⟨d, hd, heq⟩)

/-- A pair with a new deferred rise, whose partner is at 1 or whose line is guarded (R76). -/
theorem PairSound.withDeferred (h : PairSound level c r) {d : DeferredRise} (hold : c.holds d.line = true)
    (hlow : level d.line = .zero) (hwait : level (c.partner d.line) = .one ∨ r.guards d.line = true) :
    PairSound level c { r with deferred := some d } where
  apart := h.apart
  fall := h.fall
  guard := h.guard
  deferred d' hd' := by cases hd'; exact ⟨hold, hlow⟩
  wait d' hd' := by cases hd'; exact hwait

/-- A pair after its guard's end that grants no rise (R74): a rise that waits, waits for its partner. -/
theorem PairSound.unguarded (h : PairSound level c r) {g : Guard} (hg : r.guard = some g)
    (hone : r.defers g.line = true → level (c.partner g.line) = .one) : PairSound level c { r with guard := none } where
  apart := h.apart
  fall := h.fall
  guard g' hg' := by cases hg'
  deferred := h.deferred
  wait d hd := by
    refine .inl ((h.wait d hd).elim id fun hguards => ?_)
    have hline : g.line = d.line := by simpa [PairRuntime.guards, hg] using hguards
    exact hline ▸ hone (PairRuntime.defers_iff.mpr ⟨d, hd, hline.symm⟩)

/-- SET_TIME moves the ticks of a runtime, and not its lines (R149). -/
theorem PairSound.shift (h : PairSound level c r) (v : Tick) : PairSound level c (r.shift v) := by
  have hguards : ∀ j, (r.shift v).guards j = r.guards j := fun j => by
    unfold PairRuntime.guards PairRuntime.shift
    cases r.guard <;> rfl
  refine ⟨h.apart, fun f hf => ?_, fun g hg => ?_, h.deferred, fun d hd => (hguards d.line).symm ▸ h.wait d hd⟩
  · obtain ⟨f', hf', rfl⟩ := Option.map_eq_some_iff.mp hf
    exact h.fall f' hf'
  · obtain ⟨g', hg', rfl⟩ := Option.map_eq_some_iff.mp hg
    exact h.guard g' hg'

end

/-! ### Falls, rises and withdrawals keep the laws -/

section
variable {s : State} {k : PairIndex} {l : OutLine}

theorem level_grantRise (k : PairIndex) (l j : OutLine) (s : State) :
    (grantRise k l s).level j = if j = l then .one else s.level j := by simp [grantRise]

theorem pairRuntime_grantRise (k : PairIndex) (l : OutLine) (s : State) :
    (grantRise k l s).pairRuntime k = { s.pairRuntime k with deferred := none } := by simp [grantRise]

/-- A grant moves its line and writes its pair's runtime. -/
theorem onPair_grantRise (hl : (s.pair k).holds l = true) (hs : s.level l ≠ .z) : OnPair k s (grantRise k l s) :=
  (onPair_withLevel hl hs Level.noConfusion).trans (onPair_withRuntime k _ _)

/-- A line at 1 falls (R73). -/
theorem Pairing.fallLine (h : Pairing s) (hone : s.level l = .one) : Pairing (fallLine l s) := by
  have hz : s.level l ≠ .z := by rw [hone]; exact Level.noConfusion
  unfold Machine.fallLine
  dsimp only
  split
  · next hl => exact h.withLevel_of_unpaired hl hz Level.noConfusion
  next k hk =>
  obtain ⟨hv, hl⟩ := State.pairOf_some hk
  have hne := PairConfig.partner_ne (h.config.lines k hv) l
  have hpartner := (s.pair k).holds_partner l
  have hdriven := h.driven hv hpartner
  have recorded : OnPair k s ((s.withLevel l .zero).withRuntime k ((s.pairRuntime k).fallen (s.pair k) l s.now)) :=
    (onPair_withLevel hl hz Level.noConfusion).trans (onPair_withRuntime k _ _)
  rw [recordFall_eq]
  split
  · refine h.of_onPair hv (recorded.trans (onPair_grantRise hpartner (by simpa [hne] using hdriven))) ?_
    rw [pairRuntime_grantRise, State.pairRuntime_withRuntime, if_pos rfl]
    refine .low hl ?_ (fun f hf => ?_) (fun g hg => guardAfterFall_line hg ▸ hpartner) rfl
    · simp [level_grantRise, hne.symm]
    · cases hf; exact hl
  · next hnot =>
    refine h.of_onPair hv recorded ?_
    rw [State.pairRuntime_withRuntime, if_pos rfl]
    exact (h.sound hv).fallen hl hone (by simp) (by simp [hne]) s.now hnot

/-- A rise is granted where none is deferred in the pair and the partner is at 0 (R75). -/
theorem judgeOutcome_granted {y : OutLine} (h : judgeOutcome s k y = .granted) :
    ¬(s.pairRuntime k).defers y = true ∧ ¬(s.pairRuntime k).defers ((s.pair k).partner y) = true
      ∧ s.level ((s.pair k).partner y) = .zero := by
  unfold judgeOutcome at h
  dsimp only at h
  split at h
  · cases h
  next hself =>
  split at h
  · cases h
  next hother =>
  split at h
  · next hfree => exact ⟨hself, hother, hfree.1⟩
  · cases h

/-- A rise is deferred for a reason: its partner is not at 0, or a guard runs for its line (R75). -/
theorem judgeOutcome_deferred {y : OutLine} (h : judgeOutcome s k y = .deferred) :
    s.level ((s.pair k).partner y) ≠ .zero ∨ (s.pairRuntime k).guards y = true := by
  unfold judgeOutcome at h
  dsimp only at h
  split at h
  · cases h
  split at h
  · cases h
  split at h
  · cases h
  · next hheld => exact (not_and_or.mp hheld).imp_right Bool.of_not_eq_false

/-- A rise is asked for, and granted, deferred or refused (R75, R76). -/
theorem Pairing.requestRise (h : Pairing s) (l : OutLine) (o : Option Port) : Pairing (requestRise s l o).1 := by
  unfold Machine.requestRise
  split
  · next hlow =>
    have hz : s.level l ≠ .z := by rw [hlow]; exact Level.noConfusion
    split
    · next hl => exact h.withLevel_of_unpaired hl hz Level.noConfusion
    next k hk =>
    obtain ⟨hv, hl⟩ := State.pairOf_some hk
    have sound := h.sound hv
    have hpartner := (s.pair k).holds_partner l
    split
    · next hj =>
      obtain ⟨hself, hother, hpart⟩ := judgeOutcome_granted hj
      have hne := PairConfig.partner_ne (h.config.lines k hv) l
      refine h.of_onPair hv (onPair_withLevel hl hz Level.noConfusion)
        (.low hpartner ?_ sound.fall sound.guard (sound.deferred_eq_none hl hself hother))
      simp [hne, hpart]
    · next hj =>
      refine h.of_onPair hv (onPair_withRuntime k _ s) ?_
      rw [State.pairRuntime_withRuntime, if_pos rfl]
      exact sound.withDeferred hl hlow ((judgeOutcome_deferred hj).imp_left (h.one_of_ne_zero hv hpartner))
    · exact h
  · exact h

/-- A pair's deferred rise is withdrawn. -/
theorem Pairing.withoutDeferred (h : Pairing s) (k : PairIndex) :
    Pairing (s.withRuntime k { s.pairRuntime k with deferred := none }) := by
  by_cases hk : s.pairRuntime k = PairRuntime.empty
  · have hsame : s.withRuntime k { s.pairRuntime k with deferred := none } = s := by
      rw [hk]
      change s.withRuntime k PairRuntime.empty = s
      rw [← hk, State.withRuntime, State.pairRuntime, tset_tget]
    exact hsame.symm ▸ h
  · refine h.of_onPair (h.valid hk) (onPair_withRuntime k _ s) ?_
    rw [State.pairRuntime_withRuntime, if_pos rfl]
    exact (h.sound (h.valid hk)).less (fun _ => id) rfl fun d hd => by cases hd

theorem Pairing.withdrawRises (h : Pairing s) (f : DeferredRise → Bool) : Pairing (withdrawRises f s) := by
  refine h.of_outputsOnly (outputsOnly_withdrawRises f s) (fun _ => Iff.rfl) (fun k hk => ?_) fun k hk => ?_
  · rw [pairRuntime_withdrawRises, h.runtime.absent k hk]
    rfl
  · rw [pairRuntime_withdrawRises, dropDeferred_eq]
    exact (h.sound hk).less (fun _ => id) rfl fun d hd => (Option.filter_eq_some_iff.mp hd).1

/-- A guard ends, and the rise that waited for it alone is granted (R74). -/
theorem Pairing.endGuard (h : Pairing s) (k : PairIndex) : Pairing (endGuard s k) := by
  unfold Machine.endGuard
  split
  · exact h
  next g hg =>
  have hv : (s.pair k).valid = true := h.valid fun he => by rw [he] at hg; cases hg
  have sound := h.sound hv
  have hline := sound.guard g hg
  have hpartner := (s.pair k).holds_partner g.line
  have ended := onPair_withRuntime k { s.pairRuntime k with guard := none } s
  split
  · dsimp only
    split
    · next hgrant =>
      have hne := PairConfig.partner_ne (h.config.lines k hv) g.line
      refine h.of_onPair hv (ended.trans (onPair_grantRise hline (h.driven hv hline))) ?_
      rw [pairRuntime_grantRise, State.pairRuntime_withRuntime, if_pos rfl]
      refine .low hpartner ?_ sound.fall (fun g' hg' => by cases hg') rfl
      simp [level_grantRise, hne, hgrant.2]
    · next hnot =>
      refine h.of_onPair hv ended ?_
      rw [State.pairRuntime_withRuntime, if_pos rfl]
      exact sound.unguarded hg fun hd => h.one_of_ne_zero hv hpartner fun hzero => hnot ⟨hd, hzero⟩
  · exact h

/-- A fall record ends (R74). -/
theorem Pairing.endFallRecord (h : Pairing s) (k : PairIndex) : Pairing (endFallRecord s k) := by
  unfold Machine.endFallRecord
  split
  · next hends =>
    have hv : (s.pair k).valid = true := h.valid fun he => by simp [fallRecordEndsNow, he, PairRuntime.empty] at hends
    refine h.of_onPair hv (onPair_withRuntime k _ s) ?_
    rw [State.pairRuntime_withRuntime, if_pos rfl]
    exact (h.sound hv).less (fun f hf => by cases hf) rfl fun _ => id
  · exact h

theorem Pairing.holdEnd {w : Work} (h : Pairing w.st) (k : PairIndex) : Pairing (holdEnd w k).st := by
  have hguard := h.endGuard k
  unfold Machine.holdEnd
  split
  · dsimp only
    split
    · exact hguard
    · rw [Work.emitTo_st]
      exact hguard.withoutDeferred k
  · exact h

end

/-! ### Firings and drives -/

section
variable {s : State}

theorem Pairing.overrideRise {w : Work} (h : Pairing w.st) (k : PairIndex) (l : OutLine) :
    Pairing (overrideRise k l w).st := by
  unfold Machine.overrideRise
  split
  · exact h
  · split
    · rw [Work.emitTo_st]
      exact h.withoutDeferred k
    · exact h

theorem Pairing.clearLine {w : Work} (h : Pairing w.st) (l : OutLine) : Pairing (clearLine w l).st := by
  have falls : ∀ v : Work, Pairing v.st →
      Pairing (if v.st.level l = .one then (⟨Machine.fallLine l v.st, v.out⟩ : Work) else v).st := fun v hv => by
    split
    · next hone => exact hv.fallLine hone
    · exact hv
  unfold Machine.clearLine
  dsimp only
  split
  · exact falls w h
  · exact falls _ (h.overrideRise _ l)

theorem Pairing.applySet {m : Merge} (h : Pairing m.work.st) (k : Bank) (fs : List Firing) (i : Position) :
    Pairing (applySet k fs m i).work.st := by
  unfold Machine.applySet
  split
  · exact h
  · split
    · dsimp only
      split <;> exact (reportDrop_st ..).symm ▸ h.requestRise _ _
    · exact h

theorem Pairing.applyBank {w : Work} (h : Pairing w.st) (k : Bank) (fs : List Firing) :
    Pairing (applyBank k fs w).work.st := by
  have hcleared : Pairing ((everyPosition.filter (clears fs)).foldl (fun w i => Machine.clearLine w (lineAt k i)) w).st :=
    List.foldlRecOn (motive := fun w : Work => Pairing w.st) _ _ h fun _ hw _ _ => hw.clearLine _
  exact List.foldlRecOn (motive := fun m : Merge => Pairing m.work.st) _ _ hcleared fun _ hm i _ => hm.applySet k fs i

/-- Bank firings keep the laws: first the CLEARs, then the SETs (R41, R42). -/
theorem Pairing.fireBanks {w : Work} (h : Pairing w.st) (fs : List Firing) :
    Pairing (everyBank.foldl (fireBank fs) w).st :=
  List.foldlRecOn (motive := fun w : Work => Pairing w.st) _ _ h fun _ hw k _ => hw.applyBank k _

theorem Pairing.safeDriveBank (h : Pairing s) (m : LineMask) (k : Bank) : Pairing (safeDriveBank m s k) := by
  have hfallen : Pairing ((everyPosition.map (lineAt k)).foldl (safeFall m) s) :=
    List.foldlRecOn (motive := Pairing) _ _ h fun u hu l _ => by
      unfold safeFall
      split
      · next hfalls => exact hu.fallLine hfalls.2.2
      · exact hu
  exact List.foldlRecOn (motive := Pairing) _ _ hfallen fun u hu l _ => by
    unfold safeRise
    split
    · exact hu.requestRise l none
    · exact hu

/-- Lines that lose their owner are driven to their safe levels through the interlock (R51). -/
theorem Pairing.surrender (h : Pairing s) (m : LineMask) : Pairing (surrender m s) :=
  List.foldlRecOn (motive := Pairing) _ _ (h.withdrawRises _) fun _ hu k _ => hu.safeDriveBank m k

/-! ### Direct drives

A direct drive asks no interlock (R52): the pair law holds at its end, where every used line stands at its safe level, and may
fail on the way there. Before it every deferred rise is discarded. -/

/-- Without deferred rises, the fall of a line writes the fall record and the guard of its pair, and no other runtime. -/
theorem pairRuntime_fallLine_of_noDeferred (hd : NoDeferred s) (l : OutLine) (k : PairIndex) :
    (fallLine l s).pairRuntime k
      = if s.pairOf l = some k then (s.pairRuntime k).fallen (s.pair k) l s.now else s.pairRuntime k := by
  unfold fallLine
  dsimp only
  split
  · next hl => simp [hl]
  next j hj =>
  have hgrants : ¬(s.pairRuntime j).defers ((s.pair j).partner l) = true := by simp [PairRuntime.defers, hd j]
  rw [recordFall_eq, if_neg fun hc => hgrants hc.2, State.pairRuntime_withRuntime]
  by_cases hk : k = j
  · subst hk; rw [if_pos rfl, if_pos hj]; rfl
  · rw [if_neg hk, if_neg fun hl => hk (Option.some.inj (hl.symm.trans hj))]; rfl

theorem PairRuntimeLaw.fallLine (h : PairRuntimeLaw s) (hd : NoDeferred s) (l : OutLine) :
    PairRuntimeLaw (fallLine l s) := by
  have hnone := (fallLine_of_noDeferred hd l).2
  have hpair := (outputsOnly_fallLine l s).pair
  have hruntime := pairRuntime_fallLine_of_noDeferred hd l
  refine ⟨fun k hk => ?_, fun k f hf => ?_, fun k g hg => ?_, fun k d hk => (nomatch (hnone k).symm.trans hk)⟩
  · rw [hpair] at hk
    rw [hruntime, if_neg, h.absent k hk]
    intro hl
    rw [(State.pairOf_some hl).1] at hk
    cases hk
  · rw [hruntime] at hf
    rw [hpair]
    split at hf
    · next hl => cases hf; exact (State.pairOf_some hl).2
    · exact h.fall k f hf
  · rw [hruntime] at hg
    rw [hpair]
    split at hg
    · rw [guardAfterFall_line hg]; exact (s.pair k).holds_partner l
    · exact h.guard k g hg

theorem PairRuntimeLaw.driveLine (h : PairRuntimeLaw s) (hd : NoDeferred s) (l : OutLine) (v : Level) :
    PairRuntimeLaw (driveLine l v s) := by
  unfold Machine.driveLine
  split
  · exact h.fallLine hd l
  · exact ⟨h.absent, h.fall, h.guard, fun k d hk => nomatch (hd k).symm.trans hk⟩

theorem PairRuntimeLaw.directDrive (h : PairRuntimeLaw s) (hd : NoDeferred s) : PairRuntimeLaw (directDrive s) := by
  have both : PairRuntimeLaw (Machine.directDrive s) ∧ NoDeferred (Machine.directDrive s) :=
    List.foldlRecOn (motive := fun u => PairRuntimeLaw u ∧ NoDeferred u) _ _ ⟨h, hd⟩ fun u ⟨hu, hdu⟩ l _ => by
      refine ⟨?_, (driveSafe_of_noDeferred hdu l).2⟩
      unfold driveSafe
      split
      · exact hu.driveLine hdu l _
      · exact hu
  exact both.1

theorem configuredLevel_eq_one {c : OutputConfig} : configuredLevel c = .one ↔ c.used = true ∧ c.safe = true := by
  unfold configuredLevel
  cases c.used <;> cases c.safe <;> simp

theorem configuredLevel_eq_z {c : OutputConfig} : configuredLevel c = .z ↔ c.used = false := by
  unfold configuredLevel
  cases c.used <;> cases c.safe <;> simp

/-- The two lines of a valid pair have not both safe level 1 (R156, R157). -/
theorem PairConfigLaw.not_both_safe (h : PairConfigLaw s) {k : PairIndex} (hv : (s.pair k).valid = true) {l : OutLine}
    (hl : (s.pair k).holds l = true) (hsafe : (s.output l).safe = true) :
    (s.output ((s.pair k).partner l)).safe ≠ true := fun hpartner => by
  rcases (PairConfig.holds_iff _ _).mp hl with rfl | rfl
  · rw [PairConfig.partner_a] at hpartner
    exact h.safe k hv ⟨hsafe, hpartner⟩
  · rw [PairConfig.partner_b (h.lines k hv)] at hpartner
    exact h.safe k hv ⟨hpartner, hsafe⟩

theorem Pairing.directDrive (h : Pairing s) (hd : NoDeferred s) : Pairing (directDrive s) := by
  have frame := outputsOnly_directDrive s
  have hnone := (directDrive_of_noDeferred hd).2
  have hruntime := h.runtime.directDrive hd
  have hlevel : ∀ l, (Machine.directDrive s).level l
      = if (s.output l).used = true then configuredLevel (s.output l) else s.level l := fun l => by
    rw [Machine.directDrive, (driveSafes_of_noDeferred hd everyOutLine).1]
    simp
  refine h.of_outputsOnly frame (fun l => ?_) (fun k hk => ?_) fun k hk => ?_
  · rw [hlevel]
    split
    · next hused => rw [configuredLevel_eq_z, h.level l]
    · rfl
  · exact hruntime.absent k (by rwa [frame.pair])
  · refine .of_noDeferred (fun l hl hone => ?_) (fun f hf => ?_) (fun g hg => ?_) (hnone k)
    · have hpartner := (s.pair k).holds_partner l
      rw [hlevel, if_pos (h.config.used k l hk hl)] at hone
      rw [hlevel, if_pos (h.config.used k _ hk hpartner)]
      have hsafe := configuredLevel_eq_one.mp hone
      exact fun hboth => h.config.not_both_safe hk hl hsafe.2 (configuredLevel_eq_one.mp hboth).2
    · exact frame.pair k ▸ hruntime.fall k f hf
    · exact frame.pair k ▸ hruntime.guard k g hg

end

/-! ### Configuration writes -/

section
variable {s : State}

/-- Where one line of an entry changes, both lines have a property only if the changed one has it and its partner had it. -/
theorem PairConfig.apart_of_change {c : PairConfig} (hab : c.a ≠ c.b) {A A' : OutLine → Prop} {n : OutLine}
    (h : ∀ l, c.holds l = true → A l → ¬A (c.partner l)) (same : ∀ l, l ≠ n → A' l → A l)
    (changed : c.holds n = true → A' n → ¬A (c.partner n)) (l : OutLine) (hl : c.holds l = true) (hA : A' l) :
    ¬A' (c.partner l) := fun hpartner => by
  by_cases hn : l = n
  · subst hn
    exact changed hl hA (same _ (PairConfig.partner_ne hab l) hpartner)
  · have hA := same l hn hA
    by_cases hpn : c.partner l = n
    · subst hpn
      have hnot := changed (c.holds_partner l) hpartner
      rw [c.partner_partner l hl] at hnot
      exact hnot hA
    · exact h l hl hA (same _ hpn hpartner)

/-- An OUTPUT_LINE write that is accepted for a paired line keeps it used, and gives it safe level 1 only where its partner has
safe level 0 and is not at 1 (R156). -/
theorem outputConflict_none (law : PairConfigLaw s) {n : OutLine} {used safe : Bool}
    (hc : outputConflict s n used safe = none) {k : PairIndex} (hv : (s.pair k).valid = true)
    (hn : (s.pair k).holds n = true) :
    used = true ∧ (safe = true →
      (s.output ((s.pair k).partner n)).safe ≠ true ∧ s.level ((s.pair k).partner n) ≠ .one) := by
  unfold outputConflict at hc
  rw [State.pairOf_eq law hv hn] at hc
  dsimp only at hc
  split at hc
  · cases hc
  next hused =>
  split at hc
  · cases hc
  next hboth => exact ⟨Bool.of_not_eq_false hused, fun hsafe => not_or.mp fun hactive => hboth ⟨hsafe, hactive⟩⟩

/-- A line that is written in SETUP takes the level of its new record, if its pair allows it (R156). -/
theorem Pairing.writeOutputLine (h : Pairing s) (hd : NoDeferred s) {n : OutLine} {used safe : Bool}
    (hc : outputConflict s n used safe = none) : Pairing (writeOutputLine n used safe s) := by
  have frame := outputsOnly_driveLine n (configuredLevel { used := used, safe := safe }) s
  have hruntime := h.runtime.driveLine hd n (configuredLevel { used := used, safe := safe })
  obtain ⟨hdriven, hnone⟩ := driveLine_of_noDeferred hd n (configuredLevel { used := used, safe := safe })
  have hpair : (Machine.writeOutputLine n used safe s).pair = s.pair := funext frame.pair
  have hlevel : ∀ l, (Machine.writeOutputLine n used safe s).level l
      = if l = n then configuredLevel { used := used, safe := safe } else s.level l := hdriven
  have houtput : ∀ l, (Machine.writeOutputLine n used safe s).output l
      = if l = n then { used := used, safe := safe } else s.output l := fun l => by
    rw [Machine.writeOutputLine, State.output_withOutput, frame.output]
  have hallowed := fun k hv hn => outputConflict_none (k := k) h.config hc hv hn
  refine .of_sound (fun l => ?_) ⟨?_, fun k l => ?_, fun k => ?_, ?_⟩ hruntime.absent fun k => ?_
  · rw [hlevel, houtput]
    split
    · exact configuredLevel_eq_z
    · exact h.level l
  · rw [hpair]; exact h.config.lines
  · rw [hpair, houtput]
    intro hv hl
    split
    · next heq => exact (hallowed k hv (heq ▸ hl)).1
    · exact h.config.used k l hv hl
  · rw [hpair]
    rintro hv ⟨ha, hb⟩
    have same : ∀ l, l ≠ n → ((Machine.writeOutputLine n used safe s).output l).safe = true →
        (s.output l).safe = true := fun l hl => by rw [houtput, if_neg hl]; exact id
    have changed : (s.pair k).holds n = true → ((Machine.writeOutputLine n used safe s).output n).safe = true →
        ¬(s.output ((s.pair k).partner n)).safe = true := fun hn => by
      rw [houtput, if_pos rfl]
      exact fun hs => ((hallowed k hv hn).2 hs).1
    have hapart := PairConfig.apart_of_change (h.config.lines k hv) (A := fun l => (s.output l).safe = true)
      (fun l => h.config.not_both_safe hv) same changed _ (PairConfig.holds_a _) ha
    rw [PairConfig.partner_a] at hapart
    exact hapart hb
  · rw [hpair]; exact h.config.apart
  · rw [hpair]
    intro hv
    have same : ∀ l, l ≠ n → (Machine.writeOutputLine n used safe s).level l = .one → s.level l = .one := fun l hl => by
      rw [hlevel, if_neg hl]; exact id
    have changed : (s.pair k).holds n = true → (Machine.writeOutputLine n used safe s).level n = .one →
        ¬s.level ((s.pair k).partner n) = .one := fun hn => by
      rw [hlevel, if_pos rfl, configuredLevel_eq_one]
      exact fun hs => ((hallowed k hv hn).2 hs.2).2
    have hapart := PairConfig.apart_of_change (h.config.lines k hv) (A := fun l => s.level l = .one) (h.sound hv).apart
      same changed
    exact .of_noDeferred hapart (fun f hf => frame.pair k ▸ hruntime.fall k f hf)
      (fun g hg => frame.pair k ▸ hruntime.guard k g hg) (hnone k)

/-- A PAIR record that is accepted names two used lines that no other valid pair holds, not both active (R157). -/
structure PairFits (s : State) (i : PairIndex) (c : PairConfig) : Prop where
  lines : c.a ≠ c.b
  used : (s.output c.a).used = true ∧ (s.output c.b).used = true
  alone : otherPairOf s i c.a = none ∧ otherPairOf s i c.b = none
  safe : ¬((s.output c.a).safe = true ∧ (s.output c.b).safe = true)
  level : ¬(s.level c.a = .one ∧ s.level c.b = .one)

theorem pairFits_of_no_conflict {i : PairIndex} {c : PairConfig} (hv : c.valid = true) (hc : pairConflict s i c = none) :
    PairFits s i c := by
  unfold pairConflict at hc
  rw [if_neg (by simp [hv])] at hc
  split at hc
  · cases hc
  next hab =>
  split at hc
  · cases hc
  next hused =>
  split at hc
  · cases hc
  next halone =>
  split at hc
  · cases hc
  next hboth =>
  obtain ⟨hsafe, hlevel⟩ := not_or.mp hboth
  refine ⟨hab, ?_, ?_, hsafe, hlevel⟩
  · unfold unusedItem at hused
    cases ha : (s.output c.a).used <;> cases hb : (s.output c.b).used <;> simp_all [pickItem]
  · unfold overlapItem at halone
    split at halone <;> simp_all

theorem otherPairOf_none {i : PairIndex} {l : OutLine} (h : otherPairOf s i l = none) {k : PairIndex} (hk : k ≠ i)
    (hv : (s.pair k).valid = true) : (s.pair k).holds l = false := by
  have := List.find?_eq_none.mp h k (mem_everyPair k)
  simpa [hk, hv] using this

theorem PairFits.alone_holds {i k : PairIndex} {c : PairConfig} (h : PairFits s i c) (hk : k ≠ i)
    (hv : (s.pair k).valid = true) {l : OutLine} (hl : c.holds l = true) : (s.pair k).holds l = false := by
  rcases (PairConfig.holds_iff _ _).mp hl with rfl | rfl
  · exact otherPairOf_none h.alone.1 hk hv
  · exact otherPairOf_none h.alone.2 hk hv

/-- A fall record that a PAIR write keeps is one of a line of the new, valid record (R86). -/
theorem settledRuntime_fall {c : PairConfig} {now : Tick} {r : PairRuntime} {f : FallRecord}
    (h : (settledRuntime c now r).fall = some f) : c.valid = true ∧ c.holds f.line = true := by
  unfold settledRuntime at h
  split at h
  · next hnone => rw [show r.fall = some f from h] at hnone; cases hnone
  next f' hf' =>
  split at h
  · next hkept => rw [show r.fall = some f from h] at hf'; cases hf'; exact hkept
  · cases h

/-- A guard that a PAIR write starts afresh is one of the new, valid record (R86). -/
theorem settledRuntime_guard {c : PairConfig} {now : Tick} {r : PairRuntime} {g : Guard}
    (h : (settledRuntime c now r).guard = some g) : c.valid = true ∧ c.holds g.line = true := by
  unfold settledRuntime at h
  split at h
  · cases h
  split at h
  · next hkept =>
    rw [Option.ite_none_right_eq_some] at h
    cases h.2
    exact ⟨hkept.1, c.holds_partner _⟩
  · cases h

theorem settledRuntime_of_invalid {c : PairConfig} {r : PairRuntime} (hv : c.valid = false) (hd : r.deferred = none)
    (now : Tick) : settledRuntime c now r = PairRuntime.empty := by
  unfold settledRuntime
  split
  · next hfall => simp [PairRuntime.empty, hfall, hd]
  · simp [PairRuntime.empty, hv, hd]

theorem Pairing.writePair (h : Pairing s) (hd : NoDeferred s) {i : PairIndex} {c : PairConfig}
    (hc : pairConflict s i c = none) : Pairing (writePair i c s) := by
  have hpair : ∀ k, (Machine.writePair i c s).pair k = if k = i then c else s.pair k := fun k => State.pair_withPair s i k c
  have hruntime : ∀ k, (Machine.writePair i c s).pairRuntime k
      = if k = i then settledRuntime c s.now (s.pairRuntime i) else s.pairRuntime k :=
    fun k => State.pairRuntime_withRuntime _ i k _
  have hfits := fun hv => pairFits_of_no_conflict hv hc
  refine .of_sound h.level ⟨fun k => ?_, fun k l => ?_, fun k => ?_, fun j k l => ?_⟩ (fun k => ?_) fun k => ?_
  · rw [hpair]
    split
    · exact fun hv => (hfits hv).lines
    · exact h.config.lines k
  · rw [hpair]
    split
    · rintro hv hl
      rcases (PairConfig.holds_iff _ _).mp hl with rfl | rfl
      · exact (hfits hv).used.1
      · exact (hfits hv).used.2
    · exact h.config.used k l
  · rw [hpair]
    split
    · exact fun hv => (hfits hv).safe
    · exact h.config.safe k
  · rw [hpair, hpair]
    split <;> split
    · next hj hk => exact fun _ _ _ _ => hj.trans hk.symm
    · next hk => exact fun hv hv' hl hl' => nomatch ((hfits hv).alone_holds hk hv' hl).symm.trans hl'
    · next hj _ => exact fun hv hv' hl hl' => nomatch ((hfits hv').alone_holds hj hv hl').symm.trans hl
    · exact h.config.apart j k l
  · rw [hpair, hruntime]
    split
    · exact fun hv => settledRuntime_of_invalid hv (hd i) s.now
    · exact h.runtime.absent k
  · rw [hpair, hruntime]
    split
    · intro hv
      refine .of_noDeferred (fun l hl hone hpartner => ?_) (fun f hf => (settledRuntime_fall hf).2)
        (fun g hg => (settledRuntime_guard hg).2) ((settledRuntime_deferred _ _ _).trans (hd i))
      rcases (PairConfig.holds_iff _ _).mp hl with rfl | rfl
      · rw [PairConfig.partner_a] at hpartner
        exact (hfits hv).level ⟨hone, hpartner⟩
      · rw [PairConfig.partner_b (hfits hv).lines] at hpartner
        exact (hfits hv).level ⟨hpartner, hone⟩
    · exact h.sound

end

/-! ### Every act keeps the pair law -/

section
variable {s : State}

theorem Pairing.setTime (h : Pairing s) (v : Tick) : Pairing (setTime v s) := by
  have hshifted : Pairing (s.withRuntimes (table fun k => (s.pairRuntime k).shift (v - s.now))) := by
    refine h.of_outputsOnly rfl (fun _ => Iff.rfl) (fun k hk => ?_) fun k hk => ?_
    · rw [State.pairRuntime_withRuntimes, tget_table, h.runtime.absent k hk]
      rfl
    · rw [State.pairRuntime_withRuntimes, tget_table]
      exact (h.sound hk).shift _
  exact hshifted.of_outsideOnly rfl

theorem Pairing.placeWork (h : Pairing s) (p : Port) (ds : List Descriptor) : Pairing (placeWork p ds s).st := by
  have hslots := (taken_takeSlots p ds s).frame
  have htaken : Pairing (takeSlots p ds s).2 := by
    rw [hslots]
    exact h.congr rfl rfl rfl rfl
  exact Pairing.fireBanks (htaken.of_calendarOnly (.foldl calendarOnly_enterPlaced _ _)) _

theorem Pairing.withOwners (h : Pairing s) (v : Vector (Option Port) 24) : Pairing (s.withOwners v) :=
  h.congr (State.withOwners_outputs s v) (State.withOwners_pairs s v) (State.withOwners_latch s v)
    (State.withOwners_runtime s v)

theorem Pairing.withClaim (h : Pairing s) (p : Port) (c : Option Claim) : Pairing (s.withClaim p c) :=
  h.congr (State.withClaim_outputs s p c) (State.withClaim_pairs s p c) (State.withClaim_latch s p c)
    (State.withClaim_runtime s p c)

theorem Pairing.withArbiter (h : Pairing s) (a : Arbiter) : Pairing (s.withArbiter a) :=
  h.congr (State.withArbiter_outputs s a) (State.withArbiter_pairs s a) (State.withArbiter_latch s a)
    (State.withArbiter_runtime s a)

theorem Pairing.withPhase (h : Pairing s) (f : Phase) : Pairing (s.withPhase f) :=
  h.congr (State.withPhase_outputs s f) (State.withPhase_pairs s f) (State.withPhase_latch s f)
    (State.withPhase_runtime s f)

theorem Pairing.grantLines (h : Pairing s) (p : Port) (m : LineMask) : Pairing (grantLines p m s) :=
  (h.withOwners _).withdrawRises _

theorem Pairing.arbiterTurn {w : Work} (h : Pairing w.st) (p : Port) : Pairing (arbiterTurn w p).st := by
  unfold Machine.arbiterTurn
  split
  · exact h
  · split
    · exact ((h.grantLines p _).withClaim p none).withArbiter _
    · exact h

/-- The end of RUN: with every claim, owner and deferred rise gone, the lines are driven to their safe levels. -/
theorem Pairing.dispossessed (h : Pairing s) (f : Phase) :
    Pairing ((Machine.directDrive (dispossess s)).withPhase f) := by
  have hdropped : Pairing (dropClaims (discardRises s)) := (h.withdrawRises _).congr rfl rfl rfl rfl
  have hgone : Pairing (dispossess s) := hdropped.withOwners _
  exact (hgone.directDrive (noDeferred_dispossess s)).withPhase f

theorem Pairing.stopWork (h : Pairing s) (p : Port) : Pairing (stopWork p s).st := by
  unfold Machine.stopWork Work.tellPhase Work.emitOpen
  dsimp only
  rw [expireClaims_st]
  exact Pairing.dispossessed (h.of_calendarOnly (calendarOnly_freeSlots _ s)) .setup

theorem Pairing.enterFault (h : Pairing s) : Pairing (enterFault s).st :=
  Pairing.dispossessed (h.of_calendarOnly (calendarOnly_freeSlots _ s)) .fault

/-- After reset no line is used and no pair valid. -/
theorem pairing_enterReset (s : State) : Pairing (enterReset s) := by
  have houtput : ∀ l, (enterReset s).output l = { used := false, safe := false } := fun l => tget_replicate _ l
  have hlevel : ∀ l, (enterReset s).level l = .z := fun l => tget_replicate _ l
  have hempty : ∀ k, (enterReset s).pairRuntime k = PairRuntime.empty := fun k => tget_replicate _ k
  have hinvalid : ∀ k, ((enterReset s).pair k).valid ≠ true := fun k => by
    have : (enterReset s).pair k = { valid := false, a := 0, b := 0, guard := 0, hold := 0 } := tget_replicate _ k
    rw [this]
    exact Bool.false_ne_true
  refine .of_sound (fun l => ?_) ⟨fun k hk => ?_, fun k _ hk => ?_, fun k hk => ?_, fun k _ _ hk => ?_⟩
    (fun k _ => hempty k) fun k hk => absurd hk (hinvalid k)
  · rw [hlevel, houtput]; exact iff_of_true rfl rfl
  all_goals exact absurd hk (hinvalid k)

theorem Pairing.writeRecord (h : Pairing s) {r : Record} (hd : NoDeferred s) (hc : recordConflict s r = none) :
    Pairing (writeRecord r s) := by
  cases r with
  | timebase source divider window => exact h.of_outsideOnly (outsideOnly_withClock s _)
  | outputLine n used safe => exact h.writeOutputLine hd hc
  | inputLine n used filter => exact h.of_outsideOnly (outsideOnly_writeInputLine n used filter s)
  | pair i c => exact h.writePair hd hc
  | quota a b c =>
    exact h.congr (State.withQuotas_outputs s _) (State.withQuotas_pairs s _) (State.withQuotas_latch s _)
      (State.withQuotas_runtime s _)
  | arbiter mode p q x => exact h.withArbiter _

/-- Every act keeps the laws; a configuration write does so because no rise is deferred in SETUP. -/
theorem Act.keeps_pairing {s t : State} (act : Act s t) (h : Pairing s) (hd : s.phase = .setup → NoDeferred s) :
    Pairing t := by
  cases act with
  | outside ho => exact h.of_outsideOnly ho
  | reset => exact pairing_enterReset s
  | setTime v => exact h.setTime v
  | fire => exact Pairing.fireBanks (h.of_calendarOnly (calendarOnly_settleAll _ s)) _
  | edge e => exact Pairing.fireBanks (h.of_calendarOnly (.foldl calendarOnly_enterTriggered _ s)) _
  | place => exact h.placeWork _ _
  | move =>
    exact h.of_calendarOnly
      (((calendarOnly_leave _ _).trans (calendarOnly_putStep _ _ _)).trans (calendarOnly_enterDue _ _))
  | free i => exact h.of_calendarOnly (calendarOnly_freeSlot i s)
  | mark _ i => exact h.of_calendarOnly (calendarOnly_markReached s i)
  | guardEnd _ k => exact h.endGuard k
  | fallRecordEnd _ k => exact h.endFallRecord k
  | holdEnd w k => exact h.holdEnd k
  | claimed p => exact h.grantLines p _
  | queued p => exact h.withClaim p _
  | withdrawn p => exact h.withClaim p none
  | turn w p => exact h.arbiterTurn p
  | released => exact Pairing.surrender ((h.withOwners _).of_calendarOnly (calendarOnly_trim _ _ _)) _
  | freed p => exact Pairing.surrender ((h.withOwners _).of_calendarOnly (calendarOnly_freeSlots _ _)) _
  | started => exact h.withPhase .run
  | stopped => exact h.stopWork _
  | faultCleared => exact h.withPhase .setup
  | faulted => exact h.enterFault
  | written hsetup _ hc => exact h.writeRecord (hd hsetup) hc

end

/-- Settles O56: every act keeps the laws of levels and pairs, and with them that no rise is deferred in SETUP, where the pair
records are written. -/
theorem everyStepKeepsThePairLaw : Obligations.EveryStepKeepsThePairLaw := by
  intro s t hidle hlevel hconfig hruntime hwait hapart hlines _ hstep
  have hkept : Pairing t ∧ Grounds t := by
    refine step_keeps (P := fun u => Pairing u ∧ Grounds u) (fun u v act ⟨hpairs, hgrounds⟩ => ?_)
      ⟨⟨hlevel, hconfig, hruntime, hwait, hapart⟩, ⟨hidle, hlines⟩⟩ hstep
    exact ⟨act.keeps_pairing hpairs fun hsetup => hgrounds.noDeferred (by rw [hsetup]; exact Phase.noConfusion),
      act.keeps_grounds hgrounds⟩
  obtain ⟨h, _⟩ := hkept
  exact ⟨h.level, h.config, h.runtime, h.wait, h.apart⟩

end Sys2Proof.Machine
end

/-! ## The session law

Both laws are laws of one port: what a port without a session may hold, and which latch bits its subscriptions allow. An
event keeps them for a port when an OPEN session stays OPEN, and when a port whose session is not OPEN gains nothing: lines,
steps and claims come only to a port whose session is OPEN, or to one that has a waiting claim already. The end of a session
breaks the law of its port for a while, until everything is taken back. -/

section
namespace Sys2Proof.Machine

/-! ### The laws of one port -/

/-- A port that owns no line and has no step and no waiting claim. -/
structure Bare (s : State) (p : Port) : Prop where
  owner : ∀ l, s.owner l ≠ some p
  step : ∀ i, s.ownsStep p i = false
  claim : s.claim p = none

/-- No line is subscribed to. -/
def PortInputs.Unsubscribed (x : PortInputs) : Prop := ∀ l, tget x.subscriptions l = .none

/-- Every latch bit is of a line that is subscribed to. -/
def PortInputs.Latched (x : PortInputs) : Prop :=
  ∀ l, inMask x.rises l = true ∨ inMask x.falls l = true → tget x.subscriptions l ≠ .none

/-- What the laws ask of port `p`. -/
structure Standing (s : State) (p : Port) : Prop where
  bare : s.isOpen p = false → Bare s p
  unsubscribed : s.isOpen p = false → (s.inputsOf p).Unsubscribed
  latched : (s.inputsOf p).Latched

/-- Without a subscription no latch bit is set. -/
theorem PortInputs.Latched.clear {x : PortInputs} (h : x.Latched) (hx : x.Unsubscribed) : x.rises = 0 ∧ x.falls = 0 := by
  have hnone : ∀ l, ¬(inMask x.rises l = true ∨ inMask x.falls l = true) := fun l hl => h l hl (hx l)
  exact ⟨mask_eq_zero.mpr fun l => Bool.eq_false_of_not_eq_true fun hl => hnone l (.inl hl),
    mask_eq_zero.mpr fun l => Bool.eq_false_of_not_eq_true fun hl => hnone l (.inr hl)⟩

/-- The two laws together are the laws of each port. -/
theorem forall_standing_iff {s : State} : (∀ p, Standing s p) ↔ SessionLaw s ∧ LatchLaw s := by
  constructor
  · refine fun h => ⟨fun p hclosed => ?_, fun p => (h p).latched⟩
    obtain ⟨howner, hstep, hclaim⟩ := (h p).bare hclosed
    have hsub := (h p).unsubscribed hclosed
    exact ⟨howner, hstep, hclaim, hsub, (h p).latched.clear hsub⟩
  · rintro ⟨hsession, hlatch⟩ p
    have hnothing : s.isOpen p = false → Bare s p ∧ (s.inputsOf p).Unsubscribed := fun hclosed => by
      obtain ⟨howner, hstep, hclaim, hsub, _⟩ := hsession p hclosed
      exact ⟨⟨howner, hstep, hclaim⟩, hsub⟩
    exact ⟨fun hclosed => (hnothing hclosed).1, fun hclosed => (hnothing hclosed).2, hlatch p⟩

/-- From `s` to `t` the laws of every port are kept. -/
def Orderly (s t : State) : Prop := ∀ p, Standing s p → Standing t p

theorem Orderly.refl (s : State) : Orderly s s := fun _ h => h

theorem Orderly.trans {s t u : State} (h : Orderly s t) (h' : Orderly t u) : Orderly s u := fun p hp => h' p (h p hp)

theorem Orderly.foldl {α : Type} {f : State → α → State} (hf : ∀ s a, Orderly s (f s a)) (l : List α) (s : State) :
    Orderly s (l.foldl f s) := by
  induction l generalizing s with
  | nil => exact .refl s
  | cons a l ih => exact (hf s a).trans (ih _)

theorem Orderly.foldl_work {α : Type} {f : Work → α → Work} (hf : ∀ w a, Orderly w.st (f w a).st) (l : List α)
    (w : Work) : Orderly w.st (l.foldl f w).st := by
  induction l generalizing w with
  | nil => exact .refl _
  | cons a l ih => exact (hf w a).trans (ih _)

section
variable {s t : State}

/-- A port keeps its laws when its inputs stay, its session stays OPEN if it was, and a port that is not OPEN stays bare. -/
theorem Standing.of_bare {p : Port} (h : Standing s p) (hinputs : t.inputsOf p = s.inputsOf p)
    (hopen : s.isOpen p = true → t.isOpen p = true) (hbare : s.isOpen p = false → Bare s p → Bare t p) :
    Standing t p := by
  have hclosed : t.isOpen p = false → s.isOpen p = false := fun ht =>
    Bool.eq_false_of_not_eq_true fun hs => nomatch ht.symm.trans (hopen hs)
  exact ⟨fun ht => hbare (hclosed ht) (h.bare (hclosed ht)), fun ht => hinputs ▸ h.unsubscribed (hclosed ht),
    hinputs ▸ h.latched⟩

/-- A port whose session is not OPEN is another than one whose session is. -/
theorem ne_of_isOpen {p q : Port} (hp : s.isOpen p = true) (hq : s.isOpen q = false) : q ≠ p := by
  rintro rfl
  exact nomatch hq.symm.trans hp

theorem isOpen_of_sessions (h : t.sessions = s.sessions) (p : Port) : t.isOpen p = s.isOpen p := by
  simp [State.isOpen, State.session, h]

/-- Sessions and inputs stay, and a port that is not OPEN stays bare. -/
theorem Orderly.of_bare (hsessions : t.sessions = s.sessions) (hinputs : t.portInputs = s.portInputs)
    (hbare : ∀ p, s.isOpen p = false → Bare s p → Bare t p) : Orderly s t := fun p h =>
  h.of_bare (by simp [State.inputsOf, hinputs]) (fun hs => isOpen_of_sessions hsessions p ▸ hs) (hbare p)

/-- What the laws read is the same in both states. -/
structure SameStanding (s t : State) : Prop where
  sessions : t.sessions = s.sessions
  inputs : t.portInputs = s.portInputs
  owners : t.owners = s.owners
  slots : t.slots = s.slots
  claims : t.claims = s.claims

theorem SameStanding.orderly (h : SameStanding s t) : Orderly s t := by
  refine .of_bare h.sessions h.inputs fun p _ hp => ⟨?_, ?_, ?_⟩
  · have howner : t.owner = s.owner := by funext l; simp [State.owner, h.owners]
    exact howner ▸ hp.owner
  · have hsteps : t.ownsStep p = s.ownsStep p := by
      funext i; simp [State.ownsStep, State.step, State.slot, h.slots]
    exact hsteps ▸ hp.step
  · have hclaim : t.claim p = s.claim p := by simp [State.claim, h.claims]
    exact hclaim ▸ hp.claim

/-! ### Notices, host ports and time -/

theorem orderly_deliver (s : State) (es : List Emit) : Orderly s (s.deliver es) := by
  rw [State.deliver_frame]
  exact SameStanding.orderly ⟨rfl, rfl, rfl, rfl, rfl⟩

/-- The notices of an event come after its work. -/
theorem Orderly.done {w : Work} (h : Orderly s w.st) : Orderly s w.done := h.trans (orderly_deliver w.st w.out)

theorem orderly_withPort (s : State) (p : Port) (h : HostPort) : Orderly s (s.withPort p h) :=
  SameStanding.orderly ⟨rfl, rfl, rfl, rfl, rfl⟩

theorem orderly_withClock (s : State) (c : Clock) : Orderly s (s.withClock c) :=
  SameStanding.orderly ⟨rfl, rfl, rfl, rfl, rfl⟩

theorem orderly_withPhase (s : State) (f : Phase) : Orderly s (s.withPhase f) :=
  SameStanding.orderly ⟨rfl, rfl, rfl, rfl, rfl⟩

theorem orderly_withFilter (s : State) (l : InLine) (f : Filter) : Orderly s (s.withFilter l f) :=
  SameStanding.orderly ⟨rfl, rfl, rfl, rfl, rfl⟩

/-- A tick arrives with a new clock and new input levels. -/
theorem orderly_clockTick (s : State) (c : Clock) (pins : InputMask) :
    Orderly s (tickArrival ((s.withClock c).withPins pins)) :=
  SameStanding.orderly ⟨rfl, rfl, rfl, rfl, rfl⟩

/-! ### Work on steps, levels and pairs -/

theorem WorkOnly.orderly (h : WorkOnly s t) (hsteps : ∀ p i, t.ownsStep p i = true → s.ownsStep p i = true) :
    Orderly s t := by
  obtain ⟨_, howner, _, hclaim, _, _⟩ := h.sameRights
  unfold WorkOnly at h
  refine .of_bare (by rw [h]) (by rw [h]) fun p _ hp => ⟨howner ▸ hp.owner, fun i => ?_, hclaim ▸ hp.claim⟩
  exact Bool.eq_false_of_not_eq_true fun hi => nomatch (hp.step i).symm.trans (hsteps p i hi)

theorem CalendarOnly.orderly (h : CalendarOnly s t) (steps : StepsFrom s t) : Orderly s t :=
  (WorkOnly.of_calendarOnly h).orderly fun _ _ => steps.ownsStep

theorem OutputsOnly.orderly (h : OutputsOnly s t) : Orderly s t :=
  (WorkOnly.of_outputsOnly h).orderly fun _ _ => (StepsFrom.of_eq h.step).ownsStep

end

theorem orderly_guardEndWork (k : PairIndex) (s : State) : Orderly s (guardEndWork k s) :=
  .foldl (fun s k => (outputsOnly_endGuard s k).orderly) _ s

theorem orderly_fallRecordEndWork (k : PairIndex) (s : State) : Orderly s (fallRecordEndWork k s) :=
  .foldl (fun s k => (outputsOnly_endFallRecord s k).orderly) _ s

theorem orderly_holdDeadlineWork (k : PairIndex) (s : State) : Orderly s (holdDeadlineWork k s) :=
  Orderly.done (.foldl_work (fun w k => (outputsOnly_holdEnd w k).orderly) _ (Work.of s))

theorem orderly_freeSlot (s : State) (i : SlotIndex) : Orderly s (freeSlot i s) :=
  (calendarOnly_freeSlot i s).orderly (stepsFrom_freeSlot i s)

theorem orderly_freeSlots (is : List SlotIndex) (s : State) : Orderly s (freeSlots is s) := .foldl orderly_freeSlot is s

/-- The bank firings of an event come after its calendar part. -/
theorem Orderly.fireBanks {s : State} {w : Work} (h : Orderly s w.st) (fs : List Firing) :
    Orderly s (everyBank.foldl (fireBank fs) w).st :=
  h.trans (outputsOnly_fireBanks fs w).orderly

/-- A step that fires leaves its port a step or none. -/
theorem orderly_fireSteps {s : State} {fs : List Firing}
    (hfs : ∀ f ∈ fs, ∃ st, s.step f.slot = some st ∧ f.record.SameLines st) : Orderly s (fireSteps fs s).st :=
  Orderly.fireBanks ((calendarOnly_settleAll fs s).orderly ((StepsFrom.refl s).settleAll hfs)) fs

theorem orderly_bankFiringWork (k : Bank) (s : State) : Orderly s (bankFiringWork k s) :=
  (orderly_fireSteps fun _ hf => ⟨_, step_of_mem_dueFirings hf, .refl _⟩).done

theorem orderly_closeWindow (w : Work) (i : SlotIndex) : Orderly w.st (closeWindow w i).st := by
  unfold closeWindow
  split
  · exact .refl _
  · exact orderly_freeSlot w.st i

theorem orderly_windowEndWork (s : State) : Orderly s (windowEndWork s) :=
  Orderly.done (.foldl_work orderly_closeWindow _ (Work.of s))

theorem orderly_reachedMarkerWork (s : State) : Orderly s (reachedMarkerWork s) :=
  .foldl (fun s i => (calendarOnly_markReached s i).orderly (stepsFrom_markReached s i)) _ s

theorem orderly_serveEdge (e : Edge) (s : State) : Orderly s (serveEdge e s).st := by
  have hts : ∀ t ∈ (s.armedList e.line).filterMap (triggerOf s e),
      ∃ st, s.step t.slot = some st ∧ t.record.SameLines st := fun t ht => by
    obtain ⟨i, _, hi⟩ := List.mem_filterMap.mp ht
    exact sameLines_triggerOf hi
  exact Orderly.fireBanks
    ((CalendarOnly.foldl calendarOnly_enterTriggered _ s).orderly ((StepsFrom.refl s).enterAllTriggered hts)) _

/-- A placement gives other ports no step. -/
theorem Taken.ownsStep {p q : Port} {ds : List Descriptor} {s t : State} {xs : List (SlotIndex × StepRecord)}
    (h : Taken p ds s xs t) (hq : q ≠ p) {i : SlotIndex} (hi : t.ownsStep q i = true) : s.ownsStep q i = true := by
  by_cases hmem : i ∈ xs.map Prod.fst
  · obtain ⟨x, hx, rfl⟩ := List.mem_map.mp hmem
    obtain ⟨d, _, hd⟩ := h.records x hx
    rw [State.ownsStep, h.holds x hx, hd] at hi
    exact absurd (beq_iff_eq.mp hi).symm hq
  · rwa [State.ownsStep, h.others i hmem] at hi

/-- A port whose session is OPEN may place steps. -/
theorem orderly_placeWork {p : Port} {s : State} (hopen : s.isOpen p = true) (ds : List Descriptor) :
    Orderly s (placeWork p ds s).st := by
  have ht := taken_takeSlots p ds s
  obtain ⟨_, howner, _, hclaim, _, _⟩ := (WorkOnly.of_slotsOnly ht.frame).sameRights
  have htaken : Orderly s (takeSlots p ds s).2 := by
    refine .of_bare (by rw [ht.frame]) (by rw [ht.frame]) fun q hq hbare =>
      ⟨howner ▸ hbare.owner, fun i => ?_, hclaim ▸ hbare.claim⟩
    exact Bool.eq_false_of_not_eq_true fun hi =>
      nomatch (hbare.step i).symm.trans (ht.ownsStep (ne_of_isOpen hopen hq) hi)
  have hentered := (CalendarOnly.foldl calendarOnly_enterPlaced _ (takeSlots p ds s).2).orderly
    ((StepsFrom.refl _).enterAllPlaced ht.holds)
  exact Orderly.fireBanks (htaken.trans hentered) _

theorem orderly_amendWork {i : SlotIndex} {st : StepRecord} {s : State} (h : s.step i = some st) (b : AmendBody) :
    Orderly s (amendWork i st b s).st := by
  unfold amendWork
  dsimp only
  split
  · exact CalendarOnly.orderly rfl ((StepsFrom.refl s).moved h (sameLines_amended st b))
  · refine orderly_fireSteps fun f hf => ?_
    rw [List.mem_singleton.mp hf]
    exact ⟨st, h, sameLines_amended st b⟩

/-! ### Lines and claims -/

section
variable {s t : State}

/-- Lines and claims change hands, and a port that is bare and not OPEN gains none. -/
theorem OwnersOnly.orderly (h : OwnersOnly s t)
    (howner : ∀ p, s.isOpen p = false → Bare s p → ∀ l, t.owner l ≠ some p)
    (hclaim : ∀ p, s.isOpen p = false → Bare s p → t.claim p = none) : Orderly s t := by
  have hstep := h.step
  unfold OwnersOnly at h
  refine .of_bare (by rw [h]) (by rw [h]) fun p hp hbare => ⟨howner p hp hbare, fun i => ?_, hclaim p hp hbare⟩
  rw [State.ownsStep, hstep]
  exact hbare.step i

/-- A claim leaves the queue. -/
theorem orderly_withoutClaim (p : Port) (s : State) : Orderly s (s.withClaim p none) :=
  (ownersOnly_withClaim s p none).orderly (fun _ _ h => h.owner) fun q _ h => by
    rw [State.claim_withClaim, h.claim, ite_self]

theorem orderly_waitDeadlineWork (p : Port) (s : State) : Orderly s (waitDeadlineWork p s) := by
  unfold waitDeadlineWork
  split
  · exact .refl s
  · split
    · exact Orderly.done (orderly_withoutClaim p s)
    · exact .refl s

/-- A grant to one port gives the others no line. -/
theorem Bare.owner_grantLines {p q : Port} (h : Bare s q) (hq : q ≠ p) (m : LineMask) (l : OutLine) :
    (grantLines p m s).owner l ≠ some q := by
  rw [Machine.owner_grantLines]
  split
  · exact fun hp => hq (Option.some.inj hp).symm
  · exact h.owner l

/-- A port whose session is OPEN may be granted lines at once. -/
theorem orderly_grantLines {p : Port} (hopen : s.isOpen p = true) (m : LineMask) : Orderly s (grantLines p m s) :=
  (ownersOnly_grantLines p m s).orderly (fun _ hq h => h.owner_grantLines (ne_of_isOpen hopen hq) m) fun _ _ h => by
    rw [claim_grantLines, h.claim]

/-- A port whose session is OPEN may put a claim in the queue. -/
theorem orderly_withClaim {p : Port} (hopen : s.isOpen p = true) (c : Option Claim) : Orderly s (s.withClaim p c) :=
  (ownersOnly_withClaim s p c).orderly (fun _ _ h => h.owner) fun q hq h => by
    rw [State.claim_withClaim, if_neg (ne_of_isOpen hopen hq), h.claim]

theorem orderly_withArbiter (s : State) (a : Arbiter) : Orderly s (s.withArbiter a) :=
  SameStanding.orderly ⟨rfl, rfl, rfl, rfl, rfl⟩

/-- A turn grants lines only to a port with a waiting claim. -/
theorem orderly_arbiterTurn (w : Work) (p : Port) : Orderly w.st (arbiterTurn w p).st := by
  unfold arbiterTurn
  split
  · exact .refl _
  next c hc =>
  split
  · have hgranted : Orderly w.st ((grantLines p c.mask w.st).withClaim p none) := by
      refine ((ownersOnly_grantLines p c.mask w.st).trans (ownersOnly_withClaim _ p none)).orderly
        (fun q _ h l => ?_) fun q _ h => ?_
      · have hne : q ≠ p := by rintro rfl; exact nomatch h.claim.symm.trans hc
        rw [State.withClaim_owner]
        exact h.owner_grantLines hne c.mask l
      · rw [State.claim_withClaim, claim_grantLines, h.claim, ite_self]
    exact hgranted.trans (orderly_withArbiter _ _)
  · exact .refl _

/-- An event that has done its work ends with a pass over the waiting claims. -/
theorem Orderly.arbiterPass {w : Work} (h : Orderly s w.st) : Orderly s (arbiterPass w).st :=
  h.trans (.foldl_work orderly_arbiterTurn _ w)

/-- Lines lose their owner. -/
theorem orderly_setOwners_none (m : LineMask) (s : State) : Orderly s (setOwners m none s) := by
  have frame : OwnersOnly s (setOwners m none s) := ownersOnly_withOwners s _
  refine frame.orderly (fun p _ h l => ?_) fun p _ h => by rw [claim_setOwners, h.claim]
  rw [owner_setOwners]
  split
  · exact nofun
  · exact h.owner l

theorem owner_of_trimmedStep {p : Port} {m : LineMask} {st st' : StepRecord} (h : trimmedStep p m st = some st') :
    st'.owner = st.owner := by
  unfold trimmedStep at h
  split at h
  · split at h
    · cases h
    · cases h; rfl
  · cases h; rfl

/-- A trimmed step stays its owner's. -/
theorem ownsStep_trim {p q : Port} {m : LineMask} {i : SlotIndex} (h : (trim p m s).ownsStep q i = true) :
    s.ownsStep q i = true := by
  unfold State.ownsStep at *
  rw [step_trim] at h
  split at h
  · next st' hst' =>
    obtain ⟨st, hst, htrimmed⟩ := Option.bind_eq_some_iff.mp hst'
    rw [hst]
    change (st.owner == q) = true
    rwa [← owner_of_trimmedStep htrimmed]
  · cases h

theorem orderly_freeReleased (p : Port) (m : LineMask) (s : State) : Orderly s (freeReleased p m s) :=
  ((orderly_setOwners_none m s).trans
    ((WorkOnly.of_calendarOnly (calendarOnly_trim p m _)).orderly fun _ _ => ownsStep_trim)).trans
    (outputsOnly_surrender m _).orderly

theorem orderly_freeAll (p : Port) (s : State) : Orderly s (freeAll p s) :=
  ((orderly_setOwners_none _ s).trans (orderly_freeSlots _ _)).trans (outputsOnly_surrender _ _).orderly

/-- The freeing procedure leaves the port no line and no step. -/
theorem bare_freeAll {p : Port} (hclaim : s.claim p = none) : Bare (freeAll p s) p := by
  have frame : WorkOnly (setOwners (s.ownedMask p) none s) (freeAll p s) :=
    .trans (.of_calendarOnly (calendarOnly_freeSlots _ _)) (.of_outputsOnly (outputsOnly_surrender _ _))
  obtain ⟨_, howner, _, hclaims, _, _⟩ := frame.sameRights
  refine ⟨fun l => ?_, fun i => ?_, ?_⟩
  · rw [howner, owner_setOwners]
    split
    · exact nofun
    · next hl => simpa using hl
  · rw [State.ownsStep, freeAll, (outputsOnly_surrender _ _).step]
    split
    · next st hst => exact beq_eq_false_iff_ne.mpr (step_purge hst).2
    · rfl
  · rw [hclaims, claim_setOwners]
    exact hclaim

/-! ### Inputs -/

/-- A port's inputs change: its latch bits stay within its subscriptions, which are none while its session is not OPEN. -/
theorem orderly_withInputsOf {p : Port} {x : PortInputs}
    (hsub : s.isOpen p = false → (s.inputsOf p).Unsubscribed → x.Unsubscribed)
    (hlatch : (s.inputsOf p).Latched → x.Latched) : Orderly s (s.withInputsOf p x) := by
  intro q h
  have hbare : s.isOpen q = false → Bare (s.withInputsOf p x) q := fun hq =>
    have ⟨howner, hstep, hclaim⟩ := h.bare hq
    ⟨howner, hstep, hclaim⟩
  by_cases hq : q = p
  · subst hq
    have hx : (s.withInputsOf q x).inputsOf q = x := by simp
    exact ⟨hbare, fun hclosed => hx.symm ▸ hsub hclosed (h.unsubscribed hclosed), hx.symm ▸ hlatch h.latched⟩
  · have hsame : (s.withInputsOf p x).inputsOf q = s.inputsOf q := by simp [hq]
    exact ⟨hbare, hsame ▸ h.unsubscribed, hsame ▸ h.latched⟩

/-- Latch bits are cleared. -/
theorem PortInputs.Latched.of_fewer {x : PortInputs} (h : x.Latched) {rises falls : InputMask}
    (hrises : ∀ l, inMask rises l = true → inMask x.rises l = true)
    (hfalls : ∀ l, inMask falls l = true → inMask x.falls l = true) :
    PortInputs.Latched { x with rises := rises, falls := falls } :=
  fun l hl => h l (hl.imp (hrises l) (hfalls l))

theorem inMask_of_inMask_and {n : Nat} {a b : BitVec n} {i : Fin n} (h : inMask (a &&& b) i = true) :
    inMask a i = true := by
  rw [inMask_and] at h
  exact (Bool.and_eq_true_iff.mp h).1

theorem orderly_clearPendingBits (p : Port) (m : InputMask) (s : State) :
    Orderly s (s.withInputsOf p
      { s.inputsOf p with rises := (s.inputsOf p).rises &&& ~~~m, falls := (s.inputsOf p).falls &&& ~~~m }) :=
  orderly_withInputsOf (fun _ h => h) fun h =>
    h.of_fewer (fun _ => inMask_of_inMask_and) fun _ => inMask_of_inMask_and

/-- An EDGE_SUMMARY clears every latch bit (R134). -/
theorem orderly_queueSummary (p : Port) (s : State) : Orderly s (s.queueSummary p) :=
  (orderly_withPort s p _).trans <|
    orderly_withInputsOf (fun _ h => h) fun h => h.of_fewer (fun l hl => by simp at hl) fun l hl => by simp at hl

theorem orderly_fetchEnd (s : State) (p : Port) (x : Transfer) : Orderly s (s.fetchEnd p x) := by
  have hend : Orderly s (s.endTransfer p x) := orderly_withPort s p _
  unfold State.fetchEnd
  split
  · exact hend.trans (orderly_queueSummary p _)
  · exact hend

/-- The lines of a SUBSCRIBE keep only the latch bits that the new subscription covers (R130). -/
theorem latched_subscribeTo {x : PortInputs} (h : x.Latched) (m : InputMask) (k : Subscription) :
    (subscribeTo m k x).Latched := by
  intro l hl
  change tget (table _) l ≠ _
  rw [tget_table]
  by_cases hm : inMask m l = true
  · rw [if_pos hm]
    rintro rfl
    simp [subscribeTo, Subscription.covers, Subscription.takes, hm] at hl
  · rw [if_neg hm]
    have hfewer : ∀ {c : Bool} {bits : InputMask}, inMask (if c then bits else bits &&& ~~~m) l = true →
        inMask bits l = true := fun hbit => by
      split at hbit
      · exact hbit
      · exact inMask_of_inMask_and hbit
    exact h l (hl.imp hfewer hfewer)

/-- A line that becomes unused loses its subscription and its latch bits together (R127). -/
theorem latched_unsubscribeLine {x : PortInputs} (h : x.Latched) (n : InLine) : (unsubscribeLine n x).Latched := by
  intro l hl
  by_cases hn : l = n
  · simp [unsubscribeLine, hn] at hl
  · simp only [unsubscribeLine, tget_tset, if_neg hn]
    exact h l (hl.imp inMask_of_inMask_and inMask_of_inMask_and)

theorem unsubscribed_unsubscribeLine {x : PortInputs} (h : x.Unsubscribed) (n : InLine) :
    (unsubscribeLine n x).Unsubscribed := by
  intro l
  simp only [unsubscribeLine, tget_tset]
  split
  · rfl
  · exact h l

theorem orderly_writeInputLine (n : InLine) (used : Bool) (filter : Nat) (s : State) :
    Orderly s (writeInputLine n used filter s) := by
  have hstored : Orderly s ((s.withInput n { used := used, filter := filter }).withFilter n
      (writtenFilter used filter s.now (s.filter n))) := SameStanding.orderly ⟨rfl, rfl, rfl, rfl, rfl⟩
  unfold writeInputLine
  dsimp only
  split
  · exact hstored
  · exact hstored.trans <| .foldl (fun t p => orderly_withInputsOf
      (fun _ h => unsubscribed_unsubscribeLine h n) fun h => latched_unsubscribeLine h n) _ _

/-- A port is offered an edge only on a line it subscribes to. -/
theorem latched_foldedEdge {x : PortInputs} (h : x.Latched) {e : Edge}
    (htakes : (tget x.subscriptions e.line).takes e.direction = true) {rises falls : InputMask}
    (hrises : ∀ l, inMask rises l = true → inMask x.rises l = true ∨ l = e.line)
    (hfalls : ∀ l, inMask falls l = true → inMask x.falls l = true ∨ l = e.line) :
    PortInputs.Latched { x with rises := rises, falls := falls } := by
  have hsub : tget x.subscriptions e.line ≠ .none := fun hnone => by rw [hnone] at htakes; exact nomatch htakes
  intro l hl
  by_cases hline : l = e.line
  · exact hline ▸ hsub
  · exact h l (hl.imp (fun hr => (hrises l hr).resolve_right hline) fun hf => (hfalls l hf).resolve_right hline)

theorem orderly_foldEdge {p : Port} {e : Edge} (hopen : s.isOpen p = true)
    (htakes : (s.subscription p e.line).takes e.direction = true) : Orderly s (foldEdge s p e) := by
  refine orderly_withInputsOf (fun hclosed => nomatch hclosed.symm.trans hopen) fun h => ?_
  cases e.direction with
  | rise => exact latched_foldedEdge h htakes (fun l hl => by simpa using hl) fun l hl => .inl hl
  | fall => exact latched_foldedEdge h htakes (fun l hl => .inl hl) fun l hl => by simpa using hl

theorem orderly_offerEdge (e : Edge) (s : State) (p : Port) : Orderly s (offerEdge e s p) := by
  unfold offerEdge
  split
  · next hoffered =>
    obtain ⟨hopen, htakes⟩ := Bool.and_eq_true_iff.mp hoffered
    split
    · exact orderly_withPort s p _
    · exact orderly_foldEdge hopen htakes
  · exact .refl s

theorem orderly_edgeEventWork (l : InLine) (s : State) : Orderly s (edgeEventWork l s) := by
  unfold edgeEventWork
  split
  · exact .refl s
  · next e _ =>
    exact (Orderly.done ((orderly_withFilter s l _).trans (orderly_serveEdge e _))).trans
      (.foldl (orderly_offerEdge e) _ _)

/-! ### Sessions -/

theorem isOpen_withSession_of_ne {p q : Port} (hq : q ≠ p) (x : Session) (s : State) :
    (s.withSession p x).isOpen q = s.isOpen q := by
  simp [State.isOpen, hq]

/-- A session changes, and stays OPEN if it was. -/
theorem orderly_withSession {p : Port} {x : Session} (hopen : s.isOpen p = true → (s.withSession p x).isOpen p = true) :
    Orderly s (s.withSession p x) := by
  intro q h
  refine h.of_bare rfl (fun hs => ?_) fun _ hbare => ⟨hbare.owner, hbare.step, hbare.claim⟩
  by_cases hq : q = p
  · subst hq; exact hopen hs
  · rwa [isOpen_withSession_of_ne hq]

theorem orderly_openSession (p : Port) (period : Nat) (deadline : Tick) (watch : Bool) (s : State) :
    Orderly s (s.withSession p { state := .opened period deadline, watch := watch }) :=
  orderly_withSession fun _ => by simp [State.isOpen]

theorem orderly_renew (s : State) (p : Port) : Orderly s (s.renew p) := by
  unfold State.renew
  split
  · exact orderly_openSession p _ _ _ s
  · exact .refl s

/-- A lease that is renewed leaves the session in its state. -/
theorem sessionRefusal_renew (r : Request) (s : State) (p : Port) :
    sessionRefusal r ((s.renew p).session p).state = sessionRefusal r (s.session p).state := by
  unfold State.renew
  split
  · next hopened =>
    simp only [State.session_withSession, if_true, hopened]
    cases r <;> rfl
  · rfl

/-- SET_TIME moves a lease deadline and ends no session. -/
theorem isOpen_setTime (v : Tick) (s : State) (p : Port) : (setTime v s).isOpen p = s.isOpen p := by
  have hshift : (setTime v s).session p = (s.session p).shift (v - s.now) := by cases p <;> rfl
  unfold State.isOpen
  rw [hshift, Session.shift]
  cases hstate : (s.session p).state <;> simp [hstate]

theorem orderly_setTime (v : Tick) (s : State) : Orderly s (setTime v s) := fun p h =>
  h.of_bare rfl (fun hs => isOpen_setTime v s p ▸ hs) fun _ hbare => ⟨hbare.owner, hbare.step, hbare.claim⟩

theorem unsubscribed_reset : PortInputs.reset.Unsubscribed := fun l => tget_replicate _ l

theorem latched_reset : PortInputs.reset.Latched := fun l hl => by simp [PortInputs.reset] at hl

theorem orderly_takeBack (p : Port) (s : State) : Orderly s (takeBack p s) :=
  (((orderly_withoutClaim p s).trans (orderly_freeAll p _)).trans
    (orderly_withInputsOf (fun _ _ => unsubscribed_reset) fun _ => latched_reset)).trans (orderly_withPort _ _ _)

/-- What is taken back from a port leaves it nothing, whatever it had. -/
theorem standing_takeBack (p : Port) (s : State) : Standing (takeBack p s) p := by
  have hbare : Bare (freeAll p (s.withClaim p none)) p := bare_freeAll (by rw [State.claim_withClaim, if_pos rfl])
  have hinputs : (takeBack p s).inputsOf p = PortInputs.reset := by simp [takeBack, dropCache, clearInputsOf]
  exact ⟨fun _ => ⟨hbare.owner, hbare.step, hbare.claim⟩, fun _ => hinputs ▸ unsubscribed_reset,
    hinputs ▸ latched_reset⟩

/-- A session ends, and everything the port had is taken back (R115, R117). -/
theorem orderly_takeBack_withSession (p : Port) (x : Session) (s : State) :
    Orderly s (takeBack p (s.withSession p x)) := by
  intro q h
  by_cases hq : q = p
  · subst hq; exact standing_takeBack q _
  · refine orderly_takeBack p _ q (h.of_bare rfl (fun hs => ?_) fun _ hbare => ⟨hbare.owner, hbare.step, hbare.claim⟩)
    rwa [isOpen_withSession_of_ne hq]

theorem orderly_lapseWork (p : Port) (s : State) : Orderly s (lapseWork p s) := by
  unfold lapseWork
  split
  · exact Orderly.done (Orderly.arbiterPass (orderly_takeBack_withSession p _ s))
  · exact .refl s

theorem orderly_closeWork (p : Port) (s : State) : Orderly s (closeWork p s).st :=
  Orderly.arbiterPass (orderly_takeBack_withSession p _ s)

/-! ### Phases and configuration -/

/-- With its claims and owners gone, no port has anything but steps. -/
theorem orderly_dispossess (s : State) : Orderly s (dispossess s) := by
  have frame : OwnersOnly s (dispossess s) :=
    ((ownersOnly_withRuntimes s _).trans (ownersOnly_dropClaims _)).trans (ownersOnly_withOwners _ _)
  refine frame.orderly (fun p _ _ l => ?_) fun p _ _ => claim_dispossess s p
  rw [owner_dispossess]
  exact nofun

theorem orderly_stopWork (p : Port) (s : State) : Orderly s (stopWork p s).st := by
  have hpurged : Orderly s (purge p s) := orderly_freeSlots _ s
  have hdriven := (hpurged.trans (orderly_dispossess _)).trans (outputsOnly_directDrive _).orderly
  unfold stopWork Work.tellPhase Work.emitOpen
  dsimp only
  rw [expireClaims_st]
  exact hdriven.trans (orderly_withPhase _ .setup)

theorem orderly_enterFault (s : State) : Orderly s (enterFault s).st := by
  have hpurged : Orderly s (purgeAll s) := orderly_freeSlots _ s
  have hdriven := (hpurged.trans (orderly_dispossess _)).trans (outputsOnly_directDrive _).orderly
  exact hdriven.trans (orderly_withPhase _ .fault)

theorem orderly_writeRecord (r : Record) (s : State) : Orderly s (writeRecord r s) := by
  cases r with
  | timebase source divider window => exact orderly_withClock s _
  | outputLine n used safe =>
    exact (outputsOnly_driveLine n _ s).orderly.trans (SameStanding.orderly ⟨rfl, rfl, rfl, rfl, rfl⟩)
  | inputLine n used filter => exact orderly_writeInputLine n used filter s
  | pair i c => exact SameStanding.orderly ⟨rfl, rfl, rfl, rfl, rfl⟩
  | quota a b c => exact SameStanding.orderly ⟨rfl, rfl, rfl, rfl, rfl⟩
  | arbiter mode p q x => exact orderly_withArbiter s _

/-- After reset no port has anything. -/
theorem orderly_enterReset (s : State) : Orderly s (enterReset s) := fun p _ => by
  have hinputs : (enterReset s).inputsOf p = PortInputs.reset := PerPort.get_all _ p
  have howner : ∀ l, (enterReset s).owner l = none := fun l => tget_replicate none l
  refine ⟨fun _ => ⟨fun l => by rw [howner]; exact nofun, fun i => ?_, PerPort.get_all none p⟩,
    fun _ => hinputs ▸ unsubscribed_reset, hinputs ▸ latched_reset⟩
  rw [State.ownsStep, step_enterReset]

end

/-! ### Time -/

theorem orderly_atTick {f : State → State} (hf : ∀ s, Orderly s (f s)) (s : State) : Orderly s (s.atTick f) := by
  unfold State.atTick
  split
  · exact hf s
  · exact .refl s

theorem orderly_deadlineWork (s : State) : Orderly s (deadlineWork s) := by
  have hfired : Orderly s (reachedMarkerWork (windowEndWork (everyBank.foldl (fun t k => bankFiringWork k t) s))) :=
    ((Orderly.foldl (fun t k => orderly_bankFiringWork k t) _ s).trans (orderly_windowEndWork _)).trans
      (orderly_reachedMarkerWork _)
  have hinterlocked := ((hfired.trans (orderly_guardEndWork 11 _)).trans (orderly_holdDeadlineWork 11 _)).trans
    (orderly_fallRecordEndWork 11 _)
  exact (hinterlocked.trans (.foldl (fun t p => orderly_lapseWork p t) _ _)).trans
    (.foldl (fun t p => orderly_waitDeadlineWork p t) _ _)

theorem orderly_settle (s : State) : Orderly s (settle s) := by
  unfold settle
  split
  · exact .refl s
  · unfold settleWork
    refine Orderly.trans ?_ (.foldl (fun t l => orderly_edgeEventWork l t) _ _)
    split
    · exact orderly_deadlineWork s
    · exact .refl s

theorem orderly_declareLoss (s : State) : Orderly s (declareLoss s) := by
  have hcleared : Orderly s (s.withClock { s.clock with present := false }) := orderly_withClock s _
  unfold declareLoss
  dsimp only
  split
  · exact Orderly.done (hcleared.trans (orderly_enterFault _))
  · exact hcleared

theorem orderly_clockLostWork (s : State) : Orderly s (clockLostWork s) := by
  unfold clockLostWork
  split
  · have hbefore : Orderly s (workBeforeLoss s) :=
      ((orderly_guardEndWork 11 s).trans (orderly_fallRecordEndWork 11 _)).trans
        (.foldl (fun t p => orderly_lapseWork p t) _ _)
    exact (hbefore.trans (orderly_withClock _ _)).trans (orderly_declareLoss _)
  · exact .refl s

theorem orderly_takeDueTick (s : State) : Orderly s (takeDueTick s) := by
  unfold takeDueTick
  split
  · exact SameStanding.orderly ⟨rfl, rfl, rfl, rfl, rfl⟩
  · exact .refl s

theorem orderly_settleMoment (s : State) : Orderly s (settleMoment s) := by
  unfold settleMoment
  extract_lets t u
  have ht : Orderly s t := orderly_settle s
  have hu : Orderly s u := by
    unfold u
    split
    · exact (ht.trans (orderly_takeDueTick t)).trans (orderly_settle _)
    · exact ht
  split
  · exact hu.trans (orderly_declareLoss u)
  · exact hu

theorem orderly_oscillatorPeriodWork (pins : InputMask) (s : State) : Orderly s (oscillatorPeriodWork pins s) :=
  (orderly_settleMoment s).trans (SameStanding.orderly ⟨rfl, rfl, rfl, rfl, rfl⟩)

theorem orderly_intTickWork (pins : InputMask) (s : State) : Orderly s (intTickWork pins s) := by
  unfold intTickWork
  split
  · exact (orderly_settle s).trans (orderly_clockTick _ _ pins)
  · exact .refl s

theorem orderly_tclkRiseWork (pins : InputMask) (s : State) : Orderly s (tclkRiseWork pins s) := by
  unfold tclkRiseWork
  split
  · exact (orderly_settleMoment s).trans (orderly_clockTick _ _ pins)
  · exact .refl s

/-! ### Requests -/

/-- A block that keeps the laws when it serves the request `r` from a port that the session test admits (R110). -/
def Serve.OrderlyOn (serve : Serve) (r : Request) : Prop :=
  ∀ p body before s, sessionRefusal r (s.session p).state = none → Orderly s (serve p r body before s).st

/-- The session test admits only an OPEN session to the requests that gain a port something. -/
theorem isOpen_of_admitted {s : State} {p : Port} {r : Request} (hr : r = .claim ∨ r = .place ∨ r = .subscribe)
    (h : sessionRefusal r (s.session p).state = none) : s.isOpen p = true := by
  unfold State.isOpen
  cases hstate : (s.session p).state with
  | opened period deadline => rfl
  | closed => rw [hstate] at h; rcases hr with rfl | rfl | rfl <;> cases h
  | lapsed => rw [hstate] at h; rcases hr with rfl | rfl | rfl <;> cases h

theorem orderly_answerOf {serve : Serve} {kind : Byte} (hserve : ∀ r, requestOf kind = some r → serve.OrderlyOn r)
    (p : Port) (body : List Byte) (s : State) : Orderly s (answerOf serve p kind body s).st := by
  have hrenew : Orderly s (s.renew p) := orderly_renew s p
  unfold answerOf
  split
  · exact hrenew
  next r hr =>
  split
  · exact hrenew
  next hadmitted =>
  split
  · exact hrenew
  · exact hrenew.trans (hserve r hr p body s _ ((sessionRefusal_renew r s p).trans hadmitted))

theorem orderly_answered {s : State} {a : Answer} (h : Orderly s a.st) (p : Port) (kind tag crc : Byte) :
    Orderly s (State.answered p kind tag crc a) := by
  have hreplied : Orderly a.st { a.st with ports := a.st.repliedPorts p kind tag crc a.body } :=
    SameStanding.orderly ⟨rfl, rfl, rfl, rfl, rfl⟩
  rw [State.answered_eq]
  exact (h.trans hreplied).trans (orderly_deliver _ _)

theorem orderly_take {serve : Serve} {inbound : Inbound}
    (hserve : ∀ kind tag body crc r, inbound = .frame kind tag body crc → requestOf kind = some r → serve.OrderlyOn r)
    (s : State) (p : Port) : Orderly s (s.take p inbound serve) := by
  unfold State.take
  split
  · exact .refl s
  · split
    · exact orderly_withPort s p _
    · exact orderly_withPort s p _
  next kind tag body crc =>
  split
  · exact orderly_withPort s p _
  · split
    · exact (orderly_renew s p).trans (orderly_withPort _ p _)
    · exact orderly_answered (orderly_answerOf (fun r => hserve kind tag body crc r rfl) p body s) p kind tag crc

/-- A rise of chip select keeps the laws when the block does so on every request that the row admits. -/
theorem orderly_chipSelectRise {row : Inbound → Transfer → State → Bool} {serve : Serve}
    (hserve : ∀ kind tag body crc x s r, row (.frame kind tag body crc) x s = true → requestOf kind = some r →
      serve.OrderlyOn r) (p : Port) (mosi : List Byte) (s : State) : Orderly s (chipSelectRise row serve p mosi s) := by
  unfold chipSelectRise
  split
  · exact orderly_withPort s p _
  split
  · exact orderly_withPort s p _
  next x _ =>
  dsimp only
  split
  · next hrow =>
    refine (orderly_fetchEnd s p _).trans (orderly_take (fun kind tag body crc r hframe => ?_) _ p)
    exact hserve kind tag body crc _ s r (hframe ▸ hrow)
  · exact .refl s

/-- The row of one request. -/
theorem orderly_requestRise {serve : Serve} {r : Request} (hserve : serve.OrderlyOn r) (p : Port) (mosi : List Byte)
    (s : State) : Orderly s (chipSelectRise (isRequest r) serve p mosi s) :=
  orderly_chipSelectRise (fun kind _ _ _ _ _ r' hrow hr' => by
    have hr : requestOf kind = some r := beq_iff_eq.mp hrow
    cases hr'.symm.trans hr
    exact hserve) p mosi s

/-- A row whose block keeps the laws on every request. -/
theorem orderly_anyRise {serve : Serve} (hserve : ∀ r, serve.OrderlyOn r) (row : Inbound → Transfer → State → Bool)
    (p : Port) (mosi : List Byte) (s : State) : Orderly s (chipSelectRise row serve p mosi s) :=
  orderly_chipSelectRise (fun _ _ _ _ _ _ r _ _ => hserve r) p mosi s

/-- A block that answers and does no work. -/
theorem Serve.OrderlyOn.of_idle {serve : Serve} {r : Request} (h : ∀ p body before s, (serve p r body before s).st = s) :
    serve.OrderlyOn r := fun p body before s _ => by
  rw [h]
  exact .refl s

theorem orderlyOn_serveNone (r : Request) : serveNone.OrderlyOn r := .of_idle fun _ _ _ _ => rfl

theorem orderlyOn_serveReadOutputs (r : Request) : Serve.OrderlyOn serveReadOutputs r := .of_idle fun p body before s => by
  unfold serveReadOutputs; split <;> rfl

theorem orderlyOn_servePairStatus (r : Request) : Serve.OrderlyOn servePairStatus r := .of_idle fun p body before s => by
  unfold servePairStatus; split <;> rfl

theorem orderlyOn_serveList (r : Request) : Serve.OrderlyOn serveList r := .of_idle fun p body before s => by
  unfold serveList; split <;> rfl

theorem orderlyOn_serveOwners (r : Request) : Serve.OrderlyOn serveOwners r := .of_idle fun p body before s => by
  unfold serveOwners; split <;> rfl

theorem orderlyOn_serveRenew (r : Request) : Serve.OrderlyOn serveRenew r := .of_idle fun p body before s => by
  unfold serveRenew; split <;> rfl

theorem orderlyOn_serveReadTime (r : Request) : Serve.OrderlyOn serveReadTime r := .of_idle fun p body before s => by
  unfold serveReadTime; split <;> rfl

theorem orderlyOn_serveReadInputs (r : Request) : Serve.OrderlyOn serveReadInputs r := .of_idle fun p body before s => by
  unfold serveReadInputs; split <;> rfl

theorem orderlyOn_serveConfigRead (r : Request) : Serve.OrderlyOn serveConfigRead r := .of_idle fun p body before s => by
  unfold serveConfigRead; split <;> rfl

theorem orderlyOn_serveQueryStep (r : Request) : Serve.OrderlyOn serveQueryStep r := .of_idle fun p body before s => by
  unfold serveQueryStep
  split
  · rfl
  split
  · rfl
  split <;> rfl

theorem orderlyOn_serveStatus (r : Request) : Serve.OrderlyOn serveStatus r := fun p body before s _ => by
  unfold serveStatus
  split
  · exact .refl s
  · exact orderly_withPort s p _

theorem orderlyOn_serveOpen (r : Request) : Serve.OrderlyOn serveOpen r := fun p body before s _ => by
  unfold serveOpen
  split
  · exact .refl s
  · exact (orderly_openSession p _ _ _ s).trans (orderly_withPort _ p _)

/-- From an OPEN session CLOSE takes everything back; a LAPSED one has nothing left (R117). -/
theorem orderlyOn_serveClose (r : Request) : Serve.OrderlyOn serveClose r := fun p body before s _ => by
  unfold serveClose
  split
  · exact .refl s
  split
  · exact orderly_closeWork p s
  · next hclosed =>
    refine orderly_withSession fun hopen => ?_
    unfold State.isOpen at hopen
    split at hopen
    · next period deadline hstate => exact absurd hstate (hclosed period deadline)
    · cases hopen

theorem orderlyOn_serveSubscribe : Serve.OrderlyOn serveSubscribe .subscribe := fun p body before s hadmitted => by
  have hopen := isOpen_of_admitted (.inr (.inr rfl)) hadmitted
  unfold serveSubscribe
  split
  · exact .refl s
  next m k _ =>
  split
  · exact .refl s
  · exact orderly_withInputsOf (fun hclosed => nomatch hclosed.symm.trans hopen) fun h => latched_subscribeTo h m k

theorem orderlyOn_serveClearPending (r : Request) : Serve.OrderlyOn serveClearPending r := fun p body before s _ => by
  unfold serveClearPending
  split
  · exact .refl s
  next m _ => exact orderly_clearPendingBits p m s

theorem orderlyOn_serveClaim : Serve.OrderlyOn serveClaim .claim := fun p body before s hadmitted => by
  have hopen := isOpen_of_admitted (.inl rfl) hadmitted
  unfold serveClaim
  iterate 2 (split; · exact .refl s)
  next b _ =>
  iterate 4 (split; · exact .refl s)
  split
  · exact orderly_grantLines hopen b.mask
  split
  · unfold queueClaim
    split
    · exact .refl s
    · exact orderly_withClaim hopen _
  · exact .refl s

theorem orderlyOn_serveClaimWithdraw (r : Request) : Serve.OrderlyOn serveClaimWithdraw r := fun p body before s _ => by
  unfold serveClaimWithdraw
  iterate 3 (split; · exact .refl s)
  exact orderly_withoutClaim p s

theorem orderlyOn_serveRelease (r : Request) : Serve.OrderlyOn serveRelease r := fun p body before s _ => by
  unfold serveRelease
  iterate 2 (split; · exact .refl s)
  next m _ =>
  iterate 2 (split; · exact .refl s)
  exact Orderly.arbiterPass (orderly_freeReleased p m s)

theorem orderlyOn_servePlace : Serve.OrderlyOn servePlace .place := fun p body before s hadmitted => by
  have hopen := isOpen_of_admitted (.inr (.inl rfl)) hadmitted
  unfold servePlace
  iterate 3 (split; · exact .refl s)
  next ds _ => exact orderly_placeWork hopen ds

theorem orderlyOn_serveCancel (r : Request) : Serve.OrderlyOn serveCancel r := fun p body before s _ => by
  unfold serveCancel
  iterate 3 (split; · exact .refl s)
  exact orderly_freeSlots _ s

theorem orderlyOn_serveCancelAll (r : Request) : Serve.OrderlyOn serveCancelAll r := fun p body before s _ => by
  unfold serveCancelAll
  iterate 2 (split; · exact .refl s)
  exact orderly_freeSlots _ s

theorem orderlyOn_serveAmend (r : Request) : Serve.OrderlyOn serveAmend r := fun p body before s _ => by
  unfold serveAmend
  iterate 2 (split; · exact .refl s)
  next b _ =>
  split
  · exact .refl s
  next hnamed =>
  have hst := step_of_namedStep hnamed
  iterate 3 (split; · exact .refl s)
  · split
    · exact orderly_amendWork hst b
    · exact .refl s
  · exact orderly_amendWork hst b

theorem orderlyOn_serveConfigWrite (r : Request) : Serve.OrderlyOn serveConfigWrite r := fun p body before s _ => by
  unfold serveConfigWrite
  iterate 2 (split; · exact .refl s)
  next record _ =>
  split
  · exact .refl s
  · exact orderly_writeRecord record s

theorem orderlyOn_serveSetTime (r : Request) : Serve.OrderlyOn serveSetTime r := fun p body before s _ => by
  unfold serveSetTime
  iterate 2 (split; · exact .refl s)
  next v _ => exact (orderly_settle s).trans (orderly_setTime v _)

theorem orderlyOn_serveStart (r : Request) : Serve.OrderlyOn serveStart r := fun p body before s _ => by
  unfold serveStart
  iterate 3 (split; · exact .refl s)
  exact orderly_withPhase s .run

theorem orderlyOn_serveStop (r : Request) : Serve.OrderlyOn serveStop r := fun p body before s _ => by
  unfold serveStop
  iterate 3 (split; · exact .refl s)
  exact orderly_stopWork p s

theorem orderlyOn_serveClearFault (r : Request) : Serve.OrderlyOn serveClearFault r := fun p body before s _ => by
  unfold serveClearFault
  iterate 3 (split; · exact .refl s)
  exact orderly_withPhase s .setup

theorem orderlyOn_serveAny (r : Request) : Serve.OrderlyOn serveAny r := by
  cases r with
  | status => exact orderlyOn_serveStatus .status
  | openSession => exact orderlyOn_serveOpen .openSession
  | closeSession => exact orderlyOn_serveClose .closeSession
  | renew => exact orderlyOn_serveRenew .renew
  | readTime => exact orderlyOn_serveReadTime .readTime
  | configWrite => exact orderlyOn_serveConfigWrite .configWrite
  | configRead => exact orderlyOn_serveConfigRead .configRead
  | setTime => exact orderlyOn_serveSetTime .setTime
  | start => exact orderlyOn_serveStart .start
  | stop => exact orderlyOn_serveStop .stop
  | clearFault => exact orderlyOn_serveClearFault .clearFault
  | claim => exact orderlyOn_serveClaim
  | claimWithdraw => exact orderlyOn_serveClaimWithdraw .claimWithdraw
  | release => exact orderlyOn_serveRelease .release
  | owners => exact orderlyOn_serveOwners .owners
  | readOutputs => exact orderlyOn_serveReadOutputs .readOutputs
  | pairStatus => exact orderlyOn_servePairStatus .pairStatus
  | place => exact orderlyOn_servePlace
  | cancel => exact orderlyOn_serveCancel .cancel
  | cancelAll => exact orderlyOn_serveCancelAll .cancelAll
  | amend => exact orderlyOn_serveAmend .amend
  | list => exact orderlyOn_serveList .list
  | queryStep => exact orderlyOn_serveQueryStep .queryStep
  | subscribe => exact orderlyOn_serveSubscribe
  | clearPending => exact orderlyOn_serveClearPending .clearPending
  | readInputs => exact orderlyOn_serveReadInputs .readInputs

/-! ### Commands -/

theorem orderly_beginTransaction (p : Port) (s : State) : Orderly s (beginTransaction p s) := by
  unfold beginTransaction
  split
  · exact .refl s
  · exact orderly_withPort s p _

theorem orderly_clockCycle (p : Port) (bit : Bool) (s : State) : Orderly s (clockCycle p bit s) := by
  unfold clockCycle
  split
  · exact .refl s
  · exact orderly_withPort s p _

/-- Outside reset a command does its work, and while reset is held nothing. -/
theorem orderly_unlessReset {f : State → State} (hf : ∀ s, Orderly s (f s)) (s : State) :
    Orderly s (if s.inReset then s else f s) := by
  split
  · exact .refl s
  · exact hf s

/-- Every command keeps the laws of every port, and always answers a next state. -/
theorem exec_orderly (c : Instr) (s : State) : ∃ t, exec c s = .next t ∧ Orderly s t := by
  cases c with
  | transactionBegin p => exact ⟨_, rfl, orderly_beginTransaction p s⟩
  | nop p mosi => exact ⟨_, rfl, orderly_anyRise orderlyOn_serveNone _ p mosi s⟩
  | edgeSummary p mosi => exact ⟨_, rfl, orderly_anyRise orderlyOn_serveAny _ p mosi s⟩
  | eFrame p mosi => exact ⟨_, rfl, orderly_anyRise orderlyOn_serveNone _ p mosi s⟩
  | eKind p mosi => exact ⟨_, rfl, orderly_anyRise orderlyOn_serveNone _ p mosi s⟩
  | status p mosi => exact ⟨_, rfl, orderly_requestRise (orderlyOn_serveStatus .status) p mosi s⟩
  | openSession p mosi => exact ⟨_, rfl, orderly_requestRise (orderlyOn_serveOpen .openSession) p mosi s⟩
  | closeSession p mosi => exact ⟨_, rfl, orderly_requestRise (orderlyOn_serveClose .closeSession) p mosi s⟩
  | renew p mosi => exact ⟨_, rfl, orderly_requestRise (orderlyOn_serveRenew .renew) p mosi s⟩
  | readTime p mosi => exact ⟨_, rfl, orderly_requestRise (orderlyOn_serveReadTime .readTime) p mosi s⟩
  | configWriteTimebase p mosi => exact ⟨_, rfl, orderly_anyRise orderlyOn_serveConfigWrite _ p mosi s⟩
  | configWriteOutputLine p mosi => exact ⟨_, rfl, orderly_anyRise orderlyOn_serveConfigWrite _ p mosi s⟩
  | configWriteInputLine p mosi => exact ⟨_, rfl, orderly_anyRise orderlyOn_serveConfigWrite _ p mosi s⟩
  | configWritePair p mosi => exact ⟨_, rfl, orderly_anyRise orderlyOn_serveConfigWrite _ p mosi s⟩
  | configWriteQuota p mosi => exact ⟨_, rfl, orderly_anyRise orderlyOn_serveConfigWrite _ p mosi s⟩
  | configWriteArbiter p mosi => exact ⟨_, rfl, orderly_anyRise orderlyOn_serveConfigWrite _ p mosi s⟩
  | configRead p mosi => exact ⟨_, rfl, orderly_requestRise (orderlyOn_serveConfigRead .configRead) p mosi s⟩
  | setTime p mosi => exact ⟨_, rfl, orderly_requestRise (orderlyOn_serveSetTime .setTime) p mosi s⟩
  | start p mosi => exact ⟨_, rfl, orderly_requestRise (orderlyOn_serveStart .start) p mosi s⟩
  | stop p mosi => exact ⟨_, rfl, orderly_requestRise (orderlyOn_serveStop .stop) p mosi s⟩
  | clearFault p mosi => exact ⟨_, rfl, orderly_requestRise (orderlyOn_serveClearFault .clearFault) p mosi s⟩
  | claim p mosi => exact ⟨_, rfl, orderly_requestRise orderlyOn_serveClaim p mosi s⟩
  | claimWithdraw p mosi => exact ⟨_, rfl, orderly_requestRise (orderlyOn_serveClaimWithdraw .claimWithdraw) p mosi s⟩
  | release p mosi => exact ⟨_, rfl, orderly_requestRise (orderlyOn_serveRelease .release) p mosi s⟩
  | owners p mosi => exact ⟨_, rfl, orderly_requestRise (orderlyOn_serveOwners .owners) p mosi s⟩
  | readOutputs p mosi => exact ⟨_, rfl, orderly_requestRise (orderlyOn_serveReadOutputs .readOutputs) p mosi s⟩
  | pairStatus p mosi => exact ⟨_, rfl, orderly_requestRise (orderlyOn_servePairStatus .pairStatus) p mosi s⟩
  | place p mosi => exact ⟨_, rfl, orderly_requestRise orderlyOn_servePlace p mosi s⟩
  | cancel p mosi => exact ⟨_, rfl, orderly_requestRise (orderlyOn_serveCancel .cancel) p mosi s⟩
  | cancelAll p mosi => exact ⟨_, rfl, orderly_requestRise (orderlyOn_serveCancelAll .cancelAll) p mosi s⟩
  | amend p mosi => exact ⟨_, rfl, orderly_requestRise (orderlyOn_serveAmend .amend) p mosi s⟩
  | list p mosi => exact ⟨_, rfl, orderly_requestRise (orderlyOn_serveList .list) p mosi s⟩
  | queryStep p mosi => exact ⟨_, rfl, orderly_requestRise (orderlyOn_serveQueryStep .queryStep) p mosi s⟩
  | subscribe p mosi => exact ⟨_, rfl, orderly_requestRise orderlyOn_serveSubscribe p mosi s⟩
  | clearPending p mosi => exact ⟨_, rfl, orderly_requestRise (orderlyOn_serveClearPending .clearPending) p mosi s⟩
  | readInputs p mosi => exact ⟨_, rfl, orderly_requestRise (orderlyOn_serveReadInputs .readInputs) p mosi s⟩
  | reset => exact ⟨_, rfl, orderly_enterReset s⟩
  | intTick pins => exact ⟨_, rfl, orderly_unlessReset (orderly_intTickWork pins) s⟩
  | tclkRise pins => exact ⟨_, rfl, orderly_unlessReset (orderly_tclkRiseWork pins) s⟩
  | clockLost => exact ⟨_, rfl, orderly_unlessReset orderly_clockLostWork s⟩
  | bankFiring k => exact ⟨_, rfl, orderly_atTick (orderly_bankFiringWork k) s⟩
  | windowEnd => exact ⟨_, rfl, orderly_atTick orderly_windowEndWork s⟩
  | reachedMarker => exact ⟨_, rfl, orderly_atTick orderly_reachedMarkerWork s⟩
  | edgeEvent l => exact ⟨_, rfl, orderly_unlessReset (orderly_edgeEventWork l) s⟩
  | guardEnd k => exact ⟨_, rfl, orderly_atTick (orderly_guardEndWork k) s⟩
  | fallRecordEnd k => exact ⟨_, rfl, orderly_atTick (orderly_fallRecordEndWork k) s⟩
  | holdDeadline k => exact ⟨_, rfl, orderly_atTick (orderly_holdDeadlineWork k) s⟩
  | waitDeadline p => exact ⟨_, rfl, orderly_atTick (orderly_waitDeadlineWork p) s⟩
  | lapse p => exact ⟨_, rfl, orderly_atTick (orderly_lapseWork p) s⟩
  | spiClockCycle p bit => exact ⟨_, rfl, orderly_unlessReset (orderly_clockCycle p bit) s⟩
  | oscillatorPeriod pins => exact ⟨_, rfl, orderly_unlessReset (orderly_oscillatorPeriodWork pins) s⟩
  | resetEnd => exact ⟨_, rfl, SameStanding.orderly ⟨rfl, rfl, rfl, rfl, rfl⟩⟩

/-- The front command leaves the queue, and its work follows. -/
theorem step_orderly {s t : State} (h : step s = .next t) : Orderly s t := by
  unfold step at h
  split at h
  · cases h; exact .refl s
  · next c rest _ =>
    obtain ⟨u, hu, horderly⟩ := exec_orderly c { s with pending := rest }
    cases hu.symm.trans h
    have hqueue : Orderly s { s with pending := rest } := SameStanding.orderly ⟨rfl, rfl, rfl, rfl, rfl⟩
    exact hqueue.trans horderly

/-- Settles O54: the two laws are laws of each port, and a step keeps them port by port. -/
theorem everyStepKeepsTheSessionLaw : Obligations.EveryStepKeepsTheSessionLaw := by
  intro s t hsession hlatch hstep
  have h := forall_standing_iff.mpr ⟨hsession, hlatch⟩
  exact forall_standing_iff.mp fun p => step_orderly hstep p (h p)

end Sys2Proof.Machine
end

/-! ## The queue law

A notice is admitted only where at most 14 entries stand, so notices alone make no queue longer than 15 entries (R175), and the
sixteenth entry is left to a reply, which is a reply or a repeat and no notice (R174). All work of an event keeps that room. The
answer to a frame takes it, where there is any when the frame arrives. -/

section
namespace Sys2Proof.Machine

/-! ### Work that leaves the room for a reply -/

/-- From `s` to `t` no queue grows beyond 15 entries, and no queue gains notices beyond 15; one that was beyond does not grow. -/
def KeepsRoom (s t : State) : Prop :=
  ∀ p, (t.port p).queue.length ≤ max (s.port p).queue.length 15
    ∧ noticeCount (t.port p).queue ≤ max (noticeCount (s.port p).queue) 15

theorem KeepsRoom.trans {s t u : State} (h : KeepsRoom s t) (h' : KeepsRoom t u) : KeepsRoom s u := fun p => by
  have := h p
  have := h' p
  omega

/-- What is done to the other fields leaves the queues alone. -/
theorem KeepsRoom.of_ports {s t : State} (h : t.ports = s.ports) : KeepsRoom s t := fun p => by
  have hp : t.port p = s.port p := by simp [State.port, h]
  rw [hp]
  exact ⟨le_max_left _ _, le_max_left _ _⟩

theorem KeepsRoom.refl (s : State) : KeepsRoom s s := .of_ports rfl

theorem KeepsRoom.foldl {α : Type} {f : State → α → State} (hf : ∀ s a, KeepsRoom s (f s a)) (l : List α) (s : State) :
    KeepsRoom s (l.foldl f s) := by
  induction l generalizing s with
  | nil => exact .refl s
  | cons a l ih => exact (hf s a).trans (ih _)

theorem KeepsRoom.foldl_work {α : Type} {f : Work → α → Work} (hf : ∀ w a, KeepsRoom w.st (f w a).st) (l : List α)
    (w : Work) : KeepsRoom w.st (l.foldl f w).st := by
  induction l generalizing w with
  | nil => exact .refl _
  | cons a l ih => exact (hf w a).trans (ih _)

/-- The law of the queues follows: 16 entries are beyond 15, 15 notices are not. -/
theorem KeepsRoom.queueLaw {s t : State} (h : KeepsRoom s t) (law : QueueLaw s) : QueueLaw t := fun p => by
  have := h p
  have := law p
  omega

/-- A queue that holds fewer than 16 entries still does. -/
theorem KeepsRoom.length_lt {s t : State} (h : KeepsRoom s t) {p : Port} (hroom : (s.port p).queue.length < 16) :
    (t.port p).queue.length < 16 := by
  have := (h p).1
  omega

section
variable {s t : State}

theorem OutputsOnly.keepsRoom (h : OutputsOnly s t) : KeepsRoom s t := .of_ports (by rw [h])

theorem CalendarOnly.keepsRoom (h : CalendarOnly s t) : KeepsRoom s t := .of_ports (by rw [h])

theorem OwnersOnly.keepsRoom (h : OwnersOnly s t) : KeepsRoom s t := .of_ports (by rw [h])

end

/-! ### One queue -/

theorem noticeCount_le_length (q : List Entry) : noticeCount q ≤ q.length := List.countP_le_length

/-- A port's new queue decides. -/
theorem keepsRoom_withPort {s : State} {p : Port} {h : HostPort}
    (hlength : h.queue.length ≤ max (s.port p).queue.length 15)
    (hnotices : noticeCount h.queue ≤ max (noticeCount (s.port p).queue) 15) : KeepsRoom s (s.withPort p h) := fun q => by
  rw [State.port_withPort]
  split
  · next hq => subst hq; exact ⟨hlength, hnotices⟩
  · exact KeepsRoom.refl s q

/-- A queue may lose entries. -/
theorem keepsRoom_of_sublist {s : State} {p : Port} {h : HostPort} (hq : h.queue.Sublist (s.port p).queue) :
    KeepsRoom s (s.withPort p h) :=
  keepsRoom_withPort (hq.length_le.trans (le_max_left _ _)) (hq.countP_le.trans (le_max_left _ _))

/-- A port may change outside its queue. -/
theorem keepsRoom_of_queue {s : State} {p : Port} {h : HostPort} (hq : h.queue = (s.port p).queue) :
    KeepsRoom s (s.withPort p h) :=
  keepsRoom_of_sublist (hq ▸ List.Sublist.refl _)

/-- An admitted notice makes a queue of 15 entries at most (R175). -/
theorem keepsRoom_pushNotice {s : State} {p : Port} (hadmits : (s.port p).queue.length ≤ 14) (x : Notice) :
    KeepsRoom s (s.pushNotice p x) := by
  have hlength : ((s.port p).queue ++ [x.entry (s.port p).sequence]).length ≤ 15 := by
    rw [List.length_append, List.length_singleton]; omega
  exact keepsRoom_withPort (hlength.trans (le_max_right _ _))
    ((noticeCount_le_length _).trans (hlength.trans (le_max_right _ _)))

theorem State.admits_iff {s : State} {p : Port} : s.admits p = true ↔ (s.port p).queue.length ≤ 14 := decide_eq_true_iff

/-! ### Notices and the ends of transactions -/

theorem keepsRoom_notify (s : State) (e : Emit) : KeepsRoom s (s.notify e) := by
  unfold State.notify
  split
  · next hadmits => exact keepsRoom_pushNotice (State.admits_iff.mp hadmits) e.2
  · exact keepsRoom_of_queue rfl

theorem keepsRoom_deliver (s : State) (es : List Emit) : KeepsRoom s (s.deliver es) := .foldl keepsRoom_notify es s

/-- The notices of an event come after its work. -/
theorem KeepsRoom.done {s : State} {w : Work} (h : KeepsRoom s w.st) : KeepsRoom s w.done :=
  h.trans (keepsRoom_deliver w.st w.out)

theorem keepsRoom_offerEdge (e : Edge) (s : State) (p : Port) : KeepsRoom s (offerEdge e s p) := by
  unfold offerEdge
  split
  · split
    · next hoffer => exact keepsRoom_pushNotice (State.admits_iff.mp hoffer.2) _
    · exact .of_ports rfl
  · exact .refl s

theorem keepsRoom_endTransfer (s : State) (p : Port) (x : Transfer) : KeepsRoom s (s.endTransfer p x) := by
  refine keepsRoom_of_sublist ?_
  dsimp only
  split
  · exact List.tail_sublist _
  · exact List.Sublist.refl _

/-- An EDGE_SUMMARY is due only where the queue that the removal leaves admits it (R134). -/
theorem length_endTransfer_of_summaryDue {s : State} {p : Port} {x : Transfer} (h : s.summaryDue p x = true) :
    ((s.endTransfer p x).port p).queue.length ≤ 14 := by
  simp only [State.summaryDue, Bool.and_eq_true, decide_eq_true_eq] at h
  obtain ⟨⟨hremoves, _⟩, hroom⟩ := h
  rw [State.endTransfer, State.port_withPort, if_pos rfl, hremoves]
  exact hroom

theorem keepsRoom_fetchEnd (s : State) (p : Port) (x : Transfer) : KeepsRoom s (s.fetchEnd p x) := by
  unfold State.fetchEnd
  split
  · next hdue =>
    have hpushed := keepsRoom_pushNotice (length_endTransfer_of_summaryDue hdue)
      (.edgeSummary ((s.endTransfer p x).inputsOf p).rises ((s.endTransfer p x).inputsOf p).falls (s.endTransfer p x).now)
    exact ((keepsRoom_endTransfer s p x).trans hpushed).trans (.of_ports rfl)
  · exact keepsRoom_endTransfer s p x

theorem keepsRoom_renew (s : State) (p : Port) : KeepsRoom s (s.renew p) := .of_ports (by rw [State.renew_eq])

/-! ### The interlock and the calendar -/

theorem keepsRoom_guardEndWork (k : PairIndex) (s : State) : KeepsRoom s (guardEndWork k s) :=
  .foldl (fun s k => (outputsOnly_endGuard s k).keepsRoom) _ s

theorem keepsRoom_fallRecordEndWork (k : PairIndex) (s : State) : KeepsRoom s (fallRecordEndWork k s) :=
  .foldl (fun s k => (outputsOnly_endFallRecord s k).keepsRoom) _ s

theorem keepsRoom_holdDeadlineWork (k : PairIndex) (s : State) : KeepsRoom s (holdDeadlineWork k s) :=
  KeepsRoom.done (.foldl_work (fun w k => (outputsOnly_holdEnd w k).keepsRoom) _ (Work.of s))

theorem keepsRoom_freeSlots (is : List SlotIndex) (s : State) : KeepsRoom s (freeSlots is s) :=
  (calendarOnly_freeSlots is s).keepsRoom

theorem keepsRoom_fireSteps (fs : List Firing) (s : State) : KeepsRoom s (fireSteps fs s).st :=
  .of_ports (by rw [fireSteps_frame])

theorem keepsRoom_bankFiringWork (k : Bank) (s : State) : KeepsRoom s (bankFiringWork k s) :=
  (keepsRoom_fireSteps _ s).done

theorem keepsRoom_closeWindow (w : Work) (i : SlotIndex) : KeepsRoom w.st (closeWindow w i).st := by
  unfold closeWindow
  split
  · exact .refl _
  · exact (calendarOnly_freeSlot i w.st).keepsRoom

theorem keepsRoom_windowEndWork (s : State) : KeepsRoom s (windowEndWork s) :=
  KeepsRoom.done (.foldl_work keepsRoom_closeWindow _ (Work.of s))

theorem keepsRoom_reachedMarkerWork (s : State) : KeepsRoom s (reachedMarkerWork s) :=
  .foldl (fun s i => (calendarOnly_markReached s i).keepsRoom) _ s

theorem keepsRoom_serveEdge (e : Edge) (s : State) : KeepsRoom s (serveEdge e s).st := by
  have hentered := (CalendarOnly.foldl calendarOnly_enterTriggered ((s.armedList e.line).filterMap (triggerOf s e)) s).keepsRoom
  exact hentered.trans (outputsOnly_fireBanks _ (Work.of _)).keepsRoom

theorem keepsRoom_edgeEventWork (l : InLine) (s : State) : KeepsRoom s (edgeEventWork l s) := by
  unfold edgeEventWork
  split
  · exact .refl s
  · next e _ =>
    have haccepted : KeepsRoom s (s.withFilter l (acceptEdge (s.filter l))) := .of_ports rfl
    exact (haccepted.trans (keepsRoom_serveEdge e _)).done.trans (.foldl (keepsRoom_offerEdge e) _ _)

theorem keepsRoom_placeWork (p : Port) (ds : List Descriptor) (s : State) : KeepsRoom s (placeWork p ds s).st := by
  have htaken : KeepsRoom s (takeSlots p ds s).2 := .of_ports (by rw [(taken_takeSlots p ds s).frame])
  have hentered := (CalendarOnly.foldl calendarOnly_enterPlaced (takeSlots p ds s).1 (takeSlots p ds s).2).keepsRoom
  exact (htaken.trans hentered).trans (outputsOnly_fireBanks _ (Work.of _)).keepsRoom

theorem keepsRoom_amendWork (i : SlotIndex) (st : StepRecord) (b : AmendBody) (s : State) :
    KeepsRoom s (amendWork i st b s).st := by
  unfold amendWork
  dsimp only
  split
  · exact .of_ports rfl
  · exact keepsRoom_fireSteps _ s

/-! ### Claims, sessions and phases -/

theorem KeepsRoom.arbiterPass {s : State} {w : Work} (h : KeepsRoom s w.st) : KeepsRoom s (arbiterPass w).st :=
  h.trans (.foldl_work (fun w p => (ownersOnly_arbiterTurn w p).keepsRoom) _ w)

theorem keepsRoom_waitDeadlineWork (p : Port) (s : State) : KeepsRoom s (waitDeadlineWork p s) := by
  unfold waitDeadlineWork
  split
  · exact .refl s
  · split
    · exact KeepsRoom.done (ownersOnly_withClaim s p none).keepsRoom
    · exact .refl s

theorem keepsRoom_freeReleased (p : Port) (m : LineMask) (s : State) : KeepsRoom s (freeReleased p m s) :=
  ((ownersOnly_withOwners s _).keepsRoom.trans (calendarOnly_trim p m _).keepsRoom).trans
    (outputsOnly_surrender m _).keepsRoom

theorem keepsRoom_freeAll (p : Port) (s : State) : KeepsRoom s (freeAll p s) :=
  ((ownersOnly_withOwners s _).keepsRoom.trans (keepsRoom_freeSlots _ _)).trans (outputsOnly_surrender _ _).keepsRoom

theorem keepsRoom_dropCache (p : Port) (s : State) : KeepsRoom s (dropCache p s) := keepsRoom_of_queue rfl

/-- What is taken back with a session leaves the entries of its port queued (R115). -/
theorem keepsRoom_takeBack (p : Port) (s : State) : KeepsRoom s (takeBack p s) :=
  (((ownersOnly_withClaim s p none).keepsRoom.trans (keepsRoom_freeAll p _)).trans
    (.of_ports (State.withInputsOf_ports _ p _))).trans (keepsRoom_dropCache p _)

theorem keepsRoom_endSession (p : Port) (x : Session) (s : State) : KeepsRoom s (takeBack p (s.withSession p x)) :=
  KeepsRoom.trans (.of_ports (State.withSession_ports s p x)) (keepsRoom_takeBack p _)

theorem keepsRoom_lapseWork (p : Port) (s : State) : KeepsRoom s (lapseWork p s) := by
  unfold lapseWork
  split
  · exact KeepsRoom.done (KeepsRoom.arbiterPass (keepsRoom_endSession p _ s))
  · exact .refl s

theorem keepsRoom_closeWork (p : Port) (s : State) : KeepsRoom s (closeWork p s).st :=
  KeepsRoom.arbiterPass (keepsRoom_endSession p _ s)

/-- STOP and the entry into FAULT, once the steps are gone. -/
theorem keepsRoom_directDrive_dispossess (f : Phase) (s : State) :
    KeepsRoom s ((directDrive (dispossess s)).withPhase f) := by
  have hdispossessed : OwnersOnly s (dispossess s) :=
    ((ownersOnly_withRuntimes s _).trans (ownersOnly_dropClaims _)).trans (ownersOnly_withOwners _ _)
  exact (hdispossessed.keepsRoom.trans (outputsOnly_directDrive _).keepsRoom).trans (.of_ports (State.withPhase_ports _ f))

theorem keepsRoom_stopWork (p : Port) (s : State) : KeepsRoom s (stopWork p s).st := by
  unfold stopWork Work.tellPhase Work.emitOpen
  dsimp only
  rw [expireClaims_st]
  exact (keepsRoom_freeSlots _ s).trans (keepsRoom_directDrive_dispossess .setup _)

theorem keepsRoom_enterFault (s : State) : KeepsRoom s (enterFault s).st :=
  (keepsRoom_freeSlots _ s).trans (keepsRoom_directDrive_dispossess .fault _)

theorem keepsRoom_writeInputLine (n : InLine) (used : Bool) (filter : Nat) (s : State) :
    KeepsRoom s (writeInputLine n used filter s) := by
  unfold writeInputLine
  extract_lets s'
  have hs' : KeepsRoom s s' := .of_ports rfl
  split
  · exact hs'
  · exact hs'.trans (.foldl (fun t p => .of_ports (State.withInputsOf_ports t p _)) _ _)

theorem keepsRoom_writeRecord (r : Record) (s : State) : KeepsRoom s (writeRecord r s) := by
  cases r with
  | outputLine n used safe => exact (outputsOnly_driveLine n _ s).keepsRoom.trans (.of_ports rfl)
  | inputLine n used filter => exact keepsRoom_writeInputLine n used filter s
  | timebase | pair | quota | arbiter => exact .of_ports rfl

/-! ### Time -/

theorem keepsRoom_atTick {f : State → State} (hf : ∀ s, KeepsRoom s (f s)) (s : State) : KeepsRoom s (s.atTick f) := by
  unfold State.atTick
  split
  · exact hf s
  · exact .refl s

theorem keepsRoom_deadlineWork (s : State) : KeepsRoom s (deadlineWork s) := by
  have hfired : KeepsRoom s (reachedMarkerWork (windowEndWork (everyBank.foldl (fun t k => bankFiringWork k t) s))) :=
    ((KeepsRoom.foldl (fun t k => keepsRoom_bankFiringWork k t) _ s).trans (keepsRoom_windowEndWork _)).trans
      (keepsRoom_reachedMarkerWork _)
  have hinterlocked := ((hfired.trans (keepsRoom_guardEndWork 11 _)).trans (keepsRoom_holdDeadlineWork 11 _)).trans
    (keepsRoom_fallRecordEndWork 11 _)
  exact (hinterlocked.trans (.foldl (fun t p => keepsRoom_lapseWork p t) _ _)).trans
    (.foldl (fun t p => keepsRoom_waitDeadlineWork p t) _ _)

theorem keepsRoom_settle (s : State) : KeepsRoom s (settle s) := by
  unfold settle
  split
  · exact .refl s
  · unfold settleWork
    refine KeepsRoom.trans ?_ (.foldl (fun t l => keepsRoom_edgeEventWork l t) _ _)
    split
    · exact keepsRoom_deadlineWork s
    · exact .refl s

theorem keepsRoom_declareLoss (s : State) : KeepsRoom s (declareLoss s) := by
  have hcleared : KeepsRoom s (s.withClock { s.clock with present := false }) := .of_ports rfl
  unfold declareLoss
  dsimp only
  split
  · exact KeepsRoom.done (hcleared.trans (keepsRoom_enterFault _))
  · exact hcleared

theorem keepsRoom_clockLostWork (s : State) : KeepsRoom s (clockLostWork s) := by
  unfold clockLostWork
  split
  · have hbefore : KeepsRoom s (workBeforeLoss s) :=
      ((keepsRoom_guardEndWork 11 s).trans (keepsRoom_fallRecordEndWork 11 _)).trans
        (.foldl (fun t p => keepsRoom_lapseWork p t) _ _)
    exact (hbefore.trans (.of_ports (State.withClock_ports _ _))).trans (keepsRoom_declareLoss _)
  · exact .refl s

theorem keepsRoom_withClock_withPins (s : State) (c : Clock) (pins : InputMask) :
    KeepsRoom s ((s.withClock c).withPins pins) := .of_ports rfl

theorem keepsRoom_tickArrival (s : State) : KeepsRoom s (tickArrival s) := .of_ports rfl

theorem keepsRoom_takeDueTick (s : State) : KeepsRoom s (takeDueTick s) := by
  unfold takeDueTick
  split
  · exact KeepsRoom.trans (.of_ports rfl) (keepsRoom_tickArrival _)
  · exact .refl s

theorem keepsRoom_settleMoment (s : State) : KeepsRoom s (settleMoment s) := by
  unfold settleMoment
  extract_lets t u
  have ht : KeepsRoom s t := keepsRoom_settle s
  have hu : KeepsRoom s u := by
    unfold u
    split
    · exact (ht.trans (keepsRoom_takeDueTick t)).trans (keepsRoom_settle _)
    · exact ht
  split
  · exact hu.trans (keepsRoom_declareLoss u)
  · exact hu

theorem keepsRoom_oscillatorPeriodWork (pins : InputMask) (s : State) : KeepsRoom s (oscillatorPeriodWork pins s) :=
  (keepsRoom_settleMoment s).trans (keepsRoom_withClock_withPins _ _ pins)

theorem keepsRoom_intTickWork (pins : InputMask) (s : State) : KeepsRoom s (intTickWork pins s) := by
  unfold intTickWork
  split
  · exact ((keepsRoom_settle s).trans (keepsRoom_withClock_withPins _ _ pins)).trans (keepsRoom_tickArrival _)
  · exact .refl s

theorem keepsRoom_tclkRiseWork (pins : InputMask) (s : State) : KeepsRoom s (tclkRiseWork pins s) := by
  unfold tclkRiseWork
  split
  · exact ((keepsRoom_settleMoment s).trans (keepsRoom_withClock_withPins _ _ pins)).trans (keepsRoom_tickArrival _)
  · exact .refl s

/-! ### The blocks that serve requests -/

/-- A block whose service leaves the room for its reply. -/
def Serve.KeepingRoom (serve : Serve) : Prop := ∀ p r body before s, KeepsRoom s (serve p r body before s).st

theorem keepingRoom_serveNone : Serve.KeepingRoom serveNone := fun _ _ _ _ s => .refl s

theorem keepingRoom_serveReadOutputs : Serve.KeepingRoom serveReadOutputs := fun p r body before s => by
  unfold serveReadOutputs; split <;> exact .refl s

theorem keepingRoom_servePairStatus : Serve.KeepingRoom servePairStatus := fun p r body before s => by
  unfold servePairStatus; split <;> exact .refl s

theorem keepingRoom_serveList : Serve.KeepingRoom serveList := fun p r body before s => by
  unfold serveList; split <;> exact .refl s

theorem keepingRoom_serveOwners : Serve.KeepingRoom serveOwners := fun p r body before s => by
  unfold serveOwners; split <;> exact .refl s

theorem keepingRoom_serveRenew : Serve.KeepingRoom serveRenew := fun p r body before s => by
  unfold serveRenew; split <;> exact .refl s

theorem keepingRoom_serveReadTime : Serve.KeepingRoom serveReadTime := fun p r body before s => by
  unfold serveReadTime; split <;> exact .refl s

theorem keepingRoom_serveReadInputs : Serve.KeepingRoom serveReadInputs := fun p r body before s => by
  unfold serveReadInputs; split <;> exact .refl s

theorem keepingRoom_serveConfigRead : Serve.KeepingRoom serveConfigRead := fun p r body before s => by
  unfold serveConfigRead; split <;> exact .refl s

theorem keepingRoom_serveQueryStep : Serve.KeepingRoom serveQueryStep := fun p r body before s => by
  unfold serveQueryStep
  iterate 2 (split; · exact .refl s)
  split <;> exact .refl s

theorem keepingRoom_serveStatus : Serve.KeepingRoom serveStatus := fun p r body before s => by
  unfold serveStatus
  split
  · exact .refl s
  · exact keepsRoom_of_queue rfl

theorem keepingRoom_serveOpen : Serve.KeepingRoom serveOpen := fun p r body before s => by
  unfold serveOpen
  split
  · exact .refl s
  · exact KeepsRoom.trans (.of_ports rfl) (keepsRoom_dropCache p _)

theorem keepingRoom_serveClose : Serve.KeepingRoom serveClose := fun p r body before s => by
  unfold serveClose
  split
  · exact .refl s
  split
  · exact keepsRoom_closeWork p s
  · exact .of_ports rfl

theorem keepingRoom_serveSubscribe : Serve.KeepingRoom serveSubscribe := fun p r body before s => by
  unfold serveSubscribe
  iterate 2 (split; · exact .refl s)
  exact .of_ports rfl

theorem keepingRoom_serveClearPending : Serve.KeepingRoom serveClearPending := fun p r body before s => by
  unfold serveClearPending
  split
  · exact .refl s
  · exact .of_ports rfl

theorem keepingRoom_serveClaim : Serve.KeepingRoom serveClaim := fun p r body before s => by
  unfold serveClaim
  iterate 6 (split; · exact .refl s)
  split
  · exact (ownersOnly_grantLines p _ s).keepsRoom
  split
  · unfold queueClaim
    split
    · exact .refl s
    · exact (ownersOnly_withClaim s p _).keepsRoom
  · exact .refl s

theorem keepingRoom_serveClaimWithdraw : Serve.KeepingRoom serveClaimWithdraw := fun p r body before s => by
  unfold serveClaimWithdraw
  iterate 3 (split; · exact .refl s)
  exact (ownersOnly_withClaim s p none).keepsRoom

theorem keepingRoom_serveRelease : Serve.KeepingRoom serveRelease := fun p r body before s => by
  unfold serveRelease
  iterate 4 (split; · exact .refl s)
  exact KeepsRoom.arbiterPass (keepsRoom_freeReleased p _ s)

theorem keepingRoom_servePlace : Serve.KeepingRoom servePlace := fun p r body before s => by
  unfold servePlace
  iterate 3 (split; · exact .refl s)
  exact keepsRoom_placeWork p _ s

theorem keepingRoom_serveCancel : Serve.KeepingRoom serveCancel := fun p r body before s => by
  unfold serveCancel
  iterate 3 (split; · exact .refl s)
  exact keepsRoom_freeSlots _ s

theorem keepingRoom_serveCancelAll : Serve.KeepingRoom serveCancelAll := fun p r body before s => by
  unfold serveCancelAll
  iterate 2 (split; · exact .refl s)
  exact keepsRoom_freeSlots _ s

theorem keepingRoom_serveAmend : Serve.KeepingRoom serveAmend := fun p r body before s => by
  unfold serveAmend
  iterate 6 (split; · exact .refl s)
  · split
    · exact keepsRoom_amendWork _ _ _ s
    · exact .refl s
  · exact keepsRoom_amendWork _ _ _ s

theorem keepingRoom_serveConfigWrite : Serve.KeepingRoom serveConfigWrite := fun p r body before s => by
  unfold serveConfigWrite
  iterate 3 (split; · exact .refl s)
  exact keepsRoom_writeRecord _ s

/-- The work left at NOW comes before the reply of SET_TIME, and its notices leave the reply its room. -/
theorem keepingRoom_serveSetTime : Serve.KeepingRoom serveSetTime := fun p r body before s => by
  unfold serveSetTime
  iterate 2 (split; · exact .refl s)
  exact (keepsRoom_settle s).trans (.of_ports rfl)

theorem keepingRoom_serveStart : Serve.KeepingRoom serveStart := fun p r body before s => by
  unfold serveStart
  iterate 3 (split; · exact .refl s)
  exact .of_ports rfl

theorem keepingRoom_serveStop : Serve.KeepingRoom serveStop := fun p r body before s => by
  unfold serveStop
  iterate 3 (split; · exact .refl s)
  exact keepsRoom_stopWork p s

theorem keepingRoom_serveClearFault : Serve.KeepingRoom serveClearFault := fun p r body before s => by
  unfold serveClearFault
  iterate 3 (split; · exact .refl s)
  exact .of_ports rfl

theorem keepingRoom_serveAny : Serve.KeepingRoom serveAny := fun p r body before s => by
  cases r with
  | status => exact keepingRoom_serveStatus p .status body before s
  | openSession => exact keepingRoom_serveOpen p .openSession body before s
  | closeSession => exact keepingRoom_serveClose p .closeSession body before s
  | renew => exact keepingRoom_serveRenew p .renew body before s
  | readTime => exact keepingRoom_serveReadTime p .readTime body before s
  | configWrite => exact keepingRoom_serveConfigWrite p .configWrite body before s
  | configRead => exact keepingRoom_serveConfigRead p .configRead body before s
  | setTime => exact keepingRoom_serveSetTime p .setTime body before s
  | start => exact keepingRoom_serveStart p .start body before s
  | stop => exact keepingRoom_serveStop p .stop body before s
  | clearFault => exact keepingRoom_serveClearFault p .clearFault body before s
  | claim => exact keepingRoom_serveClaim p .claim body before s
  | claimWithdraw => exact keepingRoom_serveClaimWithdraw p .claimWithdraw body before s
  | release => exact keepingRoom_serveRelease p .release body before s
  | owners => exact keepingRoom_serveOwners p .owners body before s
  | readOutputs => exact keepingRoom_serveReadOutputs p .readOutputs body before s
  | pairStatus => exact keepingRoom_servePairStatus p .pairStatus body before s
  | place => exact keepingRoom_servePlace p .place body before s
  | cancel => exact keepingRoom_serveCancel p .cancel body before s
  | cancelAll => exact keepingRoom_serveCancelAll p .cancelAll body before s
  | amend => exact keepingRoom_serveAmend p .amend body before s
  | list => exact keepingRoom_serveList p .list body before s
  | queryStep => exact keepingRoom_serveQueryStep p .queryStep body before s
  | subscribe => exact keepingRoom_serveSubscribe p .subscribe body before s
  | clearPending => exact keepingRoom_serveClearPending p .clearPending body before s
  | readInputs => exact keepingRoom_serveReadInputs p .readInputs body before s

/-! ### The answer takes the room -/

/-- An entry that is no notice joins a queue that has room for it (R174). -/
theorem QueueLaw.pushEntry {s : State} (law : QueueLaw s) {p : Port} (hroom : (s.port p).queue.length < 16) {e : Entry}
    (he : e.kind ≠ .notice) : QueueLaw (s.pushEntry p e) := fun q => by
  rw [State.pushEntry, State.port_withPort]
  split
  · have hcount : noticeCount ((s.port p).queue ++ [e]) = noticeCount (s.port p).queue := by
      simp [noticeCount, List.countP_append, he]
    have := (law p).2
    rw [List.length_append, List.length_singleton, hcount]
    omega
  · exact law q

theorem keepsRoom_answerOf {serve : Serve} (hserve : serve.KeepingRoom) (p : Port) (kind : Byte) (body : List Byte)
    (s : State) : KeepsRoom s (answerOf serve p kind body s).st := by
  have hrenew : KeepsRoom s (s.renew p) := keepsRoom_renew s p
  unfold answerOf
  iterate 3 (split; · exact hrenew)
  exact hrenew.trans (hserve _ _ _ _ _)

/-- The reply joins the queue before the notices of its request (R168). -/
theorem QueueLaw.answered {a : Answer} (law : QueueLaw a.st) {p : Port} (hroom : (a.st.port p).queue.length < 16)
    (kind tag crc : Byte) : QueueLaw (State.answered p kind tag crc a) := by
  have hcached : ∀ c, KeepsRoom a.st (a.st.withPort p { a.st.port p with cache := c }) := fun _ => keepsRoom_of_queue rfl
  unfold State.answered
  exact (keepsRoom_deliver _ _).queueLaw
    (QueueLaw.pushEntry ((hcached _).queueLaw law) ((hcached _).length_lt hroom) nofun)

/-- A frame is discarded where the queue is full, and otherwise brings the queue one reply (R169, R173, R174). -/
theorem QueueLaw.take {s : State} (law : QueueLaw s) {serve : Serve} (hserve : serve.KeepingRoom) (p : Port)
    (inbound : Inbound) : QueueLaw (s.take p inbound serve) := by
  have hoverrun : QueueLaw (s.withPort p { s.port p with overrun := true }) :=
    KeepsRoom.queueLaw (keepsRoom_of_queue (h := { s.port p with overrun := true }) rfl) law
  unfold State.take
  split
  · exact law
  · split
    · exact hoverrun
    next hroom => exact law.pushEntry (not_le.mp hroom) nofun
  next kind tag body crc =>
  split
  · exact hoverrun
  next hroom =>
  split
  · have hrenew := keepsRoom_renew s p
    exact (hrenew.queueLaw law).pushEntry (hrenew.length_lt (not_le.mp hroom)) nofun
  · have hanswer := keepsRoom_answerOf hserve p kind body s
    exact (hanswer.queueLaw law).answered (hanswer.length_lt (not_le.mp hroom)) kind tag crc

theorem QueueLaw.chipSelectRise {s : State} (law : QueueLaw s) {serve : Serve} (hserve : serve.KeepingRoom)
    (row : Inbound → Transfer → State → Bool) (p : Port) (mosi : List Byte) :
    QueueLaw (chipSelectRise row serve p mosi s) := by
  have hidle : QueueLaw (s.withPort p { s.port p with selected := false }) :=
    KeepsRoom.queueLaw (keepsRoom_of_queue (h := { s.port p with selected := false }) rfl) law
  unfold Machine.chipSelectRise
  iterate 2 (split; · exact hidle)
  dsimp only
  split
  · exact ((keepsRoom_fetchEnd s p _).queueLaw law).take hserve p _
  · exact law

/-! ### Commands -/

theorem keepsRoom_beginTransaction (p : Port) (s : State) : KeepsRoom s (beginTransaction p s) := by
  unfold beginTransaction
  split
  · exact .refl s
  · exact keepsRoom_of_queue rfl

theorem keepsRoom_clockCycle (p : Port) (bit : Bool) (s : State) : KeepsRoom s (clockCycle p bit s) := by
  unfold clockCycle
  split
  · exact .refl s
  · exact keepsRoom_of_queue rfl

/-- Reset empties every queue. -/
theorem queueLaw_enterReset (s : State) : QueueLaw (enterReset s) := fun p => by
  have hqueue : ((enterReset s).port p).queue = [] := by cases p <;> rfl
  simp [hqueue, noticeCount]

/-- Outside reset a command does its work, and while reset is held nothing. -/
theorem keepsRoom_unlessReset {f : State → State} (hf : ∀ s, KeepsRoom s (f s)) (s : State) :
    KeepsRoom s (if s.inReset then s else f s) := by
  split
  · exact .refl s
  · exact hf s

/-- Every command keeps the queue law, and always answers a next state. -/
theorem exec_queueLaw (c : Instr) {s : State} (law : QueueLaw s) : ∃ t, exec c s = .next t ∧ QueueLaw t := by
  cases c with
  | transactionBegin p => exact ⟨_, rfl, (keepsRoom_beginTransaction p s).queueLaw law⟩
  | nop p mosi => exact ⟨_, rfl, law.chipSelectRise keepingRoom_serveNone _ p mosi⟩
  | edgeSummary p mosi => exact ⟨_, rfl, law.chipSelectRise keepingRoom_serveAny _ p mosi⟩
  | eFrame p mosi => exact ⟨_, rfl, law.chipSelectRise keepingRoom_serveNone _ p mosi⟩
  | eKind p mosi => exact ⟨_, rfl, law.chipSelectRise keepingRoom_serveNone _ p mosi⟩
  | status p mosi => exact ⟨_, rfl, law.chipSelectRise keepingRoom_serveStatus _ p mosi⟩
  | openSession p mosi => exact ⟨_, rfl, law.chipSelectRise keepingRoom_serveOpen _ p mosi⟩
  | closeSession p mosi => exact ⟨_, rfl, law.chipSelectRise keepingRoom_serveClose _ p mosi⟩
  | renew p mosi => exact ⟨_, rfl, law.chipSelectRise keepingRoom_serveRenew _ p mosi⟩
  | readTime p mosi => exact ⟨_, rfl, law.chipSelectRise keepingRoom_serveReadTime _ p mosi⟩
  | configWriteTimebase p mosi => exact ⟨_, rfl, law.chipSelectRise keepingRoom_serveConfigWrite _ p mosi⟩
  | configWriteOutputLine p mosi => exact ⟨_, rfl, law.chipSelectRise keepingRoom_serveConfigWrite _ p mosi⟩
  | configWriteInputLine p mosi => exact ⟨_, rfl, law.chipSelectRise keepingRoom_serveConfigWrite _ p mosi⟩
  | configWritePair p mosi => exact ⟨_, rfl, law.chipSelectRise keepingRoom_serveConfigWrite _ p mosi⟩
  | configWriteQuota p mosi => exact ⟨_, rfl, law.chipSelectRise keepingRoom_serveConfigWrite _ p mosi⟩
  | configWriteArbiter p mosi => exact ⟨_, rfl, law.chipSelectRise keepingRoom_serveConfigWrite _ p mosi⟩
  | configRead p mosi => exact ⟨_, rfl, law.chipSelectRise keepingRoom_serveConfigRead _ p mosi⟩
  | setTime p mosi => exact ⟨_, rfl, law.chipSelectRise keepingRoom_serveSetTime _ p mosi⟩
  | start p mosi => exact ⟨_, rfl, law.chipSelectRise keepingRoom_serveStart _ p mosi⟩
  | stop p mosi => exact ⟨_, rfl, law.chipSelectRise keepingRoom_serveStop _ p mosi⟩
  | clearFault p mosi => exact ⟨_, rfl, law.chipSelectRise keepingRoom_serveClearFault _ p mosi⟩
  | claim p mosi => exact ⟨_, rfl, law.chipSelectRise keepingRoom_serveClaim _ p mosi⟩
  | claimWithdraw p mosi => exact ⟨_, rfl, law.chipSelectRise keepingRoom_serveClaimWithdraw _ p mosi⟩
  | release p mosi => exact ⟨_, rfl, law.chipSelectRise keepingRoom_serveRelease _ p mosi⟩
  | owners p mosi => exact ⟨_, rfl, law.chipSelectRise keepingRoom_serveOwners _ p mosi⟩
  | readOutputs p mosi => exact ⟨_, rfl, law.chipSelectRise keepingRoom_serveReadOutputs _ p mosi⟩
  | pairStatus p mosi => exact ⟨_, rfl, law.chipSelectRise keepingRoom_servePairStatus _ p mosi⟩
  | place p mosi => exact ⟨_, rfl, law.chipSelectRise keepingRoom_servePlace _ p mosi⟩
  | cancel p mosi => exact ⟨_, rfl, law.chipSelectRise keepingRoom_serveCancel _ p mosi⟩
  | cancelAll p mosi => exact ⟨_, rfl, law.chipSelectRise keepingRoom_serveCancelAll _ p mosi⟩
  | amend p mosi => exact ⟨_, rfl, law.chipSelectRise keepingRoom_serveAmend _ p mosi⟩
  | list p mosi => exact ⟨_, rfl, law.chipSelectRise keepingRoom_serveList _ p mosi⟩
  | queryStep p mosi => exact ⟨_, rfl, law.chipSelectRise keepingRoom_serveQueryStep _ p mosi⟩
  | subscribe p mosi => exact ⟨_, rfl, law.chipSelectRise keepingRoom_serveSubscribe _ p mosi⟩
  | clearPending p mosi => exact ⟨_, rfl, law.chipSelectRise keepingRoom_serveClearPending _ p mosi⟩
  | readInputs p mosi => exact ⟨_, rfl, law.chipSelectRise keepingRoom_serveReadInputs _ p mosi⟩
  | reset => exact ⟨_, rfl, queueLaw_enterReset s⟩
  | intTick pins => exact ⟨_, rfl, (keepsRoom_unlessReset (keepsRoom_intTickWork pins) s).queueLaw law⟩
  | tclkRise pins => exact ⟨_, rfl, (keepsRoom_unlessReset (keepsRoom_tclkRiseWork pins) s).queueLaw law⟩
  | clockLost => exact ⟨_, rfl, (keepsRoom_unlessReset keepsRoom_clockLostWork s).queueLaw law⟩
  | bankFiring k => exact ⟨_, rfl, (keepsRoom_atTick (keepsRoom_bankFiringWork k) s).queueLaw law⟩
  | windowEnd => exact ⟨_, rfl, (keepsRoom_atTick keepsRoom_windowEndWork s).queueLaw law⟩
  | reachedMarker => exact ⟨_, rfl, (keepsRoom_atTick keepsRoom_reachedMarkerWork s).queueLaw law⟩
  | edgeEvent l => exact ⟨_, rfl, (keepsRoom_unlessReset (keepsRoom_edgeEventWork l) s).queueLaw law⟩
  | guardEnd k => exact ⟨_, rfl, (keepsRoom_atTick (keepsRoom_guardEndWork k) s).queueLaw law⟩
  | fallRecordEnd k => exact ⟨_, rfl, (keepsRoom_atTick (keepsRoom_fallRecordEndWork k) s).queueLaw law⟩
  | holdDeadline k => exact ⟨_, rfl, (keepsRoom_atTick (keepsRoom_holdDeadlineWork k) s).queueLaw law⟩
  | waitDeadline p => exact ⟨_, rfl, (keepsRoom_atTick (keepsRoom_waitDeadlineWork p) s).queueLaw law⟩
  | lapse p => exact ⟨_, rfl, (keepsRoom_atTick (keepsRoom_lapseWork p) s).queueLaw law⟩
  | spiClockCycle p bit => exact ⟨_, rfl, (keepsRoom_unlessReset (keepsRoom_clockCycle p bit) s).queueLaw law⟩
  | oscillatorPeriod pins => exact ⟨_, rfl, (keepsRoom_unlessReset (keepsRoom_oscillatorPeriodWork pins) s).queueLaw law⟩
  | resetEnd => exact ⟨_, rfl, law⟩

/-- Settles O52: all work keeps the room of a reply, and a rise of chip select fills it with one reply at most. -/
theorem everyStepKeepsTheQueueLaw : Obligations.EveryStepKeepsTheQueueLaw := by
  intro s t law hstep
  unfold step at hstep
  split at hstep
  · cases hstep; exact law
  · next c rest _ =>
    have hqueue : QueueLaw { s with pending := rest } := law
    obtain ⟨u, hu, hkept⟩ := exec_queueLaw c hqueue
    cases hu.symm.trans hstep
    exact hkept

end Sys2Proof.Machine
end
